-- ==== Sys2Proof/Word.lean ====
section
/-! DEFINITION. Sys2Proof/Word.lean: the word types of the W1 and the numbers of its registers (spec 00 R8, 01 R18, 03 R70). -/

namespace Sys2Proof

/-- A 64-bit scalar register, address or doubleword. -/
abbrev Word := BitVec 64

/-- One byte of memory. -/
abbrev Byte := BitVec 8

/-- Number of a scalar register s0 to s31 (R18). -/
abbrev SReg := Fin 32

/-- Number of a vector register v0 to v63 (R18). -/
abbrev VReg := Fin 64

/-- Number of a mask register k0 to k7 (R18). -/
abbrev KReg := Fin 8

/-- Number of a Dungen chunk register c0 to c15 (15 R363). -/
abbrev CReg := Fin 16

end Sys2Proof
end

