-- ==== Sys2Proof/Machine/Map.lean ====
section
/-! DEFINITION. Sys2Proof/Machine/Map.lean: sparse tables from natural numbers, in one canonical form: keys strictly rising, and no entry equal to what an unlisted key reads as. Memory, the register files and every table of the device are such tables. -/

namespace Sys2Proof

/-- A sparse table: a list of (key, value) pairs. -/
abbrev SMap (β : Type) := List (Nat × β)

/-- What a table holds at a key; d is what an unlisted key reads as. -/
def SMap.get {β : Type} (d : β) : SMap β → Nat → β
  | [], _ => d
  | (a, b) :: m, k => if a = k then b else SMap.get d m k

/-- The table without a key. -/
def SMap.erase {β : Type} : SMap β → Nat → SMap β
  | [], _ => []
  | (a, b) :: m, k => if a = k then SMap.erase m k else (a, b) :: SMap.erase m k

/-- The table with an entry put before the first greater key. -/
def SMap.insert {β : Type} : SMap β → Nat → β → SMap β
  | [], k, v => [(k, v)]
  | (a, b) :: m, k, v => if k < a then (k, v) :: (a, b) :: m else (a, b) :: SMap.insert m k v

/-- The table with v at k, in canonical form: writing what an unlisted key reads as removes the entry. -/
def SMap.put {β : Type} [DecidableEq β] (d : β) (m : SMap β) (k : Nat) (v : β) : SMap β :=
  if v = d then m.erase k else (m.erase k).insert k v

/-- Canonical form: keys strictly rising from lo, no entry equal to d. -/
def SMap.wfFrom {β : Type} [DecidableEq β] (d : β) : Nat → SMap β → Bool
  | _, [] => true
  | lo, (a, b) :: m => decide (lo ≤ a) && decide (b ≠ d) && SMap.wfFrom d (a + 1) m

/-- Canonical form of a whole table. -/
def SMap.wf {β : Type} [DecidableEq β] (d : β) (m : SMap β) : Bool := SMap.wfFrom d 0 m

/-- The table without the keys lo ≤ k < hi. -/
def SMap.clear {β : Type} (m : SMap β) (lo hi : Nat) : SMap β :=
  m.filter fun e => decide (e.1 < lo) || decide (hi ≤ e.1)

/-- Bits [lo + n - 1 : lo] of a natural number. -/
def bitsOf (x lo n : Nat) : Nat := x / 2 ^ lo % 2 ^ n

/-- Little-endian value of a list of bytes (00 R8). -/
def leValue : List Byte → Nat
  | [] => 0
  | b :: bs => b.toNat + 256 * leValue bs

/-- The n low bytes of a value, the lowest first (00 R8). -/
def leBytes : Nat → Nat → List Byte
  | 0, _ => []
  | n + 1, x => BitVec.ofNat 8 x :: leBytes n (x / 256)

/-- A value's low n bits read as a two's-complement integer. -/
def signedOf (n x : Nat) : Int :=
  let y := x % 2 ^ n
  if 2 * y < 2 ^ n then (y : Int) else (y : Int) - (2 ^ n : Nat)

/-- An integer modulo 2^n. -/
def wrapOf (n : Nat) (x : Int) : Nat := (x % ((2 ^ n : Nat) : Int)).toNat

/-- The place of the first element that meets p. -/
def findPos {α : Type} (p : α → Bool) : List α → Option Nat
  | [] => none
  | a :: l => if p a then some 0 else (findPos p l).map (· + 1)

/-- The list with the element at place i changed. -/
def modAt {α : Type} (f : α → α) : List α → Nat → List α
  | [], _ => []
  | a :: l, 0 => f a :: l
  | a :: l, i + 1 => a :: modAt f l i

/-- The list without the element at place i. -/
def dropAt {α : Type} : List α → Nat → List α
  | [], _ => []
  | _ :: l, 0 => l
  | a :: l, i + 1 => a :: dropAt l i

end Sys2Proof
end

