-- ==== Sys2Proof/Syntax.lean ====
section
/-! DEFINITION. Sys2Proof/Syntax.lean: the instructions of a hart, the Dungen instructions and the moves of the machine: one constructor of Instr for every row of spec/opcode_table.json. Register numbers, formats and codes are decoded here once (03 R73 to R86, 15 R363); the rows of the table that have no encoding are the moves and events of the machine (05, 13, 14, 15, 17, 18). -/

namespace Sys2Proof

/-- Rounding-mode field rm, codes 000 to 111 in this order (03 R93). -/
inductive Rm where
  | rne | rtz | rdn | rup | rna | rsr | rod | dyn
  deriving DecidableEq, Repr

/-- Tangent mode tm (01 R46); code 11 is reserved and does not decode. -/
inductive Tm where
  | prop | tstop | vonly
  deriving DecidableEq, Repr

/-- Element and memory formats, codes 0x00 to 0x14 in this order (01 R29, 03 R93, 08 R205 to R209). -/
inductive Fmt where
  | f32 | bf16 | f16 | e5m2 | e4m3 | e3m2 | e2m3 | e2m1 | i16 | i8 | n8 | i4 | n4 | ds8 | ds4 | tr2
  | i32 | n32 | i64 | e8m0 | f64
  deriving DecidableEq, Repr

/-- Scope codes 0 to 4 (03 R76, 05 R134). -/
inductive Scope where
  | core | clu | die | dev | dom
  deriving DecidableEq, Repr

/-- Order codes 00 to 11: plain, acquire, release, SC (03 R76, R86). -/
inductive Order where
  | plain | acq | rel | sc
  deriving DecidableEq, Repr

/-- Conditions of WAITV and of the Dungen WAIT (03 R75, 15 R363). -/
inductive Cond where
  | eq | ne | lt | ge | ltu | geu
  deriving DecidableEq, Repr

/-- Conditions of the Dungen BR: always, or a comparison (15 R363). -/
inductive BrCond where
  | always | cmp (c : Cond)
  deriving DecidableEq, Repr

/-- The assigned control and status registers (03 R78). -/
inductive Csr where
  | vl | vtype | vcfg | eidx | vlmax | fctl | fflags | srseed | srseq | tseedv | tbase | lscale | lpart | cdens
  | cgroup | cops | cstride | ctag | lidx (n : Fin 6) | stepno | capbase
  | tvec | tcause | tpc | teidx | tval | tstatus | ptbase | partid | twin | tshort | rwin
  deriving DecidableEq, Repr

/-- Governing mask k and its zeroing bit kz (03 R84, R93). -/
structure Ctl where
  k : KReg
  kz : Bool
  deriving DecidableEq, Repr

/-- The vb operand: a register, or with sx = 1 the broadcast of a scalar register (03 R84, 09 R233). -/
inductive VB where
  | reg (v : VReg) | scalar (s : SReg)
  deriving DecidableEq, Repr

/-- Row operand of a matrix instruction: the row immediate with srow = s0, or a scalar register (10 R272). -/
inductive Row where
  | imm (i : Fin 64) | reg (s : SReg)
  deriving DecidableEq, Repr

/-- Destination of a drain: a vector register (plane 0) or memory (plane 31) at a scalar register (10 R276). -/
inductive MDest where
  | vec (v : VReg) | mem (s : SReg)
  deriving DecidableEq, Repr

/-- Target of QBIND: a pipe stream 0 to 11, a copy channel, or none (03 R79). -/
inductive QTarget where
  | stream (n : Fin 12) | chan (n : Fin 16) | none
  deriving DecidableEq, Repr

/-- Distribution of a direction generator (03 R85, 10 R265). -/
inductive Dist where
  | rad | n12
  deriving DecidableEq, Repr

/-- Combining operation of a REDUCE, of COPS and of VCRED (14 R335, 15 R363). -/
inductive RedOp where
  | sum | max | min
  deriving DecidableEq, Repr

/-- Kinds of Tihal packets, codes 0 to 7 in this order (14 R318). -/
inductive PKind where
  | write | ring | shortfall | fail | contribution | result | readReq | readResp
  deriving DecidableEq, Repr

/-- A Tihal packet with the header fields of 14 R318. expect, flagVal and the strip fields travel in the payload of
the kinds that use them (14 R324, R337, 15 R355). addr holds the flag address of a ring and the window offset of a
contribution or result. -/
structure Packet where
  dst : Nat
  src : Nat
  kind : PKind
  slot : Nat := 0
  gen : Bool := false
  phase : Nat := 0
  addr : Nat := 0
  data : List Byte := []
  /-- bit i: word i of the payload is poisoned (18 R406) -/
  poison : Nat := 0
  /-- E of a ring (14 R324); length of a remote read (14 R318) -/
  expect : Nat := 0
  flagVal : Word := 0
  /-- group, tag and rank of a contribution, a result or a strip (14 R337, 15 R354) -/
  group : Nat := 0
  tag : Nat := 0
  rank : Nat := 0
  /-- loss-scale epoch of a contribution (14 R339) -/
  epoch : Nat := 0
  /-- COPS of a contribution or strip: operation, format and mode (14 R335) -/
  ops : Nat := 0
  /-- CSTRIDE.CHUNK of a contribution or strip (14 R335) -/
  chunk : Nat := 0
  /-- stream register plus 1 (0: no strip), strip sequence number, chunk index and strip elements (15 R354, R357); seqn
  is also the number of a remote read, and index is 1 in a notice that goes to the sender of a slot -/
  freg : Nat := 0
  seqn : Nat := 0
  index : Nat := 0
  elems : Nat := 0
  deriving DecidableEq, Repr

/-- What an INJECT move sends: the head of a hart's stream, the pending ring at a place, or an engine's next packet
(05 R152, R153, 14 R322). -/
inductive InjSrc where
  | stream (hart stream : Nat) | ring (i : Nat) | engine (e : Nat)
  deriving DecidableEq, Repr

/-- A register of the introspection window that has no behaviour of its own (17 R382, R385, R390, 13 R309, 18 R404). -/
inductive WinReg where
  | scctl (die : Nat) | cbarea (die : Nat) | pwrlim | wdcause | attdone
  | clus (p : Nat) | belllo (p : Nat) | egress (p : Nat) | gtab (p : Nat) | htab (p : Nat) | shpool (p : Nat)
  | ctxpool (p : Nat) | own (p : Nat) (word : Nat)
  deriving DecidableEq, Repr

/-- Who makes a window write (17 R373, R392). -/
inductive Writer where
  | supervisor (part : Nat) | firmware
  deriving DecidableEq, Repr

/-- Storage that the supervisor power-gates (01 R54). -/
inductive Gated where
  | segment (core lane seg : Nat) | bank (cluster bank : Nat)
  deriving DecidableEq, Repr

/-- What a boot finds: whether the boot source answered, and the image header and body (17 R386). -/
structure BootImage where
  fetched : Bool
  header : List Byte
  body : List Byte
  deriving DecidableEq, Repr

/-- One constructor for each row of spec/opcode_table.json. -/
inductive Instr where
  -- ALU, major 0x01 (04 R103)
  | add (d a b : SReg)
  | sub (d a b : SReg)
  | and (d a b : SReg)
  | or (d a b : SReg)
  | xor (d a b : SReg)
  | sll (d a b : SReg)
  | srl (d a b : SReg)
  | sra (d a b : SReg)
  | slt (d a b : SReg)
  | sltu (d a b : SReg)
  | mul (d a b : SReg)
  | mulh (d a b : SReg)
  | mulhu (d a b : SReg)
  | div (d a b : SReg)
  | divu (d a b : SReg)
  | rem (d a b : SReg)
  | remu (d a b : SReg)
  | min (d a b : SReg)
  | max (d a b : SReg)
  | minu (d a b : SReg)
  | maxu (d a b : SReg)
  | clz (d a : SReg)
  | ctz (d a : SReg)
  | popc (d a : SReg)
  | andn (d a b : SReg)
  -- IMM, major 0x02 (04 R104); LUI, AUIPC (04 R105)
  | addi (d a : SReg) (imm : BitVec 12)
  | andi (d a : SReg) (imm : BitVec 12)
  | ori (d a : SReg) (imm : BitVec 12)
  | xori (d a : SReg) (imm : BitVec 12)
  | slti (d a : SReg) (imm : BitVec 12)
  | sltiu (d a : SReg) (imm : BitVec 12)
  | slli (d a : SReg) (sh : BitVec 6)
  | srli (d a : SReg) (sh : BitVec 6)
  | srai (d a : SReg) (sh : BitVec 6)
  | lui (d : SReg) (imm : BitVec 20)
  | auipc (d : SReg) (imm : BitVec 20)
  -- FALU, major 0x06 (04 R106 to R110); dp is funct10[9], the f64 precision
  | fadd (dp : Bool) (rm : Rm) (d a b : SReg)
  | fsub (dp : Bool) (rm : Rm) (d a b : SReg)
  | fmul (dp : Bool) (rm : Rm) (d a b : SReg)
  | fdiv (dp : Bool) (rm : Rm) (d a b : SReg)
  | fsqrt (dp : Bool) (rm : Rm) (d a : SReg)
  | fmin (dp : Bool) (d a b : SReg)
  | fmax (dp : Bool) (d a b : SReg)
  | fmadd (dp : Bool) (rm : Rm) (d a b : SReg)
  | feq (dp : Bool) (d a b : SReg)
  | flt (dp : Bool) (d a b : SReg)
  | fle (dp : Bool) (d a b : SReg)
  | fcvtfi (dp : Bool) (rm : Rm) (d a : SReg)
  | fcvtif (dp : Bool) (rm : Rm) (d a : SReg)
  | fcvtff (dp : Bool) (rm : Rm) (d a : SReg)
  -- BRANCH, BSUB, JAL, JALR (04 R111 to R113)
  | beq (a b : SReg) (off : BitVec 12)
  | bne (a b : SReg) (off : BitVec 12)
  | blt (a b : SReg) (off : BitVec 12)
  | bge (a b : SReg) (off : BitVec 12)
  | bltu (a b : SReg) (off : BitVec 12)
  | bgeu (a b : SReg) (off : BitVec 12)
  | bsubnz (a b : SReg) (off : BitVec 12)
  | bsubgt (a b : SReg) (off : BitVec 12)
  | jal (d : SReg) (off : BitVec 20)
  | jalr (d a : SReg) (imm : BitVec 12)
  -- LOAD, STORE (06 R157)
  | lb (d a : SReg) (off : BitVec 12)
  | lh (d a : SReg) (off : BitVec 12)
  | lw (d a : SReg) (off : BitVec 12)
  | ld (d a : SReg) (off : BitVec 12)
  | lbn (d a : SReg) (off : BitVec 12)
  | lhn (d a : SReg) (off : BitVec 12)
  | lwn (d a : SReg) (off : BitVec 12)
  | sb (b a : SReg) (off : BitVec 12)
  | sh (b a : SReg) (off : BitVec 12)
  | sw (b a : SReg) (off : BitVec 12)
  | sd (b a : SReg) (off : BitVec 12)
  -- AMO, major 0x10 (06 R161 to R163)
  | amoswp (sc : Scope) (o : Order) (d a b : SReg)
  | amoadd (sc : Scope) (o : Order) (d a b : SReg)
  | amoand (sc : Scope) (o : Order) (d a b : SReg)
  | amoor (sc : Scope) (o : Order) (d a b : SReg)
  | amoxor (sc : Scope) (o : Order) (d a b : SReg)
  | amomin (sc : Scope) (o : Order) (d a b : SReg)
  | amomax (sc : Scope) (o : Order) (d a b : SReg)
  | amominu (sc : Scope) (o : Order) (d a b : SReg)
  | amomaxu (sc : Scope) (o : Order) (d a b : SReg)
  | amocas (sc : Scope) (o : Order) (d a b : SReg)
  | amofadd (sc : Scope) (o : Order) (d a b : SReg)
  | ldo (sc : Scope) (o : Order) (d a : SReg)
  | sto (sc : Scope) (o : Order) (a b : SReg)
  -- FENCE and SBAR, major 0x11 (05 R142 to R145); WAITV (06 R164)
  | fence (sc : Scope) (acq rel : Bool)
  | sbar (a : SReg)
  | waitv (cond : Cond) (d a b : SReg)
  -- CSR, major 0x14 (04 R115)
  | csrr (d : SReg) (csr : Csr)
  | csrw (d : SReg) (csr : Csr) (a : SReg)
  | csrs (d : SReg) (csr : Csr) (a : SReg)
  | csrc (d : SReg) (csr : Csr) (a : SReg)
  -- VCONF, VSETVL, VSETVLX, CONVOY, LOOP, LOOPN (04 R117, R118, R121, 03 R82)
  | vconf (nrc : BitVec 3) (sreq : BitVec 5)
  | vsetvl (d a b : SReg) (vt : BitVec 9)
  | vsetvlx (d a b x : SReg)
  | convoy (count : BitVec 3) (units : BitVec 18)
  | loop (a : SReg) (len : BitVec 6)
  | loopn (a : SReg) (len : BitVec 6)
  -- SCHED (15 R346)
  | launch (d a : SReg)
  | ksend (a : SReg)
  | kwait (a : SReg)
  | kstat (d a : SReg)
  -- COPY (06 R188, R190, R194, R197); QOP (06 R184, R185)
  | cpy (ch : Fin 16) (d a : SReg)
  | cnest (ch : Fin 16) (a : SReg)
  | cdrain (ch : Fin 16)
  | shadow (a : SReg)
  | publish (a : SReg)
  | qpush (q : Fin 8) (a : SReg)
  | qpop (d : SReg) (q : Fin 8)
  | qbind (q : Fin 8) (t : QTarget)
  -- DGN (15 R359 to R362), PRIV (15 R347 to R349), BELL (15 R350 to R354)
  | dgload (e : Fin 4) (a : SReg)
  | dgstart (e : Fin 4) (a : SReg)
  | dgstop (e : Fin 4)
  | dgstat (d : SReg) (e : Fin 4)
  | tsync (d a : SReg)
  | cask (a : SReg)
  | pgpin (a : SReg)
  | bella (d a : SReg)
  | bellf (a : SReg)
  | bellring (a b d : SReg)
  | bellq (d a : SReg)
  -- VFP (09 R238)
  | vfadd (vd va : VReg) (vb : VB) (rm : Rm) (tm : Tm) (c : Ctl)
  | vfsub (vd va : VReg) (vb : VB) (rm : Rm) (tm : Tm) (c : Ctl)
  | vfmul (vd va : VReg) (vb : VB) (rm : Rm) (tm : Tm) (c : Ctl)
  | vfdiv (vd va : VReg) (vb : VB) (rm : Rm) (tm : Tm) (c : Ctl)
  | vfma (vd va : VReg) (vb : VB) (vc : VReg) (rm : Rm) (tm : Tm) (c : Ctl)
  | vfms (vd va : VReg) (vb : VB) (vc : VReg) (rm : Rm) (tm : Tm) (c : Ctl)
  | vfnma (vd va : VReg) (vb : VB) (vc : VReg) (rm : Rm) (tm : Tm) (c : Ctl)
  | vfsqrt (vd va : VReg) (rm : Rm) (tm : Tm) (c : Ctl)
  | vfmin (vd va : VReg) (vb : VB) (tm : Tm) (c : Ctl)
  | vfmax (vd va : VReg) (vb : VB) (tm : Tm) (c : Ctl)
  | vfabs (vd va : VReg) (tm : Tm) (c : Ctl)
  | vfneg (vd va : VReg) (tm : Tm) (c : Ctl)
  | vfcps (vd va : VReg) (vb : VB) (tm : Tm) (c : Ctl)
  -- VINT (09 R241)
  | vadd (vd va : VReg) (vb : VB) (tm : Tm) (c : Ctl)
  | vsub (vd va : VReg) (vb : VB) (tm : Tm) (c : Ctl)
  | vmul (vd va : VReg) (vb : VB) (tm : Tm) (c : Ctl)
  | vmulh (vd va : VReg) (vb : VB) (tm : Tm) (c : Ctl)
  | vmulhu (vd va : VReg) (vb : VB) (tm : Tm) (c : Ctl)
  | vand (vd va : VReg) (vb : VB) (tm : Tm) (c : Ctl)
  | vor (vd va : VReg) (vb : VB) (tm : Tm) (c : Ctl)
  | vxor (vd va : VReg) (vb : VB) (tm : Tm) (c : Ctl)
  | vsll (vd va : VReg) (vb : VB) (tm : Tm) (c : Ctl)
  | vsrl (vd va : VReg) (vb : VB) (tm : Tm) (c : Ctl)
  | vsra (vd va : VReg) (vb : VB) (tm : Tm) (c : Ctl)
  | vmin (vd va : VReg) (vb : VB) (tm : Tm) (c : Ctl)
  | vmax (vd va : VReg) (vb : VB) (tm : Tm) (c : Ctl)
  | vminu (vd va : VReg) (vb : VB) (tm : Tm) (c : Ctl)
  | vmaxu (vd va : VReg) (vb : VB) (tm : Tm) (c : Ctl)
  | vsadd (vd va : VReg) (vb : VB) (tm : Tm) (c : Ctl)
  | vssub (vd va : VReg) (vb : VB) (tm : Tm) (c : Ctl)
  -- VCMP (09 R243 to R245)
  | vfeq (kd : KReg) (va : VReg) (vb : VB) (c : Ctl)
  | vflt (kd : KReg) (va : VReg) (vb : VB) (c : Ctl)
  | vfle (kd : KReg) (va : VReg) (vb : VB) (c : Ctl)
  | vfne (kd : KReg) (va : VReg) (vb : VB) (c : Ctl)
  | vieq (kd : KReg) (va : VReg) (vb : VB) (c : Ctl)
  | vilt (kd : KReg) (va : VReg) (vb : VB) (c : Ctl)
  | viltu (kd : KReg) (va : VReg) (vb : VB) (c : Ctl)
  | vile (kd : KReg) (va : VReg) (vb : VB) (c : Ctl)
  | kand (kd ka kb : KReg) (c : Ctl)
  | kor (kd ka kb : KReg) (c : Ctl)
  | kxor (kd ka kb : KReg) (c : Ctl)
  | kandn (kd ka kb : KReg) (c : Ctl)
  | knot (kd ka : KReg) (c : Ctl)
  | kpop (sd : SReg) (ka : KReg) (c : Ctl)
  | kfirst (sd : SReg) (ka : KReg) (c : Ctl)
  -- VSFU (09 R246)
  | vexp (vd va : VReg) (rm : Rm) (tm : Tm) (c : Ctl)
  | vlog (vd va : VReg) (rm : Rm) (tm : Tm) (c : Ctl)
  | vtanh (vd va : VReg) (rm : Rm) (tm : Tm) (c : Ctl)
  | vsigm (vd va : VReg) (rm : Rm) (tm : Tm) (c : Ctl)
  | vrcp (vd va : VReg) (rm : Rm) (tm : Tm) (c : Ctl)
  | vrsq (vd va : VReg) (rm : Rm) (tm : Tm) (c : Ctl)
  | vrelu (vd va : VReg) (rm : Rm) (tm : Tm) (c : Ctl)
  | vsilu (vd va : VReg) (rm : Rm) (tm : Tm) (c : Ctl)
  -- VCVT (09 R248 to R252); b32 is the block length 32
  | vcvt (src : Fmt) (sat : Bool) (vd va : VReg) (rm : Rm) (tm : Tm) (c : Ctl)
  | vqblk (fmt : Fmt) (sat b32 : Bool) (vd va vb : VReg) (rm : Rm) (tm : Tm) (c : Ctl)
  | vdqblk (fmt : Fmt) (b32 : Bool) (vd va vb : VReg) (rm : Rm) (tm : Tm) (c : Ctl)
  | vcvti (src : Fmt) (vd va : VReg) (rm : Rm) (tm : Tm) (c : Ctl)
  -- VMOV (09 R253 to R260)
  | vmv (vd va : VReg) (tm : Tm) (c : Ctl)
  | vsplat (vd : VReg) (ss : SReg) (tm : Tm) (c : Ctl)
  | vext (sd : SReg) (va : VReg) (si : SReg) (c : Ctl)
  | vins (vd : VReg) (ss si : SReg) (tm : Tm) (c : Ctl)
  | viota (vd : VReg) (c : Ctl)
  | vmerge (vd va : VReg) (vb : VB) (tm : Tm) (c : Ctl)
  | vpin (vd : VReg) (c : Ctl)
  | vunpin (vd : VReg) (c : Ctl)
  | lwait (vd : VReg) (c : Ctl)
  -- VPERM (10 R277, R278); the amount is ss when ss is not s0, otherwise imm
  | vslup (vd va : VReg) (ss : SReg) (imm : BitVec 11) (sf : SReg) (tm : Tm) (c : Ctl)
  | vsldn (vd va : VReg) (ss : SReg) (imm : BitVec 11) (sf : SReg) (tm : Tm) (c : Ctl)
  | vrgath (vd va vb : VReg) (tm : Tm) (c : Ctl)
  | vcompr (vd va : VReg) (tm : Tm) (c : Ctl)
  -- VRED (10 R279, R280)
  | vfredo (vd va vb : VReg) (rm : Rm) (tm : Tm) (c : Ctl)
  | vfredu (vd va vb : VReg) (rm : Rm) (tm : Tm) (c : Ctl)
  | vfrmax (vd va vb : VReg) (rm : Rm) (tm : Tm) (c : Ctl)
  | vfrmin (vd va vb : VReg) (rm : Rm) (tm : Tm) (c : Ctl)
  | vireds (vd va vb : VReg) (rm : Rm) (tm : Tm) (c : Ctl)
  | vscan (vd va : VReg) (rm : Rm) (tm : Tm) (c : Ctl)
  | vscanf (vd va : VReg) (rm : Rm) (tm : Tm) (c : Ctl)
  -- TANG (10 R264 to R268)
  | tseed (dist : Dist) (vd : VReg) (c : Ctl)
  | tzero (vd : VReg) (c : Ctl)
  | tget (vd va : VReg) (c : Ctl)
  | tput (vd va : VReg) (c : Ctl)
  | tregen (dist : Dist) (vd : VReg) (c : Ctl)
  | tfga (dist : Dist) (vd va : VReg) (rm : Rm) (c : Ctl)
  | tscl (vd : VReg) (ss : SReg) (rm : Rm) (c : Ctl)
  -- MTX (10 R270 to R276)
  | mcfg (w : Fin 4) (sr : SReg)
  | mtset (w : Fin 4) (row : Row) (va : VReg) (plane : BitVec 5)
  | mrow (a : Fin 4) (row : Row) (w : Fin 4) (va : VReg)
  | mrowd (a : Fin 4) (row : Row) (w : Fin 4) (va : VReg) (plane : BitVec 5)
  | mdrain (dst : MDest) (a : Fin 4) (row : Row) (rm : Rm)
  | mdraint (dst : MDest) (a : Fin 4) (row : Row) (rm : Rm)
  | maclr (a : Fin 4)
  | mtscl (w : Fin 4) (row : Row) (va : VReg)
  -- VLD and VST (06 R165 to R176)
  | vld (fmt : Fmt) (plane : BitVec 5) (o : Order) (vd : VReg) (sb : SReg) (off : BitVec 10) (c : Ctl)
  | vlds (fmt : Fmt) (plane : BitVec 5) (o : Order) (vd : VReg) (sb ss : SReg) (off : BitVec 10) (c : Ctl)
  | vldx (fmt : Fmt) (plane : BitVec 5) (o : Order) (vd : VReg) (sb : SReg) (off : BitVec 10) (vi : VReg) (c : Ctl)
  | vslr (fmt : Fmt) (plane : BitVec 5) (o : Order) (vd : VReg) (sb ss : SReg) (off : BitVec 10) (c : Ctl)
  | mtld (fmt : Fmt) (w : Fin 4) (sb ss : SReg) (off : BitVec 10) (c : Ctl)
  | vst (fmt : Fmt) (plane : BitVec 5) (o : Order) (sat : Bool) (vs : VReg) (sb : SReg) (off : BitVec 10) (k : KReg)
  | vsts (fmt : Fmt) (plane : BitVec 5) (o : Order) (sat : Bool) (vs : VReg) (sb ss : SReg) (off : BitVec 10) (k : KReg)
  | vstx (fmt : Fmt) (plane : BitVec 5) (o : Order) (sat : Bool) (vs : VReg) (sb : SReg) (off : BitVec 10) (vi : VReg) (k : KReg)
  | vstxa (fmt : Fmt) (plane : BitVec 5) (sat : Bool) (vs : VReg) (sb : SReg) (off : BitVec 10) (vi : VReg) (k : KReg)
  -- VBIND, VQ, VCOL, VCPK (06 R178 to R187, 15 R357, 10 R282)
  | vbind (vd : VReg) (ss : SReg) (c : Ctl)
  | vunbind (vd : VReg) (c : Ctl)
  | vbskip (vd : VReg) (ss : SReg) (c : Ctl)
  | vqpush (q : Fin 8) (va : VReg) (c : Ctl)
  | vqpop (vd : VReg) (q : Fin 8) (tm : Tm) (c : Ctl)
  | vcsend (f : Fin 4) (va : VReg) (c : Ctl)
  | vcrecv (vd : VReg) (f : Fin 4) (tm : Tm) (c : Ctl)
  | vcred (vd va : VReg) (f : Fin 4) (rm : Rm) (tm : Tm) (c : Ctl)
  | vcpk (vd va : VReg) (c : Ctl)
  | vcpkf (vd : VReg) (c : Ctl)
  -- Dungen instructions (15 R363), executed by the engine whose turn it is
  | send (a b c d : CReg)
  | recv (a b d : CReg)
  | reduce (op : RedOp) (fmt : BitVec 5) (a b c d : CReg)
  | copy (a b d : CReg)
  | wait (cond : Cond) (a b : CReg) (t : BitVec 8)
  | ring (a b c : CReg)
  | alloc (a b : CReg)
  | free (a : CReg)
  | flag (a b : CReg)
  | setc (a : CReg) (imm : BitVec 23)
  | addc (a b c : CReg) (imm : BitVec 11)
  | dungenLoop (a : CReg) (target : BitVec 12)
  | br (cond : BrCond) (a b : CReg) (target : BitVec 12)
  -- instructions without operands: FENCE.SV, FENCE.VS (05 R144), SYS (15 R344), Dungen NOP, STEP, FENCE, HALT (15 R363)
  | fenceSv
  | fenceVs
  | ecall
  | ebreak
  | tret
  | exit
  | yield
  | nop
  | step
  | dungenFence
  | halt
  -- moves that go with an instruction: timeouts of WAITV on hart h and of WAIT on engine e (06 R164, 15 R366), writes of
  -- registers with behaviour (08 R229, 01 R24, 17 R377, 00 R9), the publish move (05 R150)
  | waitvTimeout (h : Nat)
  | lscaleWrite (v : Word)
  | lpartWrite (core : Nat) (v : Word)
  | ptbaseWrite (v : Word)
  | registerWrite (who : Writer) (r : WinReg) (v : Word)
  | publishMove (part handle : Nat)
  | dungenWaitTimeout (e : Nat)
  -- moves of the abstract machine (05 R132, R133, R140, 06 R189)
  | performAccess (h stream : Nat)
  | ticket (h stream : Nat)
  | deliver (wid cluster : Nat)
  | copyComplete (h id : Nat)
  -- fabric (05 R152, 14 R317 to R333)
  | inject (src : InjSrc)
  | arrive (p : Packet) (lost : Bool)
  | land (i : Nat)
  | count (i : Nat)
  | ringArrival (p : Packet)
  | release (handle : Nat)
  | ringRepeat (dest slot phase : Nat)
  | holdEnd (dest slot : Nat)
  | shortTimer (handle : Nat)
  | shortfallNotice (p : Packet)
  | failNotice (p : Packet)
  | earlyArrivalDrop (die i : Nat)
  | dropRecordExpiry (die i : Nat)
  | remoteRead (p : Packet)
  | readResponse (p : Packet)
  | remoteReadResend (i : Nat)
  -- reducing windows and fabric streams (14 R334 to R340, 15 R355 to R358)
  | contribution (p : Packet)
  | combine (part group tag chunk : Nat)
  | bucketRelease (part group tag : Nat)
  | tLate (part group tag chunk rank : Nat)
  | stripChunk (p : Packet)
  | stripDelivery (h f : Nat)
  | stripShortfall (h f : Nat)
  -- stream controller (13 R300 to R315)
  | dispatch (core hart : Nat)
  | preemption (die : Nat)
  | trafficWindow (die : Nat)
  | transferResident (die id : Nat)
  | kernelComplete (token : Word)
  | progressFault (token : Word)
  | lpartChange (core : Nat)
  -- events, context writes (18 R399, R400, 17 R392)
  | eventTaken (h : Nat)
  | interrupt (part src : Nat)
  | intsrc (part : Nat) (v : Word)
  | contextWrite (who : Writer) (h off : Nat) (v : Word)
  -- cask engine, migration engine, belfry (18 R409 to R412, 17 R380 to R391)
  | cut (part : Nat)
  | caskDrain (part die : Nat)
  | caskComplete (part : Nat)
  | caskd (part : Nat) (v : Word)
  | pageMigration (die page : Nat)
  | tierctl (die : Nat) (v : Word)
  | watchdogExpiry
  | wdkick (v : Word)
  | reset
  | maskRomBoot (img : BootImage)
  | measExtend (n : Nat) (digest : BitVec 256)
  | attreq (nonce : BitVec 256)
  | attrep
  | allow (part : Nat) (v : Word)
  -- fates of fetched patterns, soft errors, windows and storage (03 R72, R87, 15 R366, 18 R406, 17 R384, 15 R358, 01 R54)
  | illegalInstruction (bits : Word)
  | fetchFault (tpc tval : Word)
  | reservedOpcode (e : Nat)
  | softError (pa : Nat) (double : Bool)
  | egressWindow (part : Nat)
  | stripNotice (p : Packet)
  | stripHoldEnd (h f seqn : Nat)
  | powerGating (g : Gated) (on : Bool)
  | wakeUp (g : Gated)
  deriving DecidableEq, Repr

end Sys2Proof
end

