-- ==== Sys2Proof/Machine/Num.lean ====
section
/-! DEFINITION. Sys2Proof/Machine/Num.lean: the arithmetic promise (08): formats bit by bit, exact values, RoundTo, RoundInt, special values and flags, stochastic bits and directions. -/

namespace Sys2Proof.Machine

/-- An exact value: a signed rational num/den (the sign matters for zero), an infinity, or a NaN (sig: signalling). -/
inductive Ex where
  | fin (neg : Bool) (num den : Nat) | inf (neg : Bool) | nan (sig : Bool)
  deriving DecidableEq, Repr

/-- Flag bits: NX 1, UF 2, OF 4, DZ 8, NV 16 in FFLAGS[4:0] order, then SAT 32 and KINK 64 (08 R215). -/
def flNX : Nat := 1
def flUF : Nat := 2
def flOF : Nat := 4
def flDZ : Nat := 8
def flNV : Nat := 16
def flSAT : Nat := 32
def flKINK : Nat := 64

/-- Format codes (03 R93, 08 R205). -/
def fmtCode : Fmt → Nat
  | .f32 => 0 | .bf16 => 1 | .f16 => 2 | .e5m2 => 3 | .e4m3 => 4 | .e3m2 => 5 | .e2m3 => 6 | .e2m1 => 7
  | .i16 => 8 | .i8 => 9 | .n8 => 10 | .i4 => 11 | .n4 => 12 | .ds8 => 13 | .ds4 => 14 | .tr2 => 15
  | .i32 => 16 | .n32 => 17 | .i64 => 18 | .e8m0 => 19 | .f64 => 20

/-- The format of a code; codes 0x15 to 0x1F are reserved. -/
def fmtOfCode (n : Nat) : Option Fmt :=
  match n with
  | 0 => some .f32 | 1 => some .bf16 | 2 => some .f16 | 3 => some .e5m2 | 4 => some .e4m3 | 5 => some .e3m2
  | 6 => some .e2m3 | 7 => some .e2m1 | 8 => some .i16 | 9 => some .i8 | 10 => some .n8 | 11 => some .i4
  | 12 => some .n4 | 13 => some .ds8 | 14 => some .ds4 | 15 => some .tr2 | 16 => some .i32 | 17 => some .n32
  | 18 => some .i64 | 19 => some .e8m0 | 20 => some .f64 | _ => none

/-- Container width in bits, w = 8 × E, 4 for the 4-bit formats (01 R29, 09 R232). -/
def fmtBits : Fmt → Nat
  | .f32 | .i32 | .n32 => 32
  | .bf16 | .f16 | .i16 => 16
  | .e5m2 | .e4m3 | .e3m2 | .e2m3 | .i8 | .n8 | .ds8 | .e8m0 => 8
  | .e2m1 | .i4 | .n4 | .ds4 | .tr2 => 4
  | .i64 | .f64 => 64

/-- Formats with a vector container (01 R29). -/
def fmtHasContainer (f : Fmt) : Bool := !(f == .f64)

/-- The floating formats of 08 R205. -/
def fmtFloat : Fmt → Bool
  | .f32 | .bf16 | .f16 | .e5m2 | .e4m3 | .e3m2 | .e2m3 | .e2m1 | .f64 => true
  | _ => false

/-- The two's-complement formats (08 R207). -/
def fmtSigned : Fmt → Bool
  | .i4 | .i8 | .i16 | .i32 | .i64 => true
  | _ => false

/-- The integer formats (08 R207). -/
def fmtInt : Fmt → Bool
  | .i4 | .i8 | .i16 | .i32 | .i64 | .n4 | .n8 | .n32 => true
  | _ => false

/-- The 6-bit formats, whose containers hold the value in [5:0] (08 R206). -/
def fmtSix : Fmt → Bool
  | .e3m2 | .e2m3 => true
  | _ => false

/-- Significand bits after the point, exponent bits and bias of a floating format (08 R205). -/
def fmtShape : Fmt → Nat × Nat × Nat
  | .f32 => (23, 8, 127) | .bf16 => (7, 8, 127) | .f16 => (10, 5, 15) | .e5m2 => (2, 5, 15) | .e4m3 => (3, 4, 7)
  | .e3m2 => (2, 3, 3) | .e2m3 => (3, 2, 1) | .e2m1 => (1, 2, 1) | .f64 => (52, 11, 1023)
  | _ => (0, 0, 0)

/-- Formats with infinities: f32, bf16, f16, e5m2, f64 (08 R205). -/
def fmtHasInf : Fmt → Bool
  | .f32 | .bf16 | .f16 | .e5m2 | .f64 => true
  | _ => false

/-- Formats with NaN (08 R205, R209). -/
def fmtHasNan (f : Fmt) : Bool := fmtHasInf f || f == .e4m3 || f == .e8m0

/-- The bits of the canonical quiet NaN (08 R210); 0 for a format without NaN. -/
def fmtNan : Fmt → Nat
  | .f32 => 0x7FC00000 | .bf16 => 0x7FC0 | .f16 => 0x7E00 | .f64 => 0x7FF8000000000000 | .e5m2 => 0x7E
  | .e4m3 => 0x7F | .e8m0 => 0xFF | _ => 0

/-- 2^i as an exact value, for an integer i. -/
def Ex.pow2 (neg : Bool) (m : Nat) (i : Int) : Ex :=
  if 0 ≤ i then .fin neg (m * 2 ^ i.toNat) 1 else .fin neg m (2 ^ (-i).toNat)

/-- A zero of a sign. -/
def Ex.zero (neg : Bool) : Ex := .fin neg 0 1

/-- An integer as an exact value. -/
def Ex.ofInt (i : Int) : Ex := .fin (decide (i < 0)) i.natAbs 1

/-- term(s, c) of ds8 and ds4, scaled by 2^6 (08 R208). -/
def dsTerm (s c : Nat) : Int :=
  if c = 7 then 0 else (if s = 1 then -1 else 1) * ((2 ^ (6 - c) : Nat) : Int)

/-- A scaled sum of terms as a value; zero decodes as +0 (08 R208). -/
def dsValue (i : Int) : Ex := .fin (decide (i < 0)) i.natAbs 64

/-- Exact value of container bits of a format (08 R205 to R209). -/
def decodeEx (f : Fmt) (bits : Nat) : Ex :=
  match f with
  | .i4 | .i8 | .i16 | .i32 | .i64 => .ofInt (signedOf (fmtBits f) bits)
  | .n4 | .n8 | .n32 => .ofInt (bits % 2 ^ fmtBits f : Nat)
  | .ds8 => dsValue (dsTerm (bitsOf bits 7 1) (bitsOf bits 4 3) + dsTerm (bitsOf bits 3 1) (bitsOf bits 0 3))
  | .ds4 => dsValue (dsTerm (bitsOf bits 3 1) (bitsOf bits 0 3))
  | .tr2 => match bits % 4 with
    | 1 => .ofInt 1
    | 3 => .ofInt (-1)
    | _ => .ofInt 0
  | .e8m0 => if bits % 256 = 255 then .nan false else .pow2 false 1 ((bits % 256 : Nat) - 127)
  | f =>
    let (m, e, bias) := fmtShape f
    let man := bitsOf bits 0 m
    let exp := bitsOf bits m e
    let neg := bitsOf bits (m + e) 1 == 1
    if fmtHasInf f && exp == 2 ^ e - 1 then
      if man = 0 then .inf neg else .nan (bitsOf man (m - 1) 1 == 0)
    else if f == .e4m3 && exp == 15 && man == 7 then .nan false
    else if exp = 0 then
      if man = 0 then .zero neg else .pow2 neg man (1 - (bias : Int) - m)
    else .pow2 neg (2 ^ m + man) ((exp : Int) - bias - m)

/-- Is the value a NaN, and a signalling one. -/
def Ex.isNan : Ex → Bool
  | .nan _ => true
  | _ => false

def Ex.isSnan : Ex → Bool
  | .nan s => s
  | _ => false

def Ex.isZero : Ex → Bool
  | .fin _ n _ => n == 0
  | _ => false

def Ex.isNeg : Ex → Bool
  | .fin n _ _ => n
  | .inf n => n
  | .nan _ => false

def Ex.neg : Ex → Ex
  | .fin n a b => .fin (!n) a b
  | .inf n => .inf (!n)
  | .nan s => .nan s

def Ex.abs : Ex → Ex
  | .fin _ a b => .fin false a b
  | .inf _ => .inf false
  | .nan s => .nan s

/-- The quiet NaN of an operation and the flag of a signalling operand (08 R210). -/
def nanOf (a b : Ex) : Ex × Nat := (.nan false, if a.isSnan || b.isSnan then flNV else 0)

/-- Exact sum; the sign of an exact zero sum of opposite signs follows rm (08 R211). -/
def exAdd (rm : Rm) (a b : Ex) : Ex × Nat :=
  match a, b with
  | .nan _, _ => nanOf a b
  | _, .nan _ => nanOf a b
  | .inf x, .inf y => if x == y then (.inf x, 0) else (.nan false, flNV)
  | .inf x, _ => (.inf x, 0)
  | _, .inf y => (.inf y, 0)
  | .fin x n d, .fin y m e =>
    if x == y then (.fin x (n * e + m * d) (d * e), 0)
    else
      let p := n * e
      let q := m * d
      if p = q then (.zero (rm == .rdn), 0)
      else if q < p then (.fin x (p - q) (d * e), 0)
      else (.fin y (q - p) (d * e), 0)

/-- Exact product; 0 × Inf is invalid (08 R214). -/
def exMul (a b : Ex) : Ex × Nat :=
  match a, b with
  | .nan _, _ => nanOf a b
  | _, .nan _ => nanOf a b
  | .inf x, .inf y => (.inf (x != y), 0)
  | .inf x, .fin y m _ => if m = 0 then (.nan false, flNV) else (.inf (x != y), 0)
  | .fin x n _, .inf y => if n = 0 then (.nan false, flNV) else (.inf (x != y), 0)
  | .fin x n d, .fin y m e => (.fin (x != y) (n * m) (d * e), 0)

/-- Exact quotient; x/0 raises DZ, 0/0 and Inf/Inf are invalid (08 R214). -/
def exDiv (a b : Ex) : Ex × Nat :=
  match a, b with
  | .nan _, _ => nanOf a b
  | _, .nan _ => nanOf a b
  | .inf _, .inf _ => (.nan false, flNV)
  | .inf x, .fin y _ _ => (.inf (x != y), 0)
  | .fin x _ _, .inf y => (.zero (x != y), 0)
  | .fin x n d, .fin y m e =>
    if m = 0 then (if n = 0 then (.nan false, flNV) else (.inf (x != y), flDZ))
    else (.fin (x != y) (n * e) (d * m), 0)

/-- Integer square root, bit by bit from bit i down. -/
def isqrtFrom (n : Nat) : Nat → Nat → Nat
  | 0, r => if (r + 1) * (r + 1) ≤ n then r + 1 else r
  | i + 1, r =>
    let r' := r + 2 ^ (i + 1)
    isqrtFrom n i (if r' * r' ≤ n then r' else r)

/-- floor of the square root. -/
def isqrt (n : Nat) : Nat := isqrtFrom n (n.log2 / 2 + 1) 0

/-- The square root of n/d: exact when it is a multiple of 2^-p, otherwise the midpoint of the cell of width 2^-p
that holds it, which every RoundTo rounds as it rounds the root (log 10). -/
def sqrtRatio (n d : Nat) : Ex :=
  let p := (200 - ((n.log2 : Int) - d.log2) / 2).toNat
  let r := isqrt (n * 2 ^ (2 * p) / d)
  if r * r * d = n * 2 ^ (2 * p) then .fin false r (2 ^ p) else .fin false (2 * r + 1) (2 ^ (p + 1))

/-- √a: √(−0) = −0; a negative nonzero operand is invalid (04 R107, 08 R214). -/
def exSqrt : Ex → Ex × Nat
  | .nan s => nanOf (.nan s) (.nan false)
  | .inf false => (.inf false, 0)
  | .inf true => (.nan false, flNV)
  | .fin neg n d =>
    if n = 0 then (.zero neg, 0) else if neg then (.nan false, flNV) else (sqrtRatio n d, 0)

/-- floor(log2(n/d)) for n, d > 0. -/
def floorLog2 (n d : Nat) : Int :=
  let k : Int := (n.log2 : Int) - d.log2
  let ge := if 0 ≤ k then decide (d * 2 ^ k.toNat ≤ n) else decide (d ≤ n * 2 ^ (-k).toNat)
  if ge then k else k - 1

/-- The integer part and the rest of (n/d) / 2^sh, as t, rest and divisor. -/
def scaledParts (n d : Nat) (sh : Int) : Nat × Nat × Nat :=
  let (a, b) := if 0 ≤ sh then (n, d * 2 ^ sh.toNat) else (n * 2 ^ (-sh).toNat, d)
  (a / b, a % b, b)

/-- The rounding choice of 08 R211: t with rest r of divisor b, sign neg, stochastic bits u. -/
def roundPick (rm : Rm) (u : Nat) (neg : Bool) (t r b : Nat) : Nat :=
  match rm with
  | .rne => if b < 2 * r || (2 * r == b && t % 2 == 1) then t + 1 else t
  | .rna => if b ≤ 2 * r then t + 1 else t
  | .rtz => t
  | .rup => if r ≠ 0 && !neg then t + 1 else t
  | .rdn => if r ≠ 0 && neg then t + 1 else t
  | .rod => if r = 0 || t % 2 == 1 then t else t + 1
  | .rsr => t + (r * 2 ^ 32 + u * b) / (b * 2 ^ 32)
  | .dyn => if b < 2 * r || (2 * r == b && t % 2 == 1) then t + 1 else t

/-- Bits of an infinity of a format that has one. -/
def infBits (f : Fmt) (neg : Bool) : Nat :=
  let (m, e, _) := fmtShape f
  (if neg then 2 ^ (m + e) else 0) + (2 ^ e - 1) * 2 ^ m

/-- Bits of the largest finite magnitude (08 R205). -/
def maxfBits (f : Fmt) (neg : Bool) : Nat :=
  let (m, e, _) := fmtShape f
  (if neg then 2 ^ (m + e) else 0) +
    (if fmtHasInf f then (2 ^ e - 1) * 2 ^ m - 1 else if f == .e4m3 then 2 ^ (m + e) - 2 else 2 ^ (m + e) - 1)

/-- Overflow(fmt, s, rm) (08 R212). -/
def overflowTo (f : Fmt) (sat : Bool) (rm : Rm) (neg : Bool) : Nat × Nat :=
  let toInf := match rm with
    | .rne | .rna | .rsr | .dyn => true
    | .rup => !neg
    | .rdn => neg
    | .rtz | .rod => false
  let fl := flOF + flNX
  if toInf then
    if fmtHasInf f then (infBits f neg, fl)
    else if f == .e4m3 && !sat then (fmtNan f, fl)
    else (maxfBits f neg, fl + flSAT)
  else (maxfBits f neg, fl)

/-- Range of an integer format (08 R207). -/
def intRange (f : Fmt) : Int × Int :=
  let w := fmtBits f
  if fmtSigned f then (-((2 ^ (w - 1) : Nat) : Int), ((2 ^ (w - 1) : Nat) : Int) - 1) else (0, ((2 ^ w : Nat) : Int) - 1)

/-- An integer clamped to the range of a format, and whether it was clamped. -/
def clampInt (f : Fmt) (i : Int) : Int × Bool :=
  let (lo, hi) := intRange f
  if i < lo then (lo, true) else if hi < i then (hi, true) else (i, false)

/-- A rational rounded to an integer with q = 1 (08 R213), and whether it was inexact. -/
def roundToInt (rm : Rm) (u : Nat) (neg : Bool) (n d : Nat) : Int × Bool :=
  let r := roundPick rm u neg (n / d) (n % d) d
  (if neg then -(r : Int) else r, n % d != 0)

/-- RoundInt(fmt, x, rm) of a floating value (08 R213). -/
def roundInt (f : Fmt) (rm : Rm) (u : Nat) (x : Ex) : Nat × Nat :=
  match x with
  | .nan _ => (0, flNV)
  | .inf neg => (wrapOf (fmtBits f) (if neg then (intRange f).1 else (intRange f).2), flNV)
  | .fin neg n d =>
    let (i, inexact) := roundToInt rm u neg n d
    let (j, clamped) := clampInt f i
    (wrapOf (fmtBits f) j, if clamped then flNV else if inexact then flNX else 0)

/-- RoundTo(fmt, x, rm) for a floating format (08 R211); sat is the SAT choice of e4m3, u the stochastic bits U. -/
def roundFloat (f : Fmt) (sat : Bool) (rm : Rm) (u : Nat) (x : Ex) : Nat × Nat :=
  let (mb, eb, bias) := fmtShape f
  match x with
  | .nan _ => if fmtHasNan f then (fmtNan f, 0) else (0, flNV)
  | .inf neg => if fmtHasInf f then (infBits f neg, 0) else overflowTo f sat rm neg
  | .fin neg n d =>
    let sgn := if neg then 2 ^ (mb + eb) else 0
    if n = 0 then (sgn, 0)
    else
      let emin : Int := 1 - (bias : Int)
      let k0 := floorLog2 n d
      let k := max k0 emin
      let (t, r, b) := scaledParts n d (k - mb)
      let y := roundPick rm u neg t r b
      let bits := (k - emin).toNat * 2 ^ mb + y
      if maxfBits f false < bits then overflowTo f sat rm neg
      else (sgn + bits, if r = 0 then 0 else if k0 < emin then flNX + flUF else flNX)

/-- RoundTo(fmt, x, rm) (08 R211). -/
def roundTo (f : Fmt) (sat : Bool) (rm : Rm) (u : Nat) (x : Ex) : Nat × Nat :=
  if fmtInt f then roundInt f rm u x else roundFloat f sat rm u x

/-- Order of two values that are not NaN; zeros compare equal. -/
def exCmp (a b : Ex) : Ordering :=
  match a, b with
  | .inf x, .inf y => if x == y then .eq else if x then .lt else .gt
  | .inf x, _ => if x then .lt else .gt
  | _, .inf y => if y then .gt else .lt
  | .fin x n d, .fin y m e =>
    let p : Int := (if x then -1 else 1) * ((n * e : Nat) : Int)
    let q : Int := (if y then -1 else 1) * ((m * d : Nat) : Int)
    compare p q
  | _, _ => .eq

/-- Signalling-NaN flag of two operands. -/
def snanFlag (a b : Ex) : Nat := if a.isSnan || b.isSnan then flNV else 0

/-- The choice of VFMIN and VFMAX (09 R240): true chooses the first operand's value, and whether the operands compare
equal (then the tangent is the first's). −0 lies below +0. Both NaN is left to the caller. -/
def minmaxFirst (max : Bool) (a b : Ex) : Bool × Bool :=
  if a.isNan then (b.isNan, false)
  else if b.isNan then (true, false)
  else match exCmp a b with
    | .lt => (!max, false)
    | .gt => (max, false)
    | .eq =>
      if a.isZero && b.isZero then ((if max then (!a.isNeg || b.isNeg) else (a.isNeg || !b.isNeg)), true)
      else (true, true)

/-- Mix64 (08 R222). -/
def mix64 (x : Word) : Word :=
  let x := x ^^^ (x >>> 32)
  let x := x * 0x5C1D37B4E2A90F63#64
  let x := x ^^^ (x >>> 29)
  let x := x * 0x8B3E52C719D4A6F1#64
  x ^^^ (x >>> 32)

/-- SRBits(seq, e) under a seed (08 R222). -/
def srBits (seed seq : Word) (e : Nat) : Nat :=
  let w := mix64 (seed ^^^ (seq <<< 24) ^^^ BitVec.ofNat 64 (e / 32))
  ((w.rotateRight (e % 32)).toNat) % 2 ^ 32

/-- The four 16-bit integers of a word added up (10 R265). -/
def sum16 (w : Word) : Nat := bitsOf w.toNat 0 16 + bitsOf w.toNat 16 16 + bitsOf w.toNat 32 16 + bitsOf w.toNat 48 16

/-- TGen(seed, k, i, dist) (10 R265). -/
def tGen (seed : Word) (k : Nat) (i : Word) (dist : Dist) : Ex :=
  let b := mix64 (seed ^^^ BitVec.ofNat 64 k) ^^^ i
  match dist with
  | .rad => .fin ((mix64 b).msb) 1 1
  | .n12 =>
    let s : Int := ((sum16 (mix64 b) + sum16 (mix64 (b + 1)) + sum16 (mix64 (b + 2)) : Nat) : Int) - 393210
    .fin (decide (s < 0)) s.natAbs 65536

end Sys2Proof.Machine
end

