-- ==== Sys2Proof/WellFormed.lean ====
section
/-! DEFINITION. Sys2Proof/WellFormed.lean: what an instruction of Syntax.lean must meet to have an encoding (03 R75 to R86, 15 R363), beyond what its types say; and how long its encoding is. -/

namespace Sys2Proof

/-- Where an instruction is encoded: one parcel, two parcels (03 R70), a Dungen word (15 R363), or nowhere: a move of
the machine is no code. -/
inductive Form where
  | hart32 | hart64 | dungen | move
  deriving DecidableEq, Repr

/-- The form of every constructor. -/
def Instr.form : Instr → Form
  | .add .. | .sub .. | .and .. | .or .. | .xor .. | .sll .. | .srl .. | .sra .. | .slt .. | .sltu .. | .mul ..
  | .mulh .. | .mulhu .. | .div .. | .divu .. | .rem .. | .remu .. | .min .. | .max .. | .minu .. | .maxu ..
  | .clz .. | .ctz .. | .popc .. | .andn .. | .addi .. | .andi .. | .ori .. | .xori .. | .slti .. | .sltiu ..
  | .slli .. | .srli .. | .srai .. | .lui .. | .auipc .. | .fadd .. | .fsub .. | .fmul .. | .fdiv .. | .fsqrt ..
  | .fmin .. | .fmax .. | .fmadd .. | .feq .. | .flt .. | .fle .. | .fcvtfi .. | .fcvtif .. | .fcvtff ..
  | .beq .. | .bne .. | .blt .. | .bge .. | .bltu .. | .bgeu .. | .bsubnz .. | .bsubgt .. | .jal .. | .jalr ..
  | .lb .. | .lh .. | .lw .. | .ld .. | .lbn .. | .lhn .. | .lwn .. | .sb .. | .sh .. | .sw .. | .sd ..
  | .amoswp .. | .amoadd .. | .amoand .. | .amoor .. | .amoxor .. | .amomin .. | .amomax .. | .amominu ..
  | .amomaxu .. | .amocas .. | .amofadd .. | .ldo .. | .sto .. | .fence .. | .fenceSv | .fenceVs | .sbar ..
  | .waitv .. | .csrr .. | .csrw .. | .csrs .. | .csrc .. | .vconf .. | .vsetvl .. | .vsetvlx .. | .convoy ..
  | .loop .. | .loopn .. | .ecall | .ebreak | .tret | .exit | .yield | .launch .. | .ksend .. | .kwait ..
  | .kstat .. | .cpy .. | .cnest .. | .cdrain .. | .shadow .. | .publish .. | .qpush .. | .qpop .. | .qbind ..
  | .dgload .. | .dgstart .. | .dgstop .. | .dgstat .. | .tsync .. | .cask .. | .pgpin .. | .bella .. | .bellf ..
  | .bellring .. | .bellq .. => .hart32
  | .vfadd .. | .vfsub .. | .vfmul .. | .vfdiv .. | .vfma .. | .vfms .. | .vfnma .. | .vfsqrt .. | .vfmin ..
  | .vfmax .. | .vfabs .. | .vfneg .. | .vfcps .. | .vadd .. | .vsub .. | .vmul .. | .vmulh .. | .vmulhu ..
  | .vand .. | .vor .. | .vxor .. | .vsll .. | .vsrl .. | .vsra .. | .vmin .. | .vmax .. | .vminu .. | .vmaxu ..
  | .vsadd .. | .vssub .. | .vfeq .. | .vflt .. | .vfle .. | .vfne .. | .vieq .. | .vilt .. | .viltu .. | .vile ..
  | .kand .. | .kor .. | .kxor .. | .kandn .. | .knot .. | .kpop .. | .kfirst .. | .vexp .. | .vlog .. | .vtanh ..
  | .vsigm .. | .vrcp .. | .vrsq .. | .vrelu .. | .vsilu .. | .vcvt .. | .vqblk .. | .vdqblk .. | .vcvti ..
  | .vmv .. | .vsplat .. | .vext .. | .vins .. | .viota .. | .vmerge .. | .vpin .. | .vunpin .. | .lwait ..
  | .vslup .. | .vsldn .. | .vrgath .. | .vcompr .. | .vfredo .. | .vfredu .. | .vfrmax .. | .vfrmin .. | .vireds ..
  | .vscan .. | .vscanf .. | .tseed .. | .tzero .. | .tget .. | .tput .. | .tregen .. | .tfga .. | .tscl ..
  | .mcfg .. | .mtset .. | .mrow .. | .mrowd .. | .mdrain .. | .mdraint .. | .maclr .. | .mtscl .. | .vld ..
  | .vlds .. | .vldx .. | .vslr .. | .mtld .. | .vst .. | .vsts .. | .vstx .. | .vstxa .. | .vbind .. | .vunbind ..
  | .vbskip .. | .vqpush .. | .vqpop .. | .vcsend .. | .vcrecv .. | .vcred .. | .vcpk .. | .vcpkf .. => .hart64
  | .nop | .send .. | .recv .. | .reduce .. | .copy .. | .wait .. | .ring .. | .alloc .. | .free .. | .flag ..
  | .setc .. | .addc .. | .dungenLoop .. | .br .. | .step | .dungenFence | .halt => .dungen
  | .waitvTimeout .. | .lscaleWrite .. | .lpartWrite .. | .ptbaseWrite .. | .registerWrite .. | .publishMove ..
  | .dungenWaitTimeout .. | .performAccess .. | .ticket .. | .deliver .. | .copyComplete .. | .inject .. | .arrive ..
  | .land .. | .count .. | .ringArrival .. | .release .. | .ringRepeat .. | .holdEnd .. | .shortTimer ..
  | .shortfallNotice .. | .failNotice .. | .earlyArrivalDrop .. | .dropRecordExpiry .. | .remoteRead ..
  | .readResponse .. | .remoteReadResend .. | .contribution .. | .combine .. | .bucketRelease .. | .tLate ..
  | .stripChunk .. | .stripDelivery .. | .stripShortfall .. | .dispatch .. | .preemption .. | .trafficWindow ..
  | .transferResident .. | .kernelComplete .. | .progressFault .. | .lpartChange .. | .eventTaken .. | .interrupt ..
  | .intsrc .. | .contextWrite .. | .cut .. | .caskDrain .. | .caskComplete .. | .caskd .. | .pageMigration ..
  | .tierctl .. | .watchdogExpiry | .wdkick .. | .reset | .maskRomBoot .. | .measExtend .. | .attreq .. | .attrep
  | .allow .. | .illegalInstruction .. | .fetchFault .. | .reservedOpcode .. | .softError .. | .egressWindow ..
  | .stripNotice .. | .stripHoldEnd .. | .powerGating .. | .wakeUp .. => .move

/-- A row operand in a register names a register other than s0 (10 R272). -/
def Row.wf : Row → Bool
  | .imm _ => true
  | .reg s => s != 0

/-- SAT is set only with format e4m3 (03 R85, R86). -/
def satWf (sat : Bool) (fmt : Fmt) : Bool := !sat || fmt == .e4m3

/-- What the types of an instruction do not say and its encoding demands: FENCE names acquire or release (05 R142);
VCONF holds 0 to 4 and 8 to 16 (03 R75); a strided access names a stride register (03 R86); SAT goes with e4m3;
row registers and MCFG's register are not s0 (10 R270, R272); an unconditional BR names no registers (15 R363). Every
other instruction has an encoding for all its operands. -/
def Instr.wf : Instr → Bool
  | .fence _ acq rel => acq || rel
  | .vconf nrc sreq => decide (nrc.toNat ≤ 4) && decide (8 ≤ sreq.toNat) && decide (sreq.toNat ≤ 16)
  | .vlds _ _ _ _ _ ss _ _ => ss != 0
  | .vst fmt _ _ sat _ _ _ _ => satWf sat fmt
  | .vsts fmt _ _ sat _ _ ss _ _ => satWf sat fmt && ss != 0
  | .vstx fmt _ _ sat _ _ _ _ _ => satWf sat fmt
  | .vstxa fmt _ sat _ _ _ _ _ => satWf sat fmt
  | .mcfg _ sr => sr != 0
  | .mtset _ row _ _ => row.wf
  | .mrow _ row _ _ => row.wf
  | .mrowd _ row _ _ _ => row.wf
  | .mdrain _ _ row _ => row.wf
  | .mdraint _ _ row _ => row.wf
  | .mtscl _ row _ => row.wf
  | .br .always a b _ => a == 0 && b == 0
  | _ => true

end Sys2Proof
end

