-- ==== Sys2Proof/Decode.lean ====
section
/-! DEFINITION. Sys2Proof/Decode.lean: from bits to instructions and back (03 R70 to R86, 15 R363). A word is cut into the fields of its format; a field that names nothing is refused, never read as a neighbour. The encoder is written from the same tables. -/

namespace Sys2Proof

open Sys2Proof.Machine

/-- A word packed from (width, value) fields, the lowest first. -/
def packFields : List (Nat × Nat) → Nat
  | [] => 0
  | (w, v) :: l => v % 2 ^ w + 2 ^ w * packFields l

/-- A word cut into fields of given widths, the lowest first. -/
def cutFields : List Nat → Nat → List Nat
  | [], _ => []
  | w :: ws, x => x % 2 ^ w :: cutFields ws (x / 2 ^ w)

/-- Rounding-mode codes (03 R93). -/
def rmOf (n : Nat) : Rm :=
  match n with
  | 0 => .rne | 1 => .rtz | 2 => .rdn | 3 => .rup | 4 => .rna | 5 => .rsr | 6 => .rod | _ => .dyn

def rmCode : Rm → Nat
  | .rne => 0 | .rtz => 1 | .rdn => 2 | .rup => 3 | .rna => 4 | .rsr => 5 | .rod => 6 | .dyn => 7

/-- Tangent modes (03 R93); code 11 is reserved (01 R46). -/
def tmOf (n : Nat) : Option Tm :=
  match n with
  | 0 => some .prop | 1 => some .tstop | 2 => some .vonly | _ => none

def tmCode : Tm → Nat
  | .prop => 0 | .tstop => 1 | .vonly => 2

/-- Scopes (03 R76); codes 5 to 7 are reserved. -/
def scopeOf (n : Nat) : Option Scope :=
  match n with
  | 0 => some .core | 1 => some .clu | 2 => some .die | 3 => some .dev | 4 => some .dom | _ => none

def scopeCode : Scope → Nat
  | .core => 0 | .clu => 1 | .die => 2 | .dev => 3 | .dom => 4

/-- Orders (03 R76, R86); on vector accesses 100 is the gather add and higher codes are reserved. -/
def orderOf (n : Nat) : Option Order :=
  match n with
  | 0 => some .plain | 1 => some .acq | 2 => some .rel | 3 => some .sc | _ => none

def orderCode : Order → Nat
  | .plain => 0 | .acq => 1 | .rel => 2 | .sc => 3

/-- Conditions of WAITV and WAIT (03 R75, 15 R363). -/
def condOf (n : Nat) : Option Cond :=
  match n with
  | 0 => some .eq | 1 => some .ne | 2 => some .lt | 3 => some .ge | 4 => some .ltu | 5 => some .geu | _ => none

def condCode : Cond → Nat
  | .eq => 0 | .ne => 1 | .lt => 2 | .ge => 3 | .ltu => 4 | .geu => 5

/-- Numbers of the control and status registers (03 R78). -/
def csrOf (n : Nat) : Option Csr :=
  match n with
  | 0x000 => some .vl
  | 0x001 => some .vtype
  | 0x002 => some .vcfg
  | 0x003 => some .eidx
  | 0x004 => some .vlmax
  | 0x005 => some .fctl
  | 0x006 => some .fflags
  | 0x007 => some .srseed
  | 0x008 => some .srseq
  | 0x009 => some .tseedv
  | 0x00A => some .tbase
  | 0x00B => some .lscale
  | 0x00C => some .lpart
  | 0x00D => some .cdens
  | 0x010 => some .cgroup
  | 0x011 => some .cops
  | 0x012 => some .cstride
  | 0x013 => some .ctag
  | 0x020 => some (.lidx 0)
  | 0x021 => some (.lidx 1)
  | 0x022 => some (.lidx 2)
  | 0x023 => some (.lidx 3)
  | 0x024 => some (.lidx 4)
  | 0x025 => some (.lidx 5)
  | 0x026 => some .stepno
  | 0x030 => some .capbase
  | 0x100 => some .tvec
  | 0x101 => some .tcause
  | 0x102 => some .tpc
  | 0x103 => some .teidx
  | 0x104 => some .tval
  | 0x105 => some .tstatus
  | 0x106 => some .ptbase
  | 0x107 => some .partid
  | 0x108 => some .twin
  | 0x109 => some .tshort
  | 0x10A => some .rwin
  | _ => none

def csrCode : Csr → Nat
  | .vl => 0x000
  | .vtype => 0x001
  | .vcfg => 0x002
  | .eidx => 0x003
  | .vlmax => 0x004
  | .fctl => 0x005
  | .fflags => 0x006
  | .srseed => 0x007
  | .srseq => 0x008
  | .tseedv => 0x009
  | .tbase => 0x00A
  | .lscale => 0x00B
  | .lpart => 0x00C
  | .cdens => 0x00D
  | .cgroup => 0x010
  | .cops => 0x011
  | .cstride => 0x012
  | .ctag => 0x013
  | .stepno => 0x026
  | .capbase => 0x030
  | .tvec => 0x100
  | .tcause => 0x101
  | .tpc => 0x102
  | .teidx => 0x103
  | .tval => 0x104
  | .tstatus => 0x105
  | .ptbase => 0x106
  | .partid => 0x107
  | .twin => 0x108
  | .tshort => 0x109
  | .rwin => 0x10A
  | .lidx n => 0x020 + n.val

/-- Is a register privileged (03 R78). -/
def csrPriv (c : Csr) : Bool := decide (0x100 ≤ csrCode c)

/-- QBIND targets (03 R79). -/
def qtargetOf (n : Nat) : Option QTarget :=
  if n < 12 then some (.stream (Fin.ofNat 12 n))
  else if 16 ≤ n ∧ n < 32 then some (.chan (Fin.ofNat 16 (n - 16)))
  else if n = 63 then some .none
  else none

def qtargetCode : QTarget → Nat
  | .stream n => n.val
  | .chan n => 16 + n.val
  | .none => 63

def sregOf (n : Nat) : SReg := Fin.ofNat 32 n
def vregOf (n : Nat) : VReg := Fin.ofNat 64 n
def kregOf (n : Nat) : KReg := Fin.ofNat 8 n
def cregOf (n : Nat) : CReg := Fin.ofNat 16 n
def slotOf (n : Nat) : Fin 4 := Fin.ofNat 4 n
def queueOf (n : Nat) : Fin 8 := Fin.ofNat 8 n
def boolOf (n : Nat) : Bool := n % 2 == 1

/-- An instruction whose unused fields are all zero (03 R75, R84). -/
def zeros (l : List Nat) (i : Option Instr) : Option Instr := if l.all (· == 0) then i else none

/-- ALU, major 0x01 (03 R76). -/
def decodeAlu (d a b : SReg) (f : Nat) : Option Instr :=
  match f with
  | 0 => some (.add d a b)
  | 1 => some (.sub d a b)
  | 2 => some (.and d a b)
  | 3 => some (.or d a b)
  | 4 => some (.xor d a b)
  | 5 => some (.sll d a b)
  | 6 => some (.srl d a b)
  | 7 => some (.sra d a b)
  | 8 => some (.slt d a b)
  | 9 => some (.sltu d a b)
  | 10 => some (.mul d a b)
  | 11 => some (.mulh d a b)
  | 12 => some (.mulhu d a b)
  | 13 => some (.div d a b)
  | 14 => some (.divu d a b)
  | 15 => some (.rem d a b)
  | 16 => some (.remu d a b)
  | 17 => some (.min d a b)
  | 18 => some (.max d a b)
  | 19 => some (.minu d a b)
  | 20 => some (.maxu d a b)
  | 21 => zeros [b.val] (some (.clz d a))
  | 22 => zeros [b.val] (some (.ctz d a))
  | 23 => zeros [b.val] (some (.popc d a))
  | 24 => some (.andn d a b)
  | _ => none

/-- IMM, major 0x02: f3 and imm12; shifts hold the amount in [5:0] and the kind in [11:10] (03 R75, 04 R104). -/
def decodeImm (d a : SReg) (f n : Nat) : Option Instr :=
  match f with
  | 0 => some (.addi d a (BitVec.ofNat 12 n))
  | 1 => some (.andi d a (BitVec.ofNat 12 n))
  | 2 => some (.ori d a (BitVec.ofNat 12 n))
  | 3 => some (.xori d a (BitVec.ofNat 12 n))
  | 4 => some (.slti d a (BitVec.ofNat 12 n))
  | 5 => some (.sltiu d a (BitVec.ofNat 12 n))
  | 6 =>
    match n / 64 with
    | 0 => some (.slli d a (BitVec.ofNat 6 n))
    | 16 => some (.srli d a (BitVec.ofNat 6 n))
    | 32 => some (.srai d a (BitVec.ofNat 6 n))
    | _ => none
  | _ => none

/-- FALU, major 0x06: op, rm and precision of funct10 (03 R75, R76). -/
def decodeFalu (d a b : SReg) (op r : Nat) (dp : Bool) : Option Instr :=
  match op with
  | 0 => some (.fadd dp (rmOf r) d a b)
  | 1 => some (.fsub dp (rmOf r) d a b)
  | 2 => some (.fmul dp (rmOf r) d a b)
  | 3 => some (.fdiv dp (rmOf r) d a b)
  | 4 => zeros [b.val] (some (.fsqrt dp (rmOf r) d a))
  | 5 => zeros [r] (some (.fmin dp d a b))
  | 6 => zeros [r] (some (.fmax dp d a b))
  | 7 => some (.fmadd dp (rmOf r) d a b)
  | 8 => zeros [r] (some (.feq dp d a b))
  | 9 => zeros [r] (some (.flt dp d a b))
  | 10 => zeros [r] (some (.fle dp d a b))
  | 11 => zeros [b.val] (some (.fcvtfi dp (rmOf r) d a))
  | 12 => zeros [b.val] (some (.fcvtif dp (rmOf r) d a))
  | 13 => zeros [b.val] (some (.fcvtff dp (rmOf r) d a))
  | _ => none

/-- BRANCH, major 0x08 (03 R75). -/
def decodeBranch (a b : SReg) (f : Nat) (off : BitVec 12) : Option Instr :=
  match f with
  | 0 => some (.beq a b off)
  | 1 => some (.bne a b off)
  | 2 => some (.blt a b off)
  | 3 => some (.bge a b off)
  | 4 => some (.bltu a b off)
  | 5 => some (.bgeu a b off)
  | _ => none

/-- LOAD, major 0x0D (03 R75). -/
def decodeLoad (d a : SReg) (f : Nat) (off : BitVec 12) : Option Instr :=
  match f with
  | 0 => some (.lb d a off)
  | 1 => some (.lh d a off)
  | 2 => some (.lw d a off)
  | 3 => some (.ld d a off)
  | 4 => some (.lbn d a off)
  | 5 => some (.lhn d a off)
  | 6 => some (.lwn d a off)
  | _ => none

/-- STORE, major 0x0E (03 R75). -/
def decodeStore (b a : SReg) (f : Nat) (off : BitVec 12) : Option Instr :=
  match f with
  | 0 => some (.sb b a off)
  | 1 => some (.sh b a off)
  | 2 => some (.sw b a off)
  | 3 => some (.sd b a off)
  | _ => none

/-- AMO, major 0x10: op, order and scope of funct10 (03 R75, R76). -/
def decodeAmo (d a b : SReg) (op : Nat) (o : Order) (sc : Scope) : Option Instr :=
  match op with
  | 0 => some (.amoswp sc o d a b)
  | 1 => some (.amoadd sc o d a b)
  | 2 => some (.amoand sc o d a b)
  | 3 => some (.amoor sc o d a b)
  | 4 => some (.amoxor sc o d a b)
  | 5 => some (.amomin sc o d a b)
  | 6 => some (.amomax sc o d a b)
  | 7 => some (.amominu sc o d a b)
  | 8 => some (.amomaxu sc o d a b)
  | 9 => some (.amocas sc o d a b)
  | 10 => some (.amofadd sc o d a b)
  | 11 => zeros [b.val] (some (.ldo sc o d a))
  | 12 => zeros [d.val] (some (.sto sc o a b))
  | _ => none

/-- Majors of format S3 and SV (03 R73, R75): sd, sa, sb and funct10. -/
def decodeS3 (maj : Nat) (d a b f : Nat) : Option Instr :=
  let d' := sregOf d
  let a' := sregOf a
  let b' := sregOf b
  match maj with
  | 0x01 => decodeAlu d' a' b' f
  | 0x06 => decodeFalu d' a' b' (f % 64) (f / 64 % 8) (boolOf (f / 512))
  | 0x10 => do decodeAmo d' a' b' (f % 32) (← orderOf (f / 32 % 4)) (← scopeOf (f / 128))
  | 0x12 => do some (.waitv (← condOf f) d' a' b')
  | 0x16 => if f < 512 then some (.vsetvl d' a' b' (BitVec.ofNat 9 f)) else none
  | 0x18 => if f < 32 then some (.vsetvlx d' a' b' (sregOf f)) else none
  | 0x24 =>
    match f with
    | 0 => zeros [b] (some (.bella d' a'))
    | 1 => zeros [b, d] (some (.bellf a'))
    | 2 => some (.bellring a' b' d')
    | 3 => zeros [b] (some (.bellq d' a'))
    | _ => none
  | _ => none

/-- Majors of formats SI, SB, SM and SC (03 R73, R75): the field at [11:7], the field at [16:12], f3 and imm12. -/
def decodeSI (maj : Nat) (d a f n : Nat) : Option Instr :=
  let d' := sregOf d
  let a' := sregOf a
  let i' := BitVec.ofNat 12 n
  match maj with
  | 0x02 => decodeImm d' a' f n
  | 0x08 => decodeBranch d' a' f i'
  | 0x09 =>
    match f with
    | 0 => some (.bsubnz d' a' i')
    | 1 => some (.bsubgt d' a' i')
    | _ => none
  | 0x0C => zeros [f] (some (.jalr d' a' i'))
  | 0x0D => decodeLoad d' a' f i'
  | 0x0E => decodeStore d' a' f i'
  | 0x11 =>
    match f with
    | 0 =>
      zeros [d, a, n / 32] (if n / 8 % 4 = 0 then none else do
        some (.fence (← scopeOf (n % 8)) (boolOf (n / 8)) (boolOf (n / 16))))
    | 1 => zeros [d, a, n] (some .fenceSv)
    | 2 => zeros [d, a, n] (some .fenceVs)
    | 3 => zeros [d, n] (some (.sbar a'))
    | _ => none
  | 0x14 =>
    match f with
    | 0 => zeros [a] (do some (.csrr d' (← csrOf n)))
    | 1 => do some (.csrw d' (← csrOf n) a')
    | 2 => do some (.csrs d' (← csrOf n) a')
    | 3 => do some (.csrc d' (← csrOf n) a')
    | _ => none
  | 0x15 =>
    zeros [d, a, n / 32] (if f ≤ 4 ∧ 8 ≤ n % 32 ∧ n % 32 ≤ 16 then
      some (.vconf (BitVec.ofNat 3 f) (BitVec.ofNat 5 n)) else none)
  | 0x1A =>
    zeros [d, n / 64] (match f with
      | 0 => some (.loop a' (BitVec.ofNat 6 n))
      | 1 => some (.loopn a' (BitVec.ofNat 6 n))
      | _ => none)
  | 0x1C =>
    zeros [d, a, n] (match f with
      | 0 => some .ecall
      | 1 => some .ebreak
      | 2 => some .tret
      | 3 => some .exit
      | 4 => some .yield
      | _ => none)
  | 0x1D =>
    match f with
    | 0 => zeros [n] (some (.launch d' a'))
    | 1 => zeros [n, d] (some (.ksend a'))
    | 2 => zeros [n, d] (some (.kwait a'))
    | 3 => zeros [n] (some (.kstat d' a'))
    | _ => none
  | 0x1E =>
    let ch := Fin.ofNat 16 n
    match f with
    | 0 => zeros [n / 16] (some (.cpy ch d' a'))
    | 1 => zeros [n / 16, d] (some (.cnest ch a'))
    | 2 => zeros [n / 16, d, a] (some (.cdrain ch))
    | 3 => zeros [n, d] (some (.shadow a'))
    | 4 => zeros [n, d] (some (.publish a'))
    | _ => none
  | 0x20 =>
    let q := queueOf n
    match f with
    | 0 => zeros [n / 8, d] (some (.qpush q a'))
    | 1 => zeros [n / 8, a] (some (.qpop d' q))
    | 2 => zeros [n / 512, d, a] (do some (.qbind q (← qtargetOf (n / 8 % 64))))
    | _ => none
  | 0x21 =>
    let e := slotOf n
    match f with
    | 0 => zeros [n / 4, d] (some (.dgload e a'))
    | 1 => zeros [n / 4, d] (some (.dgstart e a'))
    | 2 => zeros [n / 4, d, a] (some (.dgstop e))
    | 3 => zeros [n / 4, a] (some (.dgstat d' e))
    | _ => none
  | 0x22 =>
    match f with
    | 0 => zeros [n] (some (.tsync d' a'))
    | 1 => zeros [n, d] (some (.cask a'))
    | 2 => zeros [n, d] (some (.pgpin a'))
    | _ => none
  | _ => none

/-- Majors of formats SL and SJ (03 R73): sd and imm20. -/
def decodeSL (maj : Nat) (d n : Nat) : Option Instr :=
  match maj with
  | 0x04 => some (.lui (sregOf d) (BitVec.ofNat 20 n))
  | 0x05 => some (.auipc (sregOf d) (BitVec.ofNat 20 n))
  | 0x0A => some (.jal (sregOf d) (BitVec.ofNat 20 n))
  | _ => none

/-- The shape of a major (03 R75). -/
inductive Shape32 where
  | s3 | si | sl | convoy | bad
  deriving DecidableEq, Repr

def shapeOf (maj : Nat) : Shape32 :=
  match maj with
  | 0x01 | 0x06 | 0x10 | 0x12 | 0x16 | 0x18 | 0x24 => .s3
  | 0x02 | 0x08 | 0x09 | 0x0C | 0x0D | 0x0E | 0x11 | 0x14 | 0x15 | 0x1A | 0x1C | 0x1D | 0x1E | 0x20 | 0x21 | 0x22 => .si
  | 0x04 | 0x05 | 0x0A => .sl
  | 0x19 => .convoy
  | _ => .bad

/-- A 32-bit instruction (03 R73 to R80, R82): its major is bits [6:0]. -/
def decode32 (w : Nat) : Option Instr :=
  let maj := w % 128
  let r := w / 128
  match shapeOf maj with
  | .s3 =>
    match cutFields [5, 5, 5, 10] r with
    | [d, a, b, f] => decodeS3 maj d a b f
    | _ => none
  | .si =>
    match cutFields [5, 5, 3, 12] r with
    | [d, a, f, n] => decodeSI maj d a f n
    | _ => none
  | .sl =>
    match cutFields [5, 20] r with
    | [d, n] => decodeSL maj d n
    | _ => none
  | .convoy =>
    match cutFields [3, 18, 4] r with
    | [c, u, z] => zeros [z] (some (.convoy (BitVec.ofNat 3 c) (BitVec.ofNat 18 u)))
    | _ => none
  | .bad => none

/-- The fields of a VV instruction (03 R81). -/
structure VvFields where
  vd : Nat
  va : Nat
  vb : Nat
  vc : Nat
  k : Nat
  kz : Nat
  rm : Nat
  tm : Nat
  sx : Nat
  f : Nat
  ss : Nat
  imm : Nat
  deriving DecidableEq, Repr

/-- The governing mask of a VV member (03 R84). -/
def VvFields.ctl (x : VvFields) : Ctl := ⟨kregOf x.k, boolOf x.kz⟩

/-- vb, or with sx = 1 the scalar ss; the other field must then be zero (03 R84). -/
def VvFields.vbOp (x : VvFields) : Option VB :=
  if x.sx = 0 then (if x.ss = 0 then some (.reg (vregOf x.vb)) else none)
  else (if x.vb = 0 then some (.scalar (sregOf x.ss)) else none)

/-- A mask number in a 6-bit field (03 R84). -/
def maskOf (n : Nat) : Option KReg := if n < 8 then some (kregOf n) else none

/-- A scalar number in the vc field (03 R84). -/
def scalarOf (n : Nat) : Option SReg := if n < 32 then some (sregOf n) else none

/-- Members vd, va, vb with rm, tm and sx. -/
def VvFields.binRm (x : VvFields) (mk : VReg → VReg → VB → Rm → Tm → Ctl → Instr) : Option Instr :=
  zeros [x.vc, x.imm] (do
    some (mk (vregOf x.vd) (vregOf x.va) (← x.vbOp) (rmOf x.rm) (← tmOf x.tm) x.ctl))

/-- Members vd, va, vb with tm and sx. -/
def VvFields.bin (x : VvFields) (mk : VReg → VReg → VB → Tm → Ctl → Instr) : Option Instr :=
  zeros [x.vc, x.imm, x.rm] (do some (mk (vregOf x.vd) (vregOf x.va) (← x.vbOp) (← tmOf x.tm) x.ctl))

/-- Members vd, va, vb, vc with rm, tm and sx. -/
def VvFields.tri (x : VvFields) (mk : VReg → VReg → VB → VReg → Rm → Tm → Ctl → Instr) : Option Instr :=
  zeros [x.imm] (do
    some (mk (vregOf x.vd) (vregOf x.va) (← x.vbOp) (vregOf x.vc) (rmOf x.rm) (← tmOf x.tm) x.ctl))

/-- Members vd, va with rm and tm. -/
def VvFields.unRm (x : VvFields) (mk : VReg → VReg → Rm → Tm → Ctl → Instr) : Option Instr :=
  zeros [x.vb, x.vc, x.sx, x.ss, x.imm] (do
    some (mk (vregOf x.vd) (vregOf x.va) (rmOf x.rm) (← tmOf x.tm) x.ctl))

/-- Members vd, va with tm. -/
def VvFields.un (x : VvFields) (mk : VReg → VReg → Tm → Ctl → Instr) : Option Instr :=
  zeros [x.vb, x.vc, x.sx, x.ss, x.imm, x.rm] (do some (mk (vregOf x.vd) (vregOf x.va) (← tmOf x.tm) x.ctl))

/-- Compares kd, va, vb with sx. -/
def VvFields.cmp (x : VvFields) (mk : KReg → VReg → VB → Ctl → Instr) : Option Instr :=
  zeros [x.vc, x.imm, x.rm, x.tm] (do some (mk (← maskOf x.vd) (vregOf x.va) (← x.vbOp) x.ctl))

/-- Mask logic kd, ka, kb. -/
def VvFields.klog (x : VvFields) (mk : KReg → KReg → KReg → Ctl → Instr) : Option Instr :=
  zeros [x.vc, x.sx, x.ss, x.imm, x.rm, x.tm] (do some (mk (← maskOf x.vd) (← maskOf x.va) (← maskOf x.vb) x.ctl))

/-- Members sd, ka, with sd in ss. -/
def VvFields.kscal (x : VvFields) (mk : SReg → KReg → Ctl → Instr) : Option Instr :=
  zeros [x.vd, x.vb, x.vc, x.sx, x.imm, x.rm, x.tm] (do some (mk (sregOf x.ss) (← maskOf x.va) x.ctl))

/-- Members vd alone. -/
def VvFields.only (x : VvFields) (mk : VReg → Ctl → Instr) : Option Instr :=
  zeros [x.va, x.vb, x.vc, x.sx, x.ss, x.imm, x.rm, x.tm] (some (mk (vregOf x.vd) x.ctl))

/-- Members vd, va alone. -/
def VvFields.two (x : VvFields) (mk : VReg → VReg → Ctl → Instr) : Option Instr :=
  zeros [x.vb, x.vc, x.sx, x.ss, x.imm, x.rm, x.tm] (some (mk (vregOf x.vd) (vregOf x.va) x.ctl))

/-- Members vd, ss alone. -/
def VvFields.withS (x : VvFields) (mk : VReg → SReg → Ctl → Instr) : Option Instr :=
  zeros [x.va, x.vb, x.vc, x.sx, x.imm, x.rm, x.tm] (some (mk (vregOf x.vd) (sregOf x.ss) x.ctl))

/-- Slides: vd, va, amount, sf (03 R84). -/
def VvFields.slide (x : VvFields) (mk : VReg → VReg → SReg → BitVec 11 → SReg → Tm → Ctl → Instr) : Option Instr :=
  zeros [x.vb, x.sx, x.rm] (do
    some (mk (vregOf x.vd) (vregOf x.va) (sregOf x.ss) (BitVec.ofNat 11 x.imm) (← scalarOf x.vc) (← tmOf x.tm) x.ctl))

/-- Reductions vd, va, vb with rm and tm. -/
def VvFields.red (x : VvFields) (mk : VReg → VReg → VReg → Rm → Tm → Ctl → Instr) : Option Instr :=
  zeros [x.vc, x.sx, x.ss, x.imm] (do
    some (mk (vregOf x.vd) (vregOf x.va) (vregOf x.vb) (rmOf x.rm) (← tmOf x.tm) x.ctl))

/-- The distribution bit (03 R85). -/
def distOf (n : Nat) : Option Dist :=
  match n with
  | 0 => some .rad | 1 => some .n12 | _ => none

def distCode : Dist → Nat
  | .rad => 0 | .n12 => 1

/-- vmaj 0x00 (03 R83, R84, R85). -/
def decodeVfp (x : VvFields) : Option Instr :=
  match x.f with
  | 0 => x.binRm .vfadd
  | 1 => x.binRm .vfsub
  | 2 => x.binRm .vfmul
  | 3 => x.binRm .vfdiv
  | 4 => x.tri .vfma
  | 5 => x.tri .vfms
  | 6 => x.tri .vfnma
  | 7 => x.unRm .vfsqrt
  | 8 => x.bin .vfmin
  | 9 => x.bin .vfmax
  | 10 => x.un .vfabs
  | 11 => x.un .vfneg
  | 12 => x.bin .vfcps
  | _ => none

/-- vmaj 0x01 (03 R83, R84, R85). -/
def decodeVint (x : VvFields) : Option Instr :=
  match x.f with
  | 0 => x.bin .vadd
  | 1 => x.bin .vsub
  | 2 => x.bin .vmul
  | 3 => x.bin .vmulh
  | 4 => x.bin .vmulhu
  | 5 => x.bin .vand
  | 6 => x.bin .vor
  | 7 => x.bin .vxor
  | 8 => x.bin .vsll
  | 9 => x.bin .vsrl
  | 10 => x.bin .vsra
  | 11 => x.bin .vmin
  | 12 => x.bin .vmax
  | 13 => x.bin .vminu
  | 14 => x.bin .vmaxu
  | 15 => x.bin .vsadd
  | 16 => x.bin .vssub
  | _ => none

/-- vmaj 0x02 (03 R83, R84, R85). -/
def decodeVcmp (x : VvFields) : Option Instr :=
  match x.f with
  | 0 => x.cmp .vfeq
  | 1 => x.cmp .vflt
  | 2 => x.cmp .vfle
  | 3 => x.cmp .vfne
  | 4 => x.cmp .vieq
  | 5 => x.cmp .vilt
  | 6 => x.cmp .viltu
  | 7 => x.cmp .vile
  | 16 => x.klog .kand
  | 17 => x.klog .kor
  | 18 => x.klog .kxor
  | 19 => x.klog .kandn
  | 20 => zeros [x.vb, x.vc, x.sx, x.ss, x.imm, x.rm, x.tm] (do some (.knot (← maskOf x.vd) (← maskOf x.va) x.ctl))
  | 24 => x.kscal .kpop
  | 25 => x.kscal .kfirst
  | _ => none

/-- vmaj 0x03 (03 R83, R84, R85). -/
def decodeVsfu (x : VvFields) : Option Instr :=
  match x.f with
  | 0 => x.unRm .vexp
  | 1 => x.unRm .vlog
  | 2 => x.unRm .vtanh
  | 3 => x.unRm .vsigm
  | 4 => x.unRm .vrcp
  | 5 => x.unRm .vrsq
  | 6 => x.unRm .vrelu
  | 7 => x.unRm .vsilu
  | _ => none

/-- vmaj 0x04 (03 R83, R84, R85). -/
def decodeVcvt (x : VvFields) : Option Instr :=
  match x.f with
  | 0 => zeros [x.vb, x.vc, x.sx, x.ss, x.imm / 64] (do
      some (.vcvt (← fmtOfCode (x.imm % 32)) (boolOf (x.imm / 32)) (vregOf x.vd) (vregOf x.va) (rmOf x.rm) (← tmOf x.tm) x.ctl))
  | 1 => zeros [x.vc, x.sx, x.ss, x.imm / 128] (do
      some (.vqblk (← fmtOfCode (x.imm % 32)) (boolOf (x.imm / 32)) (boolOf (x.imm / 64)) (vregOf x.vd) (vregOf x.va)
        (vregOf x.vb) (rmOf x.rm) (← tmOf x.tm) x.ctl))
  | 2 => zeros [x.vc, x.sx, x.ss, x.imm / 128, x.imm / 32 % 2] (do
      some (.vdqblk (← fmtOfCode (x.imm % 32)) (boolOf (x.imm / 64)) (vregOf x.vd) (vregOf x.va)
        (vregOf x.vb) (rmOf x.rm) (← tmOf x.tm) x.ctl))
  | 3 => zeros [x.vb, x.vc, x.sx, x.ss, x.imm / 32] (do
      some (.vcvti (← fmtOfCode x.imm) (vregOf x.vd) (vregOf x.va) (rmOf x.rm) (← tmOf x.tm) x.ctl))
  | _ => none

/-- vmaj 0x05 (03 R83, R84, R85). -/
def decodeVmov (x : VvFields) : Option Instr :=
  match x.f with
  | 0 => x.un .vmv
  | 1 => zeros [x.va, x.vb, x.vc, x.sx, x.imm, x.rm] (do some (.vsplat (vregOf x.vd) (sregOf x.ss) (← tmOf x.tm) x.ctl))
  | 2 => zeros [x.vd, x.vb, x.sx, x.imm, x.rm, x.tm] (do some (.vext (sregOf x.ss) (vregOf x.va) (← scalarOf x.vc) x.ctl))
  | 3 => zeros [x.va, x.vb, x.sx, x.imm, x.rm] (do
      some (.vins (vregOf x.vd) (sregOf x.ss) (← scalarOf x.vc) (← tmOf x.tm) x.ctl))
  | 4 => x.only .viota
  | 5 => x.bin .vmerge
  | 6 => x.only .vpin
  | 7 => x.only .vunpin
  | 8 => x.only .lwait
  | _ => none

/-- vmaj 0x06 (03 R83, R84, R85). -/
def decodeVperm (x : VvFields) : Option Instr :=
  match x.f with
  | 0 => x.slide .vslup
  | 1 => x.slide .vsldn
  | 2 => zeros [x.vc, x.sx, x.ss, x.imm, x.rm] (do
      some (.vrgath (vregOf x.vd) (vregOf x.va) (vregOf x.vb) (← tmOf x.tm) x.ctl))
  | 3 => x.un .vcompr
  | _ => none

/-- vmaj 0x07 (03 R83, R84, R85). -/
def decodeVred (x : VvFields) : Option Instr :=
  match x.f with
  | 0 => x.red .vfredo
  | 1 => x.red .vfredu
  | 2 => x.red .vfrmax
  | 3 => x.red .vfrmin
  | 4 => x.red .vireds
  | 5 => x.unRm .vscan
  | 6 => x.unRm .vscanf
  | _ => none

/-- vmaj 0x08 (03 R83, R84, R85). -/
def decodeTang (x : VvFields) : Option Instr :=
  match x.f with
  | 0 => zeros [x.va, x.vb, x.vc, x.sx, x.ss, x.rm, x.tm] (do some (.tseed (← distOf x.imm) (vregOf x.vd) x.ctl))
  | 1 => x.only .tzero
  | 2 => x.two .tget
  | 3 => x.two .tput
  | 4 => zeros [x.va, x.vb, x.vc, x.sx, x.ss, x.rm, x.tm] (do some (.tregen (← distOf x.imm) (vregOf x.vd) x.ctl))
  | 5 => zeros [x.vb, x.vc, x.sx, x.ss, x.tm] (do
      some (.tfga (← distOf x.imm) (vregOf x.vd) (vregOf x.va) (rmOf x.rm) x.ctl))
  | 6 => zeros [x.va, x.vb, x.vc, x.sx, x.imm, x.tm] (some (.tscl (vregOf x.vd) (sregOf x.ss) (rmOf x.rm) x.ctl))
  | _ => none

/-- vmaj 0x0C (03 R83, R84, R85). -/
def decodeVbind (x : VvFields) : Option Instr :=
  match x.f with
  | 0 => x.withS .vbind
  | 1 => x.only .vunbind
  | 2 => x.withS .vbskip
  | _ => none

/-- vmaj 0x0D (03 R83, R84, R85). -/
def decodeVq (x : VvFields) : Option Instr :=
  match x.f with
  | 0 => zeros [x.vd, x.vb, x.vc, x.sx, x.ss, x.rm, x.tm, x.imm / 8] (some (.vqpush (queueOf x.imm) (vregOf x.va) x.ctl))
  | 1 => zeros [x.va, x.vb, x.vc, x.sx, x.ss, x.rm, x.imm / 8] (do
      some (.vqpop (vregOf x.vd) (queueOf x.imm) (← tmOf x.tm) x.ctl))
  | _ => none

/-- vmaj 0x0E (03 R83, R84, R85). -/
def decodeVcol (x : VvFields) : Option Instr :=
  match x.f with
  | 0 => zeros [x.vd, x.vb, x.vc, x.sx, x.ss, x.rm, x.tm, x.imm / 4] (some (.vcsend (slotOf x.imm) (vregOf x.va) x.ctl))
  | 1 => zeros [x.va, x.vb, x.vc, x.sx, x.ss, x.rm, x.imm / 4] (do
      some (.vcrecv (vregOf x.vd) (slotOf x.imm) (← tmOf x.tm) x.ctl))
  | 2 => zeros [x.vb, x.vc, x.sx, x.ss, x.imm / 4] (do
      some (.vcred (vregOf x.vd) (vregOf x.va) (slotOf x.imm) (rmOf x.rm) (← tmOf x.tm) x.ctl))
  | _ => none

/-- vmaj 0x0F (03 R83, R84, R85). -/
def decodeVcpk (x : VvFields) : Option Instr :=
  match x.f with
  | 0 => x.two .vcpk
  | 1 => x.only .vcpkf
  | _ => none

/-- A VV instruction of a vector major (03 R83). -/
def decodeVV (maj : Nat) (x : VvFields) : Option Instr :=
  match maj with
  | 0x00 => decodeVfp x
  | 0x01 => decodeVint x
  | 0x02 => decodeVcmp x
  | 0x03 => decodeVsfu x
  | 0x04 => decodeVcvt x
  | 0x05 => decodeVmov x
  | 0x06 => decodeVperm x
  | 0x07 => decodeVred x
  | 0x08 => decodeTang x
  | 0x0C => decodeVbind x
  | 0x0D => decodeVq x
  | 0x0E => decodeVcol x
  | 0x0F => decodeVcpk x
  | _ => none

/-- A row operand (10 R272). -/
def rowOf (row srow : Nat) : Option Row :=
  if srow = 0 then some (.imm (Fin.ofNat 64 row)) else if row = 0 then some (.reg (sregOf srow)) else none

/-- The destination of a drain (10 R276): a vector register with plane 0, memory at a scalar register with plane 31. -/
def mdestOf (vd plane : Nat) : Option MDest :=
  if plane = 0 then some (.vec (vregOf vd))
  else if plane = 31 then (scalarOf vd).map .mem
  else none

/-- A matrix instruction, vmaj 0x09 (03 R81, 10 R270 to R276). -/
def decodeMtx (vd w a row srow plane r f : Nat) : Option Instr :=
  match f with
  | 0 => zeros [vd, a, row, plane, r] (if srow = 0 then none else some (.mcfg (slotOf w) (sregOf srow)))
  | 1 => zeros [a, r] (do some (.mtset (slotOf w) (← rowOf row srow) (vregOf vd) (BitVec.ofNat 5 plane)))
  | 2 => zeros [plane, r] (do some (.mrow (slotOf a) (← rowOf row srow) (slotOf w) (vregOf vd)))
  | 3 => zeros [r] (do some (.mrowd (slotOf a) (← rowOf row srow) (slotOf w) (vregOf vd) (BitVec.ofNat 5 plane)))
  | 4 => zeros [w] (do some (.mdrain (← mdestOf vd plane) (slotOf a) (← rowOf row srow) (rmOf r)))
  | 5 => zeros [w] (do some (.mdraint (← mdestOf vd plane) (slotOf a) (← rowOf row srow) (rmOf r)))
  | 6 => zeros [vd, w, row, srow, plane, r] (some (.maclr (slotOf a)))
  | 7 => zeros [a, plane, r] (do some (.mtscl (slotOf w) (← rowOf row srow) (vregOf vd)))
  | _ => none

/-- The fields of a VM instruction (03 R81). -/
structure VmFields where
  vd : Nat
  sb : Nat
  ss : Nat
  vi : Nat
  mode : Nat
  k : Nat
  kz : Nat
  fmt : Nat
  plane : Nat
  order : Nat
  f : Nat
  off : Nat
  deriving DecidableEq, Repr

/-- A vector load, vmaj 0x0A (03 R86). -/
def decodeVld (x : VmFields) : Option Instr := do
  let fmt ← fmtOfCode x.fmt
  let o ← orderOf x.order
  let p := BitVec.ofNat 5 x.plane
  let off := BitVec.ofNat 10 x.off
  let c : Ctl := ⟨kregOf x.k, boolOf x.kz⟩
  match x.f with
  | 0 => zeros [x.mode, x.ss, x.vi] (some (.vld fmt p o (vregOf x.vd) (sregOf x.sb) off c))
  | 1 =>
    zeros [x.mode, x.vi] (if x.ss = 0 then none else
      some (.vlds fmt p o (vregOf x.vd) (sregOf x.sb) (sregOf x.ss) off c))
  | 2 =>
    zeros [x.ss] (if x.mode = 1 then some (.vldx fmt p o (vregOf x.vd) (sregOf x.sb) off (vregOf x.vi) c) else none)
  | 3 =>
    zeros [x.vi] (if x.mode = 2 then some (.vslr fmt p o (vregOf x.vd) (sregOf x.sb) (sregOf x.ss) off c) else none)
  | 4 =>
    zeros [x.mode, x.vi, x.plane, x.order] (if x.vd < 4 then
      some (.mtld fmt (slotOf x.vd) (sregOf x.sb) (sregOf x.ss) off c) else none)
  | _ => none

/-- A vector store, vmaj 0x0B (03 R86): bit [35] is SAT. -/
def decodeVst (x : VmFields) : Option Instr := do
  let fmt ← fmtOfCode x.fmt
  let p := BitVec.ofNat 5 x.plane
  let off := BitVec.ofNat 10 x.off
  let sat := boolOf x.kz
  if satWf sat fmt then
    match x.f with
    | 0 =>
      zeros [x.mode, x.ss, x.vi] (do
        some (.vst fmt p (← orderOf x.order) sat (vregOf x.vd) (sregOf x.sb) off (kregOf x.k)))
    | 1 =>
      zeros [x.mode, x.vi] (if x.ss = 0 then none else do
        some (.vsts fmt p (← orderOf x.order) sat (vregOf x.vd) (sregOf x.sb) (sregOf x.ss) off (kregOf x.k)))
    | 2 =>
      zeros [x.ss] (if x.mode = 1 then do
        some (.vstx fmt p (← orderOf x.order) sat (vregOf x.vd) (sregOf x.sb) off (vregOf x.vi) (kregOf x.k)) else none)
    | 3 =>
      zeros [x.ss] (if x.mode = 1 ∧ x.order = 4 then
        some (.vstxa fmt p sat (vregOf x.vd) (sregOf x.sb) off (vregOf x.vi) (kregOf x.k)) else none)
    | _ => none
  else none

/-- A 64-bit instruction (03 R81, R83): its vector major is bits [7:2]. -/
def decode64 (w : Nat) : Option Instr :=
  if w % 4 ≠ 3 then none
  else
    let maj := w / 4 % 64
    let r := w / 256
    if maj = 0x09 then
      match cutFields [6, 2, 2, 6, 5, 5, 3, 5, 6, 16] r with
      | [vd, w, a, row, srow, plane, rm, z, f, y] => zeros [z, y] (decodeMtx vd w a row srow plane rm f)
      | _ => none
    else if maj = 0x0A ∨ maj = 0x0B then
      match cutFields [6, 5, 5, 6, 2, 3, 1, 5, 5, 3, 5, 10] r with
      | [vd, sb, ss, vi, mode, k, kz, fmt, plane, order, f, off] =>
        let x : VmFields := ⟨vd, sb, ss, vi, mode, k, kz, fmt, plane, order, f, off⟩
        if maj = 0x0A then decodeVld x else decodeVst x
      | _ => none
    else
      match cutFields [6, 6, 6, 6, 3, 1, 3, 2, 1, 6, 5, 11] r with
      | [vd, va, vb, vc, k, kz, rm, tm, sx, f, ss, imm] => decodeVV maj ⟨vd, va, vb, vc, k, kz, rm, tm, sx, f, ss, imm⟩
      | _ => none

/-- The condition of a BR (15 R363). -/
def brCondOf (n : Nat) : Option BrCond := if n = 0 then some .always else (condOf (n - 1)).map .cmp

def brCondCode : BrCond → Nat
  | .always => 0
  | .cmp c => condCode c + 1

/-- The operation of a REDUCE (15 R363). -/
def redOpOf (n : Nat) : Option RedOp :=
  match n with
  | 0 => some .sum | 1 => some .max | 2 => some .min | _ => none

def redOpCode : RedOp → Nat
  | .sum => 0 | .max => 1 | .min => 2

/-- A Dungen word (15 R363); none is FCODE 1 (15 R366). -/
def decodeDungen (w : Nat) : Option Instr :=
  match cutFields [11, 4, 4, 4, 4, 5] w with
  | [n, d, c, b, a, op] =>
    let a' := cregOf a
    let b' := cregOf b
    let c' := cregOf c
    let d' := cregOf d
    match op with
    | 0 => zeros [n, d, c, b, a] (some .nop)
    | 1 => zeros [n] (some (.send a' b' c' d'))
    | 2 => zeros [n, c] (some (.recv a' b' d'))
    | 3 => zeros [n / 128] (do some (.reduce (← redOpOf (n % 4)) (BitVec.ofNat 5 (n / 4)) a' b' c' d'))
    | 4 => zeros [n, c] (some (.copy a' b' d'))
    | 5 => zeros [d, c] (do some (.wait (← condOf (n % 8)) a' b' (BitVec.ofNat 8 (n / 8))))
    | 6 => zeros [n, d] (some (.ring a' b' c'))
    | 7 => zeros [n, d, c] (some (.alloc a' b'))
    | 8 => zeros [n, d, c, b] (some (.free a'))
    | 9 => zeros [n, d, c] (some (.flag a' b'))
    | 10 => some (.setc a' (BitVec.ofNat 23 w))
    | 11 => zeros [d] (some (.addc a' b' c' (BitVec.ofNat 11 n)))
    | 12 => zeros [d / 2, c, b] (some (.dungenLoop a' (BitVec.ofNat 12 w)))
    | 13 => zeros [d / 2] (do
        let k ← brCondOf c
        if k = .always ∧ (a ≠ 0 ∨ b ≠ 0) then none else some (.br k a' b' (BitVec.ofNat 12 w)))
    | 14 => zeros [n, d, c, b, a] (some .step)
    | 15 => zeros [n, d, c, b, a] (some .dungenFence)
    | 16 => zeros [n, d, c, b, a] (some .halt)
    | _ => none
  | _ => none

/-- Why bytes are no instruction of a hart. -/
inductive DecodeError where
  /-- fewer bytes than the length of the instruction (03 R70) -/
  | truncated
  /-- the all-zero parcel (03 R71) -/
  | zeroParcel
  /-- an unassigned or reserved 32-bit pattern, zero-extended (03 R74, R75, R88) -/
  | reserved32 (bits : Word)
  /-- an unassigned or reserved 64-bit pattern (03 R83 to R88) -/
  | reserved64 (bits : Word)
  deriving DecidableEq, Repr

/-- The instruction at the head of a list of bytes, with the bytes after it, or why there is none (03 R70). -/
def decodeBytes (bs : List Byte) : Except DecodeError (Instr × List Byte) :=
  if bs.length < 4 then .error .truncated
  else
    let w := leValue (bs.take 4)
    if w % 4 = 3 then
      if bs.length < 8 then .error .truncated
      else
        let x := leValue (bs.take 8)
        match decode64 x with
        | some i => .ok (i, bs.drop 8)
        | none => .error (.reserved64 (BitVec.ofNat 64 x))
    else if w = 0 then .error .zeroParcel
    else
      match decode32 w with
      | some i => .ok (i, bs.drop 4)
      | none => .error (.reserved32 (BitVec.ofNat 64 w))

/-- A vb operand as its fields vb, sx and ss. -/
def vbFields : VB → Nat × Nat × Nat
  | .reg v => (v.val, 0, 0)
  | .scalar s => (0, 1, s.val)

/-- A row operand as its fields row immediate and srow. -/
def rowFields : Row → Nat × Nat
  | .imm i => (i.val, 0)
  | .reg s => (0, s.val)

/-- A drain's destination as its fields vd and plane. -/
def mdestFields : MDest → Nat × Nat
  | .vec v => (v.val, 0)
  | .mem s => (s.val, 31)

/-- A word of format S3 (03 R73). -/
def encS3 (maj d a b f : Nat) : Nat := packFields [(7, maj), (5, d), (5, a), (5, b), (10, f)]

/-- A word of formats SI, SB, SM, SC (03 R73). -/
def encSI (maj d a f n : Nat) : Nat := packFields [(7, maj), (5, d), (5, a), (3, f), (12, n)]

/-- A word of formats SL, SJ (03 R73). -/
def encSL (maj d n : Nat) : Nat := packFields [(7, maj), (5, d), (20, n)]

/-- The two parcels of a VV instruction (03 R81). -/
def encVV (maj f : Nat) (c : Ctl) (vd va : Nat) (vb : Nat × Nat × Nat) (vc rm tm imm : Nat) : Nat :=
  packFields [(2, 3), (6, maj), (6, vd), (6, va), (6, vb.1), (6, vc), (3, c.k.val), (1, c.kz.toNat), (3, rm), (2, tm),
    (1, vb.2.1), (6, f), (5, vb.2.2), (11, imm)]

/-- The two parcels of a VM instruction (03 R81). -/
def encVM (maj f vd sb ss vi mode k kz fmt plane order off : Nat) : Nat :=
  packFields [(2, 3), (6, maj), (6, vd), (5, sb), (5, ss), (6, vi), (2, mode), (3, k), (1, kz), (5, fmt), (5, plane),
    (3, order), (5, f), (10, off)]

/-- The two parcels of a matrix instruction (03 R81). -/
def encMX (f vd w a : Nat) (row : Nat × Nat) (plane rm : Nat) : Nat :=
  packFields [(2, 3), (6, 9), (6, vd), (2, w), (2, a), (6, row.1), (5, row.2), (5, plane), (3, rm), (5, 0), (6, f),
    (16, 0)]

/-- A Dungen word (15 R363). -/
def encDg (op a b c d n : Nat) : Nat := packFields [(11, n), (4, d), (4, c), (4, b), (4, a), (5, op)]

/-- The word of an instruction: one parcel, two parcels with the first in the low half, or a Dungen word. A move of
the machine has none, and 0 stands for that. -/
def encode : Instr → Nat
  | .add d a b => encS3 0x01 d.val a.val b.val 0
  | .sub d a b => encS3 0x01 d.val a.val b.val 1
  | .and d a b => encS3 0x01 d.val a.val b.val 2
  | .or d a b => encS3 0x01 d.val a.val b.val 3
  | .xor d a b => encS3 0x01 d.val a.val b.val 4
  | .sll d a b => encS3 0x01 d.val a.val b.val 5
  | .srl d a b => encS3 0x01 d.val a.val b.val 6
  | .sra d a b => encS3 0x01 d.val a.val b.val 7
  | .slt d a b => encS3 0x01 d.val a.val b.val 8
  | .sltu d a b => encS3 0x01 d.val a.val b.val 9
  | .mul d a b => encS3 0x01 d.val a.val b.val 10
  | .mulh d a b => encS3 0x01 d.val a.val b.val 11
  | .mulhu d a b => encS3 0x01 d.val a.val b.val 12
  | .div d a b => encS3 0x01 d.val a.val b.val 13
  | .divu d a b => encS3 0x01 d.val a.val b.val 14
  | .rem d a b => encS3 0x01 d.val a.val b.val 15
  | .remu d a b => encS3 0x01 d.val a.val b.val 16
  | .min d a b => encS3 0x01 d.val a.val b.val 17
  | .max d a b => encS3 0x01 d.val a.val b.val 18
  | .minu d a b => encS3 0x01 d.val a.val b.val 19
  | .maxu d a b => encS3 0x01 d.val a.val b.val 20
  | .clz d a => encS3 0x01 d.val a.val 0 21
  | .ctz d a => encS3 0x01 d.val a.val 0 22
  | .popc d a => encS3 0x01 d.val a.val 0 23
  | .andn d a b => encS3 0x01 d.val a.val b.val 24
  | .addi d a n => encSI 0x02 d.val a.val 0 n.toNat
  | .andi d a n => encSI 0x02 d.val a.val 1 n.toNat
  | .ori d a n => encSI 0x02 d.val a.val 2 n.toNat
  | .xori d a n => encSI 0x02 d.val a.val 3 n.toNat
  | .slti d a n => encSI 0x02 d.val a.val 4 n.toNat
  | .sltiu d a n => encSI 0x02 d.val a.val 5 n.toNat
  | .slli d a n => encSI 0x02 d.val a.val 6 (0 + n.toNat)
  | .srli d a n => encSI 0x02 d.val a.val 6 (1024 + n.toNat)
  | .srai d a n => encSI 0x02 d.val a.val 6 (2048 + n.toNat)
  | .lui d n => encSL 0x04 d.val n.toNat
  | .auipc d n => encSL 0x05 d.val n.toNat
  | .fadd dp rm d a b => encS3 0x06 d.val a.val b.val (0 + 64 * rmCode rm + 512 * dp.toNat)
  | .fsub dp rm d a b => encS3 0x06 d.val a.val b.val (1 + 64 * rmCode rm + 512 * dp.toNat)
  | .fmul dp rm d a b => encS3 0x06 d.val a.val b.val (2 + 64 * rmCode rm + 512 * dp.toNat)
  | .fdiv dp rm d a b => encS3 0x06 d.val a.val b.val (3 + 64 * rmCode rm + 512 * dp.toNat)
  | .fsqrt dp rm d a => encS3 0x06 d.val a.val 0 (4 + 64 * rmCode rm + 512 * dp.toNat)
  | .fmin dp d a b => encS3 0x06 d.val a.val b.val (5 + 512 * dp.toNat)
  | .fmax dp d a b => encS3 0x06 d.val a.val b.val (6 + 512 * dp.toNat)
  | .fmadd dp rm d a b => encS3 0x06 d.val a.val b.val (7 + 64 * rmCode rm + 512 * dp.toNat)
  | .feq dp d a b => encS3 0x06 d.val a.val b.val (8 + 512 * dp.toNat)
  | .flt dp d a b => encS3 0x06 d.val a.val b.val (9 + 512 * dp.toNat)
  | .fle dp d a b => encS3 0x06 d.val a.val b.val (10 + 512 * dp.toNat)
  | .fcvtfi dp rm d a => encS3 0x06 d.val a.val 0 (11 + 64 * rmCode rm + 512 * dp.toNat)
  | .fcvtif dp rm d a => encS3 0x06 d.val a.val 0 (12 + 64 * rmCode rm + 512 * dp.toNat)
  | .fcvtff dp rm d a => encS3 0x06 d.val a.val 0 (13 + 64 * rmCode rm + 512 * dp.toNat)
  | .beq a b off => encSI 0x08 a.val b.val 0 off.toNat
  | .bne a b off => encSI 0x08 a.val b.val 1 off.toNat
  | .blt a b off => encSI 0x08 a.val b.val 2 off.toNat
  | .bge a b off => encSI 0x08 a.val b.val 3 off.toNat
  | .bltu a b off => encSI 0x08 a.val b.val 4 off.toNat
  | .bgeu a b off => encSI 0x08 a.val b.val 5 off.toNat
  | .bsubnz a b off => encSI 0x09 a.val b.val 0 off.toNat
  | .bsubgt a b off => encSI 0x09 a.val b.val 1 off.toNat
  | .jal d off => encSL 0x0A d.val off.toNat
  | .jalr d a n => encSI 0x0C d.val a.val 0 n.toNat
  | .lb d a off => encSI 0x0D d.val a.val 0 off.toNat
  | .lh d a off => encSI 0x0D d.val a.val 1 off.toNat
  | .lw d a off => encSI 0x0D d.val a.val 2 off.toNat
  | .ld d a off => encSI 0x0D d.val a.val 3 off.toNat
  | .lbn d a off => encSI 0x0D d.val a.val 4 off.toNat
  | .lhn d a off => encSI 0x0D d.val a.val 5 off.toNat
  | .lwn d a off => encSI 0x0D d.val a.val 6 off.toNat
  | .sb b a off => encSI 0x0E b.val a.val 0 off.toNat
  | .sh b a off => encSI 0x0E b.val a.val 1 off.toNat
  | .sw b a off => encSI 0x0E b.val a.val 2 off.toNat
  | .sd b a off => encSI 0x0E b.val a.val 3 off.toNat
  | .amoswp sc o d a b => encS3 0x10 d.val a.val b.val (0 + 32 * orderCode o + 128 * scopeCode sc)
  | .amoadd sc o d a b => encS3 0x10 d.val a.val b.val (1 + 32 * orderCode o + 128 * scopeCode sc)
  | .amoand sc o d a b => encS3 0x10 d.val a.val b.val (2 + 32 * orderCode o + 128 * scopeCode sc)
  | .amoor sc o d a b => encS3 0x10 d.val a.val b.val (3 + 32 * orderCode o + 128 * scopeCode sc)
  | .amoxor sc o d a b => encS3 0x10 d.val a.val b.val (4 + 32 * orderCode o + 128 * scopeCode sc)
  | .amomin sc o d a b => encS3 0x10 d.val a.val b.val (5 + 32 * orderCode o + 128 * scopeCode sc)
  | .amomax sc o d a b => encS3 0x10 d.val a.val b.val (6 + 32 * orderCode o + 128 * scopeCode sc)
  | .amominu sc o d a b => encS3 0x10 d.val a.val b.val (7 + 32 * orderCode o + 128 * scopeCode sc)
  | .amomaxu sc o d a b => encS3 0x10 d.val a.val b.val (8 + 32 * orderCode o + 128 * scopeCode sc)
  | .amocas sc o d a b => encS3 0x10 d.val a.val b.val (9 + 32 * orderCode o + 128 * scopeCode sc)
  | .amofadd sc o d a b => encS3 0x10 d.val a.val b.val (10 + 32 * orderCode o + 128 * scopeCode sc)
  | .ldo sc o d a => encS3 0x10 d.val a.val 0 (11 + 32 * orderCode o + 128 * scopeCode sc)
  | .sto sc o a b => encS3 0x10 0 a.val b.val (12 + 32 * orderCode o + 128 * scopeCode sc)
  | .fence sc acq rel => encSI 0x11 0 0 0 (scopeCode sc + 8 * acq.toNat + 16 * rel.toNat)
  | .fenceSv => encSI 0x11 0 0 1 0
  | .fenceVs => encSI 0x11 0 0 2 0
  | .sbar a => encSI 0x11 0 a.val 3 0
  | .waitv c d a b => encS3 0x12 d.val a.val b.val (condCode c)
  | .csrr d c => encSI 0x14 d.val 0 0 (csrCode c)
  | .csrw d c a => encSI 0x14 d.val a.val 1 (csrCode c)
  | .csrs d c a => encSI 0x14 d.val a.val 2 (csrCode c)
  | .csrc d c a => encSI 0x14 d.val a.val 3 (csrCode c)
  | .vconf nrc sreq => encSI 0x15 0 0 nrc.toNat sreq.toNat
  | .vsetvl d a b vt => encS3 0x16 d.val a.val b.val vt.toNat
  | .vsetvlx d a b x => encS3 0x18 d.val a.val b.val x.val
  | .convoy c u => packFields [(7, 0x19), (3, c.toNat), (18, u.toNat), (4, 0)]
  | .loop a n => encSI 0x1A 0 a.val 0 n.toNat
  | .loopn a n => encSI 0x1A 0 a.val 1 n.toNat
  | .ecall => encSI 0x1C 0 0 0 0
  | .ebreak => encSI 0x1C 0 0 1 0
  | .tret => encSI 0x1C 0 0 2 0
  | .exit => encSI 0x1C 0 0 3 0
  | .yield => encSI 0x1C 0 0 4 0
  | .launch d a => encSI 0x1D d.val a.val 0 0
  | .ksend a => encSI 0x1D 0 a.val 1 0
  | .kwait a => encSI 0x1D 0 a.val 2 0
  | .kstat d a => encSI 0x1D d.val a.val 3 0
  | .cpy ch d a => encSI 0x1E d.val a.val 0 ch.val
  | .cnest ch a => encSI 0x1E 0 a.val 1 ch.val
  | .cdrain ch => encSI 0x1E 0 0 2 ch.val
  | .shadow a => encSI 0x1E 0 a.val 3 0
  | .publish a => encSI 0x1E 0 a.val 4 0
  | .qpush q a => encSI 0x20 0 a.val 0 q.val
  | .qpop d q => encSI 0x20 d.val 0 1 q.val
  | .qbind q t => encSI 0x20 0 0 2 (q.val + 8 * qtargetCode t)
  | .dgload e a => encSI 0x21 0 a.val 0 e.val
  | .dgstart e a => encSI 0x21 0 a.val 1 e.val
  | .dgstop e => encSI 0x21 0 0 2 e.val
  | .dgstat d e => encSI 0x21 d.val 0 3 e.val
  | .tsync d a => encSI 0x22 d.val a.val 0 0
  | .cask a => encSI 0x22 0 a.val 1 0
  | .pgpin a => encSI 0x22 0 a.val 2 0
  | .bella d a => encS3 0x24 d.val a.val 0 0
  | .bellf a => encS3 0x24 0 a.val 0 1
  | .bellring a b d => encS3 0x24 d.val a.val b.val 2
  | .bellq d a => encS3 0x24 d.val a.val 0 3
  | .vfadd vd va vb rm tm c => encVV 0x00 0 c vd.val va.val (vbFields vb) 0 (rmCode rm) (tmCode tm) 0
  | .vfsub vd va vb rm tm c => encVV 0x00 1 c vd.val va.val (vbFields vb) 0 (rmCode rm) (tmCode tm) 0
  | .vfmul vd va vb rm tm c => encVV 0x00 2 c vd.val va.val (vbFields vb) 0 (rmCode rm) (tmCode tm) 0
  | .vfdiv vd va vb rm tm c => encVV 0x00 3 c vd.val va.val (vbFields vb) 0 (rmCode rm) (tmCode tm) 0
  | .vfma vd va vb vc rm tm c => encVV 0x00 4 c vd.val va.val (vbFields vb) vc.val (rmCode rm) (tmCode tm) 0
  | .vfms vd va vb vc rm tm c => encVV 0x00 5 c vd.val va.val (vbFields vb) vc.val (rmCode rm) (tmCode tm) 0
  | .vfnma vd va vb vc rm tm c => encVV 0x00 6 c vd.val va.val (vbFields vb) vc.val (rmCode rm) (tmCode tm) 0
  | .vfsqrt vd va rm tm c => encVV 0x00 7 c vd.val va.val (0, 0, 0) 0 (rmCode rm) (tmCode tm) 0
  | .vfmin vd va vb tm c => encVV 0x00 8 c vd.val va.val (vbFields vb) 0 0 (tmCode tm) 0
  | .vfmax vd va vb tm c => encVV 0x00 9 c vd.val va.val (vbFields vb) 0 0 (tmCode tm) 0
  | .vfabs vd va tm c => encVV 0x00 10 c vd.val va.val (0, 0, 0) 0 0 (tmCode tm) 0
  | .vfneg vd va tm c => encVV 0x00 11 c vd.val va.val (0, 0, 0) 0 0 (tmCode tm) 0
  | .vfcps vd va vb tm c => encVV 0x00 12 c vd.val va.val (vbFields vb) 0 0 (tmCode tm) 0
  | .vadd vd va vb tm c => encVV 0x01 0 c vd.val va.val (vbFields vb) 0 0 (tmCode tm) 0
  | .vsub vd va vb tm c => encVV 0x01 1 c vd.val va.val (vbFields vb) 0 0 (tmCode tm) 0
  | .vmul vd va vb tm c => encVV 0x01 2 c vd.val va.val (vbFields vb) 0 0 (tmCode tm) 0
  | .vmulh vd va vb tm c => encVV 0x01 3 c vd.val va.val (vbFields vb) 0 0 (tmCode tm) 0
  | .vmulhu vd va vb tm c => encVV 0x01 4 c vd.val va.val (vbFields vb) 0 0 (tmCode tm) 0
  | .vand vd va vb tm c => encVV 0x01 5 c vd.val va.val (vbFields vb) 0 0 (tmCode tm) 0
  | .vor vd va vb tm c => encVV 0x01 6 c vd.val va.val (vbFields vb) 0 0 (tmCode tm) 0
  | .vxor vd va vb tm c => encVV 0x01 7 c vd.val va.val (vbFields vb) 0 0 (tmCode tm) 0
  | .vsll vd va vb tm c => encVV 0x01 8 c vd.val va.val (vbFields vb) 0 0 (tmCode tm) 0
  | .vsrl vd va vb tm c => encVV 0x01 9 c vd.val va.val (vbFields vb) 0 0 (tmCode tm) 0
  | .vsra vd va vb tm c => encVV 0x01 10 c vd.val va.val (vbFields vb) 0 0 (tmCode tm) 0
  | .vmin vd va vb tm c => encVV 0x01 11 c vd.val va.val (vbFields vb) 0 0 (tmCode tm) 0
  | .vmax vd va vb tm c => encVV 0x01 12 c vd.val va.val (vbFields vb) 0 0 (tmCode tm) 0
  | .vminu vd va vb tm c => encVV 0x01 13 c vd.val va.val (vbFields vb) 0 0 (tmCode tm) 0
  | .vmaxu vd va vb tm c => encVV 0x01 14 c vd.val va.val (vbFields vb) 0 0 (tmCode tm) 0
  | .vsadd vd va vb tm c => encVV 0x01 15 c vd.val va.val (vbFields vb) 0 0 (tmCode tm) 0
  | .vssub vd va vb tm c => encVV 0x01 16 c vd.val va.val (vbFields vb) 0 0 (tmCode tm) 0
  | .vfeq kd va vb c => encVV 0x02 0 c kd.val va.val (vbFields vb) 0 0 0 0
  | .vflt kd va vb c => encVV 0x02 1 c kd.val va.val (vbFields vb) 0 0 0 0
  | .vfle kd va vb c => encVV 0x02 2 c kd.val va.val (vbFields vb) 0 0 0 0
  | .vfne kd va vb c => encVV 0x02 3 c kd.val va.val (vbFields vb) 0 0 0 0
  | .vieq kd va vb c => encVV 0x02 4 c kd.val va.val (vbFields vb) 0 0 0 0
  | .vilt kd va vb c => encVV 0x02 5 c kd.val va.val (vbFields vb) 0 0 0 0
  | .viltu kd va vb c => encVV 0x02 6 c kd.val va.val (vbFields vb) 0 0 0 0
  | .vile kd va vb c => encVV 0x02 7 c kd.val va.val (vbFields vb) 0 0 0 0
  | .kand kd ka kb c => encVV 0x02 16 c kd.val ka.val (kb.val, 0, 0) 0 0 0 0
  | .kor kd ka kb c => encVV 0x02 17 c kd.val ka.val (kb.val, 0, 0) 0 0 0 0
  | .kxor kd ka kb c => encVV 0x02 18 c kd.val ka.val (kb.val, 0, 0) 0 0 0 0
  | .kandn kd ka kb c => encVV 0x02 19 c kd.val ka.val (kb.val, 0, 0) 0 0 0 0
  | .knot kd ka c => encVV 0x02 20 c kd.val ka.val (0, 0, 0) 0 0 0 0
  | .kpop sd ka c => encVV 0x02 24 c 0 ka.val (0, 0, sd.val) 0 0 0 0
  | .kfirst sd ka c => encVV 0x02 25 c 0 ka.val (0, 0, sd.val) 0 0 0 0
  | .vexp vd va rm tm c => encVV 0x03 0 c vd.val va.val (0, 0, 0) 0 (rmCode rm) (tmCode tm) 0
  | .vlog vd va rm tm c => encVV 0x03 1 c vd.val va.val (0, 0, 0) 0 (rmCode rm) (tmCode tm) 0
  | .vtanh vd va rm tm c => encVV 0x03 2 c vd.val va.val (0, 0, 0) 0 (rmCode rm) (tmCode tm) 0
  | .vsigm vd va rm tm c => encVV 0x03 3 c vd.val va.val (0, 0, 0) 0 (rmCode rm) (tmCode tm) 0
  | .vrcp vd va rm tm c => encVV 0x03 4 c vd.val va.val (0, 0, 0) 0 (rmCode rm) (tmCode tm) 0
  | .vrsq vd va rm tm c => encVV 0x03 5 c vd.val va.val (0, 0, 0) 0 (rmCode rm) (tmCode tm) 0
  | .vrelu vd va rm tm c => encVV 0x03 6 c vd.val va.val (0, 0, 0) 0 (rmCode rm) (tmCode tm) 0
  | .vsilu vd va rm tm c => encVV 0x03 7 c vd.val va.val (0, 0, 0) 0 (rmCode rm) (tmCode tm) 0
  | .vcvt src sat vd va rm tm c => encVV 0x04 0 c vd.val va.val (0, 0, 0) 0 (rmCode rm) (tmCode tm) (fmtCode src + 32 * sat.toNat)
  | .vqblk fmt sat b32 vd va vb rm tm c => encVV 0x04 1 c vd.val va.val (vb.val, 0, 0) 0 (rmCode rm) (tmCode tm)
      (fmtCode fmt + 32 * sat.toNat + 64 * b32.toNat)
  | .vdqblk fmt b32 vd va vb rm tm c => encVV 0x04 2 c vd.val va.val (vb.val, 0, 0) 0 (rmCode rm) (tmCode tm)
      (fmtCode fmt + 64 * b32.toNat)
  | .vcvti src vd va rm tm c => encVV 0x04 3 c vd.val va.val (0, 0, 0) 0 (rmCode rm) (tmCode tm) (fmtCode src)
  | .vmv vd va tm c => encVV 0x05 0 c vd.val va.val (0, 0, 0) 0 0 (tmCode tm) 0
  | .vsplat vd ss tm c => encVV 0x05 1 c vd.val 0 (0, 0, ss.val) 0 0 (tmCode tm) 0
  | .vext sd va si c => encVV 0x05 2 c 0 va.val (0, 0, sd.val) si.val 0 0 0
  | .vins vd ss si tm c => encVV 0x05 3 c vd.val 0 (0, 0, ss.val) si.val 0 (tmCode tm) 0
  | .viota vd c => encVV 0x05 4 c vd.val 0 (0, 0, 0) 0 0 0 0
  | .vmerge vd va vb tm c => encVV 0x05 5 c vd.val va.val (vbFields vb) 0 0 (tmCode tm) 0
  | .vpin vd c => encVV 0x05 6 c vd.val 0 (0, 0, 0) 0 0 0 0
  | .vunpin vd c => encVV 0x05 7 c vd.val 0 (0, 0, 0) 0 0 0 0
  | .lwait vd c => encVV 0x05 8 c vd.val 0 (0, 0, 0) 0 0 0 0
  | .vslup vd va ss imm sf tm c => encVV 0x06 0 c vd.val va.val (0, 0, ss.val) sf.val 0 (tmCode tm) imm.toNat
  | .vsldn vd va ss imm sf tm c => encVV 0x06 1 c vd.val va.val (0, 0, ss.val) sf.val 0 (tmCode tm) imm.toNat
  | .vrgath vd va vb tm c => encVV 0x06 2 c vd.val va.val (vb.val, 0, 0) 0 0 (tmCode tm) 0
  | .vcompr vd va tm c => encVV 0x06 3 c vd.val va.val (0, 0, 0) 0 0 (tmCode tm) 0
  | .vfredo vd va vb rm tm c => encVV 0x07 0 c vd.val va.val (vb.val, 0, 0) 0 (rmCode rm) (tmCode tm) 0
  | .vfredu vd va vb rm tm c => encVV 0x07 1 c vd.val va.val (vb.val, 0, 0) 0 (rmCode rm) (tmCode tm) 0
  | .vfrmax vd va vb rm tm c => encVV 0x07 2 c vd.val va.val (vb.val, 0, 0) 0 (rmCode rm) (tmCode tm) 0
  | .vfrmin vd va vb rm tm c => encVV 0x07 3 c vd.val va.val (vb.val, 0, 0) 0 (rmCode rm) (tmCode tm) 0
  | .vireds vd va vb rm tm c => encVV 0x07 4 c vd.val va.val (vb.val, 0, 0) 0 (rmCode rm) (tmCode tm) 0
  | .vscan vd va rm tm c => encVV 0x07 5 c vd.val va.val (0, 0, 0) 0 (rmCode rm) (tmCode tm) 0
  | .vscanf vd va rm tm c => encVV 0x07 6 c vd.val va.val (0, 0, 0) 0 (rmCode rm) (tmCode tm) 0
  | .tseed dist vd c => encVV 0x08 0 c vd.val 0 (0, 0, 0) 0 0 0 (distCode dist)
  | .tzero vd c => encVV 0x08 1 c vd.val 0 (0, 0, 0) 0 0 0 0
  | .tget vd va c => encVV 0x08 2 c vd.val va.val (0, 0, 0) 0 0 0 0
  | .tput vd va c => encVV 0x08 3 c vd.val va.val (0, 0, 0) 0 0 0 0
  | .tregen dist vd c => encVV 0x08 4 c vd.val 0 (0, 0, 0) 0 0 0 (distCode dist)
  | .tfga dist vd va rm c => encVV 0x08 5 c vd.val va.val (0, 0, 0) 0 (rmCode rm) 0 (distCode dist)
  | .tscl vd ss rm c => encVV 0x08 6 c vd.val 0 (0, 0, ss.val) 0 (rmCode rm) 0 0
  | .vbind vd ss c => encVV 0x0C 0 c vd.val 0 (0, 0, ss.val) 0 0 0 0
  | .vunbind vd c => encVV 0x0C 1 c vd.val 0 (0, 0, 0) 0 0 0 0
  | .vbskip vd ss c => encVV 0x0C 2 c vd.val 0 (0, 0, ss.val) 0 0 0 0
  | .vqpush q va c => encVV 0x0D 0 c 0 va.val (0, 0, 0) 0 0 0 q.val
  | .vqpop vd q tm c => encVV 0x0D 1 c vd.val 0 (0, 0, 0) 0 0 (tmCode tm) q.val
  | .vcsend f va c => encVV 0x0E 0 c 0 va.val (0, 0, 0) 0 0 0 f.val
  | .vcrecv vd f tm c => encVV 0x0E 1 c vd.val 0 (0, 0, 0) 0 0 (tmCode tm) f.val
  | .vcred vd va f rm tm c => encVV 0x0E 2 c vd.val va.val (0, 0, 0) 0 (rmCode rm) (tmCode tm) f.val
  | .vcpk vd va c => encVV 0x0F 0 c vd.val va.val (0, 0, 0) 0 0 0 0
  | .vcpkf vd c => encVV 0x0F 1 c vd.val 0 (0, 0, 0) 0 0 0 0
  | .mcfg w sr => encMX 0 0 w.val 0 (0, sr.val) 0 0
  | .mtset w row va p => encMX 1 va.val w.val 0 (rowFields row) p.toNat 0
  | .mrow a row w va => encMX 2 va.val w.val a.val (rowFields row) 0 0
  | .mrowd a row w va p => encMX 3 va.val w.val a.val (rowFields row) p.toNat 0
  | .mdrain dst a row rm => encMX 4 (mdestFields dst).1 0 a.val (rowFields row) (mdestFields dst).2 (rmCode rm)
  | .mdraint dst a row rm => encMX 5 (mdestFields dst).1 0 a.val (rowFields row) (mdestFields dst).2 (rmCode rm)
  | .maclr a => encMX 6 0 0 a.val (0, 0) 0 0
  | .mtscl w row va => encMX 7 va.val w.val 0 (rowFields row) 0 0
  | .vld fmt p o vd sb off c =>
    encVM 0x0A 0 vd.val sb.val 0 0 0 c.k.val c.kz.toNat (fmtCode fmt) p.toNat (orderCode o) off.toNat
  | .vlds fmt p o vd sb ss off c =>
    encVM 0x0A 1 vd.val sb.val ss.val 0 0 c.k.val c.kz.toNat (fmtCode fmt) p.toNat (orderCode o) off.toNat
  | .vldx fmt p o vd sb off vi c =>
    encVM 0x0A 2 vd.val sb.val 0 vi.val 1 c.k.val c.kz.toNat (fmtCode fmt) p.toNat (orderCode o) off.toNat
  | .vslr fmt p o vd sb ss off c =>
    encVM 0x0A 3 vd.val sb.val ss.val 0 2 c.k.val c.kz.toNat (fmtCode fmt) p.toNat (orderCode o) off.toNat
  | .mtld fmt w sb ss off c =>
    encVM 0x0A 4 w.val sb.val ss.val 0 0 c.k.val c.kz.toNat (fmtCode fmt) 0 0 off.toNat
  | .vst fmt p o sat vs sb off k =>
    encVM 0x0B 0 vs.val sb.val 0 0 0 k.val sat.toNat (fmtCode fmt) p.toNat (orderCode o) off.toNat
  | .vsts fmt p o sat vs sb ss off k =>
    encVM 0x0B 1 vs.val sb.val ss.val 0 0 k.val sat.toNat (fmtCode fmt) p.toNat (orderCode o) off.toNat
  | .vstx fmt p o sat vs sb off vi k =>
    encVM 0x0B 2 vs.val sb.val 0 vi.val 1 k.val sat.toNat (fmtCode fmt) p.toNat (orderCode o) off.toNat
  | .vstxa fmt p sat vs sb off vi k =>
    encVM 0x0B 3 vs.val sb.val 0 vi.val 1 k.val sat.toNat (fmtCode fmt) p.toNat 4 off.toNat
  | .nop => encDg 0 0 0 0 0 0
  | .send a b c d => encDg 1 a.val b.val c.val d.val 0
  | .recv a b d => encDg 2 a.val b.val 0 d.val 0
  | .reduce op fmt a b c d => encDg 3 a.val b.val c.val d.val (redOpCode op + 4 * fmt.toNat)
  | .copy a b d => encDg 4 a.val b.val 0 d.val 0
  | .wait c a b t => encDg 5 a.val b.val 0 0 (condCode c + 8 * t.toNat)
  | .ring a b c => encDg 6 a.val b.val c.val 0 0
  | .alloc a b => encDg 7 a.val b.val 0 0 0
  | .free a => encDg 8 a.val 0 0 0 0
  | .flag a b => encDg 9 a.val b.val 0 0 0
  | .setc a n => packFields [(23, n.toNat), (4, a.val), (5, 10)]
  | .addc a b c n => encDg 11 a.val b.val c.val 0 n.toNat
  | .dungenLoop a t => packFields [(12, t.toNat), (11, 0), (4, a.val), (5, 12)]
  | .br k a b t => packFields [(12, t.toNat), (3, 0), (4, brCondCode k), (4, b.val), (4, a.val), (5, 13)]
  | .step => encDg 14 0 0 0 0 0
  | .dungenFence => encDg 15 0 0 0 0 0
  | .halt => encDg 16 0 0 0 0 0
  | .waitvTimeout .. | .lscaleWrite .. | .lpartWrite .. | .ptbaseWrite .. | .registerWrite .. | .publishMove ..
  | .dungenWaitTimeout .. | .performAccess .. | .ticket .. | .deliver .. | .copyComplete .. | .inject .. | .arrive ..
  | .land .. | .count .. | .ringArrival .. | .release .. | .ringRepeat .. | .holdEnd .. | .shortTimer ..
  | .shortfallNotice .. | .failNotice .. | .earlyArrivalDrop .. | .dropRecordExpiry .. | .remoteRead ..
  | .readResponse .. | .remoteReadResend .. | .contribution .. | .combine .. | .bucketRelease .. | .tLate ..
  | .stripChunk .. | .stripDelivery .. | .stripShortfall .. | .dispatch .. | .preemption .. | .trafficWindow ..
  | .transferResident .. | .kernelComplete .. | .progressFault .. | .lpartChange .. | .eventTaken .. | .interrupt ..
  | .intsrc .. | .contextWrite .. | .cut .. | .caskDrain .. | .caskComplete .. | .caskd .. | .pageMigration ..
  | .tierctl .. | .watchdogExpiry | .wdkick .. | .reset | .maskRomBoot .. | .measExtend .. | .attreq .. | .attrep
  | .allow .. | .illegalInstruction .. | .fetchFault .. | .reservedOpcode .. | .softError .. | .egressWindow ..
  | .stripNotice .. | .stripHoldEnd .. | .powerGating .. | .wakeUp .. => 0

/-- The bytes of an instruction, the lowest address first (03 R70). -/
def encodeBytes (i : Instr) : List Byte := leBytes (if i.form = .hart64 then 8 else 4) (encode i)

/-- The encoding a trap's TVAL holds (03 R78, R88). -/
def encodeWord (i : Instr) : Word := BitVec.ofNat 64 (encode i)

/-- The instruction of a word of the opcode table: a hart's instruction, or else a Dungen word. Bits above nbits
are zero. -/
def decodeTableWord (nbits w : Nat) : Option Instr :=
  let x := w % 2 ^ nbits
  match decodeBytes (leBytes 8 x) with
  | .ok (i, _) => some i
  | .error _ => decodeDungen (x % 2 ^ 32)

end Sys2Proof
end

