-- ==== Sys2Proof/Config.lean ====
section
/-! DEFINITION. Sys2Proof/Config.lean: what one implementation or its manufacture fixes, and the values the spec leaves open. Every constant here is opaque: nothing in Lean can evaluate it, so a theorem holds whatever it is. -/

namespace Sys2Proof.Config

/-- Fused digest of the firmware signing key (17 R386 step 1). -/
opaque pkHash : BitVec 256

/-- Fused least firmware version (17 R386 step 1). -/
opaque minVer : BitVec 16

/-- Fused 48-byte identity seed (17 R386 step 1). -/
opaque idSeed : BitVec 384

/-- SLH-DSA-SHA2-128s verification of a signature over a message under a public key (17 R386 step 4). The spec cites
the standard and does not give its algorithm (log 6). -/
opaque slhVerify : BitVec 256 → List Byte → List Byte → Bool

/-- Public identity key that SLH-DSA key generation derives from the seed (17 R386 step 7, log 6). -/
opaque slhPublicKey : BitVec 384 → BitVec 256

/-- SLH-DSA-SHA2-128s signature under the identity key of a seed (17 R388, log 6): 7,856 bytes. -/
opaque slhSign : BitVec 384 → List Byte → List Byte

/-- The reason code the mask ROM writes to BOOTSTAT for a failing step; the spec gives no code (17 R386, log 7). -/
opaque bootReason : Nat → BitVec 56

/-- Free choices, applied to the counter State.fresh: the tree of an unordered reduction (08 R228, log 8). -/
opaque freeChoice : Nat → Nat

/-- Free choices, applied to the counter State.fresh and the address of a read: the cluster of a die whose view a die agent's
read returns (05 R148, log 17). -/
opaque dieChoice : Nat → Nat → BitVec 4

/-- The error-correction syndrome of a failing word, applied to the counter State.fresh: the spec does not give it (18 R407, log 106). -/
opaque syndrome : Nat → Word

/-- The die whose fabric unit keeps the send record of a destination device and slot: the spec says that these two select it and
not how (15 R353, log 19). -/
opaque sendDie : Nat → Nat → BitVec 2

end Sys2Proof.Config
end

