-- ==== Sys2Proof/Machine/State.lean ====
section
/-! DEFINITION. Sys2Proof/Machine/State.lean: the state of the machine, as plain data: the harts (01 R13), the abstract machine's queues, views and tickets (05 R127), the fabric units (14), the stream controllers (13), the Dungen engines (15), the partitions, the migration and cask engines and the device block (17, 18); and the state right after reset. -/

namespace Sys2Proof.Machine

/-- Reasons for which the machine stops. -/
inductive Fault where
  /-- Raised by step when the agenda names a hart the device does not have (01 R16 numbers 2,048). Safe: the machine
  stops where no such move exists. -/
  | noSuchHart
  deriving DecidableEq, Repr

/-- Reasons for which an instruction has no meaning here. -/
inductive Refusal where
  /-- Raised by an arm of exec whose instruction is not modelled yet. Safe: nothing is claimed of it. -/
  | notModelled (mnemonic : String)
  deriving DecidableEq, Repr

/-- A queue q0 to q7: entries oldest first, home stream, feeding channel (06 R183). -/
structure QReg where
  entries : List Word := []
  home : Nat := 0
  chan : Option Nat := none
  deriving DecidableEq, Repr

/-- A fabric stream register f0 to f3 (15 R355). -/
structure FReg where
  group : Nat := 0
  tag : Nat := 0
  opfmt : Nat := 0
  chunk : Nat := 0
  sseq : Nat := 0
  pseq : Nat := 0
  dseq : Nat := 0
  /-- 0 IDLE, 1 OPEN, 2 FAILED -/
  state : Nat := 0
  deriving DecidableEq, Repr

/-- A receive posted on a fabric stream and not yet delivered, with what it captured at issue (15 R357). -/
structure RecvPost where
  f : Nat
  seqn : Nat
  /-- the destination of a VCRECV; none for a VCRED, which takes its strip itself -/
  vd : Option VReg
  vl : Nat
  mask : BitVec 65536
  kz : Bool
  vonly : Bool
  /-- cycle of the post, or of the first chunk or last notice (15 R358) -/
  since : Nat
  /-- program-order number of the instruction that posted it, and the next element to deliver (05 R128) -/
  seq : Nat
  next : Nat := 0
  deriving DecidableEq, Repr

/-- An occupied binding slot: the record (06 R177), the register, the stream position P and the elements and scales
whose reads have performed early (05 R137). -/
structure Binding where
  slot : Nat
  reg : VReg
  /-- program-order number of the VBIND: its reads are issued by it (05 R137) -/
  seq : Nat
  base : Word
  /-- bytes between elements; 0 means the container of fmt -/
  estride : Int
  fmt : Fmt
  blen : Nat
  scaled : Bool
  scalereg : Bool
  sbase : Word
  sstride : Int
  tlen : Nat
  pos : Nat := 0
  pre : List (Nat × Nat) := []
  preScale : List (Nat × Nat) := []
  preNext : Nat := 0
  /-- the next early read would fail: it and those behind it wait for the instruction that consumes it (06 R182, 05 R135, log 103) -/
  failed : Bool := false
  deriving DecidableEq, Repr

/-- One level of the loop stack (04 R124). A level that has ended keeps its place and its fields but VALID (log 96). -/
structure LoopLevel where
  valid : Bool := true
  start : Word
  /-- body parcels, 1 to 64 -/
  len : Nat
  isLoopn : Bool
  reg : SReg
  count : Nat
  /-- sequential flow has gone past the body and its pass is still to be counted (04 R121) -/
  due : Bool := false
  deriving DecidableEq, Repr

/-- An asynchronous event waiting to be taken (18 R399). -/
structure Event where
  cause : Nat
  tval : Word
  deriving DecidableEq, Repr

/-- What delivers into a leased register: copy id on a channel, or receive seqn on a stream register (06 R195). -/
inductive DelivSrc where
  | copy (chan id : Nat) | strip (f seqn : Nat)
  deriving DecidableEq, Repr

/-- One delivery into a pinned register: the lease count of a register is the number of its deliveries (06 R195). -/
structure Delivery where
  reg : VReg
  src : DelivSrc
  seq : Nat
  done : Bool := false
  deriving DecidableEq, Repr

/-- Where a copy writes (06 R188, R191). -/
inductive CopyDest where
  | mem | queue | vreg (v : VReg) | remote (dev slot : Nat)
  deriving DecidableEq, Repr

/-- One dimension of a copy: extent, source stride, destination stride (06 R190). -/
structure CopyDim where
  ext : Nat
  sstr : Int
  dstr : Int
  deriving DecidableEq, Repr

/-- A copy in flight: its operands and the next index tuple as a linear position, innermost dimension fastest
(06 R188, R192, 18 R403). -/
structure Copy where
  id : Nat
  chan : Nat
  seq : Nat
  /-- element size in bytes; 0 for a nibble -/
  esize : Nat
  src : Word
  dst : Word
  zsrc : Bool
  /-- issued in supervisor mode -/
  sup : Bool
  dest : CopyDest
  dims : List CopyDim
  total : Nat
  pos : Nat := 0
  /-- the element read and not yet written, with its poison -/
  buf : Option (Nat × Bool) := none
  /-- handles whose shadow was open at issue, with their generations (05 R149) -/
  shadows : List (Nat × Nat) := []
  /-- flag address and value of the ring that ends the copy (06 R191) -/
  ring : Option (Nat × Word) := none
  suspended : Bool := false
  deriving DecidableEq, Repr

/-- A recorded fault of a copy channel (06 R193). -/
structure ChanFault where
  cause : Nat
  tval : Word
  /-- taken by a trap: the channel resumes at the return -/
  reported : Bool := false
  deriving DecidableEq, Repr

/-- Operations of the AMO major on the doubleword (06 R162). -/
inductive AmoOp where
  | swp | add | and | or | xor | min | max | minu | maxu | cas | fadd
  deriving DecidableEq, Repr

/-- Where a read delivers its bytes. -/
inductive ReadTo where
  /-- a scalar register: bytes of the access, and whether the value is sign-extended -/
  | sreg (d : SReg) (n : Nat) (signed : Bool)
  /-- one byte of an unaligned scalar load: its place, and the whole access -/
  | part (d : SReg) (i n : Nat) (signed : Bool)
  /-- plane p of element e of a vector register; nib selects a nibble of the byte -/
  | velem (v : VReg) (p e : Nat) (mf ef : Fmt) (nib : Option Bool)
  /-- an element of a tile slot -/
  | tile (w row col : Nat) (nib : Option Bool)
  /-- word i that an instruction which began at a cycle waits for: the word of a WAITV, or of a record (06 R164, R178,
  R190) -/
  | word (began i : Nat)
  /-- element i, or scale i, of the binding in a slot, held until it is consumed (05 R137) -/
  | bind (slot i : Nat) (scale : Bool) (nib : Option Bool)
  /-- a container of a pinned register that vector instruction seq reads, as the operand and place of its key (01 R43) -/
  | pin (seq key : Nat) (nib : Option Bool)
  /-- a container for a pinned destination: instruction seq's write with this key takes it (01 R43) -/
  | fill (seq key : Nat) (mf ef : Fmt) (nib : Option Bool)
  deriving DecidableEq, Repr

/-- The accesses a pipe stream holds (05 R129 to R132, 06). Addresses are physical, translated at issue: one for each
byte, in ascending virtual order. -/
inductive AccOp where
  | read (rt : ReadTo) (pas : List Nat)
  | readRemote (rt : ReadTo) (dev pa n : Nat) (va : Word)
  | write (pas : List Nat) (data : List Byte)
  | writeNib (pa : Nat) (hi : Bool) (v : Nat)
  | amo (op : AmoOp) (d : SReg) (pa : Nat) (sb cmp : Word)
  /-- one element of a VSTXA: format, value bits, rounding mode and stochastic bits -/
  | vadd (fmt : Fmt) (pa : Nat) (x : Nat) (rm : Rm) (u : Nat)
  | push (q : Nat) (v : Word)
  | popS (q : Nat) (d : SReg)
  /-- a pop into an element, of which the low w bits are kept (06 R187, 08 R206) -/
  | popV (q : Nat) (v : VReg) (e w : Nat)
  /-- a pop whose entry a convoy that began at a cycle waits for, as word i -/
  | popW (q began i : Nat)
  /-- one element of a reducing-window store, as the packet it becomes; own is whether this device is the owner -/
  | contrib (p : Packet) (part : Nat)
  /-- a container written to a pinned register of the hart, at plane p of element e (01 R43, 09 R231) -/
  | writeReg (v : VReg) (p e x : Nat)
  /-- accesses of an instruction that are known once earlier ones of it have performed, by a key: writes to a pinned register, where
  there is one -/
  | await (v : Option VReg) (key : Nat)
  deriving DecidableEq, Repr

/-- An issued access that has not performed (05 R127). seq numbers executed instructions (05 R136). -/
structure Access where
  seq : Nat
  strm : Nat
  op : AccOp
  acq : Option Scope := none
  rel : Option Scope := none
  sc : Bool := false
  ticket : Option Nat := none
  /-- is the access streaming (17 R380) -/
  streaming : Bool := false
  /-- virtual address of the first byte, the mode it was issued in, and the partition's count of PTBASE writes at its
  translation (17 R377) -/
  va : Word := 0
  sup : Bool := false
  ptgen : Nat := 0
  /-- element of a vector access: its planes share a ticket (06 R171); whether a vector instruction made it -/
  elem : Nat := 0
  vec : Bool := false
  /-- of a drain's write, the handles with their generations whose shadow was open at its issue (05 R149) -/
  shadows : List (Nat × Nat) := []
  deriving DecidableEq, Repr

/-- Kinds of fence (05 R143 to R145), and the wait an acquire read makes (05 R138). -/
inductive FenceKind where
  | full (sc : Scope) (acq rel : Bool) | sv | vs | sbar (mask : BitVec 32) | acquire (sc : Scope)
  /-- the acquire fence placed after an STO of order 01, which also waits for the STO (06 R163) -/
  | afterStore (sc : Scope)
  /-- the acquire of a vector store, which waits until its own writes have performed and reached device level (06 R171) -/
  | ownWrites
  deriving DecidableEq, Repr

/-- A fence not yet complete: it holds accesses of later instructions. -/
structure Fence where
  seq : Nat
  kind : FenceKind
  deriving DecidableEq, Repr

/-- A vector instruction that has issued and whose results wait for reads of pinned registers (01 R43, 05 R129): its number and
encoding, the registers that wait for it, its resolved mode and drawn number, what it captured at issue, the next element to
compute and the containers read so far, by key. -/
structure Late where
  seq : Nat
  enc : Word
  dsts : List VReg
  /-- scalar, mask, tile and accumulator registers that wait for it, and whether the compaction buffer does -/
  sdsts : List SReg
  kdst : Option KReg
  tdsts : List Nat
  adsts : List Nat
  buf : Bool
  rm : Rm
  drew : Option Word
  vl : Nat
  s : SMap Word
  k : SMap (BitVec 65536)
  v : SMap Word
  fctl : Word
  srseed : Word
  gen : Option (Word × Word)
  efmt : BitVec 5
  tcfg : SMap Word
  tel : SMap Word
  tsc : SMap Byte
  scale : BitVec 32
  epoch : BitVec 8
  cgroup : Word
  cops : Word
  cstride : Word
  ctag : Word
  cdens : Word
  next : Nat := 0
  words : List (Nat × Word) := []
  deriving DecidableEq, Repr

/-- A convoy whose members issue one by one: its members' words, the next one, the element at which each begins, the number its next
drawing member takes, and the first one drawn (02 R59, 05 R129, 08 R223). -/
structure Chain where
  words : List Nat
  next : Nat
  lo : Nat
  draw : Word
  drew : Option Word
  deriving DecidableEq, Repr

/-- The kernel part a hart runs (13 R303 to R315). -/
structure Inst where
  token : Word
  number : Nat
  compactable : Bool
  lanes16 : Bool
  win : Nat
  deriving DecidableEq, Repr

/-- Runs of a hart (18 R403). -/
inductive Run where
  | idle | running | resumable | stopped
  deriving DecidableEq, Repr

/-- A hart that a pre-emption or YIELD has stopped: since when, whether by YIELD, and since when its copies are waited for
(18 R405). -/
structure Leave where
  since : Nat
  byYield : Bool
  copiesFrom : Option Nat := none
  deriving DecidableEq, Repr

/-- One hart (01 R13, 18 R403) with its stream queues (05 R127). -/
structure Hart where
  pc : Word := 0
  eidx : Nat := 0
  /-- supervisor mode -/
  sup : Bool := false
  s : SMap Word := []
  k : SMap (BitVec 65536) := []
  /-- containers of vector elements, keyed by vkey -/
  v : SMap Word := []
  q : SMap QReg := []
  f : SMap FReg := []
  posts : List RecvPost := []
  /-- tile configuration words, elements and scales; accumulator words -/
  tcfg : SMap Word := []
  tel : SMap Word := []
  tsc : SMap Byte := []
  acc : SMap (BitVec 32) := []
  binds : List Binding := []
  vl : Nat := 0
  vlmax : Nat := 0
  efmt : BitVec 5 := 0
  tb : BitVec 3 := 0
  vill : Bool := true
  nrc : BitVec 3 := 3
  sreg : Nat := 12
  sreq : Nat := 12
  fctl : Word := 0
  fflags : Word := 0
  srseed : Word := 0
  srseq : Word := 0
  tseedv : Word := 0
  tbase : Word := 0
  scale : BitVec 32 := 0x3F800000
  epoch : BitVec 8 := 0
  cgroup : Word := 0
  cops : Word := 0
  cstride : Word := 0
  ctag : Word := 0
  cdens : Word := 25
  lidx : SMap Word := []
  capbase : Word := 0
  cause : BitVec 6 := 0
  casync : Bool := false
  tpc : Word := 0
  teidx : Word := 0
  tval : Word := 0
  pp : Bool := false
  ie : Bool := false
  pie : Bool := false
  th : Bool := false
  lost : Bool := false
  conv : Bool := false
  twin : Word := 0xF424
  loops : List LoopLevel := []
  loopsSaved : List LoopLevel := []
  srseqSaved : Word := 0
  /-- sequence number the trapped instruction drew, with the TPC it belongs to (08 R224) -/
  seqSaved : Option (Word × Word) := none
  /-- number a resumed instruction uses in place of a new one (08 R224, 18 R401) -/
  reuse : Option Word := none
  events : List Event := []
  /-- SEED and BASE that a trapped instruction captured, with its TPC, and those a resumed one uses (10 R264, R283) -/
  genSaved : Option (Word × Word × Word) := none
  gen : Option (Word × Word) := none
  /-- compaction buffer: its index in its die's CBAREA, head and count; the entries lie in memory there (10 R282, 13 R312, 17 R390) -/
  cbIdx : Option Nat := none
  cbHead : Nat := 0
  cbCount : Nat := 0
  pins : BitVec 64 := 0
  deliveries : List Delivery := []
  copies : List Copy := []
  chanFaults : SMap (Option ChanFault) := []
  nextCopy : Nat := 0
  sq : List Access := []
  fences : List Fence := []
  nextSeq : Nat := 0
  /-- writes returned to earlier reads: program-order number, stream, write (05 R138, R139, R143) -/
  seen : List (Nat × Nat × Nat) := []
  /-- bytes of an unaligned load gathered so far -/
  gather : List Byte := []
  /-- instructions some of whose accesses have performed and others not, with the pages touched (05 R150) -/
  began : List (Nat × Nat) := []
  run : Run := .idle
  /-- a pre-emption or YIELD has stopped the hart: its context is to be saved (18 R405) -/
  leaving : Option Leave := none
  stop : Nat := 0
  dfault : Bool := false
  inst : Option Inst := none
  /-- waiting at an instruction; blocked: at one of the points of 13 R313, since that cycle -/
  waiting : Bool := false
  blocked : Option Nat := none
  since : Nat := 0
  /-- an instruction that reads words before it executes: its issue cycle, and the words read so far, by place (06 R164,
  R178, R190) -/
  waitAt : Option Nat := none
  got : List (Nat × Word) := []
  /-- containers of pinned registers that the instruction at hand has read, by key (01 R43) -/
  lent : List (Nat × Word) := []
  /-- issued vector instructions that wait for such reads -/
  lates : List Late := []
  /-- writes to pinned registers that the instruction at hand has still to issue, newest first: register, plane, element, bits -/
  puts : List (VReg × Nat × Nat × Nat) := []
  /-- inside a convoy whose members issue one by one -/
  inConvoy : Option Chain := none
  /-- a convoy that a trap has stopped between its members, with the TPC and TEIDX it belongs to: those that have issued do not issue
  again (18 R401, log 99) -/
  chainSaved : Option (Chain × Word × Nat) := none
  /-- the handle whose publish move a PUBLISH waits for, and whether it has been made (05 R150) -/
  publishing : Option (Nat × Bool) := none
  /-- reads of it that failed, by place (14 R318, 18 R406) -/
  gotBad : List (Nat × Nat × Word) := []
  /-- poisoned words of the hart's own state, as offsets in its context image (18 R406) -/
  poison : List Nat := []
  deriving DecidableEq, Repr

/-- A cached translation (17 R379): level 1 to 3, the virtual page base and the leaf. -/
structure TlbEntry where
  part : Nat
  level : Nat
  page : Nat
  leaf : Word
  deriving DecidableEq, Repr

/-- A core: LPART (01 R23) and the TLB (17 R379). -/
structure Core where
  mode : Nat := 0
  pend : Bool := false
  next : Nat := 0
  tlb : List TlbEntry := []
  deriving DecidableEq, Repr

/-- A performed write: where, what, who, and the clusters it has still to reach (05 R127, R131 to R134). -/
structure WriteRec where
  id : Nat
  pa : Nat
  data : List Byte
  /-- origin cluster; a die agent's write is installed in every view of its die -/
  cluster : Nat
  die : Bool
  agent : Nat
  strm : Nat
  seq : Nat
  pend : BitVec 64
  deriving DecidableEq, Repr

/-- An entry of the buffer mapping table (05 R127, R149): frames of live and shadow pages by page number; a page
without an entry has the frame the page table gives. -/
structure Buf where
  part : Nat
  handle : Nat
  base : Word
  pages : Nat
  gen : Nat := 0
  live : List (Nat × Nat) := []
  shadow : Option (List (Nat × Nat)) := none
  deriving DecidableEq, Repr

/-- A ring record a receive slot holds (14 R324). -/
structure RingRec where
  phase : Nat
  expect : Nat
  faddr : Nat
  fval : Word
  deriving DecidableEq, Repr

/-- A receive slot (14 R320): state 0 FREE, 1 OPEN, 2 HELD, 3 SHORT, 4 FAILED; since starts its timer. -/
structure Slot where
  count : Nat := 0
  gen : Bool := false
  state : Nat := 0
  phase : Nat := 0
  retry : Nat := 0
  next : Nat := 0
  sender : Nat := 0
  tag : Nat := 0
  owner : Nat := 0
  rings : List RingRec := []
  /-- flag address and value of the last ring record held (14 R331) -/
  flag : Option (Nat × Word) := none
  since : Nat := 0
  deriving DecidableEq, Repr

/-- A packet that has arrived and not yet landed, or landed and not yet been counted (05 R152). -/
structure InPacket where
  p : Packet
  die : Nat
  /-- the writes it performed as -/
  wids : Option (List Nat) := none
  /-- when it arrived (14 R332) -/
  at_ : Nat := 0
  deriving DecidableEq, Repr

/-- A remote write a sender keeps for retransmission: its packet and the source pages (14 R322). -/
structure HeldWrite where
  p : Packet
  srcs : List Nat
  deriving DecidableEq, Repr

/-- Who made a group (14 R331): a hart, an engine's starter, the fabric unit, or the cask engine of a partition. -/
inductive Maker where
  | hart (h : Nat) | engine (h : Nat) | unit | cask (part : Nat)
  deriving DecidableEq, Repr

/-- A held group: the writes of one phase and the ring that closed it (14 R322, R328). -/
structure Group where
  phase : Nat
  writes : List HeldWrite
  expect : Nat
  faddr : Nat
  fval : Word
  maker : Maker
  rungAt : Nat
  repeats : Nat := 0
  deriving DecidableEq, Repr

/-- A send record (14 R322). -/
structure SendRec where
  dest : Nat
  slot : Nat
  die : Nat
  sent : Nat := 0
  gen : Bool := false
  phase : Nat := 0
  held : List Group := []
  openWrites : List HeldWrite := []
  /-- who made the latest write of the open group (14 R331) -/
  openMaker : Option Maker := none
  part : Nat := 0
  deriving DecidableEq, Repr

/-- A ring that waits to be injected (15 R352, 06 R192). -/
structure PendRing where
  maker : Maker
  agent : Nat
  seq : Nat
  dest : Nat
  slot : Nat
  faddr : Nat
  fval : Word
  part : Nat
  /-- the copy whose end makes this ring, if any -/
  copy : Option Nat := none
  deriving DecidableEq, Repr

/-- A packet of the early-arrival store with its arrival cycle (14 R332). -/
structure EarlyPacket where
  p : Packet
  at_ : Nat
  deriving DecidableEq, Repr

/-- A drop record (14 R333). -/
structure DropRec where
  slot : Nat
  src : Nat
  gen : Bool
  phase : Nat
  expires : Nat
  deriving DecidableEq, Repr

/-- A remote read sent and not answered (14 R318). -/
structure RemoteRd where
  id : Nat
  agent : Nat
  strm : Nat
  dev : Nat
  pa : Nat
  n : Nat
  sentAt : Nat
  sends : Nat
  deriving DecidableEq, Repr

/-- A partial of one chunk from one rank and device, as received bytes by window offset (14 R338, R340); late: its rank's
other partial was complete first, and this one is discarded. -/
structure Partial where
  chunk : Nat
  /-- bytes of a chunk of its round -/
  size : Nat
  rank : Nat
  dev : Nat
  bytes : SMap (Option Byte) := []
  /-- offsets of poisoned bytes -/
  bad : List Nat := []
  firstAt : Nat
  late : Bool := false
  deriving DecidableEq, Repr

/-- A bucket at this member: as owner its partials, as member the result packets received (14 R337 to R340). -/
structure Bucket where
  part : Nat
  group : Nat
  tag : Nat
  /-- operation, format and mode, and chunk size, of the round at the owner -/
  ops : Nat
  chunk : Nat
  /-- the same of the round whose results this member takes -/
  resOps : Nat := 0
  resChunk : Nat := 0
  epoch : Option Nat := none
  partials : List Partial := []
  /-- chunks this owner has combined -/
  combined : List Nat := []
  /-- result packets this member has, by window offset, with the writes that must reach device level -/
  results : List (Nat × List Nat) := []
  /-- cause 18 or 23 was raised: the bucket stays unreleased -/
  stopped : Bool := false
  deriving DecidableEq, Repr

/-- A strip held by its sender (15 R357). -/
structure SentStrip where
  hart : Nat
  f : Nat
  dest : Nat
  group : Nat
  tag : Nat
  ops : Nat
  chunk : Nat
  seqn : Nat
  elems : Nat
  data : List Byte
  sentAt : Nat
  /-- shortfall notices answered (15 R358) -/
  notices : Nat := 0
  /-- its hold has ended: the unit no longer has the data -/
  ended : Bool := false
  deriving DecidableEq, Repr

/-- Chunks of a strip that have arrived for a hart's stream register (15 R358). -/
structure InStrip where
  part : Nat
  f : Nat
  group : Nat
  tag : Nat
  seqn : Nat
  elems : Nat
  chunk : Nat
  /-- by chunk and packet of the chunk -/
  chunks : List (Nat × Nat × List Byte)
  firstAt : Nat
  deriving DecidableEq, Repr

/-- Engine states (14 R341, 15 R362). -/
inductive EngState where
  | idle | loaded | running | waiting | halted | faulted
  deriving DecidableEq, Repr

/-- Transfers of an engine (15 R363). -/
inductive XferKind where
  | send (slot : Nat) | recv | reduce (op : RedOp) (fmt : Fmt) (b : Word) | copy
  deriving DecidableEq, Repr

/-- A transfer an engine has started by its instruction at pc: from a to c, len bytes, pos done. -/
structure Xfer where
  kind : XferKind
  pc : Nat
  a : Word
  c : Word
  len : Nat
  pos : Nat := 0
  /-- bytes a RECV has read and not yet written, with their packet's poison bits -/
  buf : Option (List Byte × Nat) := none
  /-- handles whose shadow was open when the transfer started (05 R149) -/
  shadows : List (Nat × Nat) := []
  deriving DecidableEq, Repr

/-- A Dungen engine (14 R341, R342, 15 R359 to R366). -/
structure Engine where
  state : EngState := .idle
  fcode : Nat := 0
  pc : Nat := 0
  base : Nat := 0
  steps : Word := 0
  sched : SMap (Option (BitVec 32)) := []
  c : SMap Word := []
  part : Nat := 0
  starter : Nat := 0
  waitAt : Option Nat := none
  stopReq : Bool := false
  xfers : List Xfer := []
  deriving DecidableEq, Repr

/-- Kernel states, codes 0 to 4 in this order (13 R305). -/
inductive KState where
  | complete | waiting | issuable | running | failed
  deriving DecidableEq, Repr

/-- A saved context waiting to resume (13 R311, 18 R405). -/
structure Saved where
  number : Nat
  /-- the hart it left, when a pin or lease binds it there -/
  home : Option Nat
  ctx : Hart
  poolEntry : Nat
  part : Nat
  /-- the hart it left, and since when it waits to resume (13 R310, 18 R399) -/
  left : Nat
  since : Nat
  deriving DecidableEq, Repr

/-- A kernel on the scoreboard (13 R296 to R308). -/
structure Kernel where
  token : Word
  die : Nat
  seqn : Nat
  part : Nat
  record : Word
  entry : Word
  prio : Nat
  memlight : Bool
  compactable : Bool
  lanes16 : Bool
  cmask : Nat
  /-- loop levels, outermost first: kind (0 T, 1 C, 2 D) and extent -/
  levels : List (Nat × Nat)
  total : Nat
  /-- the dies its instances are spread over (13 R303), and its scoreboard entries as die and index -/
  dies : List Nat
  ents : List (Nat × Nat)
  /-- transfers of XPEND still to come by KSEND; transfers started and not resident -/
  toCome : Nat
  notResident : Nat
  state : KState
  failAt : Word := 0
  /-- by die, the first instance number not yet offered -/
  cursor : SMap Nat := []
  done : Nat := 0
  resumable : List Saved := []
  win : Nat
  /-- cycle at which it became ISSUABLE, and the one from which it ages (13 R306, R310) -/
  issuableAt : Nat := 0
  agedFrom : Nat := 0
  /-- a KWAIT or KSTAT has observed the failure: the entries are free (13 R302) -/
  seen : Bool := false
  /-- by die, since when an instance has waited with no hart for it (13 R310) -/
  waits : SMap (Option Nat) := []
  /-- harts whose writes must reach device level before it is complete, each up to the number of the instruction it ended at -/
  harts : List (Nat × Nat) := []
  deriving DecidableEq, Repr

/-- A stream transfer under way (13 R299, R300). -/
structure Transfer where
  id : Nat
  die : Nat
  part : Nat
  token : Word
  src : Word
  doff : Nat
  len : Nat
  clusters : List Nat
  pos : Nat := 0
  /-- the scoreboard entry of a transfer sent by KSEND (13 R302) -/
  viaKsend : Option Nat
  deriving DecidableEq, Repr

/-- The stream controller of a die (13 R302, R304, R307, R309, 17 R390). The first LAUNCH after reset takes the number 0, which the spec
does not give (log 100). -/
structure SCtl where
  nextSeqn : Nat := 0
  scctl : Word := 0x101000
  cbarea : Word := 0
  /-- number of the traffic window the bytes are of, and whether the one before it was busy (13 R307) -/
  window : Nat := 0
  busy : Bool := false
  bytes : Nat := 0
  lastPreempt : Nat := 0
  /-- cycle and hart of the last LAUNCH (13 R304) -/
  launched : Option (Nat × Nat) := none
  deriving DecidableEq, Repr

/-- A page resident in a die's stacked SRAM (17 R380). -/
structure TierPage where
  page : Nat
  pinned : Bool
  useOnce : Bool
  entered : Nat
  lastUse : Nat
  deriving DecidableEq, Repr

/-- The migration engine of a die (17 R380, R381). -/
structure Tier where
  en : Bool := true
  useonce : Bool := true
  quota : Nat := 8192
  pages : List TierPage := []
  /-- pages PGPIN holds, resident yet or not -/
  pins : List Nat := []
  /-- pages whose accesses have missed, and whether all those accesses were streaming -/
  missed : List (Nat × Bool) := []
  deriving DecidableEq, Repr

/-- The cask engine's view of a partition (18 R409 to R412). -/
structure Cask where
  /-- 0 IDLE, 1 REQUESTED, 2 DRAINING, 3 FAILED -/
  state : Nat := 0
  pages : Nat := 0
  lasts : Nat := 0
  step : Nat := 0
  desc : Word := 0
  dest : Nat := 0
  slot : Nat := 0
  incr : Bool := false
  ranges : List (Nat × Nat) := []
  /-- pages not changed since the last cut, when CASKD was not written since -/
  clean : List Nat := []
  /-- marked pages not yet drained, by place in the ranges and frame, and the cut's memory of them, by place -/
  marked : List (Nat × Nat) := []
  nmarked : Nat := 0
  /-- by die, packets of its page already sent -/
  drainPos : SMap Nat := []
  image : List Host.Cell := []
  /-- poisoned words of the image, as 8192 j + word -/
  poison : List Nat := []
  /-- the copy-on-write pool: its first page and the count of its pages; by frame, the pool page that holds the cut value (18 R409, R410) -/
  buf : Nat := 0
  nbuf : Nat := 0
  copies : List (Nat × Nat) := []
  recordSent : Bool := false
  deriving DecidableEq, Repr

/-- A partition (17 R382, 18 R395, R399, R404, R409, 14 R327, R334). -/
structure Part where
  tvec : Word := 0
  ptbase : Word := 0
  /-- writes of PTBASE so far (17 R377) -/
  ptgen : Nat := 0
  tshort : Word := 50000
  rwin : Word := 0
  clus : BitVec 64 := 0
  belllo : Nat := 0
  bellhi : Nat := 0
  allow : Word := 0
  allowMap : BitVec 8192 := 0
  locked : Bool := false
  egress : Nat := 0
  egressLocked : Bool := false
  /-- bytes of remote writes charged to a window, and the window's number (17 R384) -/
  egressUsed : Nat := 0
  egressWin : Nat := 0
  gtab : Word := 0
  htab : Word := 0
  shpool : Word := 0
  shUsed : List Nat := []
  own : BitVec 1024 := 0
  ctxpool : Word := 0
  ctxUsed : List Nat := []
  caskd : Word := 0
  cask : Cask := {}
  intsrc : BitVec 3 := 0
  /-- interrupt sources not yet delivered on a die: source and die (18 R399) -/
  undelivered : List (Nat × Nat) := []
  deriving DecidableEq, Repr

/-- An entry of the error log (18 R407). -/
structure LogEntry where
  kind : Nat
  die : Nat
  part : Nat
  addr : Word
  time : Word
  detail : Word
  deriving DecidableEq, Repr

/-- What the device tells the host: an error, or that the watchdog has expired (17 R385, 18 R407). -/
inductive Report where
  | error (e : LogEntry) | watchdog
  deriving DecidableEq, Repr

/-- The belfry's core 0 (17 R385, R386). -/
inductive Belfry where
  | rom | firmware (entry : Nat) | halted
  deriving DecidableEq, Repr

/-- What moves next, chosen outside the machine: the selected hart issues, or issues its vector instruction or convoy up to an
element and stops there (01 R14); a row of the table moves, another hart is selected, a cached translation is dropped, an engine
executes its next instruction, a hart that leaves is saved (18 R405), the reference clock gains on a slowed arithmetic clock (15 R347),
firmware reads or writes physical memory (17 R385). -/
inductive Move where
  | issue | part (hi : Nat) | run (i : Instr) | select (h : Nat) | evict (core i : Nat) | engine (e : Nat) | save (h : Nat) | slow (n : Nat)
  | firmwareRead (pa n : Nat) | firmwareWrite (pa : Nat) (data : List Byte)
  deriving DecidableEq, Repr

/-- The machine. h is the selected hart, hid its global number; others holds every other hart that is not as at reset. -/
structure State where
  h : Hart
  hid : Nat
  others : SMap Hart
  cores : SMap Core
  /-- base memory, and the performed writes some cluster has not received, oldest first -/
  mem : List Host.Cell
  log : List WriteRec
  nextWid : Nat
  tickets : Nat
  bufs : List Buf
  /-- poisoned words of memory, by word number pa / 8 (18 R406) -/
  poison : List Nat
  corrected : List Nat
  gated : List Gated
  waking : List Gated
  devId : Nat
  slots : SMap Slot
  inbox : List InPacket
  sends : List SendRec
  rings : List PendRing
  /-- packets of combined chunks and their silent rings that the fabric unit has still to inject, with their partitions (14 R338) -/
  unitOut : List (Nat × Packet)
  /-- makers of rings whose holds may have ended: destination, slot, phase (14 R331) -/
  made : List (Nat × Nat × Nat × Maker)
  outbox : List Packet
  early : SMap (List EarlyPacket)
  drops : SMap (List DropRec)
  discards : SMap Nat
  rreads : List RemoteRd
  nextRid : Nat
  buckets : List Bucket
  sentStrips : List SentStrip
  inStrips : List InStrip
  engines : SMap Engine
  /-- the engine that executes when a Dungen instruction is run -/
  eng : Nat
  stepno : Word
  ctls : SMap SCtl
  kernels : List Kernel
  transfers : List Transfer
  nextXfer : Nat
  tiers : SMap Tier
  parts : SMap Part
  timebase : Word
  /-- cycles of the arithmetic clock since reset, and what the reference clock is ahead of them in quarters of a nanosecond: the
  arithmetic clock runs at 4 GHz or below (15 R347) -/
  now : Nat
  lag : Nat
  /-- PWRLIM as written; a value above the clamp acts as the clamp (17 R385) -/
  pwrlim : Nat
  wdkick : Nat
  bootstat : Word
  wdcause : Bool
  seals : List Word
  meas : SMap (BitVec 256)
  measOpen : Bool
  attreq : Option (BitVec 256)
  attdone : Bool
  attrep : List Byte
  belfry : Belfry
  bsram : List Host.Cell
  /-- the bytes of firmware's last read of memory (17 R385) -/
  fwdata : List Byte
  errs : SMap (Option LogEntry)
  /-- reports made to the host and to the belfry, oldest first (17 R385, 18 R407) -/
  hostSaid : List Report
  belfrySaid : List LogEntry
  errhead : Nat
  errcorr : Nat
  fresh : Nat
  agenda : List (Nat × Move)
  /-- the element at which the issue at hand stops (01 R14) -/
  bound : Option Nat
  deriving DecidableEq, Repr

/-- The reference clock, in quarters of a nanosecond since reset (15 R347). -/
def State.ref (s : State) : Nat := s.now + s.lag

/-- Partition 0 after reset holds every cluster and all memory (17 R382). -/
def Part.zero : Part := { clus := BitVec.allOnes 64, bellhi := 0x3FFF, own := BitVec.allOnes 1024 }

/-- The machine right after reset (17 R382): every hart idle, every register at the reset value of its map. Values the
spec does not give are those of logs 1, 2 and 3. -/
def State.reset : State where
  h := {}
  hid := 0
  others := []
  cores := []
  mem := []
  log := []
  nextWid := 0
  tickets := 0
  bufs := []
  poison := []
  corrected := []
  gated := []
  waking := []
  devId := 1
  slots := []
  inbox := []
  sends := []
  rings := []
  unitOut := []
  made := []
  outbox := []
  early := []
  drops := []
  discards := []
  rreads := []
  nextRid := 0
  buckets := []
  sentStrips := []
  inStrips := []
  engines := []
  eng := 0
  stepno := 0
  ctls := []
  kernels := []
  transfers := []
  nextXfer := 0
  tiers := []
  parts := [(0, Part.zero)]
  timebase := 0
  now := 0
  lag := 0
  pwrlim := 3200
  wdkick := 0
  bootstat := 0
  wdcause := false
  seals := List.replicate 8 0
  meas := []
  measOpen := true
  attreq := none
  attdone := false
  attrep := []
  belfry := .rom
  bsram := []
  fwdata := []
  errs := []
  hostSaid := []
  belfrySaid := []
  errhead := 0
  errcorr := 0
  fresh := 0
  agenda := []
  bound := none

end Sys2Proof.Machine
end

