-- ==== Sys2Proof/Machine/Mem.lean ====
section
/-! DEFINITION. Sys2Proof/Machine/Mem.lean: memory as the abstract machine holds it (05 R127 to R134): base memory, the performed writes that some cluster has not received, the views of the clusters, levels, delivery and tickets; and where each hart stands. -/

namespace Sys2Proof.Machine

/-- What an unlisted byte of memory reads as: the spec gives RAM no reset contents (log 2). -/
def memDefault : Byte := 0

/-- Memory is in canonical form (no unlisted value listed, addresses strictly rising). -/
abbrev Memory.wf (m : List Host.Cell) : Prop := SMap.wf memDefault m = true

/-- One byte of base memory. -/
def memByte (m : List Host.Cell) (a : Nat) : Byte := SMap.get memDefault m a

/-- Base memory with one byte written. -/
def memPut (m : List Host.Cell) (a : Nat) (b : Byte) : List Host.Cell := SMap.put memDefault m a b

/-- Base memory with bytes written from an address on. -/
def memPutList (m : List Host.Cell) : Nat → List Byte → List Host.Cell
  | _, [] => m
  | a, b :: bs => memPutList (memPut m a b) (a + 1) bs

/-- Cluster, core and die of a hart; hart 512d is the control hart of die d (01 R16, R17). -/
def hartCluster (n : Nat) : Nat := n / 32
def hartCore (n : Nat) : Nat := n / 2
def hartDie (n : Nat) : Nat := n / 512

/-- Harts, engines and transfers as agents of the machine: harts 0 to 2,047, then the 16 engines; transfers. -/
def engineAgent (e : Nat) : Nat := 2048 + e
def xferAgent (t : Nat) : Nat := 2 ^ 40 + t

/-- A saved instance as the maker of rings that wait: by its partition and pool entry (15 R352, 18 R405). -/
def savedAgent (part entry : Nat) : Nat := 2 ^ 50 + 2 ^ 32 * part + entry

/-- The hart of a number. -/
def State.hart (s : State) (n : Nat) : Hart := if n = s.hid then s.h else SMap.get {} s.others n

/-- The state with a hart changed. -/
def State.setHart (s : State) (n : Nat) (h : Hart) : State :=
  if n = s.hid then { s with h := h } else { s with others := SMap.put {} s.others n h }

/-- The state with the selected hart changed. -/
def State.onH (s : State) (f : Hart → Hart) : State := { s with h := f s.h }

/-- Another hart becomes the selected one. -/
def State.select (s : State) (n : Nat) : State :=
  if n = s.hid then s
  else { s with others := SMap.put {} (s.others.erase n) s.hid s.h, h := SMap.get {} s.others n, hid := n }

/-- The byte a write holds for an address, if it covers it. -/
def WriteRec.byteAt (w : WriteRec) (a : Nat) : Option Byte :=
  if w.pa ≤ a then w.data[a - w.pa]? else none

/-- Has the write been delivered to, or performed in, cluster g (05 R133). -/
def WriteRec.inView (w : WriteRec) (g : Nat) : Bool := !(w.pend.getLsbD g)

/-- Has the write reached every cluster of its origin die (05 R134). -/
def WriteRec.atDie (w : WriteRec) : Bool := bitsOf w.pend.toNat (16 * (w.cluster / 16)) 16 == 0

/-- Has the write reached every cluster of the device (05 R134). -/
def WriteRec.atDevice (w : WriteRec) : Bool := w.pend == 0

/-- Has a performed write reached a level; for a write of this device the domain level is the device level (05 R134). -/
def WriteRec.reached (w : WriteRec) : Scope → Bool
  | .core => true
  | .clu => true
  | .die => w.atDie
  | .dev => w.atDevice
  | .dom => w.atDevice

/-- Has the write with an identity reached a level; writes no longer in the log have reached every cluster. -/
def State.widReached (s : State) (id : Nat) (l : Scope) : Bool :=
  s.log.all fun w => w.id != id || w.reached l

/-- The newest write of a log, oldest first, that meets p and covers an address. -/
def logByte (p : WriteRec → Bool) (a : Nat) : List WriteRec → Option Byte → Option Byte
  | [], acc => acc
  | w :: l, acc => logByte p a l (if p w then (w.byteAt a).or acc else acc)

/-- The identity of that write. -/
def logWid (p : WriteRec → Bool) (a : Nat) : List WriteRec → Option Nat → Option Nat
  | [], acc => acc
  | w :: l, acc => logWid p a l (if p w && (w.byteAt a).isSome then some w.id else acc)

/-- The byte cluster g's view holds at a physical address (05 R131, R132). -/
def State.viewByte (s : State) (g a : Nat) : Byte :=
  (logByte (·.inView g) a s.log none).getD (memByte s.mem a)

/-- The last write in co(x) at a byte (05 R132). -/
def State.lastByte (s : State) (a : Nat) : Byte := (logByte (fun _ => true) a s.log none).getD (memByte s.mem a)

/-- The last write to have reached device level (05 R155, 17 R374). -/
def State.devByte (s : State) (a : Nat) : Byte := (logByte (·.atDevice) a s.log none).getD (memByte s.mem a)

/-- n bytes from an address on, by a reading of one byte. -/
def bytesFrom (f : Nat → Byte) : Nat → Nat → List Byte
  | _, 0 => []
  | a, n + 1 => f a :: bytesFrom f (a + 1) n

/-- Identities of the writes that a read by cluster g returns (05 R138, R139). -/
def State.readWids (s : State) (g : Nat) : Nat → Nat → List Nat
  | _, 0 => []
  | a, n + 1 => (logWid (·.inView g) a s.log none).toList ++ s.readWids g (a + 1) n

/-- Identities of the last writes in co(x) that an atomic move reads (05 R132). -/
def State.lastWids (s : State) : Nat → Nat → List Nat
  | _, 0 => []
  | a, n + 1 => (logWid (fun _ => true) a s.log none).toList ++ s.lastWids (a + 1) n

/-- The oldest writes that every cluster holds become part of base memory; no view changes by it. -/
def settleLog : List WriteRec → List Host.Cell → List WriteRec × List Host.Cell
  | [], m => ([], m)
  | w :: l, m => if w.atDevice then settleLog l (memPutList m w.pa w.data) else (w :: l, m)

def State.settle (s : State) : State :=
  let (l, m) := settleLog s.log s.mem
  { s with log := l, mem := m }

/-- The 16 clusters of a die as a set. -/
def dieClusters (d : Nat) : BitVec 64 := BitVec.ofNat 64 (0xFFFF * 2 ^ (16 * d))

/-- Clusters a performed write has still to reach: a hart's write is in its own view, a die agent's in every view of
its die, an SC write in every view (05 R132, R140, R148). -/
def writePending (cluster : Nat) (die sc : Bool) : BitVec 64 :=
  if sc then 0
  else BitVec.allOnes 64 &&& ~~~(if die then dieClusters (cluster / 16) else BitVec.ofNat 64 (2 ^ cluster))

/-- A write performs: it is appended to co(x) and installed in the views it performs in (05 R132). -/
def State.appendWrite (s : State) (agent strm seq cluster : Nat) (die sc : Bool) (pa : Nat) (data : List Byte) : State :=
  if data.isEmpty then s
  else
    State.settle { s with
      log := s.log ++ [{ id := s.nextWid, pa, data, cluster, die, agent, strm, seq, pend := writePending cluster die sc }]
      nextWid := s.nextWid + 1 }

/-- May a write be delivered to cluster g: it is pending there, every earlier write of its stream of its hart has reached g, and
to another die only after its whole origin die (05 R133). -/
def State.mayDeliver (s : State) (id g : Nat) : Bool :=
  match s.log.find? (·.id == id) with
  | none => false
  | some w =>
    w.pend.getLsbD g && (g / 16 == w.cluster / 16 || w.atDie) &&
      (s.log.takeWhile (·.id != id)).all fun x => !(!w.die && x.agent == w.agent && x.strm == w.strm && x.pend.getLsbD g)

/-- A write delivered to cluster g (05 R133). -/
def State.deliverTo (s : State) (id g : Nat) : State :=
  State.settle { s with log := s.log.map fun w =>
    if w.id == id then { w with pend := w.pend &&& ~~~(BitVec.ofNat 64 (2 ^ g)) } else w }

/-- The partition a cluster belongs to (17 R382); 8 when none holds it. -/
def State.partOf (s : State) (g : Nat) : Nat :=
  ((List.range 8).find? fun p => (SMap.get {} s.parts p).clus.getLsbD g).getD 8

/-- A partition's registers. -/
def State.part (s : State) (p : Nat) : Part := SMap.get {} s.parts p

/-- The state with a partition changed. -/
def State.setPart (s : State) (p : Nat) (x : Part) : State := { s with parts := SMap.put {} s.parts p x }

/-- The partition of a hart. -/
def State.hartPart (s : State) (n : Nat) : Nat := s.partOf (hartCluster n)

/-- The partition of the selected hart. -/
def State.myPart (s : State) : Nat := s.hartPart s.hid

/-- The selected hart's cluster and die. -/
def State.myCluster (s : State) : Nat := hartCluster s.hid
def State.myDie (s : State) : Nat := hartDie s.hid

/-- Lanes of a hart under its core's LPART (01 R21, R22). -/
def State.lanesOf (s : State) (n : Nat) : Nat :=
  match (SMap.get {} s.cores (hartCore n)).mode with
  | 0 => if n % 2 = 0 then 32 else 0
  | 1 => 16
  | 2 => if n % 2 = 1 then 32 else 0
  | _ => 0

/-- Matrix columns a hart owns, and its tile and accumulator slots (01 R21). A 16-lane hart has the slots 0 and 1, though 12 R292 has a
program that uses w2 run with 16 lanes (log 93, DESIGN CHOICE). -/
def State.columnsOf (s : State) (n : Nat) : Nat := 2 * s.lanesOf n
def State.slotsOf (s : State) (n : Nat) : Nat :=
  match s.lanesOf n with
  | 32 => 4
  | 16 => 2
  | _ => 0

end Sys2Proof.Machine
end

