-- ==== Sys2Proof/Machine/Regs.lean ====
section
/-! DEFINITION. Sys2Proof/Machine/Regs.lean: the registers of a hart by name: scalar and mask registers, the geometry of the vector registers (01 R28 to R37), their containers, and the alias of a pinned register (01 R41). -/

namespace Sys2Proof.Machine

/-- A scalar register; s0 reads 0 (01 R18). -/
def Hart.getS (h : Hart) (r : SReg) : Word := if r = 0 then 0 else SMap.get 0 h.s r.val

/-- A scalar register written; a write to s0 is discarded (01 R18, 04 R101). -/
def Hart.setS (h : Hart) (r : SReg) (x : Word) : Hart := if r = 0 then h else { h with s := SMap.put 0 h.s r.val x }

/-- A mask register; k0 reads all ones (01 R18, R20). -/
def Hart.getK (h : Hart) (r : KReg) : BitVec 65536 :=
  if r = 0 then BitVec.allOnes 65536 else SMap.get 0 h.k r.val

/-- Bit e of a mask register. -/
def Hart.kBit (h : Hart) (r : KReg) (e : Nat) : Bool := r == 0 || (SMap.get 0 h.k r.val).getLsbD e

def Hart.setK (h : Hart) (r : KReg) (x : BitVec 65536) : Hart :=
  if r = 0 then h else { h with k := SMap.put 0 h.k r.val x }

/-- One bit of a mask register written. -/
def Hart.setKBit (h : Hart) (r : KReg) (e : Nat) (b : Bool) : Hart :=
  let x := h.getK r
  let bit := BitVec.ofNat 65536 (2 ^ e)
  h.setK r (if b then x ||| bit else x &&& ~~~bit)

/-- Tangents of a bundle code (01 R34): 0, 1, 2, 4, 8, 16; codes 6 and 7 are illegal. -/
def tangentsOf (tb : Nat) : Nat :=
  match tb with
  | 1 => 1 | 2 => 2 | 3 => 4 | 4 => 8 | 5 => 16 | _ => 0

/-- T, NREG and EFMT of a hart (01 R34, R35); a reserved EFMT is as f64, which has no container either (01 R29). -/
def Hart.tangents (h : Hart) : Nat := tangentsOf h.tb.toNat
def Hart.nreg (h : Hart) : Nat := 4 * 2 ^ h.nrc.toNat
def Hart.fmt? (h : Hart) : Option Fmt := fmtOfCode h.efmt.toNat
def Hart.fmt (h : Hart) : Fmt := h.fmt?.getD .f64

/-- Container bits of the element format. -/
def Hart.ebits (h : Hart) : Nat := fmtBits h.fmt

/-- VLMAX of R31 for lanes, segments, NREG, T and container bits. -/
def vlmaxOf (lanes seg nreg t ebits : Nat) : Nat := min 65536 (lanes * (seg * 8192 / (nreg * (1 + t) * ebits)))

/-- Bytes of a window per lane, and spare windows for renaming (01 R28, R40). -/
def Hart.windowBytes (h : Hart) : Nat := h.sreg * 1024 / h.nreg
def spareOf (seg nreg : Nat) : Nat := min 16 (2048 / (seg * 1024 / nreg))

/-- Key of plane p of element e of register v; a window of a capped VLMAX holds up to 2^18 elements (01 R28, R31). -/
def vkey (v p e : Nat) : Nat := v * 16777216 + p * 262144 + e

/-- Container bits of plane p of element e of a register (01 R30). -/
def Hart.getV (h : Hart) (v : VReg) (p e : Nat) : Nat :=
  if h.tangents < p then 0 else (SMap.get 0 h.v (vkey v.val p e)).toNat

/-- Bits a write keeps of a container: a 6-bit format writes [7:6] as 00 (08 R206). -/
def keepBits (f : Fmt) : Nat := if fmtSix f then 6 else fmtBits f

/-- Bits put into a container of a window, which cuts them to its width (01 R30). -/
def Hart.putC (h : Hart) (v : VReg) (p e : Nat) (x : Nat) : Hart :=
  if h.tangents < p then h
  else { h with v := SMap.put 0 h.v (vkey v.val p e) (BitVec.ofNat 64 (x % 2 ^ h.ebits)) }

/-- A result of the element format put into its window (08 R206). -/
def Hart.putV (h : Hart) (v : VReg) (p e : Nat) (x : Nat) : Hart := h.putC v p e (x % 2 ^ keepBits h.fmt)

/-- Is a register pinned (01 R42). -/
def Hart.pinned (h : Hart) (v : VReg) : Bool := h.pins.getLsbD v.val

/-- A container written by an instruction: of a pinned register the write is an access that the instruction issues (01 R43). -/
def Hart.setV (h : Hart) (v : VReg) (p e : Nat) (x : Nat) : Hart :=
  if h.pinned v then (if h.tangents < p then h else { h with puts := (v, p, e, x % 2 ^ keepBits h.fmt) :: h.puts }) else h.putV v p e x

/-- Every plane of one element zeroed (01 R20). -/
def Hart.zeroElem (h : Hart) (v : VReg) (e : Nat) : Nat → Hart
  | 0 => h.setV v 0 e 0
  | p + 1 => (h.zeroElem v e p).setV v (p + 1) e 0

def Hart.zeroPlanes (h : Hart) (v : VReg) (e : Nat) : Hart := h.zeroElem v e h.tangents

/-- Every element and plane of one register zeroed (06 R181). -/
def Hart.zeroReg (h : Hart) (v : VReg) : Hart := { h with v := SMap.clear h.v (vkey v.val 0 0) (vkey (v.val + 1) 0 0) }

/-- Is a register leased: some delivery into it has not ended (01 R44, 06 R195). -/
def Hart.leased (h : Hart) (v : VReg) : Bool := h.deliveries.any (·.reg == v)

/-- The lowest pinned register (01 R37). -/
def Hart.lowestPin (h : Hart) : Option Nat := (List.range 64).find? fun i => h.pins.getLsbD i

/-- The binding of a register (06 R178). -/
def Hart.bound (h : Hart) (v : VReg) : Option Binding := h.binds.find? (·.reg == v)

/-- A queue register (06 R183). -/
def Hart.queue (h : Hart) (q : Nat) : QReg := SMap.get {} h.q q
def Hart.setQ (h : Hart) (q : Nat) (x : QReg) : Hart := { h with q := SMap.put {} h.q q x }

/-- A fabric stream register (15 R355). -/
def Hart.freg (h : Hart) (f : Nat) : FReg := SMap.get {} h.f f
def Hart.setF (h : Hart) (f : Nat) (x : FReg) : Hart := { h with f := SMap.put {} h.f f x }

/-- Bytes of the alias of a register (01 R41). -/
def Hart.aliasBytes (h : Hart) : Nat := (1 + h.tangents) * h.vlmax * h.ebits / 8

/-- Plane and element of container number c of an alias (01 R41). -/
def Hart.aliasElem (h : Hart) (c : Nat) : Nat × Nat := (c / h.vlmax, c % h.vlmax)

/-- A byte of the alias of a register (01 R41). -/
def Hart.aliasByte (h : Hart) (v : VReg) (o : Nat) : Byte :=
  if h.ebits = 4 then
    let (p, e) := h.aliasElem (2 * o)
    let (p', e') := h.aliasElem (2 * o + 1)
    BitVec.ofNat 8 (h.getV v p e % 16 + 16 * (h.getV v p' e' % 16))
  else
    let n := h.ebits / 8
    let (p, e) := h.aliasElem (o / n)
    BitVec.ofNat 8 (h.getV v p e / 256 ^ (o % n))

/-- A byte of the alias written. -/
def Hart.setAliasByte (h : Hart) (v : VReg) (o : Nat) (b : Byte) : Hart :=
  if h.ebits = 4 then
    let (p, e) := h.aliasElem (2 * o)
    let (p', e') := h.aliasElem (2 * o + 1)
    (h.putV v p e (b.toNat % 16)).putV v p' e' (b.toNat / 16)
  else
    let n := h.ebits / 8
    let (p, e) := h.aliasElem (o / n)
    let x := h.getV v p e
    let i := o % n
    h.putV v p e (x % 256 ^ i + b.toNat * 256 ^ i + x / 256 ^ (i + 1) * 256 ^ (i + 1))

/-- The address of a register's alias (01 R41). -/
def aliasAddr (hart : Nat) (v : VReg) (off : Nat) : Nat := 0x10100000000 + hart * 0x800000 + v.val * 0x20000 + off

/-- The address of a container in a register's alias, its bytes, and its nibble (01 R41). -/
def Hart.aliasOff (h : Hart) (p e : Nat) : Nat := (p * h.vlmax + e) * h.ebits / 8
def Hart.aliasSize (h : Hart) : Nat := max 1 (h.ebits / 8)
def Hart.aliasNib (h : Hart) (p e : Nat) : Option Bool := if h.ebits = 4 then some ((p * h.vlmax + e) % 2 == 1) else none

/-- Is an address inside a register's alias. -/
def inAlias (hart : Nat) (v : VReg) (a : Nat) : Bool := decide (aliasAddr hart v 0 ≤ a) && decide (a < aliasAddr hart v 0x20000)

/-- Addresses in a register's alias that memory lists or that a write in the log covers. -/
def State.aliasAddrs (s : State) (t : Nat) (v : VReg) : List Nat :=
  (s.mem.map (·.1) ++ s.log.flatMap fun w => (List.range w.data.length).map (w.pa + ·)).filter (inAlias t v)

/-- A register's containers as a reading of memory holds them at its alias. -/
def Hart.fromAlias (h : Hart) (t : Nat) (v : VReg) (f : Nat → Byte) (l : List Nat) : Hart :=
  l.foldl (fun (g : Hart) a => if a - aliasAddr t v 0 < h.aliasBytes then g.setAliasByte v (a - aliasAddr t v 0) (f a) else g) h

/-- A hart with the contents of its pinned registers in their windows, as a reading of memory holds them (01 R41, R45). -/
def State.wholeHart (s : State) (t : Nat) (f : Nat → Byte) : Hart :=
  (List.range 64).foldl (fun (g : Hart) i =>
    if g.pins.getLsbD i then g.fromAlias t (Fin.ofNat 64 i) f (s.aliasAddrs t (Fin.ofNat 64 i)) else g) (s.hart t)

/-- The offset in the context image of plane p of element e of a register: its lane's slice of local memory (01 R28, R30,
18 R403, R406). -/
def Hart.regOffset (h : Hart) (lanes : Nat) (v : VReg) (p e : Nat) : Nat :=
  0x800000 + e % lanes * 0x4000 + v.val * h.windowBytes + (e / lanes * (1 + h.tangents) + p) * h.ebits / 8

/-- A word of the hart's own state becomes poisoned, by its offset in the context image (18 R406). -/
def Hart.addPoison (h : Hart) (off : Nat) : Hart := if h.poison.contains off then h else { h with poison := h.poison ++ [off] }

/-- The word of the context image, and of memory at its alias, that holds plane p of element e of a register (18 R406). -/
def Hart.regWord (h : Hart) (lanes : Nat) (v : VReg) (x : Nat × Nat) : Nat := h.regOffset lanes v x.1 x.2 / 8 * 8
def Hart.aliasWord (h : Hart) (t : Nat) (v : VReg) (x : Nat × Nat) : Nat := aliasAddr t v (h.aliasOff x.1 x.2) / 8

/-- Planes and elements of a register. -/
def Hart.containers (h : Hart) : List (Nat × Nat) :=
  (List.range (1 + h.tangents)).flatMap fun p => (List.range h.vlmax).map fun e => (p, e)

/-- Containers of a register of hart t that are poisoned in its window, and at its alias (18 R406). -/
def State.windowPoison (s : State) (t : Nat) (v : VReg) : List (Nat × Nat) :=
  let h := s.hart t
  if h.poison.isEmpty then [] else h.containers.filter fun x => h.poison.contains (h.regWord (s.lanesOf t) v x)
def State.aliasPoison (s : State) (t : Nat) (v : VReg) : List (Nat × Nat) :=
  let h := s.hart t
  if s.poison.any fun w => inAlias t v (8 * w) then h.containers.filter fun x => s.poison.contains (h.aliasWord t v x) else []

/-- No memory at a register's alias. -/
def State.dropAlias (s : State) (t : Nat) (v : VReg) : State :=
  { s with
    mem := s.mem.filter fun c => !inAlias t v c.1
    log := s.log.filter fun w => !inAlias t v w.pa
    poison := s.poison.filter fun w => !inAlias t v (8 * w) }

/-- A register of hart t becomes pinned: while it is, its containers are the memory at its alias (01 R41). -/
def State.pinIn (s : State) (t : Nat) (v : VReg) : State :=
  let h := s.hart t
  let mine (x : Nat × Word) : Bool :=
    x.1 / 16777216 == v.val && decide (x.1 % 16777216 / 262144 ≤ h.tangents) && decide (x.1 % 262144 < h.vlmax)
  let offs := (h.v.filter mine).flatMap fun x =>
    (List.range h.aliasSize).map (h.aliasOff (x.1 % 16777216 / 262144) (x.1 % 262144) + ·)
  let bad := s.windowPoison t v
  let s1 := { s with
    mem := offs.foldl (fun m o => memPut m (aliasAddr t v o) (h.aliasByte v o)) s.mem
    poison := s.poison ++ (bad.map (h.aliasWord t v)).eraseDups }
  s1.setHart t { h with
    v := h.v.filter (!mine ·), pins := h.pins ||| BitVec.ofNat 64 (2 ^ v.val)
    poison := h.poison.filter fun o => !(bad.map (h.regWord (s.lanesOf t) v)).contains o }

/-- A register's pin ends, and its window holds what a reading gives (09 R259). -/
def State.pinOut (s : State) (t : Nat) (v : VReg) (f : Nat → Byte) : State :=
  let h0 := (s.hart t).fromAlias t v f (s.aliasAddrs t v)
  let h := (s.aliasPoison t v).foldl (fun (h : Hart) x => h.addPoison (h.regWord (s.lanesOf t) v x)) h0
  (s.dropAlias t v).setHart t { h with pins := h.pins &&& ~~~(BitVec.ofNat 64 (2 ^ v.val)) }

/-- Every pin of hart t ends. -/
def State.unpinAll (s : State) (t : Nat) (f : Nat → Byte) : State :=
  (List.range 64).foldl (fun (u : State) i => if (s.hart t).pins.getLsbD i then u.pinOut t (Fin.ofNat 64 i) f else u) s

/-- Offset of entry i of a queue in the context image (18 R403). -/
def queueOffset (q i : Nat) : Nat := 0x800 + 256 * q + 8 * i

/-- Poison of a queue's entries after its oldest one has gone. -/
def popPoison (q : Nat) (l : List Nat) : List Nat :=
  (l.filter fun o => o != queueOffset q 0).map fun o => if queueOffset q 0 < o ∧ o < queueOffset q 16 then o - 8 else o

/-- The oldest entry of a queue leaves it. -/
def Hart.popQ (h : Hart) (q : Nat) (rest : List Word) : Hart :=
  let h1 := h.setQ q { h.queue q with entries := rest }
  if h1.poison.isEmpty then h1 else { h1 with poison := popPoison q h1.poison }

/-- The place of the entry a convoy pops for element e. -/
def popPlace (q e : Nat) : Nat := 2 ^ 60 + 8 * e + q

/-- The hart stops before its instruction: entries that a convoy has popped and not used go back to the front of their queue,
the last popped first, and pops not performed are not issued (05 R156). -/
def Hart.unpop (h : Hart) : Hart :=
  let h1 := h.got.foldl (fun (g : Hart) x =>
    if 2 ^ 60 ≤ x.1 ∧ x.1 < 2 ^ 61 then g.setQ (x.1 % 8) { g.queue (x.1 % 8) with entries := x.2 :: (g.queue (x.1 % 8)).entries } else g) h
  { h1 with sq := h1.sq.filter fun a => match a.op with
      | .popW .. => false
      | _ => true }

/-- A poisoned word in one of some ranges of the context image (18 R406). -/
def Hart.imagePoison (h : Hart) (l : List (Nat × Nat)) : Option Nat :=
  if h.poison.isEmpty then none else l.findSome? fun r => h.poison.find? fun o => decide (r.1 < o + 8) && decide (o < r.2)

/-- Every vector register zero and every binding ended: a geometry change (01 R37, 06 R181). -/
def Hart.zeroWindows (h : Hart) : Hart :=
  { h with v := [], binds := [], poison := h.poison.filter fun o => decide (o < 0x800000) || decide (0x880000 ≤ o) }

/-- Tile slots as after a change of LPART: f32, K 8, N all owned columns, zero, unscaled; accumulators +0 (10 R271).
An unlisted configuration stands for that one. -/
def Hart.resetMatrix (h : Hart) : Hart := { h with tcfg := [], tel := [], tsc := [], acc := [] }

/-- Keys of a tile element, a tile scale and an accumulator word (10 R271, R273). -/
def telKey (w row col : Nat) : Nat := w * 8192 + row * 64 + col
def tscKey (w blk col : Nat) : Nat := w * 8192 + blk * 64 + col
def accKey (a row col : Nat) : Nat := a * 4096 + row * 64 + col

/-- A tile's configuration word (10 R270). -/
def Hart.tileCfg (h : Hart) (w cols : Nat) : Nat :=
  let x := (SMap.get 0 h.tcfg w).toNat
  if x = 0 then 8 * 256 + cols * 65536 else x

def tileFmt (c : Nat) : Fmt := (fmtOfCode (bitsOf c 0 5)).getD .f32
def tileK (c : Nat) : Nat := bitsOf c 8 8
def tileN (c : Nat) : Nat := bitsOf c 16 7
def tileScaled (c : Nat) : Bool := bitsOf c 24 1 == 1
def tileBlen (c : Nat) : Nat := if bitsOf c 25 1 = 1 then 32 else 16
def tileAsc (c : Nat) : Bool := bitsOf c 26 1 == 1
def tileAsr (c : Nat) : Nat := bitsOf c 32 6

/-- A tile element written, cut to its width: of a 6-bit format bits [7:6] are 00 (08 R206, 10 R273). -/
def Hart.putTel (h : Hart) (w row col x : Nat) : Hart :=
  let y := x % 2 ^ keepBits (tileFmt (SMap.get 0 h.tcfg w).toNat)
  { h with tel := SMap.put 0 h.tel (telKey w row col) (BitVec.ofNat 64 y) }

/-- A tile scale: unlisted means 127 (10 R270). -/
def Hart.tileScale (h : Hart) (w blk col : Nat) : Nat := (SMap.get 127 h.tsc (tscKey w blk col)).toNat

/-- Number of a register an access delivers into, for the availability of R129. -/
def ReadTo.sdest : ReadTo → Option SReg
  | .sreg d _ _ => some d
  | .part d _ _ _ => some d
  | _ => none

def AccOp.sdest : AccOp → Option SReg
  | .read rt _ => rt.sdest
  | .readRemote rt _ _ _ _ => rt.sdest
  | .amo _ d _ _ _ => some d
  | .popS _ d => some d
  | _ => none

def ReadTo.vdest : ReadTo → Option VReg
  | .velem v _ _ _ _ _ => some v
  | _ => none

def AccOp.vdest : AccOp → Option VReg
  | .read rt _ => rt.vdest
  | .readRemote rt _ _ _ _ => rt.vdest
  | .popV _ v _ _ => some v
  | _ => none

/-- The instruction for which an access reads a pinned register. -/
def AccOp.pinSeq : AccOp → Option Nat
  | .read (.pin seq _ _) _ => some seq
  | _ => none

def AccOp.tdest : AccOp → Option Nat
  | .read (.tile w _ _ _) _ => some w
  | .readRemote (.tile w _ _ _) _ _ _ _ => some w
  | _ => none

/-- Does an access read memory, and write it (05 R132; a nibble write counts only as a write, 05 R130). -/
def AccOp.isRead : AccOp → Bool
  | .read .. | .readRemote .. | .amo .. | .vadd .. => true
  | _ => false

def AccOp.isWrite : AccOp → Bool
  | .write .. | .writeNib .. | .amo .. | .vadd .. | .contrib .. | .writeReg .. | .await .. => true
  | _ => false

/-- The key of plane p of element e of register v as operand k, counted from 0, of a vector instruction (09 R231). -/
def pinKey (k : Nat) (v : VReg) (p e : Nat) : Nat := ((k * 64 + v.val) * 32 + p) * 65536 + e

/-- Is a vector register the destination of an instruction whose reads of pinned registers have not all performed. -/
def Hart.late (h : Hart) (v : VReg) : Bool := h.lates.any (·.dsts.contains v)

/-- Is a scalar, vector or tile register waiting for an access that has not performed (05 R129). s0 never waits. -/
def Hart.sPending (h : Hart) (r : SReg) : Bool :=
  r != 0 && (h.lates.any (·.sdsts.contains r) || h.sq.any fun a => a.op.sdest == some r)
def Hart.vPending (h : Hart) (v : VReg) : Bool := h.late v || h.sq.any fun a => a.op.vdest == some v
def Hart.tPending (h : Hart) (w : Nat) : Bool := h.sq.any fun a => a.op.tdest == some w

end Sys2Proof.Machine
end

