-- ==== Sys2Proof/Machine/Trans.lean ====
section
/-! DEFINITION. Sys2Proof/Machine/Trans.lean: translation by the partition's four-level table and the TLB (17 R374 to R379), the physical address map (01 R50), and the checks of ownership, aliases and the introspection window (01 R41, R53, 17 R383, R385). -/

namespace Sys2Proof.Machine

/-- A trap to be taken: cause, TVAL and element (18 R396, R397). -/
structure Trp where
  cause : Nat
  tval : Word := 0
  eidx : Nat := 0
  deriving DecidableEq, Repr

/-- What an access does at its address. -/
inductive AccKind where
  | fetch | read | write
  deriving DecidableEq, Repr

/-- The page-fault cause of an access (17 R376). -/
def AccKind.cause : AccKind → Nat
  | .fetch => 5 | .read => 6 | .write => 7

/-- Where a virtual address leads: a local physical address, or memory of another device (01 R53). -/
inductive Target where
  | loc (pa : Nat) | remote (dev pa : Nat)
  deriving DecidableEq, Repr

/-- A virtual address is canonical: bits [63:56] equal bit 55 (01 R49). -/
def canonical (va : Word) : Bool := va.toNat / 2 ^ 55 == 0 || va.toNat / 2 ^ 55 == 2 ^ 9 - 1

/-- Does a GiB belong to the partition: OWN marks it and no seal gives it to another (17 R382, R383, R385). -/
def State.sealedTo (s : State) (gib : Nat) : Option Nat :=
  (s.seals.find? fun x =>
    decide (bitsOf x.toNat 0 10 ≤ gib) && decide (gib < bitsOf x.toNat 0 10 + bitsOf x.toNat 10 11)).map
    fun x => bitsOf x.toNat 21 3

def State.owns (s : State) (part gib : Nat) : Bool :=
  (s.part part).own.getLsbD gib && (match s.sealedTo gib with | some p => p == part | none => true)

/-- The range of the local physical map an address lies in (01 R50). -/
inductive PaClass where
  | main | scratch (cluster bank : Nat) | alias_ (hart : Nat) (v : VReg) (off : Nat) | window (off : Nat) | bad
  deriving DecidableEq, Repr

def paClass (pa : Nat) : PaClass :=
  if pa < 0x10000000000 then .main
  else if pa < 0x10020000000 then
    let o := pa - 0x10000000000
    .scratch (o / 0x800000) (o % 0x800000 / 4 % 64)
  else if 0x10100000000 ≤ pa ∧ pa < 0x10500000000 then
    let o := pa - 0x10100000000
    .alias_ (o / 0x800000) (Fin.ofNat 64 (o % 0x800000 / 0x20000)) (o % 0x20000)
  else if 0xF0000000000 ≤ pa ∧ pa < 0xF1000000000 then .window (pa - 0xF0000000000)
  else .bad

/-- Is a scratchpad bank power-gated, or waking (01 R54). -/
def State.bankGated (s : State) (cluster bank : Nat) : Bool := s.gated.contains (.bank cluster bank)
def State.bankWaking (s : State) (cluster bank : Nat) : Bool := s.waking.contains (.bank cluster bank)

/-- May the partition reach a physical address (17 R383): owned main memory, a scratchpad of its own clusters, or there the alias
of a register that is pinned, within its size (01 R41). The introspection window is no memory. -/
def State.physOk (s : State) (part pa : Nat) : Bool :=
  match paClass pa with
  | .main => s.owns part (pa / 2 ^ 30)
  | .scratch c b => (s.part part).clus.getLsbD c && !s.bankGated c b
  | .alias_ t v off =>
    (s.part part).clus.getLsbD (hartCluster t) && (s.hart t).pinned v && decide (off < (s.hart t).aliasBytes)
  | .window _ => false
  | .bad => false

/-- The little-endian doubleword that has reached device level at a physical address (17 R374). -/
def State.devDword (s : State) (pa : Nat) : Nat := leValue (bytesFrom s.devByte pa 8)

/-- Bytes a page of a level maps (17 R374). -/
def levelSize (level : Nat) : Nat :=
  match level with
  | 1 => 2 ^ 30 | 2 => 2 ^ 21 | 3 => 2 ^ 16 | _ => 2 ^ 39

/-- Index of a virtual address at a level (17 R374). -/
def levelIndex (level va : Nat) : Nat :=
  match level with
  | 0 => bitsOf va 39 17 | 1 => bitsOf va 30 9 | 2 => bitsOf va 21 9 | _ => bitsOf va 16 5

/-- Why a walk ends without a leaf: a page fault, or a table outside owned memory (17 R376). -/
inductive WalkFail where
  | page | owner
  deriving DecidableEq, Repr

/-- Fields of a page-table entry (17 R375). -/
def pteV (e : Nat) : Bool := bitsOf e 0 1 == 1
def pteR (e : Nat) : Bool := bitsOf e 1 1 == 1
def pteW (e : Nat) : Bool := bitsOf e 2 1 == 1
def pteX (e : Nat) : Bool := bitsOf e 3 1 == 1
def pteU (e : Nat) : Bool := bitsOf e 4 1 == 1
def pteA (e : Nat) : Bool := bitsOf e 5 1 == 1
def pteD (e : Nat) : Bool := bitsOf e 6 1 == 1
def pteRmt (e : Nat) : Bool := bitsOf e 61 1 == 1
def pteDev (e : Nat) : Nat := bitsOf e 48 13
def ptePointer (e : Nat) : Bool := !pteR e && !pteW e && !pteX e

/-- The must-be-zero bits and shapes of an entry at a level, its alignment among them (17 R375, R376). -/
def pteOk (level e : Nat) : Bool :=
  pteV e && bitsOf e 7 1 == 0 && bitsOf e 44 4 == 0 && bitsOf e 62 2 == 0 &&
  if ptePointer e then
    level != 3 && bitsOf e 4 3 == 0 && bitsOf e 48 14 == 0 && (if level == 2 then true else bitsOf e 8 4 == 0)
  else
    level != 0 && !(pteW e && !pteR e) && bitsOf e 8 8 == 0 && (pteRmt e || pteDev e == 0) &&
      (bitsOf e 16 28 * 65536) % levelSize level == 0

/-- The walk from a table at a level (17 R374 to R376): the leaf and its level. -/
def State.walkFrom (s : State) (part va : Nat) : Nat → Nat → Nat → Except WalkFail (Nat × Nat)
  | 0, _, _ => .error .page
  | fuel + 1, level, table =>
    let pa := table + 8 * levelIndex level va
    if !s.physOk part pa then .error .owner
    else
      let e := s.devDword pa
      if !pteOk level e then .error .page
      else if ptePointer e then s.walkFrom part va fuel (level + 1) (bitsOf e 8 36 * 256)
      else .ok (e, level)

/-- The walk of a virtual address by a partition's table. -/
def State.walk (s : State) (part va : Nat) : Except WalkFail (Nat × Nat) :=
  s.walkFrom part va 4 0 (bitsOf (s.part part).ptbase.toNat 20 24 * 2 ^ 20)

/-- Does a leaf permit an access (17 R376). -/
def leafPermits (leaf : Nat) (sup : Bool) (k : AccKind) : Bool :=
  pteA leaf && (sup || pteU leaf) &&
  match k with
  | .fetch => pteX leaf && !pteRmt leaf
  | .read => pteR leaf
  | .write => pteW leaf && pteD leaf

/-- The cached leaf of a core's TLB for a page (17 R379). -/
def State.tlbLeaf (s : State) (core part va : Nat) : Option (Nat × Nat) :=
  ((SMap.get {} s.cores core).tlb.find? fun t => t.part == part && t.page == va / levelSize t.level).map
    fun t => (t.leaf.toNat, t.level)

/-- The leaf an access of a core uses: a cached one that permits it, or the walk's (17 R377, R379). -/
def State.leafOf (s : State) (core : Option Nat) (part va : Nat) (sup : Bool) (k : AccKind) :
    Except WalkFail (Nat × Nat) :=
  match core.bind fun c => s.tlbLeaf c part va with
  | some (leaf, level) => if leafPermits leaf sup k then .ok (leaf, level) else s.walk part va
  | none => s.walk part va

/-- Is a device in the partition's destination allowlist (01 R53, 17 R384). -/
def State.allowed (s : State) (part dev : Nat) : Bool := (s.part part).allowMap.getLsbD dev

/-- The buffer of a partition that holds a virtual address, with the page of it (05 R149). -/
def State.bufferAt (s : State) (part va : Nat) : Option (Buf × Nat) :=
  (s.bufs.find? fun b => b.part == part && decide (b.base.toNat ≤ va) && decide (va < b.base.toNat + 65536 * b.pages)).map
    fun b => (b, (va - b.base.toNat) / 65536)

/-- A physical address after the live pages of a published buffer (05 R149, R150). -/
def State.liveAddr (s : State) (part va pa : Nat) : Nat :=
  match s.bufferAt part va with
  | some (b, i) => match b.live.find? (·.1 == i) with
    | some (_, f) => 65536 * f + pa % 65536
    | none => pa
  | none => pa

/-- Translation of one virtual address (01 R49, R53, 17 R374 to R376), by a core's TLB where one is named. -/
def State.translate (s : State) (core : Option Nat) (part : Nat) (sup : Bool) (k : AccKind) (va : Word) :
    Except Trp Target :=
  if !canonical va then .error ⟨k.cause, va, 0⟩
  else
    let a := va.toNat % 2 ^ 56
    match s.leafOf core part a sup k with
    | .error .page => .error ⟨k.cause, va, 0⟩
    | .error .owner => .error ⟨8, va, 0⟩
    | .ok (leaf, level) =>
      if !leafPermits leaf sup k then .error ⟨k.cause, va, 0⟩
      else
        let pa := bitsOf leaf 16 28 * 65536 + a % levelSize level
        let dev := pteDev leaf
        if pteRmt leaf && dev != 0 && dev != s.devId then
          if s.allowed part dev then .ok (.remote dev pa) else .error ⟨8, va, 0⟩
        else .ok (.loc (s.liveAddr part a pa))

/-- Marks of an access to a page in its die's tier: of a resident page, or of one that the access misses (17 R380). -/
def State.touchTier (s : State) (pa : Nat) (streaming : Bool) : State :=
  match paClass pa with
  | .main =>
    let page := pa / 65536
    let d := page % 4
    let t := SMap.get {} s.tiers d
    if t.pages.any (·.page == page) then
      { s with tiers := SMap.put {} s.tiers d { t with pages := t.pages.map fun x =>
          if x.page == page then { x with lastUse := s.now, useOnce := x.useOnce && streaming } else x } }
    else if t.en then
      let all := streaming && (t.missed.find? (·.1 == page)).all (·.2)
      { s with tiers := SMap.put {} s.tiers d { t with missed := (page, all) :: t.missed.filter (·.1 != page) } }
    else s
  | _ => s

/-- The marks of an access to bytes of memory, in each page it touches. -/
def State.touchPages (s : State) (pas : List Nat) (streaming : Bool) : State :=
  ((pas.map (· / 65536)).eraseDups.filterMap fun p => pas.find? fun pa => pa / 65536 == p).foldl
    (fun (t : State) pa => t.touchTier pa streaming) s

/-- Addresses of the entries a walk reads (17 R374). -/
def State.walkAddrs (s : State) (part va : Nat) : Nat → Nat → Nat → List Nat
  | 0, _, _ => []
  | fuel + 1, level, table =>
    let pa := table + 8 * levelIndex level va
    if !s.physOk part pa then []
    else
      let e := s.devDword pa
      if pteOk level e && ptePointer e then pa :: s.walkAddrs part va fuel (level + 1) (bitsOf e 8 36 * 256) else [pa]

/-- A walk of a virtual address uses the pages of its table (17 R380). -/
def State.touchWalk (s : State) (part va : Nat) : State :=
  (s.walkAddrs part va 4 0 (bitsOf (s.part part).ptbase.toNat 20 24 * 2 ^ 20)).foldl (fun (t : State) pa => t.touchTier pa false) s

/-- The core's TLB takes the leaf of a page that a walk found and the access may use (17 R377, R379); the walk uses the pages of the
tables. -/
def State.fillTlb (s0 : State) (core part : Nat) (sup : Bool) (k : AccKind) (va : Word) : State :=
  let a := va.toNat % 2 ^ 56
  let s := if (s0.tlbLeaf core part a).isSome then s0 else s0.touchWalk part a
  match s.tlbLeaf core part a, s.walk part a with
  | none, .ok (leaf, level) =>
    if canonical va && leafPermits leaf sup k then
      let c := SMap.get {} s.cores core
      let t : TlbEntry := ⟨part, level, a / levelSize level, BitVec.ofNat 64 leaf⟩
      { s with cores := SMap.put {} s.cores core { c with tlb := (t :: c.tlb).take 1024 } }
    else s
  | _, _ => s

/-- May a write to a hart's block take effect: the hart is idle, resumable, stopped, or in its own trap handler
(17 R392, 18 R400). -/
def State.imageOpen (s : State) (n : Nat) : Bool :=
  let h := s.hart n
  h.run != .running || h.sup

/-- Would a write of a partition's supervisor fall on the block of a hart of its own whose image may not be written now (17 R392). -/
def State.windowShut (s : State) (part pa : Nat) : Bool :=
  match paClass pa with
  | .window off =>
    let d := off / 0x400000000
    let o := off % 0x400000000
    let n := 512 * d + o / 0x1000000
    decide (d < 4) && decide (o < 0x200000000) && s.hartPart n == part && !s.imageOpen n
  | _ => false

/-- Checks of a hart's access at a local physical address (06 R159, 01 R41, R44, R50, 17 R383); own: the hart. -/
def State.checkLocal (s : State) (n : Nat) (sup : Bool) (va : Word) (pa : Nat) : Option Trp :=
  match paClass pa with
  | .window _ => if sup then none else some ⟨8, va, 0⟩
  | .alias_ t v _ =>
    if !s.physOk (s.hartPart n) pa then some ⟨8, va, 0⟩
    else if t == n && (s.hart t).leased v then some ⟨9, BitVec.ofNat 64 v.val, 0⟩
    else none
  | _ => if s.physOk (s.hartPart n) pa then none else some ⟨8, va, 0⟩

/-- Offset of an address in the partition's reducing window, if it lies inside (14 R334). -/
def State.inWindow (s : State) (part : Nat) (va : Word) : Option Nat :=
  let r := (s.part part).rwin.toNat
  let base := bitsOf r 0 40 * 65536
  let len := bitsOf r 40 24 * 65536
  let a := va.toNat % 2 ^ 56
  if base ≤ a ∧ a < base + len then some (a - base) else none

/-- Is a physical address an alias of some register. -/
def isAlias (pa : Nat) : Bool :=
  match paClass pa with
  | .alias_ .. => true
  | _ => false

/-- One byte of a hart's access, translated and checked (06 R159). -/
def State.accessByte (s : State) (n : Nat) (sup : Bool) (k : AccKind) (va : Word) : Except Trp Target :=
  match s.translate (some (hartCore n)) (s.hartPart n) sup k va with
  | .error t => .error t
  | .ok (.remote d a) => .ok (.remote d a)
  | .ok (.loc pa) =>
    match s.checkLocal n sup va pa with
    | some t => .error t
    | none => .ok (.loc pa)

/-- The bytes of a hart's access, translated and checked, or the trap of the lowest failing byte (06 R158, R159). -/
def State.accessBytes (s : State) (n : Nat) (sup : Bool) (k : AccKind) (va : Word) : Nat → Except Trp (List Target)
  | 0 => .ok []
  | m + 1 =>
    match s.accessByte n sup k va with
    | .error t => .error t
    | .ok t =>
      match s.accessBytes n sup k (va + 1) m with
      | .error e => .error e
      | .ok l => .ok (t :: l)

/-- The TLB after a hart's access to n bytes. -/
def State.touchTlb (s : State) (n : Nat) (sup : Bool) (k : AccKind) (va : Word) (len : Nat) : State :=
  let s := s.fillTlb (hartCore n) (s.hartPart n) sup k va
  if len ≤ 1 then s else s.fillTlb (hartCore n) (s.hartPart n) sup k (va + BitVec.ofNat 64 (len - 1))

/-- Local addresses of an access that is all local. -/
def allLocal : List Target → Option (List Nat)
  | [] => some []
  | .loc a :: l => (allLocal l).map (a :: ·)
  | .remote _ _ :: _ => none

/-- Device and first address of an access that lies on one other device, contiguously. -/
def allRemote : List Target → Option (Nat × Nat)
  | [.remote d a] => some (d, a)
  | .remote d a :: l =>
    match allRemote l with
    | some (d', a') => if d' == d && a' == a + 1 then some (d, a) else none
    | none => none
  | _ => none

end Sys2Proof.Machine
end

