-- ==== Sys2Proof/Machine/Window.lean ====
section
/-! DEFINITION. Sys2Proof/Machine/Window.lean: the control and status registers as read (01 R23, R33 to R35, 08 R215, R216, R221, R229, 18 R395), the context image of a hart (18 R403), and the introspection window as read (17 R390 to R392). Places inside a block that the spec names without giving an offset are those of log 15. -/

namespace Sys2Proof.Machine

/-- VTYPE (01 R34): EFMT and TB read 0 while VILL is set. -/
def Hart.vtypeWord (h : Hart) : Word :=
  if h.vill then 0x8000000000000000#64 else BitVec.ofNat 64 (h.efmt.toNat + 32 * h.tb.toNat)

/-- VCFG (01 R35). -/
def Hart.vcfgWord (h : Hart) : Word :=
  BitVec.ofNat 64 (h.nrc.toNat + 256 * h.sreg + 65536 * h.sreq + 16777216 * spareOf h.sreg h.nreg)

/-- TSTATUS (18 R395). -/
def State.tstatusWord (s : State) (n : Nat) : Word :=
  let h := s.hart n
  BitVec.ofNat 64 (h.pp.toNat + 2 * h.ie.toNat + 4 * h.pie.toNat + 8 * h.th.toNat + 16 * h.lost.toNat +
    32 * h.conv.toNat + 256 * h.events.length + 65536 * (s.part (s.hartPart n)).intsrc.toNat)

/-- LPART (01 R23). -/
def State.lpartWord (s : State) (core : Nat) : Word :=
  let c := SMap.get {} s.cores core
  BitVec.ofNat 64 (c.mode + 4 * c.pend.toNat + 8 * (if c.pend then c.next else 0))

/-- A control and status register of a hart as a program reads it (03 R78): EIDX as 0 (01 R15). -/
def State.csrValue (s : State) (n : Nat) (c : Csr) : Word :=
  let h := s.hart n
  let p := s.part (s.hartPart n)
  match c with
  | .vl => BitVec.ofNat 64 h.vl
  | .vtype => h.vtypeWord
  | .vcfg => h.vcfgWord
  | .eidx => 0
  | .vlmax => BitVec.ofNat 64 h.vlmax
  | .fctl => h.fctl
  | .fflags => h.fflags
  | .srseed => h.srseed
  | .srseq => h.srseq
  | .tseedv => h.tseedv
  | .tbase => h.tbase
  | .lscale => BitVec.ofNat 64 (h.scale.toNat + 2 ^ 32 * h.epoch.toNat)
  | .lpart => s.lpartWord (hartCore n)
  | .cdens => h.cdens
  | .cgroup => h.cgroup
  | .cops => h.cops
  | .cstride => h.cstride
  | .ctag => h.ctag
  | .lidx i => SMap.get 0 h.lidx i.val
  | .stepno => s.stepno
  | .capbase => h.capbase
  | .tvec => p.tvec
  | .tcause => BitVec.ofNat 64 (h.cause.toNat + 2 ^ 63 * h.casync.toNat)
  | .tpc => h.tpc
  | .teidx => h.teidx
  | .tval => h.tval
  | .tstatus => s.tstatusWord n
  | .ptbase => p.ptbase
  | .partid => BitVec.ofNat 64 (s.hartPart n % 8)
  | .twin => h.twin
  | .tshort => p.tshort
  | .rwin => p.rwin

/-- STATE of a context image (18 R403). -/
def Hart.stateWord (h : Hart) : Word :=
  let run := match h.run with
    | .idle => 0 | .running => 1 | .resumable => 2 | .stopped => 3
  BitVec.ofNat 64 (run + 4 * h.sup.toNat + 8 * h.stop + 512 * h.dfault.toNat)

/-- Doubleword i of a loop level (04 R124). -/
def loopWord (l : Option LoopLevel) (i : Nat) : Word :=
  match l with
  | none => 0
  | some l =>
    match i with
    | 0 => BitVec.ofNat 64 (l.start.toNat % 2 ^ 56 + 2 ^ 56 * (l.len - 1) + 2 ^ 62 * l.isLoopn.toNat + 2 ^ 63 * l.valid.toNat)
    | 1 => BitVec.ofNat 64 l.reg.val
    | _ => BitVec.ofNat 64 l.count

/-- Doubleword i of a fabric stream register (15 R355). -/
def fregWord (f : FReg) (i : Nat) : Word :=
  match i with
  | 0 => BitVec.ofNat 64 (f.group + 2 ^ 16 * f.tag + 2 ^ 32 * f.opfmt + 2 ^ 40 * f.chunk)
  | 1 => BitVec.ofNat 64 (f.sseq + 2 ^ 32 * f.pseq)
  | 2 => BitVec.ofNat 64 (f.dseq + 2 ^ 32 * f.state)
  | _ => 0

/-- Doubleword i of a binding slot: the record of 06 R177, the register, P (18 R403). -/
def bindWord (b : Option Binding) (i : Nat) : Word :=
  match b with
  | none => 0
  | some b =>
    match i with
    | 0 => b.base
    | 1 => BitVec.ofNat 64 (wrapOf 32 b.estride + 2 ^ 32 * fmtCode b.fmt +
        2 ^ 40 * (if b.scaled || b.scalereg then b.blen else 0) + 2 ^ 48 * b.scaled.toNat + 2 ^ 49 * b.scalereg.toNat)
    | 2 => b.sbase
    | 3 => BitVec.ofNat 64 (wrapOf 32 b.sstride + 2 ^ 32 * b.tlen)
    | 4 => BitVec.ofNat 64 b.reg.val
    | _ => BitVec.ofNat 64 b.pos

/-- Doubleword i of a queue: 16 entries, then head, count, home stream, feeding channel (18 R403, log 15). -/
def queueWord (q : QReg) (i : Nat) : Word :=
  if i < 16 then q.entries[i]?.getD 0
  else match i with
    | 17 => BitVec.ofNat 64 q.entries.length
    | 18 => BitVec.ofNat 64 q.home
    | 19 => match q.chan with
      | some c => BitVec.ofNat 64 (c + 1)
      | none => 0
    | _ => 0

/-- Doubleword i of a copy channel: copies pending, whether a fault is recorded, its cause and address (log 15). -/
def chanWord (h : Hart) (ch i : Nat) : Word :=
  match i with
  | 0 => BitVec.ofNat 64 (h.copies.filter (·.chan == ch)).length
  | 1 => match SMap.get none h.chanFaults ch with
    | some f => BitVec.ofNat 64 (f.cause + 2 ^ 63)
    | none => 0
  | 2 => match SMap.get none h.chanFaults ch with
    | some f => f.tval
    | none => 0
  | _ => 0

/-- The doubleword of a copy record that says where the copy writes and which ring ends it (06 R191, log 15). -/
def destWord (c : Copy) : Word :=
  let n := match c.dest with
    | .mem => 0
    | .queue => 1
    | .vreg v => 2 + 256 * v.val
    | .remote dev slot => 3 + 65536 * dev + 2 ^ 32 * slot
  BitVec.ofNat 64 (n + 2 ^ 63 * c.ring.isSome.toNat)

/-- Doubleword i of a copy record: channel and sizes, addresses, position, dimensions, destination and ring (18 R403, log 15). -/
def copyWord (c : Option Copy) (i : Nat) : Word :=
  match c with
  | none => 0
  | some c =>
    match i with
    | 0 => BitVec.ofNat 64 (c.chan + 256 * c.esize + 65536 * c.zsrc.toNat + 131072 * c.sup.toNat + 2 ^ 24 * c.dims.length + 2 ^ 63)
    | 1 => c.src
    | 2 => c.dst
    | 3 => BitVec.ofNat 64 c.pos
    | 4 => BitVec.ofNat 64 c.total
    | 21 => destWord c
    | 22 => match c.ring with
      | some (a, _) => BitVec.ofNat 64 a
      | none => 0
    | 23 => match c.ring with
      | some (_, v) => v
      | none => 0
    | i => match c.dims[(i - 5) / 2]? with
      | some d =>
        if (i - 5) % 2 = 0 then BitVec.ofNat 64 (d.ext + 2 ^ 32 * wrapOf 32 d.sstr) else BitVec.ofNat 64 (wrapOf 32 d.dstr)
      | none => 0

/-- Bytes of a tile's element storage: containers packed row by row (18 R403). Of a tile of more than 4 KiB, 128 rows of 64 one-byte
containers, the image has no room for the second half, and the spec does not say where it lies: it has no place in the image and stays
with the saved context (log 15). -/
def tileByte (h : Hart) (w cfg o : Nat) : Nat :=
  let b := fmtBits (tileFmt cfg)
  let n := tileN cfg
  let at_ (i : Nat) : Nat := (SMap.get 0 h.tel (telKey w (i / n) (i % n))).toNat
  if n = 0 then 0
  else if b = 4 then at_ (2 * o) % 16 + 16 * (at_ (2 * o + 1) % 16)
  else at_ (o / (b / 8)) / 256 ^ (o % (b / 8)) % 256

/-- A byte of a tile slot's block: configuration word, 512 scales, elements (18 R403, log 15). -/
def tileBlockByte (h : Hart) (w cols o : Nat) : Nat :=
  let cfg := h.tileCfg w cols
  if o < 8 then bitsOf cfg (8 * o) 8
  else if o < 520 then h.tileScale w ((o - 8) / 64) ((o - 8) % 64)
  else if o < 4616 then tileByte h w cfg (o - 520)
  else 0

/-- A byte of a lane's window region (01 R28, R30). -/
def laneByte (h : Hart) (lanes l o : Nat) : Nat :=
  let bw := h.windowBytes
  if h.vill || lanes = 0 || bw = 0 then 0
  else
    let v := o / bw
    let w := o % bw
    if h.nreg ≤ v then 0
    else
      let at_ (n : Nat) : Nat := h.getV (Fin.ofNat 64 v) (n % (1 + h.tangents)) (n / (1 + h.tangents) * lanes + l)
      if h.ebits = 4 then at_ (2 * w) % 16 + 16 * (at_ (2 * w + 1) % 16)
      else at_ (w / (h.ebits / 8)) / 256 ^ (w % (h.ebits / 8)) % 256

/-- Eight bytes given by a function, as a doubleword. -/
def dwordOf (f : Nat → Nat) (o : Nat) : Word :=
  BitVec.ofNat 64 (leValue ((List.range 8).map fun i => BitVec.ofNat 8 (f (o + i))))

/-- The doubleword at an offset of a hart's context image (18 R403); the containers of a pinned register are the last ones written
at its alias. -/
def State.imageDword (s : State) (n off : Nat) : Word :=
  let h := s.hart n
  let i := off / 8
  if off < 0x100 then h.getS (Fin.ofNat 32 i)
  else if off = 0x118 then BitVec.ofNat 64 h.eidx
  else if off < 0x300 then (match csrOf ((off - 0x100) / 8) with | some c => s.csrValue n c | none => 0)
  else if off < 0x380 then (match csrOf (0x100 + (off - 0x300) / 8) with | some c => s.csrValue n c | none => 0)
  else if off < 0x400 then
    match i - 0x70 with
    | 0 => h.pc
    | 1 => BitVec.ofNat 64 h.eidx
    | 2 => h.stateWord
    | 3 => h.srseqSaved
    | 4 => match h.seqSaved with | some (q, _) => q | none => 0
    | 5 => h.pins
    | _ => 0
  else if off < 0x460 then loopWord h.loops[(i - 0x80) / 3]? ((i - 0x80) % 3)
  else if off < 0x480 then 0
  else if off < 0x4E0 then loopWord h.loopsSaved[(i - 0x90) / 3]? ((i - 0x90) % 3)
  else if off < 0x500 then 0
  else if off < 0x580 then
    match h.events[(off - 0x500) / 16]? with
    | some e => if i % 2 = 0 then BitVec.ofNat 64 e.cause else e.tval
    | none => 0
  else if off < 0x600 then fregWord (h.freg ((off - 0x580) / 32)) (i % 4)
  else if off < 0x680 then
    let v := (off - 0x600) / 2
    let cnt (j : Nat) : Nat := (h.deliveries.filter (·.reg.val == v + j)).length
    BitVec.ofNat 64 (cnt 0 + 2 ^ 16 * cnt 1 + 2 ^ 32 * cnt 2 + 2 ^ 48 * cnt 3)
  else if off < 0x800 then
    let j := (off - 0x680) / 8
    bindWord (h.binds.find? (·.slot == j / 6)) (j % 6)
  else if off < 0x1000 then queueWord (h.queue ((off - 0x800) / 256)) (i % 32)
  else if off < 0x1040 then
    match i - 0x200 with
    | 0 => BitVec.ofNat 64 (h.cbIdx.getD 0)
    | 1 => BitVec.ofNat 64 h.cbHead
    | 2 => BitVec.ofNat 64 h.cbCount
    | _ => 0
  else if 0x12000 ≤ off ∧ off < 0x20000 then
    let m := SMap.get 0 h.k ((off - 0x10000) / 0x2000)
    BitVec.ofNat 64 (m.toNat / 2 ^ (8 * (off % 0x2000)))
  else if 0x20000 ≤ off ∧ off < 0x20400 then chanWord h ((off - 0x20000) / 64) (i % 8)
  else if 0x20400 ≤ off ∧ off < 0x38400 then
    copyWord (h.copies.filter (·.suspended))[(off - 0x20400) / 192]? ((off - 0x20400) % 192 / 8)
  else if 0x40000 ≤ off ∧ off < 0x48000 then
    dwordOf (tileBlockByte h ((off - 0x40000) / 0x2000) (s.columnsOf n)) (off % 0x2000)
  else if 0x48000 ≤ off ∧ off < 0x58000 then
    let o := off - 0x48000
    let a := o / 0x4000
    let k := o % 0x4000 / 4
    let word (j : Nat) : Nat := (SMap.get 0 h.acc (accKey a ((k + j) / 64) ((k + j) % 64))).toNat
    BitVec.ofNat 64 (word 0 + 2 ^ 32 * word 1)
  else if 0x800000 ≤ off ∧ off < 0x880000 then
    let o := off - 0x800000
    let l := o / 0x4000
    if l < s.lanesOf n then dwordOf (laneByte (s.wholeHart n s.lastByte) (s.lanesOf n) l) (o % 0x4000) else 0
  else 0

/-- Doubleword of a receive slot (14 R320). -/
def slotWord (x : Slot) (i : Nat) : Word :=
  if i = 0 then
    BitVec.ofNat 64 (x.count + 2 ^ 24 * x.gen.toNat + 2 ^ 25 * x.state + 2 ^ 28 * x.phase + 2 ^ 30 * x.retry + 2 ^ 32 * x.next)
  else BitVec.ofNat 64 (x.sender + 2 ^ 16 * x.tag + 2 ^ 32 * x.owner)

/-- DGSTAT's word (15 R362). -/
def engineWord (e : Engine) : Word :=
  let st := match e.state with
    | .idle => 0 | .loaded => 1 | .running => 2 | .waiting => 3 | .halted => 4 | .faulted => 5
  BitVec.ofNat 64 (st + 8 * (if e.state = .faulted then e.fcode else 0) + 256 * e.pc + 2 ^ 32 * (e.steps.toNat % 2 ^ 32))

/-- A doubleword of a partition's block (17 R382, 18 R399, R404, R409, R412). -/
def State.partDword (s : State) (p off : Nat) : Word :=
  let x := s.part p
  if 0x80 ≤ off ∧ off < 0x100 then BitVec.ofNat 64 (bitsOf x.own.toNat (8 * (off - 0x80)) 64)
  else match off with
    | 0x00 => x.clus
    | 0x08 => BitVec.ofNat 64 (x.belllo + 65536 * x.bellhi)
    | 0x10 => x.allow
    | 0x18 => BitVec.ofNat 64 x.egress
    | 0x20 => x.gtab
    | 0x28 => x.htab
    | 0x30 => x.shpool
    | 0x38 => x.ctxpool
    | 0x40 => x.caskd
    | 0x48 => BitVec.ofNat 64 (x.cask.state + 128 * x.cask.pages + 2 ^ 32 * (x.cask.lasts % 2 ^ 32))
    | 0x50 => BitVec.ofNat 64 x.intsrc.toNat
    | _ => 0

/-- The capability list and its data (17 R389), as doublewords from +0x2000. -/
def capDword (off : Nat) : Word :=
  let entry (id len at_ : Nat) : Nat → Word := fun i =>
    if i = 0 then BitVec.ofNat 64 (id + 65536 + 2 ^ 32 * len) else BitVec.ofNat 64 at_
  let i := off / 8 % 2
  match off / 16 with
  | 0 => entry 1 4 0x80 i
  | 1 => entry 2 4 0x84 i
  | 2 => entry 3 4 0x88 i
  | 3 => entry 4 4 0x8C i
  | 4 => entry 5 4 0x90 i
  | 5 => entry 6 0 0x94 i
  | 6 => entry 7 4 0x94 i
  | 8 => if i = 0 then BitVec.ofNat 64 (1 + 2 ^ 32 * 16) else BitVec.ofNat 64 (0xFFFF + 2 ^ 32 * (4 + 65536 * 4096))
  | 9 => if i = 0 then BitVec.ofNat 64 (18 + 65536 * 4096 + 2 ^ 32 * 131072) else 0
  | _ => 0

/-- An entry of the error log as a doubleword (18 R407). -/
def logWord (e : Option LogEntry) (i : Nat) : Word :=
  match e with
  | none => 0
  | some e =>
    match i with
    | 0 => BitVec.ofNat 64 (e.kind + 16 * e.die + 256 * e.part)
    | 1 => e.addr
    | 2 => e.time
    | _ => e.detail

/-- A doubleword of the device block (17 R391). -/
def State.deviceDword (s : State) (off : Nat) : Word :=
  if 0x180 ≤ off ∧ off < 0x1C0 then s.seals[(off - 0x180) / 8]?.getD 0
  else if 0x200 ≤ off ∧ off < 0x300 then
    BitVec.ofNat 64 (bitsOf (SMap.get 0 s.meas ((off - 0x200) / 32)).toNat (8 * (off % 32)) 64)
  else if 0x2000 ≤ off ∧ off < 0x2F00 then capDword (off - 0x2000)
  else if 0x3000 ≤ off ∧ off < 0x5000 then logWord (SMap.get none s.errs ((off - 0x3000) / 32)) (off / 8 % 4)
  else if 0x6000 ≤ off ∧ off < 0x8100 then
    BitVec.ofNat 64 (leValue ((List.range 8).map fun i => s.attrep[off - 0x6000 + i]?.getD 0))
  else match off with
    | 0x100 => BitVec.ofNat 64 s.pwrlim
    | 0x110 => s.bootstat
    | 0x118 => BitVec.ofNat 64 s.wdcause.toNat
    | 0x520 => BitVec.ofNat 64 s.attdone.toNat
    | 0x2F00 => BitVec.ofNat 64 (s.errhead + 2 ^ 32 * (s.errcorr % 2 ^ 32))
    | _ => 0

/-- A kernel's scoreboard entry as doublewords (17 R390, log 15). -/
def kernelWord (k : Option Kernel) (i : Nat) : Word :=
  match k with
  | none => 0
  | some k =>
    match i with
    | 0 => k.token
    | 1 => k.record
    | 2 => BitVec.ofNat 64 ((match k.state with
        | .complete => 0 | .waiting => 1 | .issuable => 2 | .running => 3 | .failed => 4) + 2 ^ 32 * k.done)
    | 3 => k.failAt
    | _ => 0

/-- The kernel that a scoreboard entry holds; a complete one is seen there until the entry holds another (13 R302, R304). -/
def State.entryKernel (s : State) (d e : Nat) : Option Kernel :=
  (s.kernels.find? fun k => k.ents.contains (d, e) && k.state != .complete).or (s.kernels.find? fun k => k.ents.contains (d, e))

/-- The partition whose bell range holds a slot handle of this device (14 R319, 17 R382). -/
def State.partOfHandle (s : State) (h : Nat) : Option Nat :=
  (List.range 8).find? fun p => decide ((s.part p).belllo ≤ h) && decide (h ≤ (s.part p).bellhi)

/-- The send records of a die, in the order they were made (14 R322). -/
def State.sendsOf (s : State) (d : Nat) : List SendRec := s.sends.filter (·.die == d)

/-- Doubleword i of a send record: destination, slot, SENT, GEN and PHASE, the writes of its open group and its held groups (14 R322,
17 R390, log 15). -/
def sendWord (r : Option SendRec) (i : Nat) : Word :=
  match r with
  | none => 0
  | some r =>
    match i with
    | 0 => BitVec.ofNat 64 (r.dest + 2 ^ 16 * r.slot + 2 ^ 63)
    | 1 => BitVec.ofNat 64 (r.sent + 2 ^ 24 * r.gen.toNat + 2 ^ 25 * r.phase)
    | 2 => BitVec.ofNat 64 (r.openWrites.length + 2 ^ 32 * r.held.length)
    | i => match r.held[i - 3]? with
      | some g => BitVec.ofNat 64 (g.writes.length + 2 ^ 32 * g.phase + 2 ^ 63)
      | none => 0

/-- Where in a die's early-arrival store a byte lies: its packet, of 64 bytes and its payload, and the place there (14 R332). -/
def earlyAt : List EarlyPacket → Nat → Option (EarlyPacket × Nat)
  | [], _ => none
  | x :: l, o => if o < 64 + x.p.data.length then some (x, o) else earlyAt l (o - (64 + x.p.data.length))

/-- A byte of a packet that waits there: header and payload (14 R318, log 15). -/
def earlyByte (x : EarlyPacket) (o : Nat) : Nat :=
  let p := x.p
  let kind := match p.kind with
    | .write => 0 | .ring => 1 | .shortfall => 2 | .fail => 3 | .contribution => 4 | .result => 5 | .readReq => 6 | .readResp => 7
  let word (i : Nat) : Nat := match i with
    | 0 => p.dst + 2 ^ 13 * p.src + 2 ^ 26 * kind + 2 ^ 29 * (p.slot % 2 ^ 14) + 2 ^ 43 * p.gen.toNat + 2 ^ 44 * (p.phase % 4)
    | 1 => p.addr
    | 2 => x.at_
    | _ => 0
  if o < 64 then word (o / 8) / 256 ^ (o % 8) % 256 else (p.data[o - 64]?.getD 0).toNat

/-- A doubleword of the introspection window at an offset (17 R390), as the machine holds it. -/
def State.windowDword (s : State) (off : Nat) : Word :=
  let d := off / 0x400000000
  let o := off % 0x400000000
  if 4 ≤ d then 0
  else if o < 0x200000000 then s.imageDword (512 * d + o / 0x1000000) (o % 0x1000000)
  else if o < 0x200004000 then
    kernelWord (s.entryKernel d ((o - 0x200000000) / 64)) (o / 8 % 8)
  else if o = 0x200004000 then (SMap.get {} s.ctls d).scctl
  else if o = 0x200004008 then (SMap.get {} s.ctls d).cbarea
  else if 0x210000000 ≤ o ∧ o < 0x210400000 then
    let e := SMap.get {} s.engines (4 * d + (o - 0x210000000) / 0x100000)
    let i := o % 0x100000
    if i < 0x4000 then
      let word (j : Nat) : Nat := match SMap.get none e.sched (i / 4 + j) with | some w => w.toNat | none => 0
      BitVec.ofNat 64 (word 0 + 2 ^ 32 * word 1)
    else if i < 0x4080 then SMap.get 0 e.c ((i - 0x4000) / 8)
    else if i = 0x4080 then engineWord e
    else 0
  else if 0x220000000 ≤ o ∧ o < 0x220010000 then
    slotWord (SMap.get {} s.slots (4096 * d + (o - 0x220000000) / 16)) (o / 8 % 2)
  else if 0x220010000 ≤ o ∧ o < 0x220050000 then sendWord (s.sendsOf d)[(o - 0x220010000) / 64]? (o / 8 % 8)
  else if 0x220050000 ≤ o ∧ o < 0x220090000 then
    dwordOf (fun i => match earlyAt (SMap.get [] s.early d) i with
      | some (x, j) => earlyByte x j
      | none => 0) (o - 0x220050000)
  else if o = 0x220090000 then BitVec.ofNat 64 (SMap.get 0 s.discards d)
  else if o = 0x230000000 then
    let t := SMap.get {} s.tiers d
    BitVec.ofNat 64 (t.en.toNat + 2 * t.useonce.toNat + 65536 * t.quota)
  else if o = 0x230000008 then BitVec.ofNat 64 (SMap.get {} s.tiers d).pins.length
  else if d = 0 ∧ 0x300000000 ≤ o ∧ o < 0x301000000 then
    let b := o - 0x300000000
    if 0x100000 ≤ b ∧ b < 0x900000 then s.partDword (b / 0x100000 - 1) (b % 0x100000) else s.deviceDword b
  else 0

/-- The partition that one block of the window belongs to, where it is a partition's: a hart, a kernel, an engine, a slot, a send record,
a packet that waits, or the block of a partition (17 R392). -/
def State.windowOwner (s : State) (off : Nat) : Option Nat :=
  let d := off / 0x400000000
  let o := off % 0x400000000
  if o < 0x200000000 then some (s.hartPart (512 * d + o / 0x1000000))
  else if o < 0x200004000 then (s.entryKernel d ((o - 0x200000000) / 64)).map (·.part)
  else if 0x210000000 ≤ o ∧ o < 0x210400000 then
    some (SMap.get {} s.engines (4 * d + (o - 0x210000000) / 0x100000)).part
  else if 0x220000000 ≤ o ∧ o < 0x220010000 then some ((s.partOfHandle (4096 * d + (o - 0x220000000) / 16)).getD 8)
  else if 0x220010000 ≤ o ∧ o < 0x220050000 then (s.sendsOf d)[(o - 0x220010000) / 64]?.map (·.part)
  else if 0x220050000 ≤ o ∧ o < 0x220090000 then
    (earlyAt (SMap.get [] s.early d) (o - 0x220050000)).map fun x => (s.partOfHandle x.1.p.slot).getD 8
  else if d = 0 ∧ 0x300100000 ≤ o ∧ o < 0x300900000 then some ((o - 0x300000000) / 0x100000 - 1)
  else none

/-- Does a partition hold a cluster of a die. -/
def State.onDie (s : State) (part d : Nat) : Bool := bitsOf (s.part part).clus.toNat (16 * d) 16 != 0

/-- May a partition's supervisor reach an offset of the window: a block of its own, the device block, or the die's own registers where it
holds a cluster of the die (17 R373, R392). -/
def State.windowMay (s : State) (part off : Nat) : Bool :=
  match s.windowOwner off with
  | some p => p == part
  | none => decide (0x300000000 ≤ off % 0x400000000) || s.onDie part (off / 0x400000000)

/-- A byte of the window as a partition's supervisor reads it: a block of another partition reads as zero (17 R392). -/
def State.windowByte (s : State) (part off : Nat) : Byte :=
  if s.windowMay part off then
    BitVec.ofNat 8 ((s.windowDword (off / 8 * 8)).toNat / 256 ^ (off % 8))
  else 0

end Sys2Proof.Machine
end

