-- ==== Sys2Proof/Machine/Ops.lean ====
section
/-! DEFINITION. Sys2Proof/Machine/Ops.lean: what instructions share: taking a trap and returning from one (18 R396, R400, 15 R344), asynchronous events and interrupts (18 R399), the error log (18 R407), retiring with the loop stack (04 R121 to R123), waiting, and the reading and writing of memory by an agent (05 R132, R148, 01 R41, 18 R406). -/

namespace Sys2Proof.Machine

/-- The outcome of a step of this machine. -/
abbrev Out := Host.Outcome State Fault Refusal

/-- An interrupt source raised for a partition: its INTSRC bit is set and it is undelivered on every die (18 R399). -/
def State.raiseSource (s : State) (part src : Nat) : State :=
  let p := s.part part
  s.setPart part { p with
    intsrc := p.intsrc ||| BitVec.ofNat 3 (2 ^ src)
    undelivered := p.undelivered ++
      ((List.range 4).filter fun d => !p.undelivered.contains (src, d)).map fun d => (src, d) }

/-- The report of an error to the host and the belfry, and interrupt source 2, the error log's (17 R385, 18 R407). -/
def State.reportErr (s : State) (e : LogEntry) : State :=
  { s.raiseSource e.part 2 with hostSaid := s.hostSaid ++ [.error e], belfrySaid := s.belfrySaid ++ [e] }

/-- An entry written to the error log; kinds 2 to 6 are reported (18 R407). -/
def State.logErr (s : State) (kind die part : Nat) (addr detail : Word) : State :=
  let e : LogEntry := { kind, die, part, addr, time := s.timebase, detail }
  let s := { s with errs := SMap.put none s.errs s.errhead (some e), errhead := (s.errhead + 1) % 256 }
  if 2 ≤ kind then s.reportErr e else s

/-- The cask engine of a die, as an agent (05 R148). -/
def caskAgent (die : Nat) : Nat := 8448 + die

/-- The pages that n bytes at an address lie in. -/
def pagesOf (pa n : Nat) : List Nat := if (pa + n - 1) / 65536 = pa / 65536 then [pa / 65536] else [pa / 65536, (pa + n - 1) / 65536]

/-- A write to pages sets their changed bits in every cask (18 R410). -/
def State.markChanged (s : State) (l : List Nat) : State :=
  if s.parts.any fun p => p.2.cask.clean.any l.contains then
    { s with parts := s.parts.map fun p =>
        (p.1, { p.2 with cask := { p.2.cask with clean := p.2.cask.clean.filter (!l.contains ·) } }) }
  else s

/-- Is one of the words that n bytes at an address touch poisoned (18 R406): the first such word. -/
def State.poisonAt (s : State) (pa n : Nat) : Option Nat :=
  s.poison.find? fun w => decide (pa / 8 ≤ w) && decide (w ≤ (pa + n - 1) / 8)

/-- Poison after a write: an aligned write of eight bytes clears its word, a narrower one leaves it (18 R406); with
pois the written words become poisoned. -/
def poisonWrite (l : List Nat) (pa n : Nat) (pois : Bool) : List Nat :=
  let words := (List.range ((pa + n - 1) / 8 + 1 - pa / 8)).map (pa / 8 + ·)
  if pois then l ++ words.filter fun w => !l.contains w
  else l.filter fun w => !(words.contains w && decide (pa ≤ 8 * w) && decide (8 * w + 8 ≤ pa + n))

/-- The pool page that takes a frame's cut value before a write: the frame is marked, not drained, and not copied yet; the lowest free
page of the pool is taken (18 R410, log 30). -/
def Cask.owes (c : Cask) (f : Nat) : Bool := c.marked.any (·.2 == f) && !c.copies.any (·.1 == f)
def Cask.pool (c : Cask) : List Nat := ((List.range c.nbuf).map (c.buf + ·)).filter fun g => !c.copies.any (·.2 == g)

/-- The cask engine copies the cut value of a marked frame into a pool page (18 R410), with its poison (18 R406). -/
def State.cutCopy (s : State) (part f : Nat) : State :=
  let x := s.part part
  match x.cask.pool.head?, x.cask.marked.find? (·.2 == f) with
  | some g, some (j, _) =>
    let s1 := s.appendWrite (caskAgent (f % 4)) 0 0 (16 * (f % 4)) true false (65536 * g) (bytesFrom (memByte x.cask.image) (65536 * j) 65536)
    { s1.setPart part { x with cask := { x.cask with copies := x.cask.copies ++ [(f, g)] } } with
      poison := (s1.poison.filter fun w => w / 8192 != g) ++
        (x.cask.poison.filter fun w => w / 8192 == j).map fun w => 8192 * g + w % 8192 }
  | _, _ => s

/-- The copies that a write to some pages makes first (18 R410). -/
def State.cutCopies (s : State) (l : List Nat) : State :=
  if s.parts.all fun p => p.2.cask.marked.isEmpty then s
  else l.foldl (fun (t : State) f => (List.range 8).foldl (fun (t : State) p => if (t.part p).cask.owes f then t.cutCopy p f else t) t) s

/-- An agent's write to memory performs, with the marks it leaves (05 R132, R148, 18 R406, R410, 17 R380). -/
def State.writeMem (s : State) (agent strm seq cluster : Nat) (die sc streaming pois : Bool) (pa : Nat)
    (data : List Byte) : State :=
  let s := (s.cutCopies (pagesOf pa data.length)).appendWrite agent strm seq cluster die sc pa data
  let s := { s with poison := poisonWrite s.poison pa data.length pois }
  (s.markChanged (pagesOf pa data.length)).touchPages [pa, pa + (data.length - 1)] streaming

/-- The cluster whose view a read by an agent of a die returns: some cluster of the die (05 R148, log 17). -/
def State.dieView (s : State) (d pa : Nat) : Nat := 16 * d + (Config.dieChoice s.fresh pa).toNat

/-- The base of a partition's pool entry (18 R404). -/
def State.poolBase (s : State) (part i : Nat) : Nat := bitsOf (s.part part).ctxpool.toNat 20 24 * 2 ^ 20 + 0x900000 * i

/-- A doubleword of a saved image in memory, as an agent of a die reads it (18 R403, 05 R148). -/
def State.savedDword (s : State) (d base off : Nat) : Word :=
  BitVec.ofNat 64 (leValue (bytesFrom (s.viewByte (s.dieView d (base + off))) (base + off) 8))

/-- A doubleword of a saved image written by the cask engine of a die. -/
def State.putSaved (s : State) (d base off : Nat) (bad : Bool) (x : Word) : State :=
  s.writeMem (caskAgent d) 0 0 (16 * d) true false false bad (base + off) (leBytes 8 x.toNat)

/-- Trap entry (18 R396). drew is the sequence number the trapping instruction drew (08 R224); a resumed instruction
that is stopped again keeps its number, and the SEED and BASE it captured (10 R283). -/
def State.enterTrap (s : State) (async conv : Bool) (drew : Option Word) (t : Trp) : State :=
  let h := s.h.unpop
  { s with h := { h with
      cause := BitVec.ofNat 6 t.cause
      casync := async
      tval := t.tval
      teidx := BitVec.ofNat 64 t.eidx
      tpc := h.pc
      conv := conv
      pp := h.sup
      pie := h.ie
      ie := false
      th := true
      loopsSaved := h.loops
      loops := []
      srseqSaved := h.srseq
      seqSaved := (drew.or h.reuse).map (·, h.pc)
      reuse := none
      genSaved := if async && t.eidx == 0 && h.gen.isNone then none
        else let (x, y) := h.gen.getD (h.tseedv, h.tbase)
          some (x, y, h.pc)
      gen := none
      lent := []
      puts := []
      inConvoy := none
      chainSaved := h.inConvoy.map fun c => (c, h.pc, t.eidx)
      publishing := none
      began := h.began.filter fun x => decide (x.1 < h.nextSeq)
      nextSeq := if h.sq.any (·.seq == h.nextSeq) then h.nextSeq + 1 else h.nextSeq
      sup := true
      pc := (s.part s.myPart).tvec
      eidx := 0
      blocked := none
      waiting := false
      waitAt := none
      got := []
      gotBad := []
      stop := t.cause } }

/-- A double fault stops the hart where it stands: at the element of the trap, with the number and the SEED and BASE the instruction has
drawn (18 R400, 08 R224). -/
def State.doubleFault (s : State) (drew : Option Word) (t : Trp) : State :=
  let s := s.onH fun h => { h with
    run := .stopped, dfault := true, stop := t.cause, blocked := none, waiting := false, eidx := t.eidx, reuse := drew.or h.reuse
    gen := if t.eidx = 0 then h.gen else some (h.gen.getD (h.tseedv, h.tbase)) }
  s.logErr 4 s.myDie s.myPart s.h.pc (BitVec.ofNat 64 s.hid)

/-- A synchronous trap: a double fault while TH is set, otherwise trap entry (18 R396, R400). -/
def State.trapWith (s : State) (conv : Bool) (drew : Option Word) (t : Trp) : State :=
  if s.h.th then s.doubleFault drew t else s.enterTrap false conv drew t

/-- A synchronous trap of an instruction that drew no sequence number. -/
def State.trap (s : State) (t : Trp) : State := s.trapWith false none t

/-- The return of TRET: position, loop stack, SRSEQ, the saved number of the trapped instruction, mode, IE and TH
(15 R344, 18 R396, 08 R224); channels whose fault a trap has taken resume (06 R193). A save that was chosen in the handler begins
with the return to program mode (18 R414). -/
def State.trapReturn (s : State) : State :=
  s.onH fun h => { h with
    pc := h.tpc
    eidx := bitsOf h.teidx.toNat 0 16
    loops := h.loopsSaved
    srseq := h.srseqSaved
    reuse := match h.seqSaved with
      | some (q, pc) => if pc = h.tpc then some q else none
      | none => none
    seqSaved := none
    gen := match h.genSaved with
      | some (x, y, pc) => if pc = h.tpc then some (x, y) else none
      | none => none
    genSaved := none
    sup := h.pp
    leaving := if h.pp then h.leaving else h.leaving.map fun (l : Leave) => { l with since := s.now }
    ie := h.pie
    th := false
    blocked := none
    waiting := false
    waitAt := none
    got := []
    gotBad := []
    lent := []
    inConvoy := match h.chainSaved with
      | some (c, pc, e) => if pc = h.tpc ∧ e = bitsOf h.teidx.toNat 0 16 then some c else none
      | none => none
    chainSaved := none
    chanFaults := h.chanFaults.filter fun f => match f.2 with
      | some x => !x.reported
      | none => true
    nextSeq := h.nextSeq + 1 }

/-- Is a saved instance the one a number names: by the hart it left, or by its place in the pool. -/
def Saved.isFor (x : Saved) (n : Nat) : Bool := x.left == n || savedAgent x.part x.poolEntry == n

/-- The instance that waits to resume and that a number names. -/
def State.savedFrom (s : State) (n : Nat) : Option Saved := s.kernels.findSome? fun k => k.resumable.find? (·.isFor n)

/-- The partition of an agent that is a hart, or an instance saved from one. -/
def State.agentPart (s : State) (n : Nat) : Nat := if n < 2048 then s.hartPart n else ((s.savedFrom n).map (·.part)).getD 8

/-- The context of a saved instance changed. -/
def State.setSaved (s : State) (x : Saved) (f : Hart → Hart) : State :=
  { s with kernels := s.kernels.map fun (k : Kernel) => { k with resumable := k.resumable.map fun (y : Saved) =>
      if y.part = x.part ∧ y.poolEntry = x.poolEntry then { y with ctx := f y.ctx } else y } }

/-- An event for a saved instance waits in its queue, in its image too; a full queue discards it (18 R399, R403, R407). -/
def State.pushSaved (s : State) (x : Saved) (n cause : Nat) (tval : Word) : State :=
  let d := hartDie x.left
  let base := s.poolBase x.part x.poolEntry
  let k := x.ctx.events.length
  let ts := s.savedDword d base 0x328
  if 8 ≤ k then
    ((s.setSaved x fun h => { h with lost := true }).putSaved d base 0x328 false (ts ||| 16)).logErr 6 d x.part tval (BitVec.ofNat 64 n)
  else
    (((s.setSaved x fun h => { h with events := h.events ++ [⟨cause, tval⟩] }).putSaved d base (0x500 + 16 * k) false
      (BitVec.ofNat 64 cause)).putSaved d base (0x508 + 16 * k) false tval).putSaved d base 0x328 false
      ((ts &&& ~~~0xF00) ||| BitVec.ofNat 64 (256 * (k + 1)))

/-- An asynchronous event for a hart (18 R399): queued, or discarded and logged when the hart is idle or its queue is
full; with the hart idle it waits in the queue of the resumable instance that was saved from it. -/
def State.pushEvent (s : State) (n cause : Nat) (tval : Word) : State :=
  let h := s.hart n
  if h.run = .idle then
    match s.savedFrom n with
    | some x => s.pushSaved x n cause tval
    | none => s.logErr 6 (hartDie n) (s.hartPart n) tval (BitVec.ofNat 64 n)
  else if 8 ≤ h.events.length then
    (s.setHart n { h with lost := true }).logErr 6 (hartDie n) (s.hartPart n) tval (BitVec.ofNat 64 n)
  else s.setHart n { h with events := h.events ++ [⟨cause, tval⟩] }

/-- A byte as cluster g of a partition reads it at a physical address: memory, the alias of a register while it is pinned
(01 R41), or the window (01 R50). -/
def State.readByte (s : State) (part g pa : Nat) : Byte :=
  match paClass pa with
  | .main => s.viewByte g pa
  | .scratch _ _ => s.viewByte g pa
  | .alias_ t v _ => if (s.hart t).pinned v then s.viewByte g pa else 0
  | .window off => s.windowByte part off
  | .bad => 0

/-- The parcel at an address, as the selected hart's cluster reads it; a page fault is cause 5 with the parcel's
address (03 R72, 17 R376). -/
def State.fetchParcel (s : State) (va : Word) : Except Trp (BitVec 32) :=
  match s.accessBytes s.hid s.h.sup .fetch va 4 with
  | .error t => .error t
  | .ok l =>
    match allLocal l with
    | none => .error ⟨5, va, 0⟩
    | some pas => .ok (BitVec.ofNat 32 (leValue (pas.map fun pa => s.readByte s.myPart s.myCluster pa)))

/-- Is the parcel at the selected hart's pc a convoy header (18 R395: TSTATUS.CONV). -/
def State.atHeader (s : State) : Bool :=
  match s.fetchParcel s.h.pc with
  | .ok p => p.toNat % 128 == 0x19
  | .error _ => false

/-- End of a loop body: the first address past it (04 R121). -/
def LoopLevel.after (l : LoopLevel) : Word := l.start + BitVec.ofNat 64 (4 * l.len)

/-- Does a body hold an address (04 R123). -/
def LoopLevel.holds (l : LoopLevel) (a : Word) : Bool :=
  decide (l.start.toNat ≤ a.toNat) && decide (a.toNat < l.start.toNat + 4 * l.len)

/-- The active levels of a hart's loop stack, outermost first (04 R124). -/
def Hart.levels (h : Hart) : List LoopLevel := h.loops.filter (·.valid)

/-- Does sequential flow from one address to the next go past the last parcel of a body (04 R121), or stand there with its pass
not yet counted: a TRET to the end of an active body counts its pass too (log 97). -/
def LoopLevel.passed (l : LoopLevel) (pc next : Word) : Bool :=
  l.due || l.after == next || (decide (0 < (l.after - pc).toNat) && decide ((l.after - pc).toNat < (next - pc).toNat))

/-- A level that is no longer active, with the count it ends at (04 R121, R124). -/
def LoopLevel.ended (l : LoopLevel) (count : Nat) : LoopLevel := { l with valid := false, due := false, count := count }

/-- Sequential flow has gone past an active body whose pass is still to be counted (04 R121). -/
def Hart.flowDue (h : Hart) : Bool := h.levels.any fun l => l.passed h.pc h.pc

/-- Sequential flow goes on from the hart's pc to the next address: passes are counted from the innermost level outward (04 R121, R123).
Levels are given innermost first, with those inside them that have been handled. A counter register that an earlier instruction has
still to bring is waited for; a count of zero wraps as the 64-bit register it stands in (log 71). -/
def Hart.flowTo (h : Hart) (pc : Word) (inner : List LoopLevel) : List LoopLevel → Hart
  | [] => { h with pc := pc, loops := inner }
  | l :: ls =>
    let stay (x : LoopLevel) (h : Hart) (pc : Word) : Hart := { h with pc := pc, loops := ls.reverse ++ x :: inner }
    if !l.valid then h.flowTo pc (l :: inner) ls
    else if l.passed h.pc pc then
      if l.isLoopn then
        let c := h.getS l.reg
        if h.sPending l.reg then stay { l with due := true } h pc
        else if c.toNat ≤ 1 then (h.setS l.reg 0).flowTo pc (l.ended l.count :: inner) ls
        else stay { l with due := false } (h.setS l.reg (c - 1)) l.start
      else if l.count = 1 then h.flowTo pc (l.ended 0 :: inner) ls
      else stay { l with due := false, count := (l.count + (2 ^ 64 - 1)) % 2 ^ 64 } h l.start
    else stay l h pc

/-- A level becomes the innermost active one (04 R121): behind the last active one, where there is a place. -/
def pushLevel (x : LoopLevel) (l : List LoopLevel) : List LoopLevel :=
  let n := l.length - (l.reverse.takeWhile fun y => !y.valid).length
  if n < 4 then l.take n ++ x :: l.drop (n + 1) else l.filter (·.valid) ++ [x]

/-- The levels from the first active one on that does not hold an address have ended (04 R123). -/
def popOutside (a : Word) : List LoopLevel → List LoopLevel
  | [] => []
  | l :: ls => if l.valid && !l.holds a then (l :: ls).map fun x => x.ended x.count else l :: popOutside a ls

/-- May the selected hart take an asynchronous event now (18 R399). -/
def State.eventOpen (s : State) : Bool :=
  s.h.run == .running && (s.h.leaving.isNone || s.h.sup) && (!s.h.sup || s.h.ie) && s.h.inConvoy.isNone &&
    !(s.h.publishing.any (·.2))

/-- The lowest-numbered hart of a partition on a die that runs an instance (18 R399). -/
def State.firstRunning (s : State) (part die : Nat) : Option Nat :=
  ((List.range 512).map (512 * die + ·)).find? fun n =>
    s.hartPart n == part && (s.hart n).run == .running

/-- Sources that wait for the selected hart (18 R399). -/
def State.mySources (s : State) : List Nat :=
  if s.firstRunning s.myPart s.myDie = some s.hid then
    ((s.part s.myPart).undelivered.filter (·.2 == s.myDie)).map (·.1)
  else []

/-- The selected hart takes its oldest event, or with an empty queue the pending interrupt as cause 22 (18 R399). -/
def State.takeEvent (s : State) : State :=
  if !s.eventOpen then s
  else
    match s.h.events with
    | e :: rest => (s.onH fun h => { h with events := rest }).enterTrap true s.atHeader none
        ⟨e.cause, e.tval, s.h.eidx⟩
    | [] =>
      if s.mySources.isEmpty then s
      else
        let p := s.part s.myPart
        let s' := s.setPart s.myPart { p with undelivered := p.undelivered.filter (·.2 != s.myDie) }
        s'.enterTrap true s.atHeader none ⟨22, BitVec.ofNat 64 p.intsrc.toNat, s.h.eidx⟩

/-- Is there an event or interrupt the selected hart would take. -/
def State.eventReady (s : State) : Bool := s.eventOpen && (!s.h.events.isEmpty || !s.mySources.isEmpty)

/-- A taken branch or jump: every level whose body does not hold the target pops, with every level inside it
(04 R123). -/
def Hart.jumpTo (h : Hart) (target : Word) : Hart :=
  { h with pc := target, loops := popOutside target h.loops }

/-- The hart after an instruction has executed, before its flow: counted in program order (05 R136), EIDX 0 (01 R14). -/
def Hart.done_ (h : Hart) : Hart :=
  { h with nextSeq := h.nextSeq + 1, eidx := 0, blocked := none, waiting := false, waitAt := none, got := [], gotBad := [], lent := [], reuse := none, gen := none, publishing := none }

/-- An instruction of n bytes retires in sequence. -/
def State.retire (s : State) (n : Nat) : State :=
  s.onH fun h => h.done_.flowTo (h.pc + BitVec.ofNat 64 n) [] h.loops.reverse

/-- An instruction retires with a taken branch or jump. -/
def State.retireTo (s : State) (target : Word) : State := s.onH fun h => h.done_.jumpTo target

/-- The access at the head of a stream queue (05 R132, R135). A stream performs in queue order, vector loads behind earlier vector stores
of the hart too, though row 3 of 11 R287 allows them to go before (log 105). -/
def Hart.head (h : Hart) (strm : Nat) : Option Access := h.sq.find? (·.strm == strm)

/-- A scalar register of the selected hart. -/
def State.rs (s : State) (r : SReg) : Word := s.h.getS r

/-- A scalar register of the selected hart written. -/
def State.ws (s : State) (r : SReg) (x : Word) : State := s.onH (·.setS r x)

/-- Are the registers available (05 R129). -/
def State.ready (s : State) (l : List SReg) : Bool := l.all fun r => !s.h.sPending r

end Sys2Proof.Machine
end

