-- ==== Sys2Proof/Machine/Order.lean ====
section
/-! DEFINITION. Sys2Proof/Machine/Order.lean: the guards of the abstract machine (05 R133 to R145, R152): run-ahead, ordered accesses, fences and barriers, tickets; each as a test of the state. -/

namespace Sys2Proof.Machine

/-- A binding whose reads have not all performed: elements, or with SCALEREG blocks (05 R137). -/
def Binding.reads (b : Binding) : Nat :=
  if b.scalereg then (if b.blen = 0 then 0 else (b.tlen + b.blen - 1) / b.blen) else b.tlen

/-- Has a binding reads still to perform by themselves. -/
def Binding.open_ (b : Binding) : Bool := decide (b.preNext < b.reads) && !b.failed

/-- The deliveries of receives that instructions before seq posted have been made: their writes are of stream F (05 R128, 15 R357). -/
def Hart.postsDone (h : Hart) (seq : Nat) : Bool := h.posts.all fun x => x.vd.isNone || !decide (x.seq < seq)

/-- Every access of the pipe streams that instructions before seq made has performed (05 R139, R143). -/
def Hart.pipesDone (h : Hart) (seq : Nat) : Bool :=
  (h.sq.all fun a => !decide (a.seq < seq)) && (h.binds.all fun b => !(decide (b.seq < seq) && b.open_)) && h.postsDone seq

/-- The same for reads alone. -/
def Hart.readsDone (h : Hart) (seq : Nat) : Bool :=
  (h.sq.all fun a => !(decide (a.seq < seq) && a.op.isRead)) &&
    h.binds.all fun b => !(decide (b.seq < seq) && b.open_)

/-- Every pipe-stream write of hart n before seq has reached a level (05 R139). -/
def State.writesReached (s : State) (n seq : Nat) (l : Scope) : Bool :=
  s.log.all fun w => !(w.agent == n && decide (w.strm < 16) && decide (w.seq < seq)) || w.reached l

/-- Every write returned to a read that p selects has reached a level. -/
def State.seenReached (s : State) (h : Hart) (p : Nat → Bool) (l : Scope) : Bool :=
  h.seen.all fun x => !(p x.1 && decide (x.2.1 < 16)) || s.widReached x.2.2 l

/-- The three conditions of a release of level l for everything before seq (05 R139). -/
def State.releaseMet (s : State) (n seq : Nat) (l : Scope) : Bool :=
  let h := s.hart n
  h.pipesDone seq && s.writesReached n seq l && s.seenReached h (fun q => decide (q < seq)) l

/-- The waits of a fence with its acquire bit set (05 R143). -/
def State.acquireMet (s : State) (n seq : Nat) (l : Scope) : Bool :=
  let h := s.hart n
  h.readsDone seq && s.seenReached h (fun q => decide (q < seq)) l

/-- Every access of the instruction numbered seq has performed. -/
def Hart.ownDone (h : Hart) (seq : Nat) : Bool := h.sq.all fun a => a.seq != seq

/-- Is a fence complete (05 R138, R143 to R145, 06 R163, R171). -/
def State.fenceDone (s : State) (n : Nat) (f : Fence) : Bool :=
  let h := s.hart n
  match f.kind with
  | .full l acq rel => (!rel || s.releaseMet n f.seq l) && (!acq || s.acquireMet n f.seq l)
  | .sv => h.sq.all fun a => !(decide (a.seq < f.seq) && a.strm == 0)
  | .vs => (h.sq.all fun a => !(decide (a.seq < f.seq) && a.strm != 0)) &&
      (h.binds.all fun b => !(decide (b.seq < f.seq) && b.open_)) && h.postsDone f.seq
  | .sbar _ => h.pipesDone f.seq && h.copies.all fun c => !(decide (c.seq < f.seq) && decide (c.pos < c.total))
  | .acquire l => h.ownDone f.seq && s.seenReached h (· == f.seq) l
  | .afterStore l => h.ownDone f.seq && s.acquireMet n f.seq l
  | .ownWrites => h.ownDone f.seq && s.log.all fun w => !(w.agent == n && w.seq == f.seq) || w.atDevice

/-- Does an incomplete fence hold an access of a stream, writing or not (05 R138, R143 to R145). -/
def FenceKind.holds (k : FenceKind) (strm : Nat) (writes : Bool) : Bool :=
  match k with
  | .full _ acq _ => decide (strm < 16) && (acq || writes)
  | .sv => decide (1 ≤ strm) && decide (strm < 16)
  | .vs => strm == 0
  | .sbar m => m.getLsbD strm && !(decide (12 ≤ strm) && decide (strm < 16))
  | .acquire _ | .afterStore _ | .ownWrites => decide (strm < 16)

/-- Is an access of a stream, made by instruction seq, held by a fence of an earlier instruction. -/
def State.fenced (s : State) (n strm seq : Nat) (writes : Bool) : Bool :=
  (s.hart n).fences.any fun f => decide (f.seq < seq) && f.kind.holds strm writes && !s.fenceDone n f

/-- Is the walk of an access held behind an incomplete fence (05 R143, 17 R374, 19 R417): a page fault it finds is no fault yet, since
the walk is made again once the fence is complete (log 23). -/
def State.walkHeld (s : State) (strm cause : Nat) : Bool :=
  (cause == 6 || cause == 7) && s.fenced s.hid strm s.h.nextSeq (cause == 7)

/-- Completed fences are dropped; a complete fence stays complete. -/
def State.dropFences (s : State) (n : Nat) : State :=
  let h := s.hart n
  if h.fences.isEmpty then s else s.setHart n { h with fences := h.fences.filter fun f => !s.fenceDone n f }

/-- Does any access of the device hold a lower ticket (05 R140). -/
def Hart.lowerTicket (h : Hart) (t : Nat) : Bool :=
  h.sq.any fun a => match a.ticket with
    | some u => decide (u < t)
    | none => false

def State.lowerTicket (s : State) (t : Nat) : Bool :=
  s.h.lowerTicket t || s.others.any fun x => x.1 != s.hid && x.2.lowerTicket t

/-- Has the run-ahead limit been reached: a stream-V access more than 16 instructions past an unperformed stream-S
access (05 R136). -/
def Hart.ranAhead (h : Hart) (a : Access) : Bool :=
  a.strm == 1 && h.sq.any fun b => b.strm == 0 && decide (b.seq + 16 < a.seq)

/-- The queue without its head. -/
def dropHead (strm : Nat) : List Access → List Access
  | [] => []
  | a :: l => if a.strm == strm then l else a :: dropHead strm l

/-- The queue with its head changed. -/
def setHead (strm : Nat) (x : Access) : List Access → List Access
  | [] => []
  | a :: l => if a.strm == strm then x :: l else a :: setHead strm x l

/-- Is a page held as the source of a remote write (14 R322, R328). -/
def State.pageHeld (s : State) (page : Nat) : Bool :=
  s.sends.any fun r =>
    (r.held.any fun g => g.writes.any (·.srcs.contains page)) || r.openWrites.any (·.srcs.contains page)

/-- Is a store held back by the hold of its page (06 R199). -/
def AccOp.storesTo : AccOp → List Nat
  | .write pas _ => pas
  | .writeNib pa _ _ => [pa]
  | .amo _ _ pa _ _ => [pa]
  | .vadd _ pa _ _ _ => [pa]
  | _ => []

/-- The pinned register that an access writes, or waits to write. -/
def AccOp.regOf : AccOp → Option VReg
  | .writeReg v _ _ _ => some v
  | .await v _ => v
  | _ => none

/-- Every address an access touches. -/
def AccOp.touches : AccOp → List Nat
  | .read _ pas => pas
  | o => o.storesTo

/-- Does a waking scratchpad bank delay the access (01 R54). -/
def State.bankDelays (s : State) (l : List Nat) : Bool :=
  l.any fun pa => match paClass pa with
    | .scratch c b => s.bankWaking c b
    | _ => false

/-- Is a write held back: by a waking bank, or until the cask's pool has room for the cut values of the pages it falls on (01 R54,
18 R410). -/
def State.writeDelays (s : State) (l : List Nat) : Bool :=
  s.bankDelays l || s.parts.any fun p => !p.2.cask.marked.isEmpty &&
    decide (p.2.cask.pool.length < (((l.map (· / 65536)).eraseDups).filter p.2.cask.owes).length)

/-- May a queue access perform: a push finds room, a pop an entry (06 R183). -/
def Hart.queueReady (h : Hart) : AccOp → Bool
  | .push q _ => decide ((h.queue q).entries.length < 16)
  | .popS q _ => !(h.queue q).entries.isEmpty
  | .popV q _ _ _ => !(h.queue q).entries.isEmpty
  | .popW q _ _ => !(h.queue q).entries.isEmpty
  | .await .. => false
  | _ => true

end Sys2Proof.Machine
end

