-- ==== Sys2Proof/Machine/Shadow.lean ====
section
/-! DEFINITION. Sys2Proof/Machine/Shadow.lean: shadow pages and the publish move (05 R149 to R151, 06 R197, R198). -/

namespace Sys2Proof.Machine

/-- An address a signed number of bytes away. -/
def vaOff (a : Word) (i : Int) : Word := a + BitVec.ofInt 64 i

/-- Bytes read for an element of a format: a nibble is read with its byte. -/
def fmtSize (f : Fmt) : Nat := max 1 (fmtBits f / 8)

/-- The address of element i of a stream, and the nibble of a 4-bit one (06 R179). -/
def Binding.elemVa (b : Binding) (i : Nat) : Word :=
  if fmtBits b.fmt = 4 then vaOff b.base ((i / 2 : Nat) : Int)
  else vaOff b.base ((i : Int) * (if b.estride = 0 then (fmtSize b.fmt : Int) else b.estride))

def Binding.elemNib (b : Binding) (i : Nat) : Option Bool := if fmtBits b.fmt = 4 then some (i % 2 == 1) else none

/-- The address of scale byte j (06 R179, R180). -/
def Binding.scaleVa (b : Binding) (j : Nat) : Word := vaOff b.sbase ((j : Int) * (if b.sstride = 0 then 1 else b.sstride))

/-- Address and bytes of one read of a binding: element i, or scale i. -/
def Binding.readVa (b : Binding) (scale : Bool) (i : Nat) : Word × Nat :=
  if scale then (b.scaleVa i, 1) else (b.elemVa i, fmtSize b.fmt)

/-- Index of a copy's dimension sums: source and destination offsets at a linear position, innermost dimension fastest
(06 R192). -/
def copyOffsets : List CopyDim → Nat → Int × Int
  | [], _ => (0, 0)
  | d :: l, n =>
    let (a, b) := copyOffsets l (n / d.ext)
    (a + ((n % d.ext : Nat) : Int) * d.sstr, b + ((n % d.ext : Nat) : Int) * d.dstr)

/-- Addresses of a copy's next element, with its nibble (06 R188, R192). -/
def Copy.at_ (c : Copy) : Word × Word × Option Bool :=
  if c.esize = 0 then
    (vaOff c.src ((c.pos / 2 : Nat) : Int), vaOff c.dst ((c.pos / 2 : Nat) : Int), some (c.pos % 2 == 1))
  else
    let (a, b) := copyOffsets c.dims c.pos
    (vaOff c.src a, vaOff c.dst b, none)

/-- Cells of one page of a memory. -/
def pageCells (m : List Host.Cell) (f : Nat) : List Host.Cell := m.filter fun c => c.1 / 65536 == f

/-- Bytes of a write that lie in page src, put at the same places of page dst. -/
def copyBytes (src dst : Nat) (m : List Host.Cell) : Nat → List Byte → List Host.Cell
  | _, [] => m
  | a, b :: bs =>
    copyBytes src dst (if a / 65536 = src then memPut m (65536 * dst + a % 65536) b else m) (a + 1) bs

/-- The last contents of page src become those of page dst (06 R198): of each byte the last write in co(x), which every view then shows;
the spec names neither (log 104). -/
def State.copyPage (s : State) (src dst : Nat) : State :=
  let m0 := s.mem.filter fun c => c.1 / 65536 != dst
  let m1 := (pageCells s.mem src).foldl (fun m c => memPut m (65536 * dst + c.1 % 65536) c.2) m0
  let m2 := s.log.foldl (fun m w => copyBytes src dst m w.pa w.data) m1
  { s with
    mem := m2
    log := s.log.map fun (w : WriteRec) =>
      { w with data := w.data.zipIdx.map fun x => if (w.pa + x.2) / 65536 = dst then memByte m2 (w.pa + x.2) else x.1 }
    poison := (s.poison.filter fun w => w / 8192 != dst) ++
      (s.poison.filter fun w => w / 8192 == src).map fun w => 8192 * dst + w % 8192 }

/-- Handles of a partition whose shadow is open, with their generations (05 R149). -/
def State.openShadows (s : State) (part : Nat) : List (Nat × Nat) :=
  (s.bufs.filter fun b => b.part == part && b.shadow.isSome).map fun b => (b.handle, b.gen)

/-- May a partition write shadow pages it has taken: it owns them still (17 R383). -/
def State.shadowOk (s : State) (part : Nat) (l : List Nat) : Bool :=
  l.all fun pa => match paClass pa with
    | .main => s.owns part (pa / 2 ^ 30)
    | _ => true

/-- A free page of a partition's shadow pool that the partition owns (17 R382, R383, 06 R198): the lowest one (log 74). -/
def State.freeShadow (s : State) (part : Nat) : Option Nat :=
  let p := s.part part
  let base := bitsOf p.shpool.toNat 16 28
  (List.range (bitsOf p.shpool.toNat 44 20)).findSome? fun i =>
    if p.shUsed.contains (base + i) || !s.physOk part (65536 * (base + i)) then none else some (base + i)

/-- Where a shadow-bound write to a virtual address goes, from the handles open at its issue: the shadow page, made as a
copy of the live one at its first write, or the live page once the shadow is closed (05 R149, R151, 06 R198). None
while the pool is empty. pa is the live address. A store to the live page between SHADOW and PUBLISH is therefore seen after
the swap where it precedes that first write, or where no such write comes: 06 R198, not the example of 02 R66 (log 75). -/
def State.shadowAddr (s : State) (part : Nat) (open_ : List (Nat × Nat)) (va pa : Nat) : Option (State × Nat) :=
  match s.bufferAt part va with
  | none => some (s, pa)
  | some (b, i) =>
    if !open_.contains (b.handle, b.gen) then some (s, pa)
    else
      match b.shadow with
      | none => some (s, pa)
      | some m =>
        match m.find? (·.1 == i) with
        | some (_, f) => some (s, 65536 * f + pa % 65536)
        | none =>
          match s.freeShadow part with
          | none => none
          | some f =>
            let s1 := s.copyPage (pa / 65536) f
            let s2 := s1.setPart part { s1.part part with shUsed := (s1.part part).shUsed ++ [f] }
            let b' := { b with shadow := some (m ++ [(i, f)]) }
            some ({ s2 with bufs := s2.bufs.map fun (x : Buf) => if x.part = b.part ∧ x.handle = b.handle then b' else x },
              65536 * f + pa % 65536)

/-- The same for the bytes of a write from a virtual address on. -/
def State.shadowAddrs (s : State) (part : Nat) (open_ : List (Nat × Nat)) (va : Nat) : List Nat → Option (State × List Nat)
  | [] => some (s, [])
  | pa :: l =>
    match s.shadowAddr part open_ va pa with
    | none => none
    | some (s1, a) =>
      match s1.shadowAddrs part open_ (va + 1) l with
      | none => none
      | some (s2, l') => some (s2, a :: l')

/-- The live frame of a page of a buffer. -/
def State.liveFrame (s : State) (b : Buf) (i : Nat) : Option Nat :=
  match s.translate none b.part true .read (b.base + BitVec.ofNat 64 (65536 * i)) with
  | .ok (.loc pa) => some (pa / 65536)
  | _ => none

/-- An access with its addresses in page src moved to page dst. -/
def AccOp.rebase (src dst : Nat) (o : AccOp) : AccOp :=
  let f (pa : Nat) : Nat := if pa / 65536 = src then 65536 * dst + pa % 65536 else pa
  match o with
  | .read rt pas => .read rt (pas.map f)
  | .write pas d => .write (pas.map f) d
  | .writeNib pa hi v => .writeNib (f pa) hi v
  | .amo op d pa x c => .amo op d (f pa) x c
  | .vadd fm pa x rm u => .vadd fm (f pa) x rm u
  | o => o

/-- The same for every access a hart has issued and not performed. -/
def Hart.rebase (src dst : Nat) (h : Hart) : Hart :=
  { h with sq := h.sq.map fun (a : Access) => { a with op := a.op.rebase src dst } }

/-- Does a buffer's range hold a virtual address. -/
def Buf.holds (b : Buf) (va : Word) : Bool :=
  decide (b.base.toNat ≤ va.toNat % 2 ^ 56) && decide (va.toNat % 2 ^ 56 < b.base.toNat + 65536 * b.pages)

/-- Does a buffer's range hold one of n bytes, n no more than a page, at an address. -/
def Buf.meets (b : Buf) (va : Word) (n : Nat) : Bool := b.holds va || b.holds (va + BitVec.ofNat 64 (n - 1))

/-- Does element i of a copy write into a buffer; is that write shadow-bound (05 R149). -/
def Copy.writesAt (c : Copy) (b : Buf) (i : Nat) : Bool := c.dest == .mem && b.meets { c with pos := i }.at_.2.1 c.esize
def Copy.shadowed (c : Copy) (b : Buf) : Bool := c.shadows.contains (b.handle, b.gen)

/-- Does element i of a copy read a buffer's live pages, or write them. -/
def Copy.usesAt (c : Copy) (b : Buf) (i : Nat) : Bool :=
  (!c.zsrc && b.meets { c with pos := i }.at_.1 c.esize) || (c.writesAt b i && !c.shadowed b)

/-- Has a copy used a buffer's pages, and has it still to (05 R150). -/
def Copy.halfway (c : Copy) (b : Buf) : Bool :=
  ((List.range (if c.buf.isSome then c.pos + 1 else c.pos)).any (c.usesAt b)) &&
    (((List.range c.total).drop c.pos).any (c.usesAt b))

/-- Has a binding read a buffer's pages, and has it still to (05 R150). -/
def Binding.halfway (x : Binding) (b : Buf) : Bool :=
  let uses (i : Nat) : Bool := b.holds (x.elemVa i) || (x.scaled && x.blen != 0 && b.holds (x.scaleVa (i / x.blen)))
  let uses (i : Nat) : Bool := if x.scalereg then b.holds (x.scaleVa i) else uses i
  ((List.range x.preNext).any uses) && (((List.range x.tlen).drop x.preNext).any uses)

/-- Do n bytes from an address on meet a buffer. -/
def Buf.overlaps (b : Buf) (va : Word) (n : Nat) : Bool :=
  let a := va.toNat % 2 ^ 56
  decide (0 < n) && decide (a < b.base.toNat + 65536 * b.pages) && decide (b.base.toNat < a + n)

/-- Has an engine's transfer used a buffer's live pages, and has it still to (05 R150): its source and operand, and its destination where
the shadow was not open as it started (05 R149). -/
def Xfer.halfway (x : Xfer) (b : Buf) : Bool :=
  let dest := if x.shadows.contains (b.handle, b.gen) then [] else [x.c]
  let places := match x.kind with
    | .send _ => [x.a]
    | .recv => dest
    | .reduce _ _ y => x.a :: y :: dest
    | .copy => x.a :: dest
  (places.any fun va => b.overlaps va x.pos) && places.any fun va => b.overlaps (va + BitVec.ofNat 64 x.pos) (x.len - x.pos)

/-- Does an instruction of the hart stand between its first and its last access to a buffer, whose pages are given (05 R150): an
instruction of the pipes, one that has elements still to issue or to compute among them, a copy or a VBIND. -/
def Hart.halfway (h : Hart) (b : Buf) (pages : List Nat) : Bool :=
  (h.sq.any fun a => h.began.any fun x => x.1 == a.seq && pages.contains x.2 &&
    a.op.touches.any fun pa => pages.contains (pa / 65536)) ||
  (h.began.any fun x => (decide (h.nextSeq ≤ x.1) || h.lates.any (·.seq == x.1)) && pages.contains x.2) ||
  (h.copies.any (·.halfway b)) || h.binds.any (·.halfway b)

/-- Old and new frames of the pages a publish moves. -/
def State.movedPages (s : State) (b : Buf) : List (Nat × Nat × Nat) :=
  (b.shadow.getD []).filterMap fun x => (s.liveFrame b x.1).map fun f => (x.1, f, x.2)

/-- May the publish move be made: no instruction of a hart or an engine stands between accesses to the pages it moves (05 R150). -/
def State.publishOpen (s : State) (b : Buf) : Bool :=
  let pages := (s.movedPages b).map (·.2.1)
  !s.h.halfway b pages && (s.others.all fun x => !x.2.halfway b pages) &&
    s.engines.all fun e => e.2.part != b.part || e.2.xfers.all fun x => !x.halfway b

/-- Publish(h) (05 R150): the shadow pages become live, the generation advances, issued accesses that have not begun
use the new pages, and retired pages of the pool are free again. -/
def State.publishBuf (s : State) (b : Buf) : State :=
  let moved := s.movedPages b
  let re (h : Hart) : Hart := moved.foldl (fun h x => h.rebase x.2.1 x.2.2) h
  let live := (b.live.filter fun x => !moved.any (·.1 == x.1)) ++ moved.map fun x => (x.1, x.2.2)
  let p := s.part b.part
  let retired := (b.live.filter fun x => moved.any (·.1 == x.1)).map (·.2)
  let b' := { b with live := live, shadow := none, gen := b.gen + 1 }
  let s1 := s.setPart b.part { p with shUsed := p.shUsed.filter (!retired.contains ·) }
  { s1 with
    h := re s1.h
    others := s1.others.map fun x => (x.1, re x.2)
    bufs := s1.bufs.map fun (x : Buf) => if x.part = b.part ∧ x.handle = b.handle then b' else x }

/-- An open shadow of a handle of a partition. -/
def State.openBuf (s : State) (part handle : Nat) : Option Buf :=
  s.bufs.find? fun b => b.part == part && b.handle == handle && b.shadow.isSome

/-- Where an issued access reaches memory now: translated again when PTBASE was written since (17 R377), and checked again
(09 R259, 17 R383, R392). A lease of the hart's own was checked at issue. -/
def State.freshAddr (s : State) (n : Nat) (a : Access) (k : AccKind) (i pa : Nat) : Except Trp Nat :=
  let part := s.hartPart n
  let va := a.va + BitVec.ofNat 64 i
  let r : Except Trp Target :=
    if a.ptgen = (s.part part).ptgen then .ok (.loc pa) else s.translate (some (hartCore n)) part a.sup k va
  match r with
  | .error t => .error t
  | .ok (.remote _ _) => .error ⟨8, va, 0⟩
  | .ok (.loc x) =>
    match (s.checkLocal n a.sup va x).filter (·.cause != 9) with
    | some t => .error t
    | none => if k == .write && s.windowShut part x then .error ⟨8, va, 0⟩ else .ok x

def State.freshAddrs (s : State) (n : Nat) (a : Access) (k : AccKind) (i : Nat) : List Nat → Except Trp (List Nat)
  | [] => .ok []
  | pa :: l =>
    match s.freshAddr n a k i pa with
    | .error t => .error t
    | .ok x =>
      match s.freshAddrs n a k (i + 1) l with
      | .error t => .error t
      | .ok r => .ok (x :: r)

/-- Where the bytes of a read lie after a write of PTBASE (17 R377). A lease of the hart's own was checked at issue. -/
def State.freshTargets (s : State) (n : Nat) (sup : Bool) (va : Word) : Nat → Except Trp (List Target)
  | 0 => .ok []
  | k + 1 =>
    let r : Except Trp Target := match s.translate (some (hartCore n)) (s.hartPart n) sup .read va with
      | .ok (.loc pa) => (match (s.checkLocal n sup va pa).filter (·.cause != 9) with
        | some t => .error t
        | none => .ok (.loc pa))
      | x => x
    match r with
    | .error t => .error t
    | .ok x =>
      match s.freshTargets n sup (va + 1) k with
      | .error t => .error t
      | .ok l => .ok (x :: l)

/-- A read translated again: of this device, or of another one (17 R377, 06 R172). One whose bytes have come to lie on both is cause 8
(log 107). -/
def State.freshRead (s : State) (n : Nat) (a : Access) (rt : ReadTo) (va : Word) (k : Nat) : Except Trp AccOp :=
  match s.freshTargets n a.sup va k with
  | .error t => .error t
  | .ok l =>
    match allLocal l, allRemote l with
    | some pas, _ => .ok (.read rt pas)
    | none, some (d, pa) => .ok (.readRemote rt d pa k va)
    | none, none => .error ⟨8, va, 0⟩

/-- An issued access as it performs, at its addresses of now, or the fault it comes to. The accesses of a hart to its own pinned
registers have no address to check: the pin lasts until they have performed (09 R259). -/
def State.freshOp (s : State) (n : Nat) (a : Access) : Except Trp AccOp :=
  match a.op with
  | .read (.pin ..) _ => .ok a.op
  | .read rt pas =>
    if a.ptgen = (s.part (s.hartPart n)).ptgen then (s.freshAddrs n a .read 0 pas).map (.read rt) else s.freshRead n a rt a.va pas.length
  | .readRemote rt _ _ k va => if a.ptgen = (s.part (s.hartPart n)).ptgen then .ok a.op else s.freshRead n a rt va k
  | .write pas d => (s.freshAddrs n a .write 0 pas).map (.write · d)
  | .writeNib pa hi v => (s.freshAddr n a .write 0 pa).map (.writeNib · hi v)
  | .amo op d pa x c => (s.freshAddr n a .write 0 pa).map (.amo op d · x c)
  | .vadd fm pa x rm u => (s.freshAddr n a .write 0 pa).map (.vadd fm · x rm u)
  | o => .ok o

/-- An issued access at its addresses of now; one that will fault keeps those of its issue. -/
def State.refreshed (s : State) (n : Nat) (a : Access) : Access :=
  match s.freshOp n a with
  | .ok op => { a with op := op }
  | .error _ => a

/-- Has a shadow-bound access room in the pool (06 R198). -/
def State.shadowRoom (s : State) (part : Nat) (a : Access) : Bool :=
  a.shadows.isEmpty || (s.shadowAddrs part a.shadows (a.va.toNat % 2 ^ 56) a.op.storesTo).isSome

/-- The guards an access at the head of its stream must meet, but for the ticket (05 R132 to R145). -/
def State.guardsMet (s : State) (n : Nat) (a : Access) : Bool :=
  let h := s.hart n
  !h.ranAhead a && !s.fenced n a.strm a.seq a.op.isWrite &&
    (match a.rel with | some l => s.releaseMet n a.seq l | none => true) &&
    !(h.sq.any fun b => b.acq.isSome && decide (b.seq < a.seq)) &&
    !(a.op.storesTo.any fun pa => s.pageHeld (pa / 65536)) && !s.bankDelays a.op.touches && !s.writeDelays a.op.storesTo && h.queueReady a.op &&
    s.shadowRoom (s.hartPart n) a

/-- Accesses that a PERFORM move performs; remote reads and contributions to other devices leave by INJECT (05 R152). -/
def State.byPerform (s : State) : AccOp → Bool
  | .readRemote .. => false
  | .contrib p _ => p.dst == s.devId
  | _ => true

/-- May the head of a stream perform now; an SC access holds the lowest ticket (05 R140). -/
def State.mayPerform (s : State) (n strm : Nat) : Option Access :=
  match (s.hart n).head strm with
  | none => none
  | some a =>
    if s.guardsMet n (s.refreshed n a) && s.byPerform a.op &&
        (!a.sc || (match a.ticket with | some t => !s.lowerTicket t | none => false)) then some a
    else none

end Sys2Proof.Machine
end

