-- ==== Sys2Proof/Machine/Issue.lean ====
section
/-! DEFINITION. Sys2Proof/Machine/Issue.lean: how an instruction waits at its issue (05 R129, 13 R313, 06 R186) and the common form of scalar and privileged instructions. -/

namespace Sys2Proof.Machine

/-- The hart waits at one of the blocking points of 13 R313; since when is kept for the progress fault. -/
def State.block (s : State) : State :=
  s.onH fun h => { h with blocked := some (h.blocked.getD s.now), waiting := true }

/-- The hart waits for something that always ends (13 R295, R313). -/
def State.pause (s : State) : State := s.onH fun h => { h with blocked := none, waiting := true }

/-- Does an access wait for accesses of earlier instructions in other streams: behind a fence or an acquire, for its release, or by the
run-ahead limit (05 R136 to R145). -/
def State.waitsOlder (s : State) (n : Nat) (a : Access) : Bool :=
  let h := s.hart n
  h.ranAhead a || s.fenced n a.strm a.seq a.op.isWrite || (a.rel.any fun l => !s.releaseMet n a.seq l) ||
    h.sq.any fun b => b.acq.isSome && decide (b.seq < a.seq)

/-- Is the head of a stream held at a blocking point: a push to a full queue, a pop of an empty one, a shadow-bound write with the pool
empty; or does it wait for an access of another stream that is (13 R313). The number bounds the streams looked at. -/
def State.heldIn (s : State) (n : Nat) : Nat → Nat → Bool
  | 0, _ => false
  | k + 1, strm =>
    match (s.hart n).head strm with
    | none => false
    | some a => (match a.op with
          | .await .. => strm != 1 && s.heldIn n k 1
          | o => !(s.hart n).queueReady o || !s.shadowRoom (s.hartPart n) a) ||
        (s.waitsOlder n a && (List.range 16).any fun t =>
          t != strm && ((s.hart n).sq.any fun b => b.strm == t && decide (b.seq < a.seq)) && s.heldIn n k t)

def State.headHeld (s : State) (n strm : Nat) : Bool := s.heldIn n 4 strm

/-- The recorded fault of the channel that feeds the empty queue an access pops, until a trap has taken it (06 R186). -/
def Hart.popFault (h : Hart) (a : Access) : Option (Nat × ChanFault) :=
  let q := match a.op with
    | .popS q _ => some q
    | .popV q _ _ _ => some q
    | .popW q _ _ => some q
    | _ => none
  match q with
  | none => none
  | some q =>
    match (h.queue q).chan with
    | some c =>
      if (h.queue q).entries.isEmpty then ((SMap.get none h.chanFaults c).filter (!·.reported)).map (c, ·) else none
    | none => none

/-- The trap of a channel's fault; the channel resumes when its handler returns (06 R193). -/
def State.chanTrap (s : State) (ch eidx : Nat) (f : ChanFault) : State :=
  (s.onH fun h => { h with chanFaults := SMap.put none h.chanFaults ch (some { f with reported := true }) }).trapWith s.atHeader none
    ⟨f.cause, f.tval, eidx⟩

/-- The hart waits for accesses that p selects: the fault of a channel that holds the pop before one of them is taken
here (06 R186). -/
def State.stallOn (s : State) (p : Access → Bool) : State :=
  match (s.h.sq.filter p).findSome? fun a => (s.h.head a.strm).bind fun x => s.h.popFault x with
  | some (c, f) => s.chanTrap c 0 f
  | none => if s.h.sq.any fun a => p a && s.headHeld s.hid a.strm then s.block else s.pause

/-- The hart waits for scalar registers. -/
def State.stall (s : State) (l : List SReg) : State :=
  s.stallOn fun a => (s.h.lates.any fun x => x.seq == a.seq && l.any (x.sdsts.contains ·)) || match a.op.sdest with
    | some d => l.contains d
    | none => false

/-- A scalar instruction: it issues when its registers are available, and its effect is whole before it retires
(04 R102). -/
def scalarStep (s : State) (regs : List SReg) (eff : State → State) : Out :=
  if s.ready regs then .next ((eff s).retire 4) else .next (s.stall regs)

/-- A privileged instruction in program mode raises cause 8 with its encoding (03 R80). -/
def privStep (s : State) (i : Instr) (k : Out) : Out :=
  if s.h.sup then k else .next (s.trap ⟨8, encodeWord i, 0⟩)


end Sys2Proof.Machine
end

