-- ==== Sys2Proof/Machine/Alu.lean ====
section
/-! DEFINITION. Sys2Proof/Machine/Alu.lean: the integer register and immediate instructions (04 R103 to R105). -/

namespace Sys2Proof.Machine

/-- sd := f(sa, sb) (04 R101, R103). -/
def aluStep (s : State) (d a b : SReg) (f : Word → Word → Word) : Out :=
  scalarStep s [a, b, d] fun s => s.ws d (f (s.rs a) (s.rs b))

/-- sd := f(sa) (04 R103, R104). -/
def unaryStep (s : State) (d a : SReg) (f : Word → Word) : Out :=
  scalarStep s [a, d] fun s => s.ws d (f (s.rs a))

/-- A truth value in a register. -/
def boolWord (b : Bool) : Word := if b then 1 else 0

/-- Shift amount sb[5:0] (04 R103). -/
def shiftAmount (x : Word) : Nat := x.toNat % 64

/-- Quotient and remainder, signed, with division by zero as R103 states. -/
def divSigned (a b : Word) : Word := if b = 0 then BitVec.allOnes 64 else BitVec.sdiv a b
def remSigned (a b : Word) : Word := if b = 0 then a else BitVec.srem a b

/-- Unsigned quotient and remainder (04 R103). -/
def divUnsigned (a b : Word) : Word := if b = 0 then BitVec.allOnes 64 else a / b
def remUnsigned (a b : Word) : Word := if b = 0 then a else a % b

/-- Number of leading zero bits among the n low bits (04 R103). -/
def leadingZeros (x : Word) : Nat → Nat
  | 0 => 0
  | n + 1 => if x.getLsbD n then 0 else leadingZeros x n + 1

/-- Number of trailing zero bits from bit i on, of n bits. -/
def trailingZeros (x : Word) : Nat → Nat → Nat
  | 0, _ => 0
  | n + 1, i => if x.getLsbD i then 0 else trailingZeros x n (i + 1) + 1

/-- Number of one bits among the n low bits. -/
def onesBelow (x : Word) : Nat → Nat
  | 0 => 0
  | n + 1 => (if x.getLsbD n then 1 else 0) + onesBelow x n

/-- imm12 sign-extended; Cat(imm20, 0x000) sign-extended (04 R101, R105). -/
def sext12 (i : BitVec 12) : Word := i.signExtend 64
def upper20 (i : BitVec 20) : Word := (i ++ (0 : BitVec 12)).signExtend 64

def execAdd (d a b : SReg) (s : State) : Out := aluStep s d a b fun x y => x + y
def execSub (d a b : SReg) (s : State) : Out := aluStep s d a b fun x y => x - y
def execAnd (d a b : SReg) (s : State) : Out := aluStep s d a b fun x y => x &&& y
def execOr (d a b : SReg) (s : State) : Out := aluStep s d a b fun x y => x ||| y
def execXor (d a b : SReg) (s : State) : Out := aluStep s d a b fun x y => x ^^^ y
def execSll (d a b : SReg) (s : State) : Out := aluStep s d a b fun x y => x <<< shiftAmount y
def execSrl (d a b : SReg) (s : State) : Out := aluStep s d a b fun x y => x >>> shiftAmount y
def execSra (d a b : SReg) (s : State) : Out := aluStep s d a b fun x y => x.sshiftRight (shiftAmount y)
def execSlt (d a b : SReg) (s : State) : Out := aluStep s d a b fun x y => boolWord (BitVec.slt x y)
def execSltu (d a b : SReg) (s : State) : Out := aluStep s d a b fun x y => boolWord (BitVec.ult x y)
def execMul (d a b : SReg) (s : State) : Out := aluStep s d a b fun x y => x * y
def execMulh (d a b : SReg) (s : State) : Out :=
  aluStep s d a b fun x y => BitVec.ofInt 64 (x.toInt * y.toInt / 2 ^ 64)
def execMulhu (d a b : SReg) (s : State) : Out :=
  aluStep s d a b fun x y => BitVec.ofNat 64 (x.toNat * y.toNat / 2 ^ 64)
def execDiv (d a b : SReg) (s : State) : Out := aluStep s d a b divSigned
def execDivu (d a b : SReg) (s : State) : Out := aluStep s d a b divUnsigned
def execRem (d a b : SReg) (s : State) : Out := aluStep s d a b remSigned
def execRemu (d a b : SReg) (s : State) : Out := aluStep s d a b remUnsigned
def execMin (d a b : SReg) (s : State) : Out := aluStep s d a b fun x y => if x.toInt ≤ y.toInt then x else y
def execMax (d a b : SReg) (s : State) : Out := aluStep s d a b fun x y => if x.toInt ≤ y.toInt then y else x
def execMinu (d a b : SReg) (s : State) : Out := aluStep s d a b fun x y => if x.toNat ≤ y.toNat then x else y
def execMaxu (d a b : SReg) (s : State) : Out := aluStep s d a b fun x y => if x.toNat ≤ y.toNat then y else x
def execClz (d a : SReg) (s : State) : Out := unaryStep s d a fun x => BitVec.ofNat 64 (leadingZeros x 64)
def execCtz (d a : SReg) (s : State) : Out := unaryStep s d a fun x => BitVec.ofNat 64 (trailingZeros x 64 0)
def execPopc (d a : SReg) (s : State) : Out := unaryStep s d a fun x => BitVec.ofNat 64 (onesBelow x 64)
def execAndn (d a b : SReg) (s : State) : Out := aluStep s d a b fun x y => x &&& ~~~y

def execAddi (d a : SReg) (i : BitVec 12) (s : State) : Out := unaryStep s d a fun x => x + sext12 i
def execAndi (d a : SReg) (i : BitVec 12) (s : State) : Out := unaryStep s d a fun x => x &&& sext12 i
def execOri (d a : SReg) (i : BitVec 12) (s : State) : Out := unaryStep s d a fun x => x ||| sext12 i
def execXori (d a : SReg) (i : BitVec 12) (s : State) : Out := unaryStep s d a fun x => x ^^^ sext12 i
def execSlti (d a : SReg) (i : BitVec 12) (s : State) : Out :=
  unaryStep s d a fun x => boolWord (BitVec.slt x (sext12 i))
def execSltiu (d a : SReg) (i : BitVec 12) (s : State) : Out :=
  unaryStep s d a fun x => boolWord (BitVec.ult x (sext12 i))
def execSlli (d a : SReg) (n : BitVec 6) (s : State) : Out := unaryStep s d a fun x => x <<< n.toNat
def execSrli (d a : SReg) (n : BitVec 6) (s : State) : Out := unaryStep s d a fun x => x >>> n.toNat
def execSrai (d a : SReg) (n : BitVec 6) (s : State) : Out := unaryStep s d a fun x => x.sshiftRight n.toNat
def execLui (d : SReg) (i : BitVec 20) (s : State) : Out := scalarStep s [d] fun s => s.ws d (upper20 i)
def execAuipc (d : SReg) (i : BitVec 20) (s : State) : Out :=
  scalarStep s [d] fun s => s.ws d (s.h.pc + upper20 i)

end Sys2Proof.Machine
end

