-- ==== Sys2Proof/Machine/WinWrite.lean ====
section
/-! DEFINITION. Sys2Proof/Machine/WinWrite.lean: writes with behaviour: control and status registers (03 R78, 04 R115, 08 R229, 01 R23 to R25, 18 R395), the context image (17 R392, 18 R403), the partition, controller, tier and device blocks of the introspection window (17 R381, R382, R384 to R391, 18 R399, R409). -/

namespace Sys2Proof.Machine

/-- A word with only the bits of a mask. -/
def keep (m : Nat) (x : Word) : Word := x &&& BitVec.ofNat 64 m

/-- A write of LSCALE: a change of SCALE increments EPOCH modulo 256 (08 R229). -/
def Hart.writeScale (h : Hart) (x : Word) : Hart :=
  let v : BitVec 32 := BitVec.ofNat 32 x.toNat
  if v = h.scale then h else { h with scale := v, epoch := h.epoch + 1 }

/-- A write of TSTATUS; LOST is cleared by writing 1 (18 R395, 00 R9). -/
def Hart.writeTstatus (h : Hart) (x : Word) : Hart :=
  { h with
    pp := x.getLsbD 0
    ie := x.getLsbD 1
    pie := x.getLsbD 2
    th := x.getLsbD 3
    lost := h.lost && !x.getLsbD 4
    conv := x.getLsbD 5 }

/-- A write of a register the hart holds, each field as its Access column says (00 R9, R10); read-only registers and
those held elsewhere are unchanged. sup: the supervisor writes. -/
def Hart.writeCsr (h : Hart) (c : Csr) (sup : Bool) (x : Word) : Hart :=
  match c with
  | .fctl => { h with fctl := keep 0x7FEF x }
  | .fflags => { h with fflags := keep 0x7F1F x }
  | .srseed => { h with srseed := x }
  | .srseq => { h with srseq := x }
  | .tseedv => { h with tseedv := x }
  | .tbase => { h with tbase := x }
  | .lscale => h.writeScale x
  | .cdens => { h with cdens := keep 0x7F x }
  | .cgroup => { h with cgroup := keep 0xFFFF x }
  | .cops => { h with cops := keep 0xFF x }
  | .cstride => { h with cstride := keep 0xFFFFFF x }
  | .ctag => { h with ctag := keep 0xFFFF x }
  | .capbase => if sup then { h with capbase := x } else h
  | .tcause => { h with cause := BitVec.ofNat 6 x.toNat, casync := x.msb }
  | .tpc => { h with tpc := x }
  | .teidx => { h with teidx := keep 0xFFFF x }
  | .tval => { h with tval := x }
  | .tstatus => h.writeTstatus x
  | .twin => { h with twin := keep 0xFFFFFFFF x }
  | .vl | .vtype | .vcfg | .eidx | .vlmax | .lpart | .lidx _ | .stepno | .tvec | .ptbase | .partid | .tshort | .rwin => h

/-- A change of LPART MODE (01 R25, 10 R271): register segments cleared, VILL set and VL zero in both harts, matrix
state as at dispatch. -/
def Hart.afterLpart (h : Hart) : Hart :=
  ({ h.zeroWindows with vill := true, vl := 0, vlmax := 0, efmt := 0, tb := 0 }).resetMatrix

/-- MODE of a core set; nothing happens when it is already that. -/
def State.setMode (s : State) (core mode : Nat) : State :=
  let c := SMap.get {} s.cores core
  let s' := { s with cores := SMap.put {} s.cores core { c with mode := mode, pend := false, next := 0 } }
  if c.mode = mode then s'
  else
    let a := s'.setHart (2 * core) (s'.hart (2 * core)).afterLpart
    a.setHart (2 * core + 1) (a.hart (2 * core + 1)).afterLpart

/-- Are both harts of a core idle (01 R24). -/
def State.coreIdle (s : State) (core : Nat) : Bool :=
  (s.hart (2 * core)).run == .idle && (s.hart (2 * core + 1)).run == .idle

/-- A supervisor write of LPART (01 R23, R24): at once on an idle core, otherwise pending; 3 is ignored. -/
def State.writeLpart (s : State) (core : Nat) (v : Word) : State :=
  let m := bitsOf v.toNat 0 2
  if m = 3 then s
  else if s.coreIdle core then s.setMode core m
  else
    let c := SMap.get {} s.cores core
    { s with cores := SMap.put {} s.cores core { c with pend := true, next := m } }

/-- A PTBASE write completes: the register is set for the partition, and every TLB of its cores is emptied; accesses that perform
later translate anew (17 R377). -/
def State.setPtbase (s : State) (part : Nat) (v : Word) : State :=
  let p := s.part part
  let s := s.setPart part { p with ptbase := keep 0xFFFFFF00000 v, ptgen := p.ptgen + 1 }
  { s with cores := s.cores.map fun c => if s.partOf (c.1 / 16) = part then (c.1, { c.2 with tlb := [] }) else c }

/-- An instance ends: the hart becomes idle with pins, leases, channels, queues and bindings released, and its kernel
counts it done (04 R125, 18 R400). -/
def State.finishInstance (s : State) (n : Nat) : State :=
  let h := s.hart n
  let s := match h.inst with
    | none => s
    | some i => { s with kernels := s.kernels.map fun (k : Kernel) =>
        if k.token = i.token then { k with done := k.done + 1, harts := k.harts ++ [(n, h.nextSeq)] } else k }
  let s := s.unpinAll n s.lastByte
  s.setHart n { s.hart n with
    run := .idle, inst := none, deliveries := [], copies := [], chanFaults := [], q := [], binds := [], posts := []
    loops := [], blocked := none, waiting := false, leaving := none, cbIdx := none, cbHead := 0, cbCount := 0 }

/-- A level of the loop stack that nothing has been written to. -/
def emptyLevel : LoopLevel := { valid := false, start := 0, len := 1, isLoopn := false, reg := 0, count := 0 }

/-- Levels without the empty ones at the end. -/
def trimLevels : List LoopLevel → List LoopLevel
  | [] => []
  | l :: ls => if trimLevels ls = [] ∧ l = emptyLevel then [] else l :: trimLevels ls

/-- A level after doubleword j is written: START is a 56-bit virtual address, sign-extended (04 R124, 01 R49). -/
def LoopLevel.write (l : LoopLevel) (j : Nat) (x : Word) : LoopLevel :=
  match j with
  | 0 => { l with valid := x.msb, start := BitVec.ofInt 64 (signedOf 56 x.toNat), len := bitsOf x.toNat 56 6 + 1, isLoopn := x.getLsbD 62 }
  | 1 => { l with reg := Fin.ofNat 32 x.toNat }
  | _ => { l with count := x.toNat }

/-- The loop stack after doubleword j of level i is written (04 R124). -/
def writeLoop (l : List LoopLevel) (i j : Nat) (x : Word) : List LoopLevel :=
  trimLevels (modAt (·.write j x) (l ++ List.replicate (4 - l.length) emptyLevel) i)

/-- A fabric stream register after a doubleword is written (15 R355); STATE 3 is never held, and its write leaves STATE. -/
def writeFreg (f : FReg) (i : Nat) (x : Word) : FReg :=
  let n := x.toNat
  match i with
  | 0 => { f with group := bitsOf n 0 16, tag := bitsOf n 16 16, opfmt := bitsOf n 32 7, chunk := bitsOf n 40 24 }
  | 1 => { f with sseq := bitsOf n 0 32, pseq := bitsOf n 32 32 }
  | 2 => { f with dseq := bitsOf n 0 32, state := if bitsOf n 32 2 = 3 then f.state else bitsOf n 32 2 }
  | _ => f

/-- A binding slot after a doubleword is written: its record, register and position as the six doublewords then say; a slot whose
doublewords are all zero is empty (18 R403, log 15). -/
def bindOf (old : Option Binding) (seq slot i : Nat) (x : Word) : Option Binding :=
  let w (j : Nat) : Nat := (if j = i then x else bindWord old j).toNat
  if x = bindWord old i then old
  else if (List.range 6).all (w · == 0) then none
  else
    let len := bitsOf (w 3) 32 32
    some {
      slot := slot, reg := Fin.ofNat 64 (w 4), seq := (old.map (·.seq)).getD seq, base := BitVec.ofNat 64 (w 0)
      estride := signedOf 32 (w 1), fmt := (fmtOfCode (bitsOf (w 1) 32 5)).getD .f32, blen := bitsOf (w 1) 40 8
      scaled := bitsOf (w 1) 48 1 == 1, scalereg := bitsOf (w 1) 49 1 == 1, sbase := BitVec.ofNat 64 (w 2)
      sstride := signedOf 32 (w 3), tlen := len, pos := min (w 5) len, preNext := min (w 5) len }

def writeBind (l : List Binding) (seq slot i : Nat) (x : Word) : List Binding :=
  match bindOf (l.find? (·.slot == slot)) seq slot i x with
  | none => l.filter (·.slot != slot)
  | some b => if l.any (·.slot == slot) then l.map fun y => if y.slot = slot then b else y else l ++ [b]

/-- A copy with the fields its record gives (18 R403, log 15). -/
def copyFrom (c : Copy) (w : Nat → Word) : Copy :=
  let n := (w 0).toNat
  let d := (w 21).toNat
  { c with
    chan := n % 16, esize := bitsOf n 8 8, zsrc := bitsOf n 16 1 == 1, sup := bitsOf n 17 1 == 1
    src := w 1, dst := w 2, pos := (w 3).toNat, total := (w 4).toNat
    dims := (List.range (min 8 (bitsOf n 24 8))).map fun k =>
      ⟨bitsOf (w (5 + 2 * k)).toNat 0 32, signedOf 32 (bitsOf (w (5 + 2 * k)).toNat 32 32), signedOf 32 (w (6 + 2 * k)).toNat⟩
    dest := match d % 256 with
      | 1 => .queue
      | 2 => .vreg (Fin.ofNat 64 (d / 256))
      | 3 => .remote (bitsOf d 16 13) (bitsOf d 32 14)
      | _ => .mem
    ring := if d.testBit 63 then some ((w 22).toNat, w 23) else none
    buf := none, suspended := true }

/-- Doubleword i of the record of suspended copy k written: the copy as its record then says; its mark taken away, no copy; the mark put
behind the last record, a new one (18 R403, log 15). -/
def Hart.writeCopy (h : Hart) (k i : Nat) (x : Word) : Hart :=
  let l := h.copies.filter (·.suspended)
  match l[k]? with
  | some c =>
    if x = copyWord (some c) i then h
    else if i = 0 ∧ !x.msb then { h with copies := h.copies.filter (·.id != c.id) }
    else
      let c' := copyFrom c fun j => if j = i then x else copyWord (some c) j
      { h with copies := h.copies.map fun y => if y.id = c.id then c' else y }
  | none =>
    if i = 0 ∧ x.msb ∧ k = l.length ∧ k < 512 then
      let c : Copy := {
        id := h.nextCopy, chan := 0, seq := h.nextSeq, esize := 0, src := 0, dst := 0, zsrc := false, sup := false, dest := .mem
        dims := [], total := 0 }
      { h with nextCopy := h.nextCopy + 1, copies := h.copies ++ [copyFrom c fun j => if j = 0 then x else 0] }
    else h

/-- The event queue after doubleword j of entry i is written: an entry behind the last is added with its cause, and one whose cause
becomes 0 leaves (18 R403, log 15). -/
def writeEvent (l : List Event) (i j : Nat) (x : Word) : List Event :=
  if i < l.length then
    if j = 0 then (if x.toNat % 64 = 0 then dropAt l i else modAt (fun (e : Event) => { e with cause := x.toNat % 64 }) l i)
    else modAt (fun (e : Event) => { e with tval := x }) l i
  else if j = 0 ∧ i = l.length ∧ i < 8 ∧ x.toNat % 64 ≠ 0 then l ++ [⟨x.toNat % 64, 0⟩]
  else l

/-- The lease count of a register written: the last deliveries go, or ended ones of channel 0 come to them (18 R403, log 15). -/
def Hart.setLeases (h : Hart) (v : VReg) (n : Nat) : Hart :=
  let mine := h.deliveries.filter (·.reg == v)
  if n = mine.length then h
  else
    { h with deliveries := (h.deliveries.filter (·.reg != v)) ++ mine.take n ++
        List.replicate (n - mine.length) ⟨v, .copy 0 h.nextCopy, h.nextSeq, true⟩ }

/-- A queue after a doubleword is written (18 R403, log 15). -/
def writeQueue (q : QReg) (i : Nat) (x : Word) : QReg :=
  if i < 16 then { q with entries := modAt (fun _ => x) q.entries i }
  else match i with
    | 17 => { q with entries := (q.entries ++ List.replicate (min 16 x.toNat - q.entries.length) 0).take (min 16 x.toNat) }
    | 18 => { q with home := x.toNat % 32 }
    | 19 => { q with chan := if x = 0 then none else some ((x.toNat - 1) % 16) }
    | _ => q

/-- A copy channel's block after a write: clearing its pending state abandons the channel, which ends its fault, its
copies and the leases they held (06 R193); clearing the fault word alone lets the channel go on. -/
def Hart.writeChan (h : Hart) (ch i : Nat) (x : Word) : Hart :=
  match i with
  | 0 =>
    if x = 0 then
      { h with
        copies := h.copies.filter (·.chan != ch)
        chanFaults := SMap.put none h.chanFaults ch none
        deliveries := h.deliveries.filter fun d => match d.src with
          | .copy c _ => c != ch
          | .strip _ _ => true }
    else h
  | 1 => if x = 0 then { h with chanFaults := SMap.put none h.chanFaults ch none } else h
  | _ => h

/-- Eight bytes put through a function from an offset on. -/
def put8 {α : Type} (f : α → Nat → Nat → α) (a : α) (o : Nat) (x : Word) : Nat → α
  | 0 => a
  | i + 1 => f (put8 f a o x i) (o + i) (bitsOf x.toNat (8 * i) 8)

/-- A byte of a lane's window region written (01 R28, R30). -/
def putLaneByte (lanes l : Nat) (h : Hart) (o b : Nat) : Hart :=
  let bw := h.windowBytes
  if h.vill || lanes = 0 || bw = 0 then h
  else
    let v := o / bw
    let w := o % bw
    if h.nreg ≤ v then h
    else
      let r : VReg := Fin.ofNat 64 v
      let el (n : Nat) : Nat × Nat := (n % (1 + h.tangents), n / (1 + h.tangents) * lanes + l)
      if h.ebits = 4 then
        let (p, e) := el (2 * w)
        let (p', e') := el (2 * w + 1)
        (h.putV r p e (b % 16)).putV r p' e' (b / 16)
      else
        let k := h.ebits / 8
        let (p, e) := el (w / k)
        let x := h.getV r p e
        let i := w % k
        h.putV r p e (x % 256 ^ i + b * 256 ^ i + x / 256 ^ (i + 1) * 256 ^ (i + 1))

/-- A byte of a tile's block written (18 R403, log 15). -/
def putTileByte (cols w : Nat) (h : Hart) (o b : Nat) : Hart :=
  let cfg := h.tileCfg w cols
  if o < 8 then
    { h with tcfg := SMap.put 0 h.tcfg w (BitVec.ofNat 64 (cfg - bitsOf cfg (8 * o) 8 * 256 ^ o + b * 256 ^ o)) }
  else if o < 520 then { h with tsc := SMap.put 127 h.tsc (tscKey w ((o - 8) / 64) ((o - 8) % 64)) (BitVec.ofNat 8 b) }
  else if o < 4616 then
    let bits := fmtBits (tileFmt cfg)
    let n := tileN cfg
    let j := o - 520
    let key (i : Nat) : Nat := telKey w (i / n) (i % n)
    let setE (h : Hart) (i x : Nat) : Hart := h.putTel w (i / n) (i % n) x
    if n = 0 then h
    else if bits = 4 then setE (setE h (2 * j) (b % 16)) (2 * j + 1) (b / 16)
    else
      let k := bits / 8
      let x := (SMap.get 0 h.tel (key (j / k))).toNat
      let i := j % k
      setE h (j / k) (x % 256 ^ i + b * 256 ^ i + x / 256 ^ (i + 1) * 256 ^ (i + 1))
  else h

/-- STATE written: RUN 1 restarts the hart, RUN 0 ends its instance, MODE, STOP and DFAULT are set (18 R400, R403). -/
def State.writeStateWord (s : State) (n : Nat) (x : Word) : State :=
  let v := x.toNat
  let h := s.hart n
  let h' := { h with sup := bitsOf v 2 1 == 1, stop := bitsOf v 3 6, dfault := bitsOf v 9 1 == 1 }
  match bitsOf v 0 2 with
  | 0 => if h.run = .idle then s.setHart n h' else (s.setHart n h').finishInstance n
  | 1 => s.setHart n { h' with run := .running, blocked := none, waiting := false }
  | 2 => s.setHart n { h' with run := .resumable }
  | _ => s.setHart n { h' with run := .stopped }

/-- A register of the image written: the state itself, read-only to programs or not; partition-wide registers ignore it (18 R403). VILL
is set by a VTYPE whose format has no container or whose bundle code is 6 or 7, on a hart without lanes, and by a VLMAX less than the
lanes (01 R31). -/
def Hart.imageCsr (h : Hart) (lanes : Nat) (c : Csr) (x : Word) : Hart :=
  match c with
  | .vl => { h with vl := min x.toNat 65536 }
  | .vlmax => if h.vill then h
    else if x.toNat < lanes then { h with vill := true, efmt := 0, tb := 0, vlmax := 0 }
    else { h with vlmax := min x.toNat 65536 }
  | .vtype =>
    let efmt : BitVec 5 := BitVec.ofNat 5 x.toNat
    let tb : BitVec 3 := BitVec.ofNat 3 (x.toNat / 32)
    if x.msb ∨ lanes = 0 ∨ !(fmtOfCode efmt.toNat).any fmtHasContainer ∨ 5 < tb.toNat then
      { h with vill := true, efmt := 0, tb := 0, vlmax := 0 }
    else { h with vill := false, efmt := efmt, tb := tb }
  | .vcfg => { h with
      nrc := if bitsOf x.toNat 0 3 ≤ 4 then BitVec.ofNat 3 x.toNat else h.nrc
      sreg := max 8 (min 16 (bitsOf x.toNat 8 5))
      sreq := max 8 (min 16 (bitsOf x.toNat 16 5)) }
  | .eidx => { h with eidx := x.toNat % 65536 }
  | .lscale => { h with scale := BitVec.ofNat 32 x.toNat, epoch := BitVec.ofNat 8 (x.toNat / 2 ^ 32) }
  | .lidx i => { h with lidx := SMap.put 0 h.lidx i.val x }
  | c => h.writeCsr c true x

/-- The pin mask of a hart written: registers become pinned, or leave the pin with their contents (01 R41). -/
def State.setPins (s : State) (n : Nat) (x : BitVec 64) : State :=
  let old := (s.hart n).pins
  (List.range 64).foldl (fun (t : State) i =>
    if old.getLsbD i == x.getLsbD i then t
    else if x.getLsbD i then t.pinIn n (Fin.ofNat 64 i) else t.pinOut n (Fin.ofNat 64 i) s.lastByte) s

/-- A doubleword of the lane slices of a hart written, of pinned registers too (01 R28, R41). -/
def State.laneWrite (s : State) (n o : Nat) (x : Word) : State :=
  let pins := (s.hart n).pins
  let s1 := s.unpinAll n s.lastByte
  let h := s1.hart n
  (s1.setHart n (put8 (putLaneByte (s.lanesOf n) (o / 0x4000)) h (o % 0x4000) x 8)).setPins n pins

/-- A doubleword of a hart's context image written (17 R392, 18 R403); its poison goes (18 R406). The saved number and the TPC it
stands with are written together: the spec gives the field no mark of whether a number was drawn, and a written one counts as
drawn (log 83). -/
def State.imageWrite (s0 : State) (n off : Nat) (x : Word) : State :=
  let s := s0.setHart n { s0.hart n with poison := (s0.hart n).poison.filter (· != off) }
  let h0 := s.hart n
  let h := h0
  let i := off / 8
  let set (h : Hart) : State := s.setHart n h
  if off < 0x100 then set (h.setS (Fin.ofNat 32 i) x)
  else if off = 0x160 then s.writeLpart (hartCore n) x
  else if off < 0x300 then (match csrOf ((off - 0x100) / 8) with | some c => set (h.imageCsr (s.lanesOf n) c x) | none => s)
  else if off < 0x380 then (match csrOf (0x100 + (off - 0x300) / 8) with | some c => set (h.imageCsr (s.lanesOf n) c x) | none => s)
  else if off < 0x400 then
    match i - 0x70 with
    | 0 => set { h with pc := x }
    | 1 => set { h with eidx := x.toNat % 65536 }
    | 2 => s.writeStateWord n x
    | 3 => set { h with srseqSaved := x }
    | 4 => set { h with seqSaved := some (x, h.tpc) }
    | 5 => s.setPins n x
    | _ => s
  else if off < 0x460 then set { h with loops := writeLoop h.loops ((i - 0x80) / 3) ((i - 0x80) % 3) x }
  else if off < 0x480 then s
  else if off < 0x4E0 then set { h with loopsSaved := writeLoop h.loopsSaved ((i - 0x90) / 3) ((i - 0x90) % 3) x }
  else if off < 0x500 then s
  else if off < 0x580 then set { h with events := writeEvent h.events ((off - 0x500) / 16) (i % 2) x }
  else if off < 0x600 then set (h.setF ((off - 0x580) / 32) (writeFreg (h.freg ((off - 0x580) / 32)) (i % 4) x))
  else if off < 0x680 then
    set ((List.range 4).foldl (fun (h : Hart) j => h.setLeases (Fin.ofNat 64 ((off - 0x600) / 2 + j)) (bitsOf x.toNat (16 * j) 16)) h)
  else if off < 0x800 then set { h with binds := writeBind h.binds h.nextSeq ((off - 0x680) / 48) ((off - 0x680) / 8 % 6) x }
  else if off < 0x1000 then set (h.setQ ((off - 0x800) / 256) (writeQueue (h.queue ((off - 0x800) / 256)) (i % 32) x))
  else if off < 0x1040 then
    match i - 0x200 with
    | 0 => set { h with cbIdx := h.cbIdx.map fun _ => x.toNat % 64 }
    | 1 => set { h with cbHead := x.toNat % 131072 }
    | 2 => set { h with cbCount := min x.toNat 131072 }
    | _ => s
  else if 0x12000 ≤ off ∧ off < 0x20000 then
    let r := (off - 0x10000) / 0x2000
    let sh := 8 * (off % 0x2000)
    let m := SMap.get 0 h.k r
    set { h with k := SMap.put 0 h.k r (BitVec.ofNat 65536 (m.toNat - bitsOf m.toNat sh 64 * 2 ^ sh + x.toNat * 2 ^ sh)) }
  else if 0x20000 ≤ off ∧ off < 0x20400 then set (h.writeChan ((off - 0x20000) / 64) (i % 8) x)
  else if 0x20400 ≤ off ∧ off < 0x38400 then set (h.writeCopy ((off - 0x20400) / 192) ((off - 0x20400) % 192 / 8) x)
  else if 0x40000 ≤ off ∧ off < 0x48000 then
    set (put8 (putTileByte (s.columnsOf n) ((off - 0x40000) / 0x2000)) h (off % 0x2000) x 8)
  else if 0x48000 ≤ off ∧ off < 0x58000 then
    let o := off - 0x48000
    let k := o % 0x4000 / 4
    let key (j : Nat) : Nat := accKey (o / 0x4000) ((k + j) / 64) ((k + j) % 64)
    let a := SMap.put 0 h.acc (key 0) (BitVec.ofNat 32 x.toNat)
    set { h with acc := SMap.put 0 a (key 1) (BitVec.ofNat 32 (x.toNat / 2 ^ 32)) }
  else if 0x800000 ≤ off ∧ off < 0x880000 then
    if (off - 0x800000) / 0x4000 < s.lanesOf n then s.laneWrite n (off - 0x800000) x else s
  else s

/-- A write of a hart's block by a writer (17 R392). -/
def State.writeContext (s : State) (who : Writer) (n off : Nat) (x : Word) : State :=
  if 2048 ≤ n then s
  else
    let may := match who with
      | .supervisor p => s.hartPart n == p
      | .firmware => (s.seals.all fun z => !(bitsOf z.toNat 10 11 != 0 && bitsOf z.toNat 21 3 == s.hartPart n))
    if may && s.imageOpen n then s.imageWrite n off x else s

/-- Kinds of writer for a field's Access column (17 R373, R382). -/
def isFirmware : Writer → Bool
  | .firmware => true
  | .supervisor _ => false

def ofPartition (w : Writer) (p : Nat) : Bool :=
  match w with
  | .firmware => true
  | .supervisor q => q == p

/-- Does the supervisor that writes hold a cluster of the die (17 R373, R392). -/
def State.ofDie (s : State) (w : Writer) (d : Nat) : Bool :=
  match w with
  | .firmware => false
  | .supervisor q => s.onDie q d

/-- Clusters firmware may move: those without a running hart (17 R382). -/
def State.clusterBusy (s : State) (g : Nat) : Bool :=
  (List.range 32).any fun i => (s.hart (32 * g + i)).run != .idle

/-- A write of CLUS: each named cluster without a running hart leaves its partition for this one (17 R382). A cluster belongs to
exactly one partition, so that one left out stays until another partition takes it (log 84). The TLBs of a cluster that moves are
emptied: their entries are of its old partition. -/
def State.writeClus (s : State) (p : Nat) (v : Word) : State :=
  let old := (s.part p).clus
  let pick (g : Nat) : Bool := old.getLsbD g || (v.getLsbD g && !s.clusterBusy g)
  let new : BitVec 64 := BitVec.ofNat 64 ((List.range 64).foldl (fun a g => if pick g then a + 2 ^ g else a) 0)
  let moved (g : Nat) : Bool := new.getLsbD g && !old.getLsbD g
  let s := { s with cores := s.cores.map fun (c : Nat × Core) => (c.1, if moved (c.1 / 16) then { c.2 with tlb := [] } else c.2) }
  let s := { s with parts := s.parts.map fun (x : Nat × Part) => (x.1, if x.1 = p then x.2 else { x.2 with clus := x.2.clus &&& ~~~new }) }
  s.setPart p { s.part p with clus := new }

/-- Does a register of the window exist: four dies, eight partitions (01 R16, 17 R382). -/
def winRegOk (r : WinReg) : Bool :=
  match r with
  | .scctl d | .cbarea d => decide (d < 4)
  | .pwrlim | .wdcause | .attdone => true
  | .clus p | .belllo p | .egress p | .gtab p | .htab p | .shpool p | .ctxpool p | .own p _ => decide (p < 8)

/-- A write of a register of the window without behaviour of its own (00 R9, 13 R309, 17 R382, R385, R391, 18 R404). WDCAUSE and ATTDONE
are cleared by any writer: R391 gives them RW1C and names none (log 34). -/
def State.writeWinReg (s : State) (who : Writer) (r : WinReg) (v : Word) : State :=
  let fw := isFirmware who
  if !winRegOk r then s
  else
  match r with
  | .scctl d =>
    if !s.ofDie who d then s else { s with ctls := SMap.put {} s.ctls d { SMap.get {} s.ctls d with scctl := keep 0x7FFF01 v } }
  | .cbarea d =>
    if !s.ofDie who d then s else { s with ctls := SMap.put {} s.ctls d { SMap.get {} s.ctls d with cbarea := keep 0xFFFFFF00000 v } }
  | .pwrlim => if fw then { s with pwrlim := bitsOf v.toNat 0 12 } else s
  | .wdcause => if v.getLsbD 0 then { s with wdcause := false } else s
  | .attdone => if v.getLsbD 0 then { s with attdone := false } else s
  | .clus p => if fw then s.writeClus p v else s
  | .belllo p =>
    if fw then s.setPart p { s.part p with belllo := bitsOf v.toNat 0 14, bellhi := bitsOf v.toNat 16 14 } else s
  | .egress p =>
    if fw && !(s.part p).egressLocked then
      s.setPart p { s.part p with egress := bitsOf v.toNat 0 12, egressLocked := true }
    else s
  | .gtab p => if ofPartition who p && !fw then s.setPart p { s.part p with gtab := v } else s
  | .htab p => if ofPartition who p && !fw then s.setPart p { s.part p with htab := v } else s
  | .shpool p => if ofPartition who p && !fw then s.setPart p { s.part p with shpool := keep 0xFFFFFFFFFFFF0000 v } else s
  | .ctxpool p => if ofPartition who p && !fw then s.setPart p { s.part p with ctxpool := keep 0xFFFFFFFFFFF00000 v } else s
  | .own p i =>
    if fw && decide (i < 16) then
      let x := s.part p
      let sealed (g : Nat) : Bool := match s.sealedTo g with | some q => q != p | none => false
      let bits := (List.range 64).foldl
        (fun a j => if v.getLsbD j && !sealed (64 * i + j) then a + 2 ^ j else a) 0
      let old := x.own.toNat
      s.setPart p { x with own := BitVec.ofNat 1024 (old - bitsOf old (64 * i) 64 * 2 ^ (64 * i) + bits * 2 ^ (64 * i)) }
    else s

/-- A write of INTSRC: a source written 1 clears on every die (18 R399). -/
def State.writeIntsrc (s : State) (p : Nat) (v : Word) : State :=
  let x := s.part p
  s.setPart p { x with
    intsrc := x.intsrc &&& ~~~(BitVec.ofNat 3 v.toNat)
    undelivered := x.undelivered.filter fun u => !v.getLsbD u.1 }

/-- A write of CASKD sets every changed bit (18 R409, R410). -/
def State.writeCaskd (s : State) (p : Nat) (v : Word) : State :=
  let x := s.part p
  s.setPart p { x with caskd := v, cask := { x.cask with clean := [] } }

/-- A write of TIERCTL [63:0]: EN, USEONCE and QUOTA; EN = 0 leaves every page in main memory and ends all pins
(17 R381). -/
def State.writeTier (s : State) (d : Nat) (v : Word) : State :=
  let t := SMap.get {} s.tiers d
  let t := { t with en := v.getLsbD 0, useonce := v.getLsbD 1, quota := bitsOf v.toNat 16 17 }
  let t := if t.en then t else { t with pages := [], pins := [] }
  { s with tiers := SMap.put {} s.tiers d t }

/-- A doubleword of the window written by a supervisor's store (17 R391, R392). -/
def State.windowWrite (s : State) (part off : Nat) (v : Word) : State :=
  let who : Writer := .supervisor part
  let d := off / 0x400000000
  let o := off % 0x400000000
  if 4 ≤ d ∨ !s.windowMay part off then s
  else if o < 0x200000000 then s.writeContext who (512 * d + o / 0x1000000) (o % 0x1000000) v
  else if o = 0x200004000 then s.writeWinReg who (.scctl d) v
  else if o = 0x200004008 then s.writeWinReg who (.cbarea d) v
  else if d = 0 ∧ o = 0x300000118 then s.writeWinReg who .wdcause v
  else if d = 0 ∧ o = 0x300000520 then s.writeWinReg who .attdone v
  else if d = 0 ∧ 0x300100000 ≤ o ∧ o < 0x300900000 then
    let p := (o - 0x300000000) / 0x100000 - 1
    if p ≠ part then s
    else match o % 0x100000 with
      | 0x20 => s.writeWinReg who (.gtab p) v
      | 0x28 => s.writeWinReg who (.htab p) v
      | 0x30 => s.writeWinReg who (.shpool p) v
      | 0x38 => s.writeWinReg who (.ctxpool p) v
      | 0x40 => s.writeCaskd p v
      | 0x50 => s.writeIntsrc p v
      | _ => s
  else s

/-- Registers of the window that a written 1 clears: the bytes a narrow store leaves out write 0 to them (00 R9). -/
def windowClears (off : Nat) : Bool :=
  let o := off % 0x400000000
  decide (o = 0x300000118 ∨ o = 0x300000520) || (decide (0x300100000 ≤ o ∧ o < 0x300900000) && o % 0x100000 == 0x50)

/-- Bytes of a store written into the window: each doubleword is written once, its other bytes as they stand. -/
def State.windowStore (s : State) (part off : Nat) (data : List Byte) : State :=
  let base := off / 8 * 8
  let word (b : Nat) : Word :=
    let old := if windowClears b then 0 else s.windowDword b
    BitVec.ofNat 64 (leValue ((List.range 8).map fun i =>
      if off ≤ b + i ∧ b + i < off + data.length then data[b + i - off]?.getD 0
      else BitVec.ofNat 8 (old.toNat / 256 ^ i)))
  let s1 := s.windowWrite part base (word base)
  if base + 8 < off + data.length then s1.windowWrite part (base + 8) (word (base + 8)) else s1

end Sys2Proof.Machine
end

