-- ==== Sys2Proof/Machine/Perform.lean ====
section
/-! DEFINITION. Sys2Proof/Machine/Perform.lean: what an access does when it performs (05 R130, R132, R140, 06 R162, R174, R183), and the conversions of loads (06 R166). -/

namespace Sys2Proof.Machine

/-- A load's conversion of container bits from a memory format to a register format (06 R166): the same code keeps the
bits; otherwise the exact value, a NaN as the canonical quiet NaN. -/
def convertLoad (mf ef : Fmt) (raw : Nat) : Nat :=
  if mf = ef then raw
  else if fmtInt ef then
    match decodeEx mf raw with
    | .fin neg n d => wrapOf (fmtBits ef) ((if neg then -1 else 1) * ((n / d : Nat) : Int))
    | _ => 0
  else (roundFloat ef false .rne 0 (decodeEx mf raw)).1

/-- The bits a load writes, of a format whose containers keep fewer those alone (08 R206). -/
def loadBits (mf ef : Fmt) (raw : Nat) : Nat := convertLoad mf ef raw % 2 ^ keepBits ef

/-- Pairs of memory and register formats a load accepts (06 R166). -/
def loadPair (mf ef : Fmt) : Bool :=
  if mf = ef then fmtHasContainer mf
  else match mf with
    | .e5m2 | .e4m3 | .e3m2 | .e2m3 | .e2m1 | .ds8 | .ds4 | .tr2 => ef == .f32 || ef == .bf16 || ef == .f16
    | .bf16 | .f16 | .e8m0 => ef == .f32
    | .i4 => ef == .i8 || ef == .i16 || ef == .i32 || ef == .i64
    | .i8 => ef == .i16 || ef == .i32 || ef == .i64
    | .i16 => ef == .i32 || ef == .i64
    | .i32 => ef == .i64
    | .n4 => ef == .n8 || ef == .i8 || ef == .i16 || ef == .i32 || ef == .n32 || ef == .i64
    | .n8 => ef == .i16 || ef == .i32 || ef == .n32 || ef == .i64
    | .n32 => ef == .i64
    | _ => false

/-- A scalar load's value: its bytes, sign-extended or not (06 R157). -/
def extendLoad (signed : Bool) (data : List Byte) : Word :=
  let n := 8 * data.length
  if signed then BitVec.ofInt 64 (signedOf n (leValue data)) else BitVec.ofNat 64 (leValue data)

/-- A nibble of a byte. -/
def nibbleOf (hi : Bool) (b : Nat) : Nat := if hi then b / 16 % 16 else b % 16

/-- The writes to a pinned register that waited for an instruction's data, by a key, have it. -/
def Hart.fillWrites (h : Hart) (seq key : Nat) (ops : VReg → List AccOp) : Hart :=
  { h with sq := h.sq.flatMap fun (a : Access) => match a.op with
      | .await (some v) k => if a.seq = seq ∧ k = key then (ops v).map fun o => { a with op := o } else [a]
      | _ => [a] }

/-- Bytes read are delivered to a hart's register. -/
def Hart.deliverRead (h : Hart) (rt : ReadTo) (data : List Byte) : Hart :=
  let raw (nib : Option Bool) : Nat := match nib with
    | none => leValue data
    | some hi => nibbleOf hi (leValue data)
  match rt with
  | .sreg d _ signed => h.setS d (extendLoad signed data)
  | .part d i n signed =>
    let g := (if i = 0 then [] else h.gather) ++ data
    if i + 1 = n then { h with gather := [] }.setS d (extendLoad signed g) else { h with gather := g }
  | .velem v p e mf ef nib => h.putC v p e (loadBits mf ef (raw nib))
  | .word t i =>
    if h.waitAt = some t then
      { h with got := (i, BitVec.ofNat 64 (leValue data)) :: h.got.filter fun x => x.1 != i }
    else h
  | .bind slot i scale nib => { h with binds := h.binds.map fun (b : Binding) =>
      if b.slot = slot then (if scale then { b with preScale := (i, raw nib) :: b.preScale } else { b with pre := (i, raw nib) :: b.pre })
      else b }
  | .pin seq key nib =>
    if h.lates.any (·.seq == seq) then
      { h with lates := h.lates.map fun (x : Late) => if x.seq = seq then { x with words := (key, BitVec.ofNat 64 (raw nib)) :: x.words } else x }
    else if h.nextSeq = seq then { h with lent := (key, BitVec.ofNat 64 (raw nib)) :: h.lent.filter fun x => x.1 != key }
    else h
  | .fill seq key mf ef nib => h.fillWrites seq key fun v => [.writeReg v (key / 65536) (key % 65536) (loadBits mf ef (raw nib))]
  | .tile w row col nib => h.putTel w row col (raw nib)

/-- Writes a read returned, recorded against its instruction (05 R138, R139). -/
def Hart.noteSeen (h : Hart) (seq strm : Nat) (wids : List Nat) : Hart :=
  { h with seen := h.seen ++ (wids.map fun w => (seq, strm, w)).filter fun x => !h.seen.contains x }

/-- Identities of the writes that a cluster's read of memory at some bytes returns. -/
def State.widsAt (s : State) (g : Nat) (pas : List Nat) : List Nat :=
  pas.flatMap fun pa => (logWid (·.inView g) pa s.log none).toList

/-- The new value of an atomic operation, and whether it writes (06 R162). -/
def amoNew (op : AmoOp) (old sb cmp : Word) : Option Word :=
  match op with
  | .swp => some sb
  | .add => some (old + sb)
  | .and => some (old &&& sb)
  | .or => some (old ||| sb)
  | .xor => some (old ^^^ sb)
  | .min => some (if old.toInt ≤ sb.toInt then old else sb)
  | .max => some (if sb.toInt ≤ old.toInt then old else sb)
  | .minu => some (if old.toNat ≤ sb.toNat then old else sb)
  | .maxu => some (if sb.toNat ≤ old.toNat then old else sb)
  | .cas => if old = cmp then some sb else none
  | .fadd =>
    let (x, _) := exAdd .rne (decodeEx .f64 old.toNat) (decodeEx .f64 sb.toNat)
    some (BitVec.ofNat 64 (roundFloat .f64 false .rne 0 x).1)

/-- Value flags of an atomic operation (06 R162). -/
def amoFlags (op : AmoOp) (old sb : Word) : Nat :=
  match op with
  | .fadd =>
    let (x, f) := exAdd .rne (decodeEx .f64 old.toNat) (decodeEx .f64 sb.toNat)
    f ||| (roundFloat .f64 false .rne 0 x).2
  | _ => 0

/-- One element of VSTXA: the new container bits and its flags (06 R174). -/
def vaddNew (fmt : Fmt) (m x : Nat) (rm : Rm) (u : Nat) : Nat × Nat :=
  if fmtInt fmt then ((m + x) % 2 ^ fmtBits fmt, 0)
  else
    let (y, f) := exAdd rm (decodeEx fmt m) (decodeEx fmt x)
    let (b, g) := roundFloat fmt false rm u y
    (b, f ||| g)

/-- FFLAGS with flags of the value plane: bits [4:0], and SAT at [14] (08 R215). -/
def orFlags (ff : Word) (f : Nat) : Word :=
  ff ||| BitVec.ofNat 64 (f % 32 + (if f.testBit 5 then 2 ^ 14 else 0))

/-- Are addresses consecutive. -/
def consecutive : List Nat → Bool
  | a :: b :: l => decide (b = a + 1) && consecutive (b :: l)
  | _ => true

/-- Bytes written by a hart, each at its address, in one move (05 R130): memory and the aliases of pinned registers as one write,
or byte by byte where pages are apart; the window. -/
def State.storeBytes (s : State) (n strm seq : Nat) (sc streaming pois : Bool) : List Nat → List Byte → State
  | pa :: pas, b :: bs =>
    match paClass pa with
    | .window off =>
      s.windowStore (s.hartPart n) off (b :: bs)
    | .bad => s
    | _ =>
      if consecutive (pa :: pas) then
        s.writeMem n strm seq (hartCluster n) false sc streaming pois pa (b :: bs)
      else
        (s.writeMem n strm seq (hartCluster n) false sc streaming pois pa [b]).storeBytes n strm seq sc streaming pois pas bs
  | _, _ => s

/-- The byte an atomic move reads: of memory and of a pinned register the last write in co(x) (05 R132), of the window as it
stands. -/
def State.atomicByte (s : State) (part g pa : Nat) : Byte :=
  match paClass pa with
  | .main => s.lastByte pa
  | .scratch _ _ => s.lastByte pa
  | .alias_ .. => s.lastByte pa
  | _ => s.readByte part g pa

/-- The write of an atomic move; a poisoned word stays poisoned (18 R406). -/
def State.atomicWrite (s : State) (n strm seq : Nat) (sc : Bool) (pa : Nat) (data : List Byte) : State :=
  match paClass pa with
  | .window off => s.windowStore (s.hartPart n) off data
  | _ => s.writeMem n strm seq (hartCluster n) false sc false ((s.poisonAt pa data.length).isSome) pa data

/-- Plane p of element e of a pinned register of hart n is written, at its alias (01 R43). -/
def State.writePinned (s : State) (n strm seq : Nat) (sc : Bool) (v : VReg) (p e x : Nat) : State :=
  let h := s.hart n
  let pa := aliasAddr n v (h.aliasOff p e)
  let y := x % 2 ^ h.ebits
  match h.aliasNib p e with
  | none => s.storeBytes n strm seq sc false false ((List.range h.aliasSize).map (pa + ·)) (leBytes h.aliasSize y)
  | some hi =>
    let old := (s.lastByte pa).toNat
    s.storeBytes n strm seq sc false false [pa] [BitVec.ofNat 8 (if hi then old % 16 + 16 * (y % 16) else old / 16 * 16 + y % 16)]

/-- The first poisoned word among some addresses. -/
def State.poisonWord (s : State) (pas : List Nat) : Option Nat := s.poison.find? fun w => pas.any fun pa => pa / 8 == w

/-- An issued instruction that waited for reads of pinned registers ends at the element it stands before. -/
def Hart.dropLate (h : Hart) (seq : Nat) : Hart :=
  { h with
    lates := h.lates.filter (·.seq != seq)
    sq := h.sq.filter fun a => a.seq != seq || match a.op with
      | .await .. => false
      | .read (.pin ..) _ => false
      | _ => true }

/-- A read that fails as it performs delivers nothing: an instruction that waits for it reports it, a container of a pinned register or
of a binding is read again as its instruction takes it, and of an instruction that has issued the register stays as it is and the fault
is an event of the hart; consumed poison is logged (09 R259, 17 R383, 18 R406, R407, log 73). -/
def State.readFails (s : State) (n : Nat) (a : Access) (rt : ReadTo) (cause : Nat) (v : Word) : State :=
  let h := s.hart n
  let event (h1 : Hart) : State :=
    let s1 := s.setHart n h1
    (if cause = 19 then s1.logErr 3 (hartDie n) (s.hartPart n) v (BitVec.ofNat 64 n) else s1).pushEvent n cause v
  match rt with
  | .word t i => if h.waitAt = some t then s.setHart n { h with gotBad := h.gotBad ++ [(i, cause, v)] } else s
  | .bind .. => s
  | .pin seq _ _ => if h.lates.any (·.seq == seq) then event (h.dropLate seq) else s
  | .part .. => event { h with gather := [], sq := h.sq.filter fun b => !(b.seq == a.seq && b.op.sdest.isSome) }
  | .fill seq key _ _ _ => event (h.fillWrites seq key fun _ => [])
  | .sreg .. | .velem .. | .tile .. => event h

/-- The effect of an access that performs (05 R132), made by hart n; the access has left its queue. -/
def State.performOp (s : State) (n : Nat) (a : Access) : State :=
  let g := hartCluster n
  let part := s.hartPart n
  let setH (s : State) (f : Hart → Hart) : State := s.setHart n (f (s.hart n))
  let touch (s : State) (l : List Nat) : State := s.touchPages l a.streaming
  match a.op with
  | .read rt pas =>
    match s.poisonWord pas with
    | some w => touch (s.readFails n a rt 19 (BitVec.ofNat 64 (8 * w))) pas
    | none =>
    let wids := s.widsAt g pas
    let data := pas.map fun pa => s.readByte part g pa
    touch (setH s fun h => (h.deliverRead rt data).noteSeen a.seq a.strm wids) pas
  | .readRemote .. => s
  | .write pas data =>
    match s.shadowAddrs part a.shadows (a.va.toNat % 2 ^ 56) pas with
    | some (s1, l) =>
      if s1.shadowOk part l then s1.storeBytes n a.strm a.seq a.sc a.streaming false l data else s.pushEvent n 8 a.va
    | none => s
  | .writeNib pa0 hi v =>
    let (s, pa) := (s.shadowAddr part a.shadows (a.va.toNat % 2 ^ 56) pa0).getD (s, pa0)
    let old := (s.atomicByte part g pa).toNat
    let new := BitVec.ofNat 8 (if hi then old % 16 + 16 * v else old / 16 * 16 + v)
    if !s.shadowOk part [pa] then s.pushEvent n 8 a.va else s.storeBytes n a.strm a.seq a.sc a.streaming false [pa] [new]
  | .amo op d pa sb cmp =>
    match s.poisonWord [pa] with
    | some w => touch (s.readFails n a (.sreg d 8 false) 19 (BitVec.ofNat 64 (8 * w))) [pa]
    | none =>
    let old := BitVec.ofNat 64 (leValue (bytesFrom (s.atomicByte part g) pa 8))
    let wids := s.lastWids pa 8
    let s1 := setH s fun h =>
      let h := (h.setS d old).noteSeen a.seq a.strm wids
      { h with fflags := orFlags h.fflags (amoFlags op old sb) }
    match amoNew op old sb cmp with
    | some m => s1.atomicWrite n a.strm a.seq a.sc pa (leBytes 8 m.toNat)
    | none => touch s1 [pa]
  | .vadd fmt pa x rm u =>
    let k := fmtBits fmt / 8
    let old := leValue (bytesFrom (s.atomicByte part g) pa k)
    let wids := s.lastWids pa k
    let (m, f) := vaddNew fmt old x rm u
    let s1 := setH s fun h =>
      let h := h.noteSeen a.seq a.strm wids
      { h with fflags := orFlags h.fflags f }
    s1.atomicWrite n a.strm a.seq false pa (leBytes k m)
  | .push q v => setH s fun h => h.setQ q { h.queue q with entries := (h.queue q).entries ++ [v] }
  | .popS q d => setH s fun h =>
      match (h.queue q).entries with
      | x :: l => (h.popQ q l).setS d x
      | [] => h
  | .popV q v e w => setH s fun h =>
      match (h.queue q).entries with
      | x :: l =>
        let y := x.toNat % 2 ^ w
        if h.pinned v then (h.popQ q l).fillWrites a.seq e fun v => [.writeReg v 0 e y] else (h.popQ q l).putC v 0 e y
      | [] => h
  | .popW q began i => setH s fun h =>
      match (h.queue q).entries with
      | x :: l => if h.waitAt = some began then { h.popQ q l with got := (i, x) :: h.got } else h
      | [] => h
  | .contrib p _ => { s with inbox := s.inbox ++ [{ p, die := s.myDie, at_ := s.ref }] }
  | .writeReg v p e x => s.writePinned n a.strm a.seq a.sc v p e x
  | .await .. => s

/-- Has a vector instruction of some number elements still to issue, or to compute. -/
def Hart.unfinished (h : Hart) (seq : Nat) : Bool := decide (h.nextSeq ≤ seq) || h.lates.any (·.seq == seq)

/-- Pages that instructions have touched which have accesses still to make (05 R150). -/
def Hart.noteBegun (h : Hart) (a : Access) : Hart :=
  let more := if h.sq.any (·.seq == a.seq) || (a.strm == 1 && h.unfinished a.seq) then
      ((a.op.touches.map fun pa => (a.seq, pa / 65536)).filter fun x => !h.began.contains x).eraseDups else []
  { h with began := (h.began.filter fun x => h.sq.any (·.seq == x.1) || h.unfinished x.1) ++ more }

/-- What an access does whose check fails as it performs: a read delivers nothing, and the fault of another becomes an event of the hart
(09 R259, 17 R383, log 73). -/
def State.accessFails (s : State) (n : Nat) (a : Access) (t : Trp) : State :=
  match a.op with
  | .read rt _ | .readRemote rt _ _ _ _ => s.readFails n a rt t.cause t.tval
  | _ => s.pushEvent n t.cause t.tval

/-- Has a read of this device become one of another: it is sent, not performed (17 R377). -/
def AccOp.nowRemote (old new : AccOp) : Bool :=
  match old, new with
  | .read .., .readRemote .. => true
  | _, _ => false

/-- The head of a stream with its accesses of now, which it keeps. -/
def State.renewHead (s : State) (n strm : Nat) (a : Access) (op : AccOp) : State :=
  let h := s.hart n
  s.setHart n { h with sq := setHead strm { a with op := op, ptgen := (s.part (s.hartPart n)).ptgen } h.sq }

/-- The head of a stream of hart n leaves its queue and performs; where its check fails now it performs nothing. A read that a new
table has moved to another device waits at the head to be sent (17 R377). -/
def State.performHead (s : State) (n strm : Nat) (a : Access) : State :=
  let h := s.hart n
  let s1 := s.setHart n (({ h with sq := dropHead strm h.sq }).noteBegun a)
  match s.freshOp n a with
  | .error t => (s1.accessFails n a t).dropFences n
  | .ok op => if a.op.nowRemote op then s.renewHead n strm a op else (s1.performOp n { a with op := op }).dropFences n

end Sys2Proof.Machine
end

