-- ==== Sys2Proof/Machine/Flags.lean ====
section
/-! DEFINITION. Sys2Proof/Machine/Flags.lean: rounding modes as an instruction resolves them (04 R109, 09 R234), sequence numbers (08 R223, R224), flags and value traps (08 R214 to R217, 04 R110). -/

namespace Sys2Proof.Machine

/-- The mode an instruction rounds by: DYN takes FCTL.RM, and none when that holds 111 (04 R109). -/
def Hart.resolveRm (h : Hart) (rm : Rm) : Option Rm :=
  match rm with
  | .dyn => match rmOf (bitsOf h.fctl.toNat 0 3) with
    | .dyn => none
    | r => some r
  | r => some r

/-- Does FCTL.DET hold (08 R216). -/
def Hart.det (h : Hart) : Bool := h.fctl.getLsbD 3

/-- Enabled value flags and tangent flags as flag sets (08 R216). -/
def Hart.valueEnables (h : Hart) : Nat := bitsOf h.fctl.toNat 5 5
def Hart.tangentEnables (h : Hart) : Nat := bitsOf h.fctl.toNat 10 5

/-- The number a drawing instruction takes: a resumed instruction its saved one, any other SRSEQ, which advances
(08 R223, R224). -/
def Hart.drawSeq (h : Hart) : Word × Hart :=
  match h.reuse with
  | some q => (q, h)
  | none => (h.srseq, { h with srseq := h.srseq + 1 })

/-- The draw of an instruction that rounds by a mode: only RSR draws. -/
def Hart.drawFor (h : Hart) (r : Rm) : Option Word × Hart :=
  if r = .rsr then (some h.drawSeq.1, h.drawSeq.2) else (none, h)

/-- Stochastic bits of plane p of element e, 0 for a mode that takes none (08 R222). -/
def Hart.uBits (h : Hart) (seq : Option Word) (p e : Nat) : Nat :=
  match seq with
  | some q => srBits h.srseed q (e + 65536 * p)
  | none => 0

/-- Flags of plane p at their places in FFLAGS (08 R215): the value group, the tangent group, TKINK and SAT. -/
def flagBits (p f : Nat) : Nat :=
  (if p = 0 then f % 32 else 256 * (f % 32)) + (if f.testBit 5 then 2 ^ 14 else 0) + (if f.testBit 6 then 2 ^ 13 else 0)

/-- Flags ORed into FFLAGS. -/
def Hart.raise (h : Hart) (p f : Nat) : Hart := { h with fflags := h.fflags ||| BitVec.ofNat 64 (flagBits p f) }

/-- TVAL of a value or tangent trap (08 R217). -/
def fpTval (f p e : Nat) : Word := BitVec.ofNat 64 (f % 32 + 256 * p + 65536 * e)

/-- Flags of a plane that are enabled (08 R217). -/
def Hart.enabled (h : Hart) (p f : Nat) : Bool :=
  (f &&& (if p = 0 then h.valueEnables else h.tangentEnables)) % 32 != 0

/-- A scalar floating-point instruction (04 R106 to R110): result bits and flags by mode and stochastic bits. -/
def faluStep (s : State) (i : Instr) (rm : Rm) (regs : List SReg) (d : SReg) (f : Rm → Nat → Nat × Nat) : Out :=
  if !s.ready regs then .next (s.stall regs)
  else
    match s.h.resolveRm rm with
    | none => .next (s.trap ⟨1, encodeWord i, 0⟩)
    | some r =>
      let (seq, h) := s.h.drawFor r
      let (x, fl) := f r (s.h.uBits seq 0 0)
      let s1 : State := { s with h := h.raise 0 fl }
      if s.h.enabled 0 fl then .next (s1.trapWith false seq ⟨10, fpTval fl 0 0, 0⟩)
      else .next ((s1.ws d (BitVec.ofNat 64 x)).retire 4)

end Sys2Proof.Machine
end

