-- ==== Sys2Proof/Machine/Scalar.lean ====
section
/-! DEFINITION. Sys2Proof/Machine/Scalar.lean: scalar loads and stores (06 R157 to R160): translated and checked at issue, performed by stream S. -/

namespace Sys2Proof.Machine

/-- Accesses enter the hart's queues at issue (05 R129). -/
def State.enqueue (s : State) (l : List Access) : State := s.onH fun h => { h with sq := h.sq ++ l }

/-- An access of the instruction that issues, at a virtual address (17 R377). -/
def State.access (s : State) (strm : Nat) (va : Word) (op : AccOp) : Access :=
  { seq := s.h.nextSeq, strm, op, va, sup := s.h.sup, ptgen := (s.part s.myPart).ptgen }

/-- The accesses of a scalar instruction, one at its address or one for each byte. -/
def State.accesses (s : State) (va : Word) (ops : List AccOp) : List Access :=
  ops.zipIdx.map fun x => s.access 0 (va + BitVec.ofNat 64 x.2) x.1

/-- Targets of a scalar read's bytes, or the trap of its lowest failing byte: a load from the reducing window is
cause 8 (06 R159). -/
def State.readTargets (s : State) (va : Word) : Nat → Except Trp (List Target)
  | 0 => .ok []
  | n + 1 =>
    if canonical va && (s.inWindow s.myPart va).isSome then .error ⟨8, va, 0⟩
    else
      match s.accessByte s.hid s.h.sup .read va with
      | .error t => .error t
      | .ok t =>
        match s.readTargets (va + 1) n with
        | .error e => .error e
        | .ok l => .ok (t :: l)

/-- The first poisoned word among local addresses, as the cause 19 it raises (18 R406). -/
def State.poisonTrap (s : State) (pas : List Nat) : Option Trp :=
  (s.poisonWord pas).map fun w => ⟨19, BitVec.ofNat 64 (8 * w), 0⟩

/-- A trap; the consumption of poison is logged as kind 3 (18 R406, R407). -/
def State.trapLog (s : State) (conv : Bool) (drew : Option Word) (t : Trp) : State :=
  (if t.cause = 19 then s.logErr 3 s.myDie s.myPart t.tval (BitVec.ofNat 64 s.hid) else s).trapWith conv drew t

/-- The trap of a scalar access checked at issue; a page fault behind an incomplete fence waits (log 23). -/
def State.memTrap (s : State) (t : Trp) : State :=
  if s.walkHeld 0 t.cause then s.pause else s.trapLog false none t

/-- Local addresses among targets. -/
def localsOf (l : List Target) : List Nat :=
  l.filterMap fun t => match t with
    | .loc a => some a
    | .remote _ _ => none

/-- A read's access operations: one access when naturally aligned, otherwise one for each byte (05 R130). whole and
part build its destinations. -/
def readOps (va : Word) (n : Nat) (l : List Target) (whole : ReadTo) (part : Nat → ReadTo) : List AccOp :=
  if va.toNat % n = 0 then
    match allLocal l, allRemote l with
    | some pas, _ => [.read whole pas]
    | none, some (d, a) => [.readRemote whole d a n va]
    | none, none => []
  else
    (List.range n).filterMap fun (i : Nat) => match (l[i]? : Option Target) with
      | some (.loc a) => some (.read (part i) [a])
      | some (.remote d a) => some (.readRemote (part i) d a 1 (va + BitVec.ofNat 64 i))
      | none => none

/-- Is an access a read of words the selected hart's instruction waits for. -/
def Hart.isWordRead (h : Hart) (a : Access) : Bool :=
  match a.op with
  | .read (.word t _) _ => h.waitAt == some t
  | .readRemote (.word t _) _ _ _ _ => h.waitAt == some t
  | .popW _ t _ => h.waitAt == some t
  | .read (.pin q _ _) _ => h.nextSeq == q
  | _ => false

/-- The word read for place i. -/
def Hart.word (h : Hart) (i : Nat) : Word := ((h.got.find? (·.1 == i)).map (·.2)).getD 0

/-- The failure of the lowest place whose read failed. -/
def Hart.wordFault (h : Hart) : Option (Nat × Trp) :=
  h.gotBad.foldl (fun acc x => match acc with
    | some (i, t) => if x.1 < i then some (x.1, ⟨x.2.1, x.2.2, 0⟩) else some (i, t)
    | none => some (x.1, ⟨x.2.1, x.2.2, 0⟩)) none

/-- Accesses enter the queues, and the hart waits for the words they read. -/
def State.awaitWords (s : State) (l : List Access) : State :=
  ((s.enqueue l).onH fun h => { h with waitAt := some (h.waitAt.getD s.now) }).pause

/-- The second part of an instruction that waits for words: while reads are outstanding it waits on, and once all have
performed it does k; a failed read is its trap (06 R160, R172, 14 R318). -/
def afterWords (s : State) (k : Out) (f : Trp → Trp := id) : Out :=
  if s.h.sq.any s.h.isWordRead then .next (s.stallOn s.h.isWordRead)
  else
    match s.h.wordFault with
    | some (_, t) => .next (s.memTrap (f t))
    | none => k

def Target.isRemote : Target → Bool
  | .remote _ _ => true
  | .loc _ => false

/-- A scalar load (06 R157 to R160, 18 R406). With bytes on another device the hart waits for its reads, which the load
answers for precisely. -/
def loadStep (s : State) (d a : SReg) (off : BitVec 12) (n : Nat) (signed : Bool) : Out :=
  if !s.ready [a, d] then .next (s.stall [a, d])
  else
    let va := s.rs a + sext12 off
    if s.h.waitAt.isSome then
      afterWords s
        (let data := if va.toNat % n = 0 then leBytes n (s.h.word 0).toNat
          else (List.range n).map fun i => BitVec.ofNat 8 (s.h.word i).toNat
        .next ((s.ws d (extendLoad signed data)).retire 4))
    else
      match s.readTargets va n with
      | .error t => .next (s.memTrap t)
      | .ok l =>
        match s.poisonTrap (localsOf l) with
        | some t => .next (s.memTrap t)
        | none =>
          let s1 := s.touchTlb s.hid s.h.sup .read va n
          if l.any (·.isRemote) then
            .next (s1.awaitWords (s.accesses va (readOps va n l (.word s.now 0) fun i => .word s.now i)))
          else
            .next ((s1.enqueue (s.accesses va (readOps va n l (.sreg d n signed) fun i => .part d i n signed))).retire 4)

/-- Would a write of the selected hart fall on the block of a hart whose image may not be written now (17 R392). -/
def State.imageShut (s : State) (pa : Nat) : Bool := s.windowShut s.myPart pa

/-- Targets of a scalar store's bytes, or the trap of the lowest failing byte; a byte on another device and one of a
hart block that is not open raise cause 8 (06 R159, R160, 17 R392). -/
def State.writeTargets (s : State) (va : Word) : Nat → Except Trp (List Nat)
  | 0 => .ok []
  | n + 1 =>
    match s.accessByte s.hid s.h.sup .write va with
    | .error t => .error t
    | .ok (.remote _ _) => .error ⟨8, va, 0⟩
    | .ok (.loc pa) =>
      if s.imageShut pa then .error ⟨8, va, 0⟩
      else
        match s.writeTargets (va + 1) n with
        | .error e => .error e
        | .ok l => .ok (pa :: l)

/-- A write's access operations: one when naturally aligned, otherwise one for each byte (05 R130). -/
def writeOps (va : Word) (pas : List Nat) (data : List Byte) : List AccOp :=
  if va.toNat % data.length = 0 then [.write pas data]
  else (pas.zip data).map fun x => .write [x.1] [x.2]

/-- A scalar store (06 R157 to R160). -/
def storeStep (s : State) (b a : SReg) (off : BitVec 12) (n : Nat) : Out :=
  if !s.ready [a, b] then .next (s.stall [a, b])
  else
    let va := s.rs a + sext12 off
    match s.writeTargets va n with
    | .error t => .next (s.memTrap t)
    | .ok pas =>
      let ops := writeOps va pas (leBytes n (s.rs b).toNat)
      .next (((s.touchTlb s.hid s.h.sup .write va n).enqueue (s.accesses va ops)).retire 4)

def execLb (d a : SReg) (off : BitVec 12) (s : State) : Out := loadStep s d a off 1 true
def execLh (d a : SReg) (off : BitVec 12) (s : State) : Out := loadStep s d a off 2 true
def execLw (d a : SReg) (off : BitVec 12) (s : State) : Out := loadStep s d a off 4 true
def execLd (d a : SReg) (off : BitVec 12) (s : State) : Out := loadStep s d a off 8 true
def execLbn (d a : SReg) (off : BitVec 12) (s : State) : Out := loadStep s d a off 1 false
def execLhn (d a : SReg) (off : BitVec 12) (s : State) : Out := loadStep s d a off 2 false
def execLwn (d a : SReg) (off : BitVec 12) (s : State) : Out := loadStep s d a off 4 false
def execSb (b a : SReg) (off : BitVec 12) (s : State) : Out := storeStep s b a off 1
def execSh (b a : SReg) (off : BitVec 12) (s : State) : Out := storeStep s b a off 2
def execSw (b a : SReg) (off : BitVec 12) (s : State) : Out := storeStep s b a off 4
def execSd (b a : SReg) (off : BitVec 12) (s : State) : Out := storeStep s b a off 8

end Sys2Proof.Machine
end

