-- ==== Sys2Proof/Machine/Amo.lean ====
section
/-! DEFINITION. Sys2Proof/Machine/Amo.lean: atomics, ordered doubleword access and waiting on a word (06 R161 to R164), fences and barriers (05 R142 to R145). -/

namespace Sys2Proof.Machine

/-- A fence of the instruction that issues. -/
def State.addFence (s : State) (k : FenceKind) : State :=
  s.onH fun h => { h with fences := h.fences ++ [⟨h.nextSeq, k⟩] }

/-- An access with the order and scope of its instruction (05 R138 to R141): SC is a release and an acquire of device
scope with a ticket, or of domain scope without one on another device. -/
def ordered (a : Access) (o : Order) (sc : Scope) (remote : Bool) : Access :=
  match o with
  | .plain => a
  | .acq => { a with acq := some sc }
  | .rel => { a with rel := some sc }
  | .sc => if remote then { a with acq := some .dom, rel := some .dom }
           else { a with acq := some .dev, rel := some .dev, sc := true }

/-- The fence an acquire read leaves: later pipe accesses wait until it is complete (05 R138). -/
def State.acquireFence (s : State) (a : Access) : State :=
  match a.acq with
  | some l => s.addFence (.acquire l)
  | none => s

/-- The doubleword an AMO-major instruction addresses, translated for a read, a write or both, or its trap (06 R161). -/
def State.amoTarget (s : State) (va : Word) (rd wr : Bool) : Except Trp Target :=
  if va.toNat % 8 ≠ 0 then .error ⟨8, va, 0⟩
  else if (rd && canonical va && (s.inWindow s.myPart va).isSome) then .error ⟨8, va, 0⟩
  else
    let r := if rd then s.accessByte s.hid s.h.sup .read va else .ok (.loc 0)
    match r with
    | .error t => .error t
    | .ok x => if wr then s.accessByte s.hid s.h.sup .write va else .ok x

/-- Read-modify-write instructions of the AMO major (06 R161 to R163, 18 R406). -/
def amoStep (s : State) (op : AmoOp) (sc : Scope) (o : Order) (d a b : SReg) : Out :=
  if !s.ready [a, b, d] then .next (s.stall [a, b, d])
  else
    let va := s.rs a
    match s.amoTarget va true true with
    | .error t => .next (s.memTrap (if t.cause = 9 then ⟨8, va, 0⟩ else t))
    | .ok (.remote _ _) => .next (s.trap ⟨8, va, 0⟩)
    | .ok (.loc pa) =>
      if isAlias pa || s.imageShut pa then .next (s.trap ⟨8, va, 0⟩)
      else
        match s.poisonTrap [pa] with
        | some t => .next (s.memTrap t)
        | none =>
          let x := ordered (s.access 0 va (.amo op d pa (s.rs b) (s.rs d))) o sc false
          .next ((((s.touchTlb s.hid s.h.sup .write va 8).enqueue [x]).acquireFence x).retire 4)

def execAmoswp (sc : Scope) (o : Order) (d a b : SReg) (s : State) : Out := amoStep s .swp sc o d a b
def execAmoadd (sc : Scope) (o : Order) (d a b : SReg) (s : State) : Out := amoStep s .add sc o d a b
def execAmoand (sc : Scope) (o : Order) (d a b : SReg) (s : State) : Out := amoStep s .and sc o d a b
def execAmoor (sc : Scope) (o : Order) (d a b : SReg) (s : State) : Out := amoStep s .or sc o d a b
def execAmoxor (sc : Scope) (o : Order) (d a b : SReg) (s : State) : Out := amoStep s .xor sc o d a b
def execAmomin (sc : Scope) (o : Order) (d a b : SReg) (s : State) : Out := amoStep s .min sc o d a b
def execAmomax (sc : Scope) (o : Order) (d a b : SReg) (s : State) : Out := amoStep s .max sc o d a b
def execAmominu (sc : Scope) (o : Order) (d a b : SReg) (s : State) : Out := amoStep s .minu sc o d a b
def execAmomaxu (sc : Scope) (o : Order) (d a b : SReg) (s : State) : Out := amoStep s .maxu sc o d a b
def execAmocas (sc : Scope) (o : Order) (d a b : SReg) (s : State) : Out := amoStep s .cas sc o d a b

/-- AMOFADD: cause 12 under FCTL.DET (06 R162, 08 R228). -/
def execAmofadd (sc : Scope) (o : Order) (d a b : SReg) (s : State) : Out :=
  if s.h.det then .next (s.trap ⟨12, encodeWord (.amofadd sc o d a b), 0⟩) else amoStep s .fadd sc o d a b

/-- The read access of a doubleword on this device or another. -/
def dwordRead (t : Target) (rt : ReadTo) (va : Word) : AccOp :=
  match t with
  | .loc pa => .read rt ((List.range 8).map (pa + ·))
  | .remote d pa => .readRemote rt d pa 8 va

/-- The poison of a read target. -/
def State.targetPoison (s : State) (t : Target) : Option Trp := s.poisonTrap (localsOf [t])

/-- LDO: with order 10 a release fence of its scope stands before it and holds it (06 R161 to R163). A word of another
device is waited for (05 R141). -/
def execLdo (sc : Scope) (o : Order) (d a : SReg) (s : State) : Out :=
  if !s.ready [a, d] then .next (s.stall [a, d])
  else if s.h.waitAt.isSome then afterWords s (.next ((s.ws d (s.h.word 0)).retire 4))
  else
    let va := s.rs a
    match s.amoTarget va true false with
    | .error t => .next (s.memTrap t)
    | .ok t =>
      match s.targetPoison t with
      | some t => .next (s.memTrap t)
      | none =>
        let rt : ReadTo := if t.isRemote then .word s.now 0 else .sreg d 8 false
        let x := ordered (s.access 0 va (dwordRead t rt va)) o sc t.isRemote
        let s1 := (s.touchTlb s.hid s.h.sup .read va 8).acquireFence x
        let s2 := if o = .rel then s1.addFence (.full sc false true) else s1
        .next (if t.isRemote then s2.awaitWords [x] else (s2.enqueue [x]).retire 4)

/-- STO: with order 01 an acquire fence of its scope stands after it (06 R160 to R163). -/
def execSto (sc : Scope) (o : Order) (a b : SReg) (s : State) : Out :=
  if !s.ready [a, b] then .next (s.stall [a, b])
  else
    let va := s.rs a
    match s.amoTarget va false true with
    | .error t => .next (s.memTrap t)
    | .ok (.remote _ _) => .next (s.trap ⟨8, va, 0⟩)
    | .ok (.loc pa) =>
      if s.imageShut pa then .next (s.trap ⟨8, va, 0⟩)
      else
        let w := s.access 0 va (.write ((List.range 8).map (pa + ·)) (leBytes 8 (s.rs b).toNat))
        let x := if o = .acq then w else ordered w o sc false
        let s1 := (((s.touchTlb s.hid s.h.sup .write va 8).enqueue [x]).acquireFence x)
        let s2 := if o = .acq then s1.addFence (.afterStore sc) else s1
        .next (s2.retire 4)

/-- A condition between two words (06 R164, 15 R363). -/
def condHolds (c : Cond) (x y : Word) : Bool :=
  match c with
  | .eq => x == y
  | .ne => x != y
  | .lt => BitVec.slt x y
  | .ge => !BitVec.slt x y
  | .ltu => BitVec.ult x y
  | .geu => !BitVec.ult x y

/-- The timeout of a WAITV in cycles: at most 2^32 − 1 (06 R164). -/
def waitLimit (x : Word) : Nat := min x.toNat (2 ^ 32 - 1)

/-- n doublewords from an address on enter stream S as words from place i on, or the trap of the first that cannot be
read. -/
def State.wordReads (s : State) (began : Nat) (va : Word) (i : Nat) : Nat → Except Trp (List Access)
  | 0 => .ok []
  | n + 1 =>
    match s.amoTarget va true false with
    | .error t => .error t
    | .ok t =>
      match s.targetPoison t with
      | some t => .error t
      | none =>
        match s.wordReads began (va + 8) (i + 1) n with
        | .error t => .error t
        | .ok l => .ok (s.access 0 va (dwordRead t (.word began i) va) :: l)

/-- The reads of n doublewords at an address enter stream S, and the hart waits for them; f turns the trap of one that fails. -/
def readWords (s : State) (va : Word) (n : Nat) (f : Trp → Trp := id) : Out :=
  match s.wordReads (s.h.waitAt.getD s.now) va 0 n with
  | .error t => .next (s.memTrap (f t))
  | .ok l => .next ((s.touchTlb s.hid s.h.sup .read va (8 * n)).awaitWords l)

/-- The trap of a failing read of a record: cause 6 whatever failed (06 R178, R192), but for poison (18 R406). -/
def recordTrap (va : Word) (t : Trp) : Trp :=
  if t.cause = 19 then t else ⟨6, if t.cause = 9 then va else t.tval, 0⟩

/-- An instruction that first reads a record of n doublewords as a stream-S load, once, and then does k with its words
(06 R178, R190, R196, 15 R360, R361); f turns the trap of a read that fails. -/
def recordStep (s : State) (va : Word) (n : Nat) (k : (Nat → Word) → Out) (f : Trp → Trp := id) : Out :=
  if s.h.waitAt.isNone then readWords s va n f else afterWords s (k s.h.word) f

/-- A WAITV that goes on waiting, at a blocking point (13 R313): it reads again once its last read has performed. A word of another device
is cause 8 (06 R161, R164). -/
def waitvAgain (s : State) (va : Word) : Out :=
  if s.h.sq.any s.h.isWordRead then .next s.block
  else
    match (match s.h.wordFault, s.amoTarget va true false with
      | some (_, t), _ => Host.Outcome.next (s.memTrap t)
      | none, .ok (.remote _ _) => .next (s.trap ⟨8, va, 0⟩)
      | none, _ => readWords s va 1) with
    | .next t => .next (if t.h.waiting then { t with h := { t.h with blocked := some (s.h.blocked.getD s.now) } } else t)
    | o => o

/-- WAITV: reads at least once; 1 when the condition holds, 0 when the timeout passes first (06 R164). -/
def execWaitv (c : Cond) (d a b : SReg) (s : State) : Out :=
  if !s.ready [a, b, d] then .next (s.stall [a, b, d])
  else
    match s.h.got.find? (·.1 == 0) with
    | some (_, v) =>
      if condHolds c v (s.rs b) then .next ((s.ws d 1).retire 4)
      else if waitLimit (s.rs d) ≤ s.now - s.h.waitAt.getD s.now then .next ((s.ws d 0).retire 4)
      else waitvAgain s (s.rs a)
    | none => waitvAgain s (s.rs a)

/-- FENCE of a scope with its acquire and release bits (05 R142, R143). -/
def execFence (sc : Scope) (acq rel : Bool) (s : State) : Out := .next ((s.addFence (.full sc acq rel)).retire 4)

/-- FENCE.SV and FENCE.VS (05 R144). -/
def execFenceSv (s : State) : Out := .next ((s.addFence .sv).retire 4)
def execFenceVs (s : State) : Out := .next ((s.addFence .vs).retire 4)

/-- SBAR: the streams of sa[31:0] but 12 to 15; a mask of zero has no effect (05 R145). -/
def execSbar (a : SReg) (s : State) : Out :=
  if !s.ready [a] then .next (s.stall [a])
  else
    let m : BitVec 32 := BitVec.ofNat 32 (s.rs a).toNat
    .next ((if m = 0 then s else s.addFence (.sbar m)).retire 4)

end Sys2Proof.Machine
end

