-- ==== Sys2Proof/Machine/Bind.lean ====
section
/-! DEFINITION. Sys2Proof/Machine/Bind.lean: the memory streams of bound registers: where their elements and scales lie, and their reads, made early or at consumption (06 R177 to R182, 05 R137). -/

namespace Sys2Proof.Machine

/-- Is the stream's use of memory streaming (17 R380). -/
def Binding.streaming (b : Binding) : Bool := b.estride == 0 || b.estride == (fmtSize b.fmt : Int)

/-- A read of a binding by the selected hart as it can be made now: its value; none where its memory lies on another
device; a trap where it fails (06 R182, 18 R406). -/
def State.bindRead (s : State) (b : Binding) (scale : Bool) (i : Nat) : Except Trp (Option (Nat × List Nat)) :=
  let (va, n) := b.readVa scale i
  match s.readTargets va n with
  | .error t => .error t
  | .ok l =>
    match s.poisonTrap (localsOf l) with
    | some t => .error t
    | none =>
      match allLocal l with
      | none => .ok none
      | some pas =>
        let x := leValue (pas.map fun pa => s.readByte s.myPart s.myCluster pa)
        let v := match (if scale then none else b.elemNib i) with
          | none => x
          | some hi => nibbleOf hi x
        .ok (some (v, pas))

/-- What an early or consuming read leaves: the TLB, the tier, and the writes it returned (05 R138, R139). -/
def State.noteBindRead (s : State) (b : Binding) (scale : Bool) (i : Nat) (pas : List Nat) : State :=
  let (va, n) := b.readVa scale i
  let s1 := s.touchTlb s.hid s.h.sup .read va n
  let wids := s1.widsAt s1.myCluster pas
  (s1.onH fun h => h.noteSeen b.seq (2 + b.slot) wids).touchPages pas b.streaming

/-- The value of a read made already. -/
def Binding.held (b : Binding) (scale : Bool) (i : Nat) : Option Nat :=
  ((if scale then b.preScale else b.pre).find? (·.1 == i)).map (·.2)

/-- A read's value kept in its slot. -/
def Hart.keepRead (h : Hart) (slot : Nat) (scale : Bool) (i v : Nat) : Hart :=
  { h with binds := h.binds.map fun (b : Binding) =>
      if b.slot = slot then (if scale then { b with preScale := (i, v) :: b.preScale } else { b with pre := (i, v) :: b.pre })
      else b }

/-- The reads behind element i: the element and the scale of its block (06 R179, R180). -/
def Binding.needs (b : Binding) (i : Nat) : List (Bool × Nat) :=
  if b.scalereg then [(true, i)]
  else (false, i) :: (if b.scaled && b.blen != 0 then [(true, i / b.blen)] else [])

/-- One read of a binding made now, where it is not held, lies on this device and does not fail. -/
def State.readEarly (s : State) (slot : Nat) (x : Bool × Nat) : State :=
  match s.h.binds.find? (·.slot == slot) with
  | none => s
  | some b =>
    if (b.held x.1 x.2).isSome then s
    else
      match s.bindRead b x.1 x.2 with
      | .ok (some (v, pas)) => (s.noteBindRead b x.1 x.2 pas).onH fun h => h.keepRead slot x.1 x.2 v
      | _ => s

/-- Does a read of element i lie on another device. -/
def State.needsRemote (s : State) (b : Binding) (i : Nat) : Option (Bool × Nat) :=
  (b.needs i).find? fun x => (b.held x.1 x.2).isNone && match s.bindRead b x.1 x.2 with
    | .ok none => true
    | _ => false

/-- May the next early read of a binding perform: no fence, acquire or waking bank holds its stream (05 R137, R138,
R143). -/
def State.prefetchOpen (s : State) (b : Binding) : Bool :=
  !s.fenced s.hid (2 + b.slot) b.seq false && !(s.h.sq.any fun a => a.acq.isSome && decide (a.seq < b.seq)) &&
    (s.h.head (2 + b.slot)).isNone &&
    !((b.needs b.preNext).any fun x =>
      let (va, n) := b.readVa x.1 x.2
      match s.readTargets va n with
      | .ok l => s.bankDelays (localsOf l)
      | .error _ => false)

/-- Would one of the next early reads of a binding fail. -/
def State.prefetchFails (s : State) (b : Binding) : Bool :=
  (b.needs b.preNext).any fun x => (b.held x.1 x.2).isNone && match s.bindRead b x.1 x.2 with
    | .error _ => true
    | .ok _ => false

/-- The early reads of the next element of a binding (05 R137); one that would fail is left to its consumption, and those behind it with
it, since a stream performs in order (06 R182, 05 R135). -/
def State.prefetch (s : State) (b : Binding) : State :=
  if s.prefetchFails b then
    s.onH fun h => { h with binds := h.binds.map fun (x : Binding) => if x.slot = b.slot then { x with failed := true } else x }
  else
    let s1 := (b.needs b.preNext).foldl (fun (t : State) x => t.readEarly b.slot x) s
    s1.onH fun h => { h with binds := h.binds.map fun (x : Binding) =>
      if x.slot = b.slot then { x with preNext := x.preNext + 1 } else x }

end Sys2Proof.Machine
end

