-- ==== Sys2Proof/Machine/Copy.lean ====
section
/-! DEFINITION. Sys2Proof/Machine/Copy.lean: copies, CDRAIN, SHADOW and PUBLISH (06 R188 to R199, 05 R147, R150). -/

namespace Sys2Proof.Machine

/-- Channels are streams 16 to 31 (05 R128). -/
def chanStream (ch : Nat) : Nat := 16 + ch

/-- Is a copy complete: every access made and every write of it at device level (06 R189). -/
def State.copyDone (s : State) (n : Nat) (c : Copy) : Bool :=
  decide (c.total ≤ c.pos) &&
    (s.log.all fun w => !(w.agent == n && w.strm == chanStream c.chan && w.seq == c.seq) || w.atDevice)

/-- Copies of a hart in flight (06 R189). -/
def State.copiesInFlight (s : State) (n : Nat) : Nat := ((s.hart n).copies.filter fun c => !s.copyDone n c).length

/-- The queue a channel feeds. -/
def Hart.fedQueue (h : Hart) (ch : Nat) : Option Nat := (List.range 8).find? fun q => (h.queue q).chan == some ch

/-- The first address of a range in its page i. -/
def pageStart (lo i : Nat) : Nat := if i = 0 then lo else (lo / 65536 + i) * 65536

/-- The pages of an address range, each by its first address in the range. -/
def rangePages (lo hi : Nat) : List Nat :=
  if hi < lo then [] else (List.range (hi / 65536 - lo / 65536 + 1)).map (pageStart lo)

/-- The first byte of a destination range that lies on another device, as translated at issue (06 R188). -/
def State.remoteByte (s : State) (lo hi : Nat) : Option Nat :=
  (rangePages lo hi).find? fun a => match s.translate (some (hartCore s.hid)) s.myPart s.h.sup .write (BitVec.ofNat 64 a) with
    | .ok (.remote _ _) => true
    | .error ⟨8, _, _⟩ => (match s.leafOf none s.myPart (a % 2 ^ 56) s.h.sup .write with
      | .ok (leaf, _) => pteRmt leaf && pteDev leaf != 0 && pteDev leaf != s.devId
      | .error _ => false)
    | _ => false

/-- The pinned registers of the hart whose alias a destination range touches, as translated at issue (06 R195). -/
def State.leasedBy (s : State) (lo hi : Nat) : List VReg :=
  (rangePages lo hi).filterMap fun a =>
    match s.translate (some (hartCore s.hid)) s.myPart s.h.sup .write (BitVec.ofNat 64 a) with
    | .ok (.loc pa) => (match paClass pa with
      | .alias_ t v off => if t == s.hid && s.h.pinned v && decide (off < s.h.aliasBytes) then some v else none
      | _ => none)
    | _ => none

/-- A copy enters its channel, with the leases it takes. -/
def State.startCopy (s : State) (c : Copy) (leases : List VReg) : State :=
  s.onH fun h => { h with
    copies := if c.total = 0 then h.copies else h.copies ++ [c]
    nextCopy := h.nextCopy + 1
    deliveries := h.deliveries ++ leases.eraseDups.map fun v => ⟨v, .copy c.chan c.id, c.seq, c.total == 0⟩ }

/-- Bytes of n elements of a size in bytes, 0 for nibbles. -/
def spanBytes (esize n : Nat) : Nat := if esize = 0 then (n + 1) / 2 else n * esize

/-- CPY (06 R188, R189, R195, R196). -/
def execCpy (ch : Fin 16) (d a : SReg) (s : State) : Out :=
  if !s.ready [d, a] then .next (s.stall [d, a])
  else
    let h := s.h
    let n := if h.vill then 0 else h.vl
    let esize := if h.ebits = 4 then 0 else h.ebits / 8
    let toQueue := d == 0
    let dst := s.rs d
    let lo := dst.toNat
    let hi := lo + spanBytes esize n - 1
    if toQueue && (h.fedQueue ch.val).isNone then .next (s.trap ⟨8, BitVec.ofNat 64 ch.val, 0⟩)
    else
      match (if toQueue || n = 0 then none else s.remoteByte lo hi) with
      | some v => .next (s.trap ⟨8, BitVec.ofNat 64 v, 0⟩)
      | none =>
        if n ≠ 0 ∧ 512 ≤ s.copiesInFlight s.hid then .next s.block
        else
          let c : Copy := {
            id := h.nextCopy, chan := ch.val, seq := h.nextSeq, esize := esize, src := s.rs a, dst := dst
            zsrc := a == 0, sup := h.sup, dest := if toQueue then .queue else .mem
            dims := [⟨n, esize, esize⟩], total := n, shadows := s.openShadows s.myPart }
          let leases := if toQueue || n = 0 then [] else s.leasedBy lo hi
          .next ((s.startCopy c leases).retire 4)

/-- Fields of a copy descriptor's words (06 R190, R191). -/
def descBits (w : Nat → Word) (lo n : Nat) : Nat :=
  bitsOf ((List.range 16).foldl (fun a i => a + (w i).toNat * 2 ^ (64 * i)) 0) lo n

def descDims (w : Nat → Word) : List CopyDim :=
  (List.range (descBits w 130 3)).map fun i =>
    ⟨descBits w (384 + 96 * i) 32, signedOf 32 (descBits w (416 + 96 * i) 32), signedOf 32 (descBits w (448 + 96 * i) 32)⟩

/-- Why a descriptor is refused (06 R192); a global address has zero bits [63:57] (01 R53). -/
def State.descBad (s : State) (w : Nat → Word) : Bool :=
  let dims := descBits w 130 3
  let remote := descBits w 133 1
  let qdst := descBits w 135 1
  let vreg := descBits w 136 1
  let ring := descBits w 137 1
  let slot := descBits w 144 16
  let dev := descBits w 44 13
  let v := descBits w 0 6
  dims = 0 || dims = 7 || descBits w 138 6 != 0 || descBits w 160 32 != 0 || descBits w 320 64 != 0 ||
    decide (1 < remote + qdst + vreg) || (ring = 1 && remote = 0) ||
    decide (2 ^ 40 < ((descDims w).map (·.ext)).foldl (· * ·) 1) ||
    (vreg = 1 && (descBits w 6 2 != 0 || descBits w 32 32 != 0 || !s.h.pinned (Fin.ofNat 64 v) || decide (s.h.nreg ≤ v))) ||
    (remote = 1 && (slot / 2 ^ 14 != 0 || !s.allowed s.myPart dev || dev == s.devId || dev == 0 || descBits w 57 7 != 0)) ||
    (ring = 1 && descBits w 249 7 != 0)

/-- Lowest and highest destination address of a nested copy relative to its base. -/
def destLow (l : List CopyDim) : Int := (l.map fun d => min 0 (((d.ext : Int) - 1) * d.dstr)).foldl (· + ·) 0
def destHigh (l : List CopyDim) : Int := (l.map fun d => max 0 (((d.ext : Int) - 1) * d.dstr)).foldl (· + ·) 0

/-- The copy a descriptor describes. -/
def State.descCopy (s : State) (ch : Nat) (w : Nat → Word) : Copy :=
  let dims := descDims w
  { id := s.h.nextCopy, chan := ch, seq := s.h.nextSeq, esize := 2 ^ descBits w 128 2
    src := w 1
    dst := if descBits w 136 1 = 1 then BitVec.ofNat 64 (descBits w 8 24) else w 0
    zsrc := descBits w 134 1 == 1, sup := s.h.sup
    dest :=
      if descBits w 133 1 = 1 then .remote (descBits w 44 13) (descBits w 144 14)
      else if descBits w 135 1 = 1 then .queue
      else if descBits w 136 1 = 1 then .vreg (Fin.ofNat 64 (descBits w 0 6))
      else .mem
    dims := dims, total := (dims.map (·.ext)).foldl (· * ·) 1, shadows := s.openShadows s.myPart
    ring := if descBits w 137 1 = 1 then some (descBits w 192 64, w 4) else none }

/-- The ring a copy with RING makes once its last write has been injected (06 R192, R189). -/
def State.copyRing (s : State) (n : Nat) (c : Copy) : State :=
  match c.ring, c.dest with
  | some (fa, fv), .remote dev slot =>
    { s with rings := s.rings ++ [{ maker := .hart n, agent := n, seq := c.seq, dest := dev, slot := slot, faddr := fa, fval := fv
                                    part := s.hartPart n, copy := some c.id }] }
  | _, _ => s

/-- CNEST, with the words of its descriptor (06 R190 to R192, R195). A copy to the queue of a channel that feeds none raises cause 8
(06 R186) even with a zero extent, of which 06 R189 says that it raises no fault (log 90, DESIGN CHOICE). -/
def cnestWith (ch : Fin 16) (va : Word) (s : State) (w : Nat → Word) : Out :=
  if s.descBad w then .next (s.trap ⟨8, va, 0⟩)
  else
    let c := s.descCopy ch.val w
    if c.dest = .queue ∧ (s.h.fedQueue ch.val).isNone then .next (s.trap ⟨8, BitVec.ofNat 64 ch.val, 0⟩)
    else if c.total ≠ 0 ∧ 512 ≤ s.copiesInFlight s.hid then .next s.block
    else
      let leases := match c.dest with
        | .vreg v => [v]
        | .mem =>
          if c.total = 0 then []
          else s.leasedBy ((c.dst.toNat : Int) + destLow c.dims).toNat
            ((c.dst.toNat : Int) + destHigh c.dims + (c.esize : Int) - 1).toNat
        | _ => []
      let s1 := s.startCopy c leases
      .next ((if c.total = 0 then s1.copyRing s.hid c else s1).retire 4)

/-- CNEST (06 R190 to R192). -/
def execCnest (ch : Fin 16) (a : SReg) (s : State) : Out :=
  if !s.ready [a] then .next (s.stall [a])
  else if (s.rs a).toNat % 8 ≠ 0 then .next (s.trap ⟨8, s.rs a, 0⟩)
  else recordStep s (s.rs a) 16 (cnestWith ch (s.rs a) s) (recordTrap (s.rs a))

/-- The recorded fault of a channel that no trap has taken. -/
def Hart.chanFault (h : Hart) (ch : Nat) : Option ChanFault :=
  (SMap.get none h.chanFaults ch).filter (!·.reported)

/-- Copies of a channel have all completed; the leases of its completed copies end (06 R194, R195). -/
def Hart.drainChan (h : Hart) (ch : Nat) : Hart :=
  { h with
    copies := h.copies.filter (·.chan != ch)
    deliveries := h.deliveries.filter fun d => match d.src with
      | .copy c _ => c != ch
      | .strip _ _ => true }

/-- CDRAIN (05 R147, 06 R193, R194): reports the channel's fault, or waits until every copy of the channel is complete. -/
def execCdrain (ch : Fin 16) (s : State) : Out :=
  match s.h.chanFault ch.val with
  | some f => .next (s.chanTrap ch.val 0 f)
  | none =>
    if s.h.copies.all fun c => c.chan != ch.val || s.copyDone s.hid c then
      .next ((s.onH (·.drainChan ch.val)).retire 4)
    else .next s.block

/-- The entry of the partition's handle table for a handle: base and pages, as last at device level (17 R382, R384). An entry that
does not translate to memory of the partition is no registration (log 77), and the bits of one that are to be zero are not
looked at (log 76). -/
def State.handleEntry (s : State) (part handle : Nat) : Option (Word × Nat) :=
  let rd (i : Nat) : Option Nat :=
    match s.translate none part true .read ((s.part part).htab + BitVec.ofNat 64 (16 * handle + i)) with
    | .ok (.loc pa) => if s.physOk part pa then some (s.devDword pa) else none
    | _ => none
  match rd 0, rd 8 with
  | some b, some l => if b = 0 then none else some (BitVec.ofNat 64 b, l % 2 ^ 32)
  | _, _ => none

/-- SHADOW opens the shadow of a registered handle (06 R197, 05 R149). -/
def execShadow (a : SReg) (s : State) : Out :=
  if !s.ready [a] then .next (s.stall [a])
  else
    let x := s.rs a
    let part := s.myPart
    let bad : Out := .next (s.trap ⟨8, x, 0⟩)
    if 65536 ≤ x.toNat then bad
    else
      match s.handleEntry part x.toNat with
      | none => bad
      | some (base, pages) =>
        match s.bufs.find? fun b => b.part == part && b.handle == x.toNat with
        | none =>
          let b : Buf := { part := part, handle := x.toNat, base := base, pages := pages, shadow := some [] }
          .next ({ s with bufs := s.bufs ++ [b] }.retire 4)
        | some b =>
          if b.shadow.isSome then bad
          else
            let b' := { b with base := base, pages := pages, shadow := some [] }
            .next ({ s with bufs := s.bufs.map fun (y : Buf) => if y.part = part ∧ y.handle = x.toNat then b' else y }.retire 4)

/-- Has a copy a shadow-bound write into a buffer still to make (05 R149). -/
def Copy.owes (c : Copy) (b : Buf) : Bool := c.shadowed b && (((List.range c.total).drop c.pos).any (c.writesAt b))

/-- The fault of a channel that holds a shadow-bound write into a buffer (06 R198). -/
def Hart.shadowFault (h : Hart) (b : Buf) : Option (Nat × ChanFault) :=
  h.copies.findSome? fun c => if c.owes b then (h.chanFault c.chan).map (c.chan, ·) else none

/-- Have the shadow-bound writes into a buffer that the hart issued performed and reached device level (05 R150): of its copies, of
its drains, and in the log. -/
def State.shadowDone (s : State) (b : Buf) : Bool :=
  let frames := b.shadow.getD []
  (s.h.copies.all fun c => !c.owes b) &&
    (s.h.sq.all fun a => !(a.shadows.contains (b.handle, b.gen) && b.meets a.va a.op.storesTo.length)) &&
    s.log.all fun w => !(w.agent == s.hid &&
      frames.any fun x => x.2 == w.pa / 65536 || x.2 == (w.pa + w.data.length - 1) / 65536) || w.atDevice

/-- Is a shadow-bound write into a buffer that the hart issued held by an empty pool (06 R198, 13 R313). -/
def State.poolStalls (s : State) (b : Buf) : Bool :=
  let lacks (va : Word) : Bool := b.holds va &&
    !(b.shadow.getD []).any fun x => x.1 == (va.toNat % 2 ^ 56 - b.base.toNat) / 65536
  (s.freeShadow b.part).isNone &&
    ((s.h.copies.any fun c => c.owes b && (lacks c.at_.2.1 || lacks (c.at_.2.1 + BitVec.ofNat 64 (c.esize - 1)))) ||
      s.h.sq.any fun a => a.shadows.contains (b.handle, b.gen) &&
        (lacks a.va || lacks (a.va + BitVec.ofNat 64 (a.op.storesTo.length - 1))))

/-- PUBLISH: waits for the hart's shadow-bound writes, at a blocking point while the pool is empty for one (13 R313), reports a channel's fault, then the publish move is made, at once where
nothing stands in its way and otherwise by the move of its own (05 R150, 06 R197, R198). -/
def execPublish (a : SReg) (s : State) : Out :=
  if !s.ready [a] then .next (s.stall [a])
  else if s.h.publishing.any (·.2) then .next (s.retire 4)
  else
    let x := s.rs a
    let bad : Out := .next (s.trap ⟨8, x, 0⟩)
    if 65536 ≤ x.toNat || (s.handleEntry s.myPart x.toNat).isNone then bad
    else
      match s.openBuf s.myPart x.toNat with
      | none => bad
      | some b =>
        match s.h.shadowFault b with
        | some (c, f) => .next (s.chanTrap c 0 f)
        | none =>
          if !s.shadowDone b then .next (if s.poolStalls b then s.block else s.pause)
          else if s.publishOpen b then .next ((s.publishBuf b).retire 4)
          else .next (s.onH fun h => { h with publishing := some (x.toNat, false) }).pause

/-- The publish move of a handle, when a PUBLISH of the selected hart has asked for it and it may be made (05 R150). -/
def State.publishFor (s : State) (part handle : Nat) : State :=
  match s.openBuf part handle with
  | some b =>
    if s.h.publishing = some (handle, false) ∧ s.shadowDone b ∧ s.publishOpen b then
      (s.publishBuf b).onH fun h => { h with publishing := some (handle, true) }
    else s
  | none => s

/-- PUBLISH-MOVE: the publish move of a handle that a hart's PUBLISH waits for (05 R150). -/
def execPublishMove (part handle : Nat) (s : State) : Out :=
  let asks (n : Nat) : Bool := s.hartPart n == part && (s.hart n).publishing == some (handle, false)
  match (s.hid :: s.others.map (·.1)).find? asks with
  | some n => .next (((s.select n).publishFor part handle).select s.hid)
  | none => .next s

end Sys2Proof.Machine
end

