-- ==== Sys2Proof/Machine/Fabric.lean ====
section
/-! DEFINITION. Sys2Proof/Machine/Fabric.lean: the fabric units (14 R317 to R333): send records and receive slots, arrival, landing, counting and release, the timers, retransmission, failure, the early-arrival store and its drop records. -/

namespace Sys2Proof.Machine

/-- Home die of a physical address: of its channel, or the die of the scratchpad (01 R52, 05 R152). -/
def homeDie (pa : Nat) : Nat :=
  match paClass pa with
  | .main => (bitsOf pa 8 6 ^^^ bitsOf pa 14 6) / 16
  | .scratch c _ => c / 16
  | .alias_ t _ _ => hartDie t
  | _ => 0

/-- Die agents but the engines and transfers: the fabric unit and the cask engine of a die (05 R148). -/
def fabricAgent (die : Nat) : Nat := 8192 + die

/-- A die agent's write (05 R148); bit i of mask: word i is poisoned (18 R406). One to the alias of a register that is not pinned
now writes nothing (09 R259). -/
def State.dieWrite (s : State) (agent die : Nat) (streaming : Bool) (mask pa : Nat) (data : List Byte) : State :=
  let open_ : Bool := match paClass pa with
    | .alias_ t v _ => (s.hart t).pinned v
    | .main | .scratch .. => true
    | _ => false
  if open_ then
    let s1 := s.writeMem agent 0 0 (16 * die) true false streaming false pa data
    { s1 with poison := s1.poison ++ ((List.range ((data.length + 7) / 8)).filter fun i =>
        mask.testBit i && !s1.poison.contains (pa / 8 + i)).map (pa / 8 + ·) }
  else { s with nextWid := s.nextWid + 1 }

/-- A group record (14 R336). -/
structure Grp where
  nr : Nat
  me : Nat
  nbkt : Nat
  notify : Nat
  ranks : Word
  buckets : Word
  /-- staging area; how partials lie in it is not given (log 78) -/
  stage : Word
  slotbase : Nat
  /-- T_late in cycles -/
  late : Nat
  deriving DecidableEq, Repr

/-- A doubleword of a partition's tables in its virtual memory, as last at device level (17 R384); the tables lie in memory of the
partition (17 R383). -/
def State.tableDword (s : State) (part : Nat) (va : Word) : Option Nat :=
  match s.translate none part true .read va with
  | .ok (.loc pa) => if s.physOk part pa then some (s.devDword pa) else none
  | _ => none

/-- The record of a registered group of a partition (14 R336, 17 R384). -/
def State.group? (s : State) (part g : Nat) : Option Grp :=
  let p := s.part part
  if p.gtab = 0 then none
  else
    match s.tableDword part (p.gtab + BitVec.ofNat 64 (8 * g)) with
    | none => none
    | some a =>
      let w (i : Nat) : Nat := (s.tableDword part (BitVec.ofNat 64 (a + 8 * i))).getD 0
      let nr := bitsOf (w 0) 0 16
      if a = 0 ∨ nr = 0 ∨ 4608 < nr ∨ bitsOf (w 0) 59 5 ≠ 0 ∨ bitsOf (w 4) 14 18 ≠ 0 ∨ w 5 ≠ 0 ∨ w 6 ≠ 0 ∨ w 7 ≠ 0 then none
      else some {
        nr := nr, me := bitsOf (w 0) 16 16, nbkt := bitsOf (w 0) 32 16, notify := bitsOf (w 0) 48 11
        ranks := BitVec.ofNat 64 (w 1), buckets := BitVec.ofNat 64 (w 2), stage := BitVec.ofNat 64 (w 3), slotbase := bitsOf (w 4) 0 14
        late := 4000 * max 1 (min 1000000 (bitsOf (w 4) 32 32)) }

/-- A bucket entry: offset, length, result area, flag and its value (14 R336). -/
structure BktEnt where
  boff : Nat
  blen : Nat
  res : Word
  faddr : Word
  fval : Word
  deriving DecidableEq, Repr

def State.bktEnt (s : State) (part : Nat) (g : Grp) (tag : Nat) : BktEnt :=
  let w (i : Nat) : Nat := (s.tableDword part (g.buckets + BitVec.ofNat 64 (32 * tag + 8 * i))).getD 0
  { boff := bitsOf (w 0) 0 32, blen := bitsOf (w 0) 32 32, res := BitVec.ofNat 64 (w 1), faddr := BitVec.ofNat 64 (w 2)
    fval := BitVec.ofNat 64 (w 3) }

/-- The partition that registered a group (14 R318). -/
def State.groupPart (s : State) (group : Nat) : Option Nat := (List.range 8).find? fun p => (s.group? p group).isSome

/-- A receive slot (14 R320). -/
def State.slot (s : State) (h : Nat) : Slot := SMap.get {} s.slots h
def State.setSlot (s : State) (h : Nat) (x : Slot) : State := { s with slots := SMap.put {} s.slots h x }

/-- Die of a slot (14 R319). -/
def slotDie (h : Nat) : Nat := h / 4096 % 4

/-- T_short and T_hold of a partition (14 R327, R328) in quarters of a nanosecond of the reference clock. -/
def State.tShort (s : State) (part : Nat) : Nat := 4 * max 1000 (min 10000000 (bitsOf (s.part part).tshort.toNat 0 24))
def State.tHold (s : State) (part : Nat) : Nat := 4 * s.tShort part

/-- The same for the partition of a slot. -/
def State.slotShort (s : State) (h : Nat) : Nat := s.tShort ((s.partOfHandle h).getD 0)

/-- A packet enters the fabric (05 R152). -/
def State.emit (s : State) (p : Packet) : State := { s with outbox := s.outbox ++ [p] }

/-- A discarded packet is counted in the statistics of its die (14 R318). -/
def State.discard (s : State) (die : Nat) : State :=
  { s with discards := SMap.put 0 s.discards die (SMap.get 0 s.discards die + 1) }

/-- May a packet of a partition touch n bytes at a physical address (14 R318, 17 R383). -/
def State.reaches (s : State) (part pa n : Nat) : Bool :=
  (List.range n).all fun i => s.physOk part (pa + i)

/-- Where the fabric unit's write of n bytes at a virtual address of a partition goes, if the partition may reach all of it. -/
def State.unitTargets (s : State) (part : Nat) (va : Word) (n : Nat) : Option (List Nat) :=
  let pas := (List.range n).filterMap fun i =>
    match s.translate none part true .write (va + BitVec.ofNat 64 i) with
    | .ok (.loc pa) => if s.physOk part pa then some pa else none
    | _ => none
  if pas.length = n then some pas else none

/-- The virtual address of a window offset in a bucket's result area (14 R338). -/
def BktEnt.resultVa (e : BktEnt) (o : Nat) : Word := e.res + BitVec.ofInt 64 ((o : Int) - e.boff)

/-- Has a packet at most 8 flits (14 R318). -/
def packetFits (p : Packet) : Bool := decide (p.data.length ≤ 512)

/-- The checks of a packet that names a slot of this device (14 R318). A contribution carries a window offset and writes no
address; a result carries one too, which its member turns into an address of its own. -/
def State.accepts (s : State) (p : Packet) : Bool :=
  let x := s.slot p.slot
  p.dst == s.devId && packetFits p && (x.state == 0 || x.sender == p.src) &&
    match s.partOfHandle p.slot with
    | none => false
    | some part => match p.kind with
      | .ring => p.addr == 0 || s.reaches part p.addr 8
      | .contribution => true
      | .result => (match s.group? part p.group with
        | some g => (s.unitTargets part ((s.bktEnt part g p.tag).resultVa p.addr) p.data.length).isSome
        | none => true)
      | _ => s.reaches part p.addr p.data.length

/-- Bytes a packet takes in the early-arrival store (14 R332). -/
def packetSize (p : Packet) : Nat := 64 + p.data.length

/-- The early-arrival store and the drop records of a die. -/
def State.earlyOf (s : State) (die : Nat) : List EarlyPacket := SMap.get [] s.early die
def State.setEarly (s : State) (die : Nat) (l : List EarlyPacket) : State := { s with early := SMap.put [] s.early die l }
def State.dropsOf (s : State) (die : Nat) : List DropRec := SMap.get [] s.drops die
def State.setDrops (s : State) (die : Nat) (l : List DropRec) : State := { s with drops := SMap.put [] s.drops die l }

/-- The place of the record that expires first. -/
def firstExpiring : List DropRec → Nat
  | [] => 0
  | r :: l => match findPos (fun (x : DropRec) => decide (x.expires < r.expires)) l with
    | none => 0
    | some _ => firstExpiring l + 1

/-- A write or ring dropped at some time while its slot is FREE leaves a drop record; those that have expired by then are no more
(14 R333). -/
def State.noteDrop (s : State) (die t : Nat) (p : Packet) : State :=
  if (p.kind == .write || p.kind == .ring) && (s.slot p.slot).state == 0 then
    let l := (s.dropsOf die).filter fun r => decide (t < r.expires)
    let ends := t + 4 * s.slotShort p.slot
    let new : DropRec := ⟨p.slot, p.src, p.gen, p.phase, ends⟩
    match findPos (fun (r : DropRec) => r.slot == p.slot && r.src == p.src) l with
    | some i => s.setDrops die (modAt (fun (r : DropRec) => { r with
        gen := p.gen, phase := if r.gen = p.gen then min r.phase p.phase else p.phase, expires := ends }) l i)
    | none =>
      if l.length < 1024 then s.setDrops die (l ++ [new])
      else (s.setDrops die (dropAt l (firstExpiring l) ++ [new])).discard die
  else s

/-- T_short of a packet that waits: of its slot's partition, or for a strip of the partition that registered its group, else of
partition 0 (log 79). -/
def State.earlyShort (s : State) (p : Packet) : Nat :=
  if p.freg = 0 then s.slotShort p.slot else s.tShort ((s.groupPart p.group).getD 0)

/-- A packet that has waited for T_short is dropped at that time (14 R332, R333). -/
def State.dropEarly (s : State) (die : Nat) (x : EarlyPacket) : State := s.noteDrop die (x.at_ + s.earlyShort x.p) x.p

/-- Packets that have waited for T_short are dropped (14 R332, R333). -/
def State.dropAged (s : State) (die : Nat) : State :=
  let aged (x : EarlyPacket) : Bool := decide (s.earlyShort x.p ≤ s.ref - x.at_)
  let l := s.earlyOf die
  if l.any aged then
    (l.filter aged).foldl (fun (t : State) x => t.dropEarly die x) (s.setEarly die (l.filter fun x => !aged x))
  else s

/-- A packet that arrived at a time enters the early-arrival store, or is dropped when it is full or has waited for T_short since
(14 R332). -/
def State.storeEarly (s0 : State) (die t : Nat) (p : Packet) : State :=
  let s := s0.dropAged die
  let l := s.earlyOf die
  if s.earlyShort p ≤ s.ref - t then s.dropEarly die ⟨p, t⟩
  else if (l.map fun x => packetSize x.p).foldl (· + ·) 0 + packetSize p ≤ 262144 then s.setEarly die (l ++ [⟨p, t⟩])
  else s.noteDrop die s.ref p

/-- Phase distance d of a packet at a slot (14 R323). -/
def phaseDist (p : Packet) (x : Slot) : Nat := (p.phase + 4 - x.phase) % 4

/-- A packet that arrived at a time, for a slot that is not FREE: a ring is held, or discarded, or waits early by its phase (14 R324);
any other packet waits for its Land. -/
def State.takePacket (s : State) (t : Nat) (p : Packet) : State :=
  let x := s.slot p.slot
  if p.kind = .ring then
    if x.state = 4 ∨ p.gen ≠ x.gen ∨ phaseDist p x = 3 then s
    else if phaseDist p x = 2 then s.storeEarly (slotDie p.slot) t p
    else if x.rings.any (·.phase == p.phase) then s
    else
      let y := { x with
        rings := x.rings ++ [⟨p.phase, p.expect, p.addr, p.flagVal⟩], flag := some (p.addr, p.flagVal) }
      s.setSlot p.slot (if phaseDist p x = 0 then { y with state := 2, since := s.ref } else y)
  else { s with inbox := s.inbox ++ [{ p, die := slotDie p.slot, at_ := t }] }

/-- The partition a contribution or result belongs to (14 R319). -/
def State.packetPart (s : State) (p : Packet) : Nat := (s.partOfHandle p.slot).getD 0

/-- Is a packet a contribution or result for a group that is not registered (14 R332). -/
def State.groupMissing (s : State) (p : Packet) : Bool :=
  (p.kind == .contribution || p.kind == .result) && (s.group? (s.packetPart p) p.group).isNone

/-- A packet that names a slot, and arrived at a time (14 R318, R321); with the slot FREE, or its group not registered, it waits in the
early-arrival store (14 R332). -/
def State.slotArrival (s : State) (t : Nat) (p : Packet) : State :=
  if !s.accepts p then s.discard (slotDie p.slot)
  else if (s.slot p.slot).state = 0 ∨ s.groupMissing p then s.storeEarly (slotDie p.slot) t p
  else s.takePacket t p

/-- Packets of a slot that p selects leave the early-arrival store, in their order, and arrive (14 R332). -/
def State.letIn (s0 : State) (h : Nat) (sel : Packet → Bool) : State :=
  let s := s0.dropAged (slotDie h)
  let l := s.earlyOf (slotDie h)
  let mine (x : EarlyPacket) : Bool := x.p.slot == h && x.p.freg == 0 && sel x.p
  (l.filter mine).foldl (fun (t : State) x => t.slotArrival x.at_ x.p) (s.setEarly (slotDie h) (l.filter fun x => !mine x))

/-- The shortfall notice of a slot (14 R330). -/
def State.notice (s : State) (h : Nat) : State :=
  let x := s.slot h
  s.emit { dst := x.sender, src := s.devId, kind := .shortfall, slot := h, gen := x.gen, phase := x.phase, index := 1 }

/-- A FREE slot is allocated (14 R321, R333). -/
def State.allocSlot (s0 : State) (h sender tag owner : Nat) : State :=
  let d := slotDie h
  let s := s0.dropAged d
  let x : Slot := { state := 1, sender, tag, owner, since := s.ref }
  let live := (s.dropsOf d).find? fun r => r.slot == h && r.src == sender && decide (s.ref < r.expires)
  let s1 := s.setDrops d ((s.dropsOf d).filter fun r => r.slot != h)
  match live with
  | none => (s1.setSlot h x).letIn h fun _ => true
  | some r =>
    let s2 := s1.setEarly d ((s1.earlyOf d).filter fun y => y.p.slot != h || y.p.freg != 0)
    (s2.setSlot h { x with gen := !r.gen, phase := r.phase, retry := 1, state := 3 }).notice h

/-- A slot is freed: its ring records go and no flag is written (14 R321). Packets that waited for T_short before were dropped while it was
not FREE (14 R333). -/
def State.freeSlot (s0 : State) (h : Nat) : State :=
  let s := s0.dropAged (slotDie h)
  s.setSlot h { s.slot h with state := 0, rings := [], flag := none }

/-- The lowest-numbered FREE slot of a partition's range on a die (15 R351). -/
def State.freeSlotOn (s : State) (part die : Nat) : Option Nat :=
  ((List.range 4096).map (4096 * die + ·)).find? fun h =>
    decide ((s.part part).belllo ≤ h) && decide (h ≤ (s.part part).bellhi) && (s.slot h).state == 0

/-- A fabric unit's write of a flag, at an address its slot's partition may reach as it performs (14 R325, R331, 17 R383). -/
def State.flagWrite (s : State) (h a : Nat) (v : Word) : State :=
  if a = 0 ∨ !s.reaches ((s.partOfHandle h).getD 8) a 8 then s
  else s.dieWrite (fabricAgent (slotDie h)) (slotDie h) false 0 a (leBytes 8 v.toNat)

/-- The record that a slot releases now (05 R153, 14 R325); a waking bank delays its flag (01 R54). -/
def State.releasable (s : State) (h : Nat) : Option RingRec :=
  let x := s.slot h
  if x.state = 2 then x.rings.find? fun r =>
    r.phase == x.phase && r.expect % 2 ^ 24 == x.count && !s.writeDelays ((List.range 8).map (r.faddr + ·))
  else none

/-- One release of a slot by a record (14 R325). -/
def State.releaseOne (s : State) (h : Nat) (r : RingRec) : State :=
  let x := s.slot h
  let s1 := s.flagWrite h r.faddr r.fval
  let rest := x.rings.filter fun y => y.phase != r.phase
  let ph := (x.phase + 1) % 4
  let y := { x with
    count := x.next, next := 0, phase := ph, retry := 0, rings := rest
    state := if rest.any (·.phase == ph) then 2 else 1, since := s.ref }
  (s1.setSlot h y).letIn h fun p => p.gen == y.gen && phaseDist p y == 1

/-- Releases of a slot, one after another (14 R325). -/
def State.releaseLoop (h : Nat) : Nat → State → State
  | 0, s => s
  | n + 1, s =>
    match s.releasable h with
    | none => s
    | some r => (s.releaseOne h r).releaseLoop h n

def State.releaseSlot (s : State) (h : Nat) : State :=
  State.releaseLoop h ((s.slot h).rings.length + (s.earlyOf (slotDie h)).length + 1) s

/-- Does a waking bank delay the flag of a slot that would fail (01 R54, 14 R331): its failing waits for it. -/
def State.failDelayed (s : State) (h : Nat) : Bool :=
  match (s.slot h).flag with
  | some (a, _) => s.writeDelays ((List.range 8).map (a + ·))
  | none => false

/-- A slot fails (14 R331); told: it sends a fail notice. -/
def State.slotFail (s : State) (h : Nat) (told : Bool) : State :=
  let x := s.slot h
  let s1 := match x.flag with
    | none => s
    | some (a, v) => s.flagWrite h a (v ||| 0x8000000000000000#64)
  let s2 := (s1.setSlot h { x with state := 4 }).pushEvent x.owner 17 (BitVec.ofNat 64 h)
  if told then
    s2.emit { dst := x.sender, src := s.devId, kind := .fail, slot := h, gen := x.gen, phase := x.phase, index := 1 }
  else s2

/-- Send records (14 R322, 15 R353). -/
def State.findSend (s : State) (dest slot : Nat) : Option SendRec :=
  s.sends.find? fun r => r.dest == dest && r.slot == slot

/-- The die whose fabric unit keeps the record of a destination slot (15 R353, log 19). -/
def sendDie (dest slot : Nat) : Nat := (Config.sendDie dest slot).toNat

/-- The record of a destination slot, new with GEN 0 and PHASE 0 where there is none; none while 4,096 are in use on its
die (14 R322). -/
def State.sendRec (s : State) (part dest slot : Nat) : Option SendRec :=
  match s.findSend dest slot with
  | some r => some r
  | none =>
    if (s.sends.filter fun r => r.die == sendDie dest slot).length < 4096 then
      some { dest := dest, slot := slot, die := sendDie dest slot, part := part }
    else none

/-- A record stored; it is freed when no group is held and SENT is 0 (14 R322). -/
def State.putSend (s : State) (r : SendRec) : State :=
  let l := s.sends.filter fun x => !(x.dest == r.dest && x.slot == r.slot)
  { s with sends := if r.held.isEmpty && r.sent == 0 then l else l ++ [r] }

/-- Bytes a partition may send in a window of 1,024 cycles (17 R384): a GB/s is 256 bytes of it. -/
def Part.egressBudget (p : Part) : Nat := 256 * (if p.egress = 0 then 4032 else min 4032 p.egress)

/-- Bytes charged to the window of a cycle: what exceeds the budget of one window is charged to the next (17 R384, log 80). -/
def Part.egressNow (p : Part) (now : Nat) : Nat := p.egressUsed - p.egressBudget * (now / 1024 - p.egressWin)

/-- Does the egress rate let a partition send n bytes now (17 R384): within the window's budget, or a packet that exceeds the
budget of a whole window when nothing is charged to this one. -/
def State.egressOpen (s : State) (part n : Nat) : Bool :=
  let p := s.part part
  decide (p.egressNow s.now + n ≤ p.egressBudget) || (p.egressNow s.now == 0 && decide (p.egressBudget < n))

/-- A partition is charged for n bytes sent. -/
def State.charge (s : State) (part n : Nat) : State :=
  let p := s.part part
  s.setPart part { p with egressUsed := p.egressNow s.now + n, egressWin := s.now / 1024 }

/-- A write packet is injected (05 R152, 14 R322, R323): its record counts it, its group keeps it with who made it, its source pages are
held. None while no record is free. -/
def State.injectWrite (s : State) (part : Nat) (p : Packet) (srcs : List Nat) (maker : Maker) : Option State :=
  match s.sendRec part p.dst p.slot with
  | none => none
  | some r =>
    let q := { p with src := s.devId, gen := r.gen, phase := r.phase }
    let s1 := s.charge part p.data.length
    some ((s1.putSend { r with sent := r.sent + 1, openWrites := r.openWrites ++ [⟨q, srcs⟩], openMaker := some maker }).emit q)

/-- The ring packet of a held group. -/
def ringPacket (dev dest slot : Nat) (gen : Bool) (g : Group) : Packet :=
  { dst := dest, src := dev, kind := .ring, slot := slot, gen := gen, phase := g.phase, addr := g.faddr
    expect := g.expect, flagVal := g.fval }

/-- A ring is injected (14 R324): E is SENT, the open group becomes its held group. -/
def State.injectRing (s : State) (part dest slot faddr : Nat) (fval : Word) (maker : Maker) : Option State :=
  match s.sendRec part dest slot with
  | none => none
  | some r =>
    let g : Group := { phase := r.phase, writes := r.openWrites, expect := r.sent, faddr := faddr % 2 ^ 44, fval := fval
                       maker := maker, rungAt := s.ref }
    let r' := { r with sent := 0, phase := (r.phase + 1) % 4, openWrites := [], openMaker := none, held := r.held ++ [g] }
    let s1 := { s with made := (dest, slot, r.phase, maker) :: s.made.filter fun x => !(x.1 == dest && x.2.1 == slot && x.2.2.1 == r.phase) }
    some ((s1.putSend r').emit (ringPacket s.devId dest slot r.gen g))

/-- RELEASE of a slot (05 R153, 14 R325). -/
def execRelease (h : Nat) (s : State) : Out := .next (if (s.releasable h).isSome then s.releaseSlot h else s)

/-- RING-ARRIVAL of a packet from the fabric (14 R318, R324). -/
def execRingArrival (p : Packet) (s : State) : Out := .next (if p.kind = .ring then s.slotArrival s.ref p else s)

/-- COUNT of a landed packet whose write has reached device level (05 R152, 14 R323). -/
def execCount (i : Nat) (s : State) : Out :=
  match s.inbox[i]? with
  | none => .next s
  | some q =>
    match q.wids with
    | none => .next s
    | some l =>
      if l.any fun w => !s.widReached w .dev then .next s
      else
        let s1 := { s with inbox := dropAt s.inbox i }
        let x := s.slot q.p.slot
        .next (if x.state = 0 ∨ x.state = 4 ∨ q.p.gen ≠ x.gen then s1
          else match phaseDist q.p x with
            | 0 => s1.setSlot q.p.slot { x with count := (x.count + 1) % 2 ^ 24 }
            | 1 => s1.setSlot q.p.slot { x with next := (x.next + 1) % 2 ^ 24 }
            | _ => s1)

/-- RING-REPEAT of a held group: its ring goes out again at T_short and 2 T_short (14 R328). -/
def execRingRepeat (dest slot phase : Nat) (s : State) : Out :=
  match s.findSend dest slot with
  | none => .next s
  | some r =>
    let due (g : Group) : Bool :=
      g.phase == phase && decide (g.repeats < 2) && decide ((g.repeats + 1) * s.tShort r.part ≤ s.ref - g.rungAt)
    match r.held.find? due with
    | none => .next s
    | some g =>
      let r' := { r with held := r.held.map fun (x : Group) => if x = g then { x with repeats := x.repeats + 1 } else x }
      .next ((s.putSend r').emit (ringPacket s.devId dest slot r.gen g))

/-- HOLD-END: T_hold after the latest ring of the slot its held groups go, and their pages with them (14 R328). -/
def execHoldEnd (dest slot : Nat) (s : State) : Out :=
  match s.findSend dest slot with
  | none => .next s
  | some r =>
    .next (if r.held.all fun g => decide (s.tHold r.part ≤ s.ref - g.rungAt) then s.putSend { r with held := [] } else s)

/-- SHORT-TIMER of a slot in HELD or SHORT (14 R329); a new generation's copies of the old one leave the early store (14 R332). -/
def execShortTimer (h : Nat) (s : State) : Out :=
  let x := s.slot h
  if (x.state ≠ 2 ∧ x.state ≠ 3) ∨ s.ref - x.since < s.slotShort h then .next s
  else if x.retry = 3 then .next (if s.failDelayed h then s else s.slotFail h true)
  else if x.state = 2 then
    let d := slotDie h
    let s1 := s.setEarly d ((s.earlyOf d).filter fun y => !(y.p.slot == h && y.p.freg == 0 && y.p.gen == x.gen))
    .next ((s1.setSlot h { x with gen := !x.gen, count := 0, next := 0, rings := [], retry := x.retry + 1, state := 3
                                  since := s.ref }).notice h)
  else .next ((s.setSlot h { x with retry := x.retry + 1, since := s.ref }).notice h)

/-- A cask engine's bell has failed: its state is FAILED, marks and pool pages go, and it is logged (18 R411). -/
def State.caskFail (s : State) (part : Nat) : State :=
  let x := s.part part
  (s.setPart part { x with cask := { x.cask with state := 3, marked := [], image := [], copies := [] } }).logErr 5 0 part 0
    (BitVec.ofNat 64 x.cask.slot)

/-- The end of a group's maker for a failed bell (14 R331). -/
def State.tellMaker (s : State) (handle : Nat) : Maker → State
  | .hart h | .engine h => s.pushEvent h 17 (BitVec.ofNat 64 handle)
  | .unit => s
  | .cask part => s.caskFail part

/-- The held groups from the one a notice's PHASE names on, after those before it: PHASE counts modulo 4, and a sender keeps within
three phases of the receiver (14 R324), so that it is the latest such group (log 81). -/
def splitPhase (phase : Nat) (l : List Group) : List Group × List Group :=
  match findPos (fun (g : Group) => g.phase == phase) l.reverse with
  | some i => (l.take (l.length - 1 - i), l.drop (l.length - 1 - i))
  | none => (l, [])

/-- The maker of the group of a phase: of the open group, or of the last group of that phase that was rung (14 R331). -/
def State.makerOf (s : State) (dest slot phase : Nat) : Option Maker :=
  match (s.findSend dest slot).filter fun r => r.phase == phase with
  | some r => r.openMaker
  | none => (s.made.find? fun x => x.1 == dest && x.2.1 == slot && x.2.2.1 == phase).map (·.2.2.2)

/-- The sending end of a failed bell: its groups, the open one among them, end with the count, and the maker of the failed group is told
(14 R317, R331). -/
def State.senderFails (s : State) (dest slot phase : Nat) : State :=
  let s1 := { s with
    sends := s.sends.filter fun x => !(x.dest == dest && x.slot == slot)
    made := s.made.filter fun x => !(x.1 == dest && x.2.1 == slot) }
  match s.makerOf dest slot phase with
  | some m => s1.tellMaker slot m
  | none => s1

/-- SHORTFALL-NOTICE at the sender (14 R330). One that does not hold the group replies with a fail notice, and the bell has
failed at this end too (14 R317). -/
def execShortfallNotice (p : Packet) (s : State) : Out :=
  if p.kind ≠ .shortfall ∨ p.freg ≠ 0 then .next s
  else if p.dst ≠ s.devId then .next (s.discard 0)
  else
    let fail (t : State) : State := (t.emit { dst := p.src, src := s.devId, kind := .fail, slot := p.slot, gen := p.gen
                                              phase := p.phase }).senderFails p.src p.slot p.phase
    match s.findSend p.src p.slot with
    | none => .next (fail s)
    | some r =>
      let (past, again) := splitPhase p.phase r.held
      if again.isEmpty then .next (fail s)
      else
        let re (g : Group) : Group := { g with rungAt := s.ref, repeats := 0 }
        let r' := { r with gen := p.gen, held := past ++ again.map re }
        let writes := (again.flatMap (·.writes)) ++ r.openWrites
        let s1 := writes.foldl (fun (t : State) w => t.emit { w.p with gen := p.gen }) (s.putSend r')
        .next (again.foldl (fun (t : State) g => t.emit (ringPacket s.devId p.src p.slot p.gen g)) s1)

/-- FAIL-NOTICE: at the receiver the slot fails; at the sender the groups and the open group of the slot end, with the
count, and the maker of the failed group is told (14 R331). -/
def execFailNotice (p : Packet) (s : State) : Out :=
  if p.kind ≠ .fail ∨ p.freg ≠ 0 then .next s
  else if p.dst ≠ s.devId then .next (s.discard 0)
  else if p.index = 0 then
    let x := s.slot p.slot
    .next (if (s.partOfHandle p.slot).isNone ∨ (x.state ≠ 0 ∧ x.sender ≠ p.src) then s.discard (slotDie p.slot)
      else if x.state ≠ 0 ∧ x.state ≠ 4 then (if s.failDelayed p.slot then s else s.slotFail p.slot false)
      else s)
  else
    .next (s.senderFails p.src p.slot p.phase)

/-- EARLY-ARRIVAL-DROP: a packet leaves the store T_short after its arrival (14 R332, R333). -/
def execEarlyArrivalDrop (die i : Nat) (s : State) : Out :=
  match (s.earlyOf die)[i]? with
  | none => .next s
  | some x =>
    .next (if s.earlyShort x.p ≤ s.ref - x.at_ then (s.setEarly die (dropAt (s.earlyOf die) i)).dropEarly die x else s)

/-- DROP-RECORD-EXPIRY (14 R333). -/
def execDropRecordExpiry (die i : Nat) (s : State) : Out :=
  match (s.dropsOf die)[i]? with
  | none => .next s
  | some r => .next (if r.expires ≤ s.ref then s.setDrops die (dropAt (s.dropsOf die) i) else s)

/-- EGRESS-WINDOW: at each multiple of 1,024 cycles the rate count renews (17 R384); a window nobody closed is closed by the clock
(Part.egressNow). -/
def execEgressWindow (part : Nat) (s : State) : Out := .next (if part < 8 then s.charge part 0 else s)

end Sys2Proof.Machine
end

