-- ==== Sys2Proof/Machine/Sched.lean ====
section
/-! DEFINITION. Sys2Proof/Machine/Sched.lean: the stream controllers: placement, dispatch, resumption and pre-emption of instances (13 R303, R306 to R312, 01 R55 to R57, 18 R404, R405), kernels and transfers as they complete (13 R300, R305), the progress fault (13 R315). -/

namespace Sys2Proof.Machine

/-- Indices of instance n over levels given innermost first, with its number over the D levels and their weight
(01 R55, R56, 13 R303). -/
def unrank : List (Nat × Nat) → Nat → List Nat × Nat × Nat
  | [], _ => ([], 0, 1)
  | (kind, ext) :: l, n =>
    if kind = 0 then
      let (v, m, w) := unrank l n
      (v ++ [ext], m, w)
    else
      let (v, m, w) := unrank l (n / ext)
      if kind = 2 then (v ++ [n % ext], m * ext + n % ext, w * ext) else (v ++ [n % ext], m, w)

/-- LIDX values of an instance, level 0 first (01 R55). -/
def Kernel.indices (k : Kernel) (n : Nat) : List Nat := (unrank k.levels.reverse n).1

/-- The die an instance runs on (13 R303). -/
def Kernel.dieOf (k : Kernel) (n : Nat) : Nat :=
  (k.dies[(unrank k.levels.reverse n).2.1 % k.dies.length]?).getD k.die

/-- The first instance number from n on that runs on a die. -/
def Kernel.nextFrom (k : Kernel) (d : Nat) : Nat → Nat → Option Nat
  | 0, _ => none
  | fuel + 1, n => if k.dieOf n = d then some n else k.nextFrom d fuel (n + 1)

/-- The next undispatched instance of a kernel on a die, in ascending number (01 R56, 13 R303). -/
def Kernel.nextOn (k : Kernel) (d : Nat) : Option Nat :=
  let n := SMap.get 0 k.cursor d
  k.nextFrom d (k.total - n) n

/-- Effective priority of a kernel now (13 R306); of one that is not ISSUABLE or RUNNING, whose waiting the spec does not define, the
base priority (log 101). -/
def State.effPrio (s : State) (k : Kernel) : Nat :=
  match k.state with
  | .issuable | .running => min 3 (k.prio + (s.now - k.agedFrom) / 65536)
  | _ => min 3 k.prio

/-- A kernel by its token; a stale token, or one of another partition, names none (13 R304). -/
def State.kernel? (s : State) (part : Nat) (token : Word) : Option Kernel :=
  s.kernels.find? fun k => k.token == token && k.part == part

/-- The state with a kernel changed. -/
def State.setKernel (s : State) (token : Word) (f : Kernel → Kernel) : State :=
  { s with kernels := s.kernels.map fun (k : Kernel) => if k.token = token then f k else k }

/-- A kernel leaves the scoreboard: its entries are free (13 R302). -/
def State.dropKernel (s : State) (token : Word) : State :=
  { s with kernels := s.kernels.filter fun k => k.token != token }

/-- A controller (13 R309). -/
def State.ctl (s : State) (d : Nat) : SCtl := SMap.get {} s.ctls d
def State.setCtl (s : State) (d : Nat) (c : SCtl) : State := { s with ctls := SMap.put {} s.ctls d c }

/-- A controller's traffic at a window of 1,024 cycles: windows that have passed since are closed (13 R307). -/
def SCtl.atWindow (c : SCtl) (w : Nat) : SCtl :=
  if c.window = w then c
  else { c with window := w, busy := decide (c.window + 1 = w) && decide (5120000 < c.bytes), bytes := 0 }

/-- SCCTL fields (13 R309). -/
def SCtl.preen (c : SCtl) : Bool := c.scctl.getLsbD 0
def SCtl.slice (c : SCtl) : Nat := 65536 * max 1 (bitsOf c.scctl.toNat 8 8)
def SCtl.cbuf (c : SCtl) : Nat := min 64 (bitsOf c.scctl.toNat 16 7)

/-- Compaction buffers a die has lent, by index: to its harts and to the instances saved from them (13 R312). -/
def State.cbufsHeld (s : State) (d : Nat) : List Nat :=
  ((List.range 512).filterMap fun i => (s.hart (512 * d + i)).cbIdx) ++
    s.kernels.flatMap fun k => (k.resumable.filter fun x => hartDie x.left == d).filterMap (·.ctx.cbIdx)

/-- The buffer a die lends next: the lowest one not lent, while fewer than CBUF are (13 R312, log 85). -/
def State.cbufFree (s : State) (d : Nat) : Option Nat :=
  let held := s.cbufsHeld d
  if held.length < (s.ctl d).cbuf then (List.range (s.ctl d).cbuf).find? fun i => !held.contains i else none

/-- What a controller gives a hart: a new instance, or a saved one by its place (13 R308). -/
inductive Offer where
  | fresh (n : Nat) | saved (i : Nat)
  deriving DecidableEq, Repr

/-- What a kernel offers to a hart: a resumable instance that may run there, else its next undispatched one (13 R308 steps 1, 2 and 4,
R311, R312). Of several resumable ones it is the one saved first: the spec gives no order among them (log 102). -/
def State.offer (s : State) (hartNo : Nat) (k : Kernel) : Option Offer :=
  let d := hartDie hartNo
  match findPos (fun (x : Saved) => k.dieOf x.number == d &&
      match x.home with
      | some h => h == hartNo
      | none => true) k.resumable with
  | some i => some (.saved i)
  | none => if k.compactable && (s.cbufFree d).isNone then none else (k.nextOn d).map .fresh

/-- Does a kernel's CMASK name a cluster (13 R308). -/
def Kernel.isHome (k : Kernel) (cluster : Nat) : Bool := k.cmask == 0 || k.cmask.testBit (cluster % 16)

/-- Does kernel a come before b in the order of 13 R308 step 3. -/
def State.comesBefore (s : State) (d : Nat) (a b : Kernel) : Bool :=
  let pa := s.effPrio a
  let pb := s.effPrio b
  let light (k : Kernel) : Bool := ((s.ctl d).atWindow (s.now / 1024)).busy && k.memlight
  if pa ≠ pb then decide (pb < pa)
  else if light a != light b then light a
  else if a.seqn ≠ b.seqn then decide (a.seqn < b.seqn)
  else decide (a.die < b.die)

/-- A kernel inserted into an ordered list. -/
def insertBy (lt : Kernel → Kernel → Bool) (k : Kernel) : List Kernel → List Kernel
  | [] => [k]
  | x :: l => if lt k x then k :: x :: l else x :: insertBy lt k l

/-- The candidates for some harts of a core, in order (13 R308 steps 1 to 3). -/
def State.candidatesFor (s : State) (harts : List Nat) : List Kernel :=
  let d := hartDie (harts.headD 0)
  let g := hartCluster (harts.headD 0)
  let part := s.partOf g
  let l := s.kernels.filter fun k =>
    k.part == part && (k.state == .issuable || k.state == .running) && harts.any fun n => (s.offer n k).isSome
  let home := l.filter (·.isHome g)
  (if home.isEmpty then l else home).foldl (fun acc k => insertBy (s.comesBefore d) k acc) []

/-- The candidates for a hart. -/
def State.candidates (s : State) (hartNo : Nat) : List Kernel := s.candidatesFor [hartNo]

/-- A hart that can take an instance: idle, with nothing of its last instance still to perform. -/
def State.hartFree (s : State) (n : Nat) : Bool := (s.hart n).run == .idle && (s.hart n).sq.isEmpty

/-- A core both of whose harts are free, and one under LPART 1 with exactly one free hart (13 R308 step 5). -/
def State.coreFree (s : State) (c : Nat) : Bool :=
  s.hartFree (2 * c) && s.hartFree (2 * c + 1) && !(SMap.get {} s.cores c).pend

def State.coreHalf (s : State) (c : Nat) : Bool :=
  (SMap.get {} s.cores c).mode == 1 && !(SMap.get {} s.cores c).pend && (s.hartFree (2 * c) != s.hartFree (2 * c + 1))

/-- Cores of a partition on a die. -/
def State.coresOf (s : State) (part d : Nat) : List Nat :=
  ((List.range 256).map (256 * d + ·)).filter fun c => s.partOf (c / 16) == part

/-- The choice for the free hart of a core already half occupied: while the first kernel in the order is 32-lane and no core is
idle, the hart is held for it (13 R308 steps 5 and 6). -/
def State.chooseHalf (s : State) (hartNo : Nat) (cores : List Nat) : Option (Kernel × Offer) :=
  let cands := s.candidates hartNo
  match cands with
  | [] => none
  | k :: _ =>
    if !k.lanes16 && !(cores.any s.coreFree) then none
    else (cands.find? (·.lanes16)).bind fun k => (s.offer hartNo k).map (k, ·)

/-- The free hart of a half-occupied core. -/
def State.halfHart (s : State) (c : Nat) : Nat := if s.hartFree (2 * c) then 2 * c else 2 * c + 1

/-- The offer of a kernel to an idle core, with the hart that takes it: a resumable instance first, on hart A, or on hart B where that is
the hart it left; then a fresh one on hart A (13 R308 steps 4 and 5, R311). -/
def State.coreOffer (s : State) (c : Nat) (k : Kernel) : Option (Nat × Offer) :=
  match s.offer (2 * c) k, s.offer (2 * c + 1) k with
  | some (.saved i), _ => some (2 * c, .saved i)
  | _, some (.saved i) => some (2 * c + 1, .saved i)
  | some o, _ => some (2 * c, o)
  | none, _ => none

/-- Is an offer a saved instance that must resume on the hart it left (13 R311). -/
def Kernel.homed (k : Kernel) : Offer → Bool
  | .fresh _ => false
  | .saved i => (k.resumable[i]?.bind (·.home)).isSome

/-- The kernel and the offer chosen for a hart whose capacity is free (13 R308 steps 4 to 6). An idle core is given the first kernel of
those that have an instance for either of its harts. -/
def State.choose (s : State) (hartNo : Nat) : Option (Kernel × Offer) :=
  let c := hartCore hartNo
  let cores := s.coresOf (s.hartPart hartNo) (hartDie hartNo)
  if s.coreFree c then
    match s.candidatesFor [2 * c, 2 * c + 1] with
    | [] => none
    | k :: _ =>
      match s.coreOffer c k with
      | none => none
      | some (n, o) =>
        if n ≠ hartNo then none
        else if k.lanes16 && !k.homed o && (cores.any fun c' => s.coreHalf c' &&
            (s.chooseHalf (s.halfHart c') cores).any (·.1.token == k.token)) then none
        else some (k, o)
  else if s.coreHalf c && s.hartFree hartNo then s.chooseHalf hartNo cores
  else none

/-- The state of a hart at dispatch (01 R57, 18 R395, 10 R271). Its numbering of instructions and cycles goes on, and
the supervisor's TWIN and CAPBASE stay. -/
def dispatchHart (old : Hart) (k : Kernel) (n now : Nat) (cb : Option Nat) : Hart :=
  let lidx := (k.indices n).zipIdx.foldl (fun (m : SMap Word) x => SMap.put 0 m x.2 (BitVec.ofNat 64 x.1)) []
  { pc := k.entry
    s := SMap.put 0 [] 1 k.record
    lidx := lidx
    run := .running
    since := now
    inst := some { token := k.token, number := n, compactable := k.compactable, lanes16 := k.lanes16, win := k.win }
    cbIdx := if k.compactable then cb else none
    twin := old.twin, capbase := old.capbase, nextSeq := old.nextSeq, nextCopy := old.nextCopy }

/-- Every view holds at each location the last write: what a dispatch leaves (05 R131). -/
def State.levelViews (s : State) : State :=
  State.settle { s with log := s.log.map fun (w : WriteRec) => { w with pend := 0 } }

/-- Offsets of the doublewords of a context image (18 R403). -/
def imageOffsets : List Nat := (List.range (0x880000 / 8)).map (8 * ·)

/-- Is a doubleword of memory zero in every view. -/
def State.zeroDword (s : State) (pa : Nat) : Bool :=
  (bytesFrom (memByte s.mem) pa 8).all (· == 0) &&
    s.log.all fun w => decide (w.pa + w.data.length ≤ pa) || decide (pa + 8 ≤ w.pa)

/-- The context image of hart n written into a pool entry by the cask engine of its die, with the poison of its words (18 R405,
R406, 05 R148). A zero over what every view holds as zero changes nothing. -/
def State.saveImage (s : State) (n base : Nat) : State :=
  let d := hartDie n
  let h := s.hart n
  imageOffsets.foldl (fun (t : State) o =>
    let x := s.imageDword n o
    let bad := h.poison.contains o
    if x = 0 && !bad && s.zeroDword (base + o) then t
    else t.putSaved d base o bad x) s

/-- The image of a saved instance written back (18 R405, R406): the doublewords that were changed in memory since it was saved, with their
poison. MODE, STOP and DFAULT of STATE are the image's, and the restore sets RUN; LOST of TSTATUS is as the image has it. LPART is the
core's, which the controller has set for the instance's lanes (13 R308, R311, log 38). -/
def State.loadImage (s : State) (n base : Nat) : State :=
  let d := hartDie n
  let t := imageOffsets.foldl (fun (t : State) o =>
    let x := s.savedDword d base o
    let h := t.hart n
    if x = s.imageDword n o || o == 0x160 then t
    else if o = 0x390 then
      t.setHart n { h with sup := x.getLsbD 2, stop := bitsOf x.toNat 3 6, dfault := x.getLsbD 9 }
    else if o = 0x328 then t.setHart n { h.writeTstatus x with lost := x.getLsbD 4 }
    else t.imageWrite n o x) s
  let bad := (s.poison.filter fun w => decide (base ≤ 8 * w) && decide (8 * w < base + 0x880000)).map (8 * · - base)
  t.setHart n { t.hart n with poison := bad }

/-- A free entry of a partition's context pool (18 R404). -/
def State.poolFree (s : State) (part : Nat) : Option Nat :=
  let p := s.part part
  (List.range (bitsOf p.ctxpool.toNat 44 20)).find? fun i => !p.ctxUsed.contains i

/-- Are pool entries free for k more instances to leave: those leaving will take one each (18 R404). -/
def State.poolRoom (s : State) (part k : Nat) : Bool :=
  let p := s.part part
  let out := (List.range 2048).filter fun n => (s.hart n).leaving.isSome && s.hartPart n == part
  decide (out.length + k ≤ ((List.range (bitsOf p.ctxpool.toNat 44 20)).filter fun i => !p.ctxUsed.contains i).length)

/-- A maker of groups under another number. -/
def Maker.rename (a b : Nat) : Maker → Maker
  | .hart h => .hart (if h = a then b else h)
  | .engine h => .engine (if h = a then b else h)
  | m => m

/-- What an instance has under way outside its hart follows it to another number: its rings and groups, its strips, the engines it
started (14 R331, 15 R352, R357, R361, 18 R405). -/
def State.rename (s : State) (a b : Nat) : State :=
  let mk (m : Maker) : Maker := m.rename a b
  { s with
    rings := s.rings.map fun (r : PendRing) => { r with maker := mk r.maker, agent := if r.agent = a then b else r.agent }
    sends := s.sends.map fun (r : SendRec) => { r with
      openMaker := r.openMaker.map mk, held := r.held.map fun (g : Group) => { g with maker := mk g.maker } }
    made := s.made.map fun x => (x.1, x.2.1, x.2.2.1, mk x.2.2.2)
    sentStrips := s.sentStrips.map fun (x : SentStrip) => { x with hart := if x.hart = a then b else x.hart }
    engines := s.engines.map fun (e : Nat × Engine) => (e.1, { e.2 with starter := if e.2.starter = a then b else e.2.starter }) }

/-- Registers of a mask become pinned. -/
def State.pinAll (s : State) (n : Nat) (pins : BitVec 64) : State :=
  (List.range 64).foldl (fun (t : State) i => if pins.getLsbD i then t.pinIn n (Fin.ofNat 64 i) else t) s

/-- A saved instance resumes on a hart: its context, its pinned registers at their aliases, what was changed in its image, its
suspended copies (18 R405). -/
def State.restore (s : State) (hartNo : Nat) (x : Saved) : State :=
  let old := s.hart hartNo
  let h := { x.ctx with
    since := s.now, nextSeq := max x.ctx.nextSeq old.nextSeq, nextCopy := max x.ctx.nextCopy old.nextCopy
    waiting := false, blocked := none, pins := 0
    copies := x.ctx.copies.map fun (c : Copy) => { c with suspended := false } }
  let s2 := ((s.setHart hartNo h).pinAll hartNo x.ctx.pins).loadImage hartNo (s.poolBase x.part x.poolEntry)
  let s3 := (s2.setHart hartNo { s2.hart hartNo with run := .running }).rename (savedAgent x.part x.poolEntry) hartNo
  let p := s3.part x.part
  s3.setPart x.part { p with ctxUsed := p.ctxUsed.filter (· != x.poolEntry) }

/-- An instance begins or resumes on a hart (13 R308, R311, 18 R405). A dispatch is an end of waiting for its kernel's priority, a
resumption none (13 R306). -/
def State.place (s : State) (hartNo : Nat) (k : Kernel) (o : Offer) : State :=
  let c := hartCore hartNo
  let s1 := if s.coreFree c then s.setMode c (if k.lanes16 then 1 else 0) else s
  let d := hartDie hartNo
  match o with
  | .fresh n =>
    let s2 := (s1.levelViews).setHart hartNo (dispatchHart (s1.hart hartNo) k n s.now (s.cbufFree d))
    s2.setKernel k.token fun k => { k with state := .running, agedFrom := s.now, cursor := SMap.put 0 k.cursor d (n + 1) }
  | .saved i =>
    match k.resumable[i]? with
    | none => s
    | some x => (s1.restore hartNo x).setKernel k.token fun k => { k with resumable := dropAt k.resumable i }

/-- The controller gives a free hart the instance it chooses (13 R308). -/
def State.dispatchTo (s : State) (hartNo : Nat) : State :=
  match s.choose hartNo with
  | some (k, o) => s.place hartNo k o
  | none => s

/-- DISPATCH: hart 0 or 1 of a core (13 R308). -/
def execDispatch (core hart : Nat) (s : State) : Out :=
  .next (if core < 1024 ∧ hart < 2 then s.dispatchTo (2 * core + hart) else s)

/-- An access that waits for an entry or room of a queue of the hart. -/
def Hart.queueHeld (h : Hart) (strm : Nat) : Bool :=
  match h.head strm with
  | some a => !h.queueReady a.op
  | none => true

/-- Has a stopped hart nothing under way but accesses that a queue of its own holds, which wait with the instance: no other access
of it is left, and every write of it is at device level (05 R156, 18 R405). -/
def State.quiet (s : State) (n : Nat) : Bool :=
  let h := s.hart n
  (h.sq.all fun a => h.queueHeld a.strm) && h.lates.isEmpty && s.log.all fun w => w.agent != n || w.atDevice

/-- A hart's instance is saved and becomes resumable; the hart is free (13 R311, 18 R405). -/
def State.saveInstance (s : State) (n : Nat) : State :=
  let part := s.hartPart n
  match (s.hart n).inst, s.poolFree part with
  | some i, some e =>
    let pins := (s.hart n).pins
    let s0 := s.unpinAll n s.lastByte
    let h := (s0.hart n).unpop
    let ctx := { h with
      run := .resumable, stop := 21, waiting := false, blocked := none, waitAt := none, got := [], gotBad := [], lent := []
      leaving := none, pins := pins
      copies := h.copies.map fun (c : Copy) => if c.total ≤ c.pos then c else { c with suspended := true } }
    let s1 := (s0.setHart n ctx).saveImage n (s.poolBase part e)
    let x : Saved := {
      number := i.number, home := if pins = 0 ∧ h.deliveries.isEmpty then none else some n, ctx := ctx
      poolEntry := e, part := part, left := n, since := s.now }
    let free : Hart := { twin := h.twin, capbase := h.capbase, nextSeq := h.nextSeq, nextCopy := h.nextCopy }
    let s2 := (s1.setHart n free).rename n (savedAgent part e)
    let s3 := s2.setPart part { s2.part part with ctxUsed := (s2.part part).ctxUsed ++ [e] }
    s3.setKernel i.token fun k => { k with resumable := k.resumable ++ [x] }
  | _, _ => s

/-- The kernel of a hart's instance. -/
def State.kernelOf (s : State) (n : Nat) : Option Kernel :=
  (s.hart n).inst.bind fun i => s.kernels.find? fun k => k.token == i.token

/-- What waits for the capacity an instance would free, with effective priority at least that of its kernel (15 R345). -/
def State.yieldsTo (s : State) (n : Nat) (k : Kernel) : Option (Nat × Kernel × Offer) :=
  let t := s.setHart n { s.hart n with run := .idle, sq := [] }
  let c := hartCore n
  [2 * c, 2 * c + 1].findSome? fun m => match t.choose m with
    | some (j, o) => if s.effPrio k ≤ s.effPrio j then some (m, j, o) else none
    | none => none

/-- A hart stops where it stands, to be saved (13 R311). -/
def State.leave (s : State) (n : Nat) (byYield : Bool) : State :=
  s.setHart n { s.hart n with leaving := some { since := s.now, byYield := byYield } }

/-- The hart's unfinished copies that p selects stop before their next access (18 R405 step 3). -/
def Hart.suspend (h : Hart) (p : Copy → Bool) : Hart :=
  { h with copies := h.copies.map fun (c : Copy) => if p c && decide (c.pos < c.total) then { c with suspended := true } else c }

/-- Do the writes of a saved image wait for a cask's pool pages (18 R410). -/
def State.saveDelayed (s : State) (part : Nat) : Bool :=
  match s.poolFree part with
  | some e => s.writeDelays ((List.range 144).map fun i => s.poolBase part e + 65536 * i)
  | none => false

/-- The save of a hart that leaves goes on (18 R405), once it is in program mode (18 R414): its leasing deliveries are waited for, up to its kernel's progress window; then
its copies, up to 65,536 cycles, those into a queue not at all; then its image is written and the hart is free. A YIELD gives
the capacity to what waits for it (15 R345). -/
def State.saveMove (s : State) (n : Nat) : State :=
  let h := s.hart n
  if h.sup then s
  else
  match h.leaving, h.inst with
  | some l, some i =>
    match l.copiesFrom with
    | none =>
      if h.deliveries.all (·.done) then
        s.setHart n ({ h with leaving := some { l with copiesFrom := some s.now } }.suspend fun (c : Copy) => c.dest == CopyDest.queue)
      else if 1024 * max 1 i.win < s.now - l.since then s.setHart n { h with leaving := none }
      else s
    | some t =>
      if t + 65536 ≤ s.now ∧ (h.copies.any fun c => decide (c.pos < c.total) && !c.suspended) then
        s.setHart n (h.suspend fun _ => true)
      else if s.quiet n && !s.saveDelayed (s.hartPart n) && h.copies.all fun c => decide (c.total ≤ c.pos) || c.suspended then
        let dest := if l.byYield then (s.kernelOf n).bind (s.yieldsTo n) else none
        let s1 := s.saveInstance n
        match dest with
        | some (m, j, o) => s1.place m j o
        | none => s1
      else s
  | _, _ => s

/-- Victims on a die for a partition: instances of base-PRIO-0 kernels that have run a slice, longest running first, lower harts
before higher (13 R310). -/
def State.victims (s : State) (d part : Nat) : List Nat :=
  let l := ((List.range 512).map (512 * d + ·)).filter fun n =>
    let h := s.hart n
    h.run == .running && h.leaving.isNone && s.hartPart n == part && decide ((s.ctl d).slice ≤ s.now - h.since) &&
      (match s.kernelOf n with
      | some k => k.prio == 0
      | none => false)
  l.foldl (fun acc n =>
    acc.takeWhile (fun m => decide ((s.hart m).since ≤ (s.hart n).since)) ++ n ::
      acc.dropWhile fun m => decide ((s.hart m).since ≤ (s.hart n).since)) []

/-- The other hart of a hart's core. -/
def sibling (n : Nat) : Nat := if n % 2 = 0 then n + 1 else n - 1

/-- The harts a pre-emption for a kernel stops: one hart, or what frees a whole core, where an instance of the kernel may then run
(13 R310). -/
def State.victimSet (s : State) (d : Nat) (k : Kernel) : List Nat :=
  let l := s.victims d k.part
  if k.lanes16 then (l.filter fun n => (s.offer n k).isSome).take 1
  else
    match l.find? fun n => (s.hartFree (sibling n) || l.contains (sibling n)) &&
        ((s.offer n k).isSome || (s.offer (sibling n) k).isSome) with
    | none => []
    | some n => if s.hartFree (sibling n) then [n] else [n, sibling n]

/-- Does an instance of a kernel wait on a die with no hart for it: one that waits for a compaction buffer does not (13 R310, R312). -/
def State.lacksHart (s : State) (d : Nat) (k : Kernel) : Bool :=
  (((k.nextOn d).isSome && !(k.compactable && (s.cbufFree d).isNone)) || k.resumable.any fun x => k.dieOf x.number == d) &&
    (List.range 512).all fun i => !((s.choose (512 * d + i)).any (·.1.token == k.token))

/-- Each kernel that may pre-empt keeps, by die, since when an instance of it has waited so (13 R310). -/
def State.noteWaits (s : State) : State :=
  if s.kernels.all fun k => k.prio != 3 then s
  else { s with kernels := s.kernels.map fun (k : Kernel) =>
    if k.prio == 3 && (k.state == .issuable || k.state == .running) then
      { k with waits := (List.range 4).foldl (fun (m : SMap (Option Nat)) d =>
          SMap.put none m d (if s.lacksHart d k then some ((SMap.get none m d).getD s.now) else none)) k.waits }
    else { k with waits := [] } }

/-- Has an instance of a kernel waited on a die for a slice, no hart being there for it (13 R310). -/
def State.waitsLong (s : State) (d : Nat) (k : Kernel) : Bool :=
  (SMap.get none k.waits d).any (fun t => decide ((s.ctl d).slice ≤ s.now - t)) && s.lacksHart d k

/-- The kernel of base PRIO 3 for which a die pre-empts: the first in the order that may (13 R310). -/
def State.preemptor (s : State) (d : Nat) : Option Kernel :=
  let l := s.kernels.filter fun k =>
    k.prio == 3 && (k.state == .issuable || k.state == .running) && s.waitsLong d k && !(s.victimSet d k).isEmpty &&
      s.poolRoom k.part (s.victimSet d k).length
  (l.foldl (fun acc k => insertBy (s.comesBefore d) k acc) []).head?

/-- PREEMPTION on a die: at most one in each slice; its victims stop (13 R310, R311). -/
def execPreemption (d : Nat) (s : State) : Out :=
  let c := s.ctl d
  if !c.preen || s.now < c.lastPreempt + c.slice then .next s
  else
    match s.preemptor d with
    | none => .next s
    | some k =>
      let s1 := (s.victimSet d k).foldl (fun (t : State) n => t.leave n false) s
      .next (s1.setCtl d { s1.ctl d with lastPreempt := s.now })

/-- TRAFFIC-WINDOW: a window of 1,024 cycles that has passed is judged by its bytes; the controller's count itself knows its window,
so that no use of it waits for this (13 R307). -/
def execTrafficWindow (d : Nat) (s : State) : Out := .next (s.setCtl d ((s.ctl d).atWindow (s.now / 1024)))

/-- Has a transfer ended with every write at device level (13 R300). -/
def State.transferDone (s : State) (t : Transfer) : Bool :=
  decide (t.len * t.clusters.length ≤ t.pos) &&
    s.log.all fun w => w.agent != xferAgent t.id || w.atDevice

/-- A kernel none of whose transfers is missing becomes ISSUABLE (13 R300). -/
def Kernel.ready (now : Nat) (k : Kernel) : Kernel :=
  if k.state = .waiting ∧ k.toCome = 0 ∧ k.notResident = 0 then { k with state := .issuable, agedFrom := now, issuableAt := now } else k

/-- TRANSFER-RESIDENT (13 R300). -/
def execTransferResident (d id : Nat) (s : State) : Out :=
  match s.transfers.find? fun t => t.id == id && t.die == d with
  | none => .next s
  | some t =>
    if !s.transferDone t then .next s
    else
      let s1 := { s with transfers := s.transfers.filter fun (x : Transfer) => x.id != id }
      .next (s1.setKernel t.token fun k => ({ k with notResident := k.notResident - 1 }).ready s.now)

/-- Is a write one of an instance of the kernel, up to the instruction it ended at. -/
def Kernel.wrote (k : Kernel) (w : WriteRec) : Bool := k.harts.any fun x => x.1 == w.agent && decide (w.seq < x.2)

/-- KERNEL-COMPLETE: every instance has ended and every write of them is at device level (13 R305, R298). Its entries are free
(13 R302), and its status stays to be read until one holds another kernel (13 R304). -/
def execKernelComplete (token : Word) (s : State) : Out :=
  match s.kernels.find? fun k => k.token == token with
  | none => .next s
  | some k =>
    .next (if (k.state == .issuable || k.state == .running) && k.done == k.total &&
        s.log.all (fun w => !k.wrote w || w.atDevice) then s.setKernel token fun k => { k with state := .complete, harts := [] }
      else s)

/-- Harts of a kernel that count as running: not in a trap handler, and not being saved (13 R313, R316). -/
def State.kernelHarts (s : State) (token : Word) : List Nat :=
  (List.range 2048).filter fun n =>
    let h := s.hart n
    h.run == .running && !h.sup && h.leaving.isNone && (match h.inst with
      | some i => i.token == token
      | none => false)

/-- A hart takes a synchronous trap where it stands, while another is selected: at an instruction or a convoy's header (18 R396). -/
def State.trapOn (s : State) (n : Nat) (t : Trp) : State :=
  let s1 := s.select n
  (s1.trapLog s1.atHeader (s1.h.inConvoy.bind (·.drew)) { t with eidx := s1.h.eidx }).select s.hid

/-- At a sample, harts of a kernel that have all been blocked for longer than its window take cause 16 (13 R315). -/
def State.progress (s : State) (k : Kernel) : State :=
  let l := s.kernelHarts k.token
  let stuck (n : Nat) : Bool := (s.hart n).blocked.any fun t => decide (1024 * max 1 k.win < s.now - t)
  if !l.isEmpty && l.all stuck then l.foldl (fun (t : State) n => t.trapOn n ⟨16, k.token, 0⟩) s else s

/-- PROGRESS-FAULT of a kernel at a multiple of 1,024 cycles (13 R315). Every step samples every kernel by itself as the cycle counter
passes one (State.advance). -/
def execProgressFault (token : Word) (s : State) : Out :=
  match s.kernels.find? fun k => k.token == token with
  | none => .next s
  | some k => .next (if s.now % 1024 = 0 then s.progress k else s)

/-- LPART-CHANGE: a pending MODE takes effect on a core whose harts are both idle (01 R24, R25). -/
def execLpartChange (core : Nat) (s : State) : Out :=
  let c := SMap.get {} s.cores core
  .next (if c.pend && s.coreIdle core then s.setMode core c.next else s)

end Sys2Proof.Machine
end

