-- ==== Sys2Proof/Machine/Engine.lean ====
section
/-! DEFINITION. Sys2Proof/Machine/Engine.lean: the Dungen engines as the device sees them: state, faults, the step number (14 R341, R342, 15 R366), and the cask's cut that the step number triggers (18 R410). -/

namespace Sys2Proof.Machine

/-- An engine, and the state with it changed; the die of an engine. -/
def State.engine (s : State) (e : Nat) : Engine := SMap.get {} s.engines e
def State.setEngine (s : State) (e : Nat) (x : Engine) : State := { s with engines := SMap.put {} s.engines e x }
def engineDie (e : Nat) : Nat := e / 4

/-- Pages of a cask's ranges in order: place j and live frame (18 R409, R410). -/
def State.caskPages (s : State) (part : Nat) : List (Nat × Nat) :=
  let vas := (s.part part).cask.ranges.flatMap fun r => (List.range r.2).map fun i => r.1 + 65536 * i
  vas.zipIdx.filterMap fun x =>
    match s.translate none part true .read (BitVec.ofNat 64 x.1) with
    | .ok (.loc pa) => some (x.2, pa / 65536)
    | _ => none

/-- The cut value of a frame, put at place j of an image: the last writes at device level (18 R410). -/
def State.cutPage (s : State) (j f : Nat) (m : List Host.Cell) : List Host.Cell :=
  let m1 := (pageCells s.mem f).foldl (fun m c => memPut m (65536 * j + c.1 % 65536) c.2) m
  (s.log.filter (·.atDevice)).foldl (fun m w => copyBytes f j m w.pa w.data) m1

/-- The cut of a partition (18 R410). -/
def State.cutPart (s : State) (part : Nat) : State :=
  let x := s.part part
  let marked := (s.caskPages part).filter fun p => !x.cask.incr || !x.cask.clean.contains p.2
  s.setPart part { x with cask := { x.cask with
    state := 2, pages := 0, recordSent := false, copies := [], drainPos := [], marked := marked, nmarked := marked.length
    clean := x.cask.clean ++ (marked.map (·.2)).filter fun f => !x.cask.clean.contains f
    image := marked.foldl (fun m p => s.cutPage p.1 p.2 m) []
    poison := marked.flatMap fun p => (s.poison.filter fun w => w / 8192 == p.2).map fun w => 8192 * p.1 + w % 8192 } }

/-- Is the cut of a partition due: requested for a step that STEPNO has reached (15 R348, 18 R410). -/
def State.cutDue (s : State) (part : Nat) : Bool :=
  let c := (s.part part).cask
  c.state == 1 && decide (c.step ≤ s.stepno.toNat)

/-- The cuts that the step number makes due are taken at once (18 R410). -/
def State.cutIfDue (s : State) : State :=
  (List.range 8).foldl (fun (t : State) p => if t.cutDue p then t.cutPart p else t) s

/-- STEPNO after the engines that run: the least of their counters, if that is more; then the cut (14 R342, 18 R410). -/
def State.updateStepno (s : State) : State :=
  let l := (List.range 16).filterMap fun e =>
    let x := s.engine e
    if x.state == .running || x.state == .waiting then some x.steps.toNat else none
  match l with
  | [] => s
  | a :: r => ({ s with stepno := BitVec.ofNat 64 (max s.stepno.toNat (r.foldl min a)) }).cutIfDue

/-- An engine faults at an instruction (15 R366). -/
def State.engineFault (s : State) (e code pc : Nat) : State :=
  let x := s.engine e
  if x.state = .faulted then s
  else (s.setEngine e { x with state := .faulted, fcode := code, pc := pc, waitAt := none }).updateStepno

/-- CUT of a partition, when it is due (18 R410). -/
def execCut (part : Nat) (s : State) : Out := .next (if part < 8 ∧ s.cutDue part then s.cutPart part else s)

end Sys2Proof.Machine
end

