-- ==== Sys2Proof/Machine/Move.lean ====
section
/-! DEFINITION. Sys2Proof/Machine/Move.lean: the moves of the abstract machine (05 R132, R133, R140, R152): the accesses of pipe streams, bindings, copies (06 R188 to R193), engine transfers (15 R363) and stream transfers (13 R299, R300) as they perform; injection into the fabric; remote reads (05 R155, 14 R318). -/

namespace Sys2Proof.Machine

/-- Bytes that an engine or a copy moves to or from the stacked SRAM of its die: those that lie in pages resident there (13 R307). -/
def State.traffic (s : State) (die : Nat) (pas : List Nat) : State :=
  let here (pa : Nat) : Bool := match paClass pa with
    | .main => pa / 65536 % 4 == die && (SMap.get {} s.tiers die).pages.any (·.page == pa / 65536)
    | _ => false
  match (pas.filter here).length with
  | 0 => s
  | n => s.setCtl die (let c := (s.ctl die).atWindow (s.now / 1024)
      { c with bytes := c.bytes + n })

/-- Bytes of an element of a copy, and those it moves: of the two nibbles of a byte the first counts it (13 R307). -/
def Copy.bytes (c : Copy) : Nat := max 1 c.esize
def Copy.moved (c : Copy) : Nat := if c.esize = 0 ∧ c.pos % 2 = 1 then 0 else c.bytes

/-- Is dimension 0's stride on a side equal to the element (17 R380). -/
def Copy.streaming (c : Copy) (dst : Bool) : Bool :=
  match c.dims with
  | d :: _ => c.esize == 0 || (if dst then d.dstr else d.sstr) == (c.esize : Int)
  | [] => true

/-- One byte of a copy's access, checked as it performs (06 R193): a lease does not bind a delivery. -/
def State.copyByte (s : State) (sup : Bool) (k : AccKind) (va : Word) : Except Trp Nat :=
  if k = .read ∧ canonical va ∧ (s.inWindow s.myPart va).isSome then .error ⟨8, va, 0⟩
  else
    match s.translate (some (hartCore s.hid)) s.myPart sup k va with
    | .error t => .error t
    | .ok (.remote _ _) => .error ⟨8, va, 0⟩
    | .ok (.loc pa) =>
      match s.checkLocal s.hid sup va pa with
      | some ⟨9, _, _⟩ => .ok pa
      | some t => .error t
      | none => if s.imageShut pa && k == .write then .error ⟨8, va, 0⟩ else .ok pa

def State.copyBytes (s : State) (sup : Bool) (k : AccKind) (va : Word) : Nat → Except Trp (List Nat)
  | 0 => .ok []
  | n + 1 =>
    match s.copyByte sup k va with
    | .error t => .error t
    | .ok pa =>
      match s.copyBytes sup k (va + 1) n with
      | .error t => .error t
      | .ok l => .ok (pa :: l)

/-- A failing access stops its channel with the failure recorded (06 R193). -/
def State.recordFault (s : State) (ch : Nat) (t : Trp) : State :=
  s.onH fun h => { h with chanFaults := SMap.put none h.chanFaults ch (some { cause := t.cause, tval := t.tval }) }

/-- A copy of the selected hart changed. -/
def State.setCopy (s : State) (c : Copy) : State :=
  s.onH fun h => { h with copies := h.copies.map fun (x : Copy) => if x.id = c.id then c else x }

/-- The copy whose access is at the head of a channel, unless the channel is stopped, suspended or held by a barrier
(06 R188, R193, 05 R145). -/
def State.channelHead (s : State) (ch : Nat) : Option Copy :=
  match s.h.copies.find? fun c => c.chan == ch && decide (c.pos < c.total) with
  | none => none
  | some c =>
    if c.suspended || (SMap.get none s.h.chanFaults ch).isSome || s.fenced s.hid (chanStream ch) c.seq true then none
    else some c

/-- The element of a copy is read (06 R192). -/
def State.copyRead (s : State) (c : Copy) : State :=
  let (va, _, nib) := c.at_
  if c.zsrc then s.setCopy { c with buf := some (0, false) }
  else
    match s.copyBytes c.sup .read va c.bytes with
    | .error t => s.recordFault c.chan t
    | .ok pas =>
      if s.bankDelays pas then s
      else
        let x := leValue (pas.map fun pa => s.readByte s.myPart s.myCluster pa)
        let v := match nib with
          | none => x
          | some hi => nibbleOf hi x
        let pois := pas.any fun pa => s.poison.contains (pa / 8)
        let s1 := (s.touchPages pas (c.streaming false)).traffic s.myDie (pas.take c.moved)
        (s1.touchTlb s.hid c.sup .read va c.bytes).setCopy { c with buf := some (v, pois) }

/-- The next element of a copy. -/
def Copy.step (c : Copy) : Copy := { c with pos := c.pos + 1, buf := none }

/-- The element of a copy is written in memory, at shadow pages where its shadow is open (05 R149). -/
def State.copyWrite (s : State) (c : Copy) (x : Nat) (pois : Bool) : State :=
  let (_, va, nib) := c.at_
  match s.copyBytes c.sup .write va c.bytes with
  | .error t => s.recordFault c.chan t
  | .ok pas =>
    match s.shadowAddrs s.myPart c.shadows (va.toNat % 2 ^ 56) pas with
    | none => s
    | some (s1, l) =>
      if !s1.shadowOk s.myPart l then s.recordFault c.chan ⟨8, va, 0⟩
      else if s.writeDelays l || l.any fun pa => s.pageHeld (pa / 65536) then s
      else
        let data := match nib, l with
          | some hi, pa :: _ =>
            let old := (s1.atomicByte s.myPart s.myCluster pa).toNat
            [BitVec.ofNat 8 (if hi then old % 16 + 16 * x else old / 16 * 16 + x)]
          | _, _ => leBytes c.bytes x
        let s2 := s1.storeBytes s.hid (chanStream c.chan) c.seq false (c.streaming true) pois l data
        ((s2.traffic s.myDie (l.take c.moved)).touchTlb s.hid c.sup .write va c.bytes).setCopy c.step

/-- The element of a copy is written at the alias of a pinned register (06 R190). -/
def State.copyAlias (s : State) (c : Copy) (v : VReg) (x : Nat) (pois : Bool) : State :=
  let off := c.at_.2.1.toNat
  if s.h.pinned v && decide (off + c.bytes ≤ s.h.aliasBytes) then
    let pas := (List.range c.bytes).map fun i => aliasAddr s.hid v (off + i)
    (s.storeBytes s.hid (chanStream c.chan) c.seq false false pois pas (leBytes c.bytes x)).setCopy c.step
  else s.recordFault c.chan ⟨8, BitVec.ofNat 64 (aliasAddr s.hid v off), 0⟩

/-- The next access of a channel of the selected hart: an element is read, then written (06 R188, R192). A write to
another device is left to an INJECT. -/
def State.copyMove (s : State) (ch : Nat) : State :=
  match s.channelHead ch with
  | none => s
  | some c =>
    match c.buf with
    | none => s.copyRead c
    | some (x, pois) =>
      match c.dest with
      | .mem => s.copyWrite c x pois
      | .queue =>
        (match s.h.fedQueue ch with
        | none => s
        | some q =>
          let y := s.h.queue q
          if 16 ≤ y.entries.length then s
          else
            (s.onH fun h =>
              let h1 := h.setQ q { y with entries := y.entries ++ [BitVec.ofNat 64 x] }
              if pois then h1.addPoison (queueOffset q y.entries.length) else h1).setCopy c.step)
      | .vreg v => s.copyAlias c v x pois
      | .remote _ _ => s

/-- An engine's access to a byte by a virtual address of its partition, or its fault code (15 R359, R366). -/
def State.engineByte (s : State) (part : Nat) (k : AccKind) (va : Word) : Except Nat Nat :=
  if canonical va && (s.inWindow part va).isSome then .error 4
  else
    match s.translate none part false k va with
    | .error t => .error (if t.cause = 8 then 4 else 3)
    | .ok (.remote _ _) => .error 4
    | .ok (.loc pa) =>
      if s.physOk part pa then .ok pa else .error 4

def State.engineBytes (s : State) (part : Nat) (k : AccKind) (va : Word) : Nat → Except Nat (List Nat)
  | 0 => .ok []
  | n + 1 =>
    match s.engineByte part k va with
    | .error t => .error t
    | .ok pa =>
      match s.engineBytes part k (va + 1) n with
      | .error t => .error t
      | .ok l => .ok (pa :: l)

/-- A failing transfer of an engine stops, and the engine faults at the instruction that started it; its other transfers
go on (15 R366). -/
def State.failXfer (s : State) (e code : Nat) (x : Xfer) : State :=
  (s.setEngine e { s.engine e with xfers := (s.engine e).xfers.tail }).engineFault e code x.pc

/-- The transfer at the head of an engine moves on. -/
def State.stepXfer (s : State) (e : Nat) (x : Xfer) : State :=
  let g := s.engine e
  s.setEngine e { g with xfers := if x.len ≤ x.pos then g.xfers.tail else x :: g.xfers.tail }

/-- Bytes read by an engine, as its die's view holds them, each with whether its word is poisoned. -/
def State.engineRead (s : State) (e : Nat) (pas : List Nat) : List (Byte × Bool) :=
  pas.map fun pa => (s.readByte (s.engine e).part (s.dieView (engineDie e) (pas.headD 0)) pa, s.poison.contains (pa / 8))

/-- Marks of an engine's access (13 R307, 17 R380). -/
def State.engineTouch (s : State) (e : Nat) (pas : List Nat) : State := (s.touchPages pas false).traffic (engineDie e) pas

/-- The same for one at a virtual address of its partition, which it walks to (17 R380). -/
def State.engineUse (s : State) (e : Nat) (va : Word) (pas : List Nat) : State :=
  (s.touchWalk (s.engine e).part (va.toNat % 2 ^ 56)).engineTouch e pas

/-- A die agent's bytes written, each at its address. -/
def State.dieWriteBytes (s : State) (agent die : Nat) (streaming : Bool) : List Nat → List Byte → State
  | pa :: pas, b :: bs =>
    if consecutive (pa :: pas) then s.dieWrite agent die streaming 0 pa (b :: bs)
    else (s.dieWrite agent die streaming 0 pa [b]).dieWriteBytes agent die streaming pas bs
  | _, _ => s

/-- The words of some addresses become poisoned. -/
def State.addPoison (s : State) (pas : List Nat) : State :=
  { s with poison := s.poison ++ ((pas.map (· / 8)).eraseDups.filter fun w => !s.poison.contains w) }

/-- The same with poison that moves with the data (18 R406). -/
def State.dieWriteList (s : State) (agent die : Nat) (streaming : Bool) (pas : List Nat) (data : List (Byte × Bool)) : State :=
  (s.dieWriteBytes agent die streaming pas (data.map (·.1))).addPoison (((pas.zip data).filter (·.2.2)).map (·.1))

/-- An engine's transfer writes bytes at a virtual address, at shadow pages where its shadow is open. -/
def State.engineWrite (s : State) (e : Nat) (x : Xfer) (va : Word) (data : List (Byte × Bool)) (x' : Xfer) : State :=
  let g := s.engine e
  match s.engineBytes g.part .write va data.length with
  | .error c => s.failXfer e c x
  | .ok pas =>
    match s.shadowAddrs g.part x.shadows (va.toNat % 2 ^ 56) pas with
    | none => s
    | some (s1, l) =>
      if !s1.shadowOk g.part l then s.failXfer e 4 x
      else if s.writeDelays l then s
      else ((s1.dieWriteList (engineAgent e) (engineDie e) false l data).engineUse e va l).stepXfer e x'

/-- Element formats of a REDUCE (14 R335). -/
def reduceFmt (f : Fmt) : Bool :=
  match f with
  | .f32 | .bf16 | .f16 | .i32 | .i64 => true
  | _ => false

/-- Combination of two elements by bits, the first operand first (14 R338, 15 R363): sums round by RNE or wrap, MAX and
MIN follow R240, integers compare signed. -/
def combineBits (op : RedOp) (f : Fmt) (a b : Nat) : Nat :=
  if fmtInt f then
    let x := signedOf (fmtBits f) a
    let y := signedOf (fmtBits f) b
    match op with
    | .sum => (a + b) % 2 ^ fmtBits f
    | .max => if x < y then b else a
    | .min => if y < x then b else a
  else
    let x := decodeEx f a
    let y := decodeEx f b
    match op with
    | .sum => (roundFloat f false .rne 0 (exAdd .rne x y).1).1
    | .max => if x.isNan && y.isNan then fmtNan f else if (minmaxFirst true x y).1 then a else b
    | .min => if x.isNan && y.isNan then fmtNan f else if (minmaxFirst false x y).1 then a else b

/-- Device and address of a global address (01 R53). -/
def globalDev (a : Word) : Nat := bitsOf a.toNat 44 13
def globalPa (a : Word) : Nat := bitsOf a.toNat 0 44

/-- Does a device number name this device (01 R53). -/
def State.isOwn (s : State) (dev : Nat) : Bool := dev == 0 || dev == s.devId

/-- The next access of an engine's transfers (15 R363): 4 bytes of a COPY, one element of a REDUCE, the answer of a
RECV. A SEND leaves by INJECT. -/
def State.engineMove (s : State) (e : Nat) : State :=
  let g := s.engine e
  match g.xfers with
  | [] => s
  | x :: _ =>
    let off : Word := BitVec.ofNat 64 x.pos
    match x.kind with
    | .send _ => s
    | .copy =>
      (match s.engineBytes g.part .read (x.a + off) 4 with
      | .error c => s.failXfer e c x
      | .ok pas =>
        if s.bankDelays pas then s
        else
          (s.engineUse e (x.a + off) pas).engineWrite e x (x.c + off) (s.engineRead e pas) { x with pos := x.pos + 4 })
    | .reduce op f b =>
      let n := fmtBits f / 8
      (match s.engineBytes g.part .read (x.a + off) n, s.engineBytes g.part .read (b + off) n with
      | .error c, _ => s.failXfer e c x
      | _, .error c => s.failXfer e c x
      | .ok pa, .ok pb =>
        if s.bankDelays (pa ++ pb) then s
        else
          let da := s.engineRead e pa
          let db := s.engineRead e pb
          let r := combineBits op f (leValue (da.map (·.1))) (leValue (db.map (·.1)))
          let bad := (da ++ db).any (·.2)
          ((s.engineUse e (x.a + off) pa).engineUse e (b + off) pb).engineWrite e x (x.c + off) ((leBytes n r).map (·, bad))
            { x with pos := x.pos + n })
    | .recv =>
      match x.buf with
      | some (d, m) =>
        s.engineWrite e x (x.c + off) (d.zipIdx.map fun y => (y.1, m.testBit (y.2 / 8)))
          { x with pos := x.pos + d.length, buf := none }
      | none =>
        if s.isOwn (globalDev x.a) then
          let pas := (List.range 4).map fun i => globalPa x.a + x.pos + i
          if pas.all (s.physOk g.part) then
            if s.bankDelays pas then s
            else
              (s.engineTouch e pas).engineWrite e x (x.c + off) (s.engineRead e pas) { x with pos := x.pos + 4 }
          else s.failXfer e 4 x
        else s

/-- A transfer stops, and its kernel is FAILED with the failing address (13 R300). -/
def State.failTransfer (s : State) (t : Transfer) (va : Word) : State :=
  let s1 := { s with transfers := s.transfers.filter fun (x : Transfer) => x.id != t.id }
  s1.setKernel t.token fun k => { k with state := .failed, failAt := va }

/-- The next four bytes of a stream transfer, read and written by a die agent of the target's die (13 R299, R300). -/
def State.transferMove (s : State) (t : Transfer) : State :=
  let off := t.pos % t.len
  match (if t.len = 0 then none else t.clusters[t.pos / t.len]?) with
  | none => s
  | some c =>
    let va := t.src + BitVec.ofNat 64 off
    match s.engineBytes t.part .read va 4 with
    | .error _ => s.failTransfer t va
    | .ok pas =>
      let pa := 0x10000000000 + c * 0x800000 + t.doff + off
      if !s.physOk t.part pa then s.failTransfer t (BitVec.ofNat 64 pa)
      else if s.bankDelays pas || s.writeDelays [pa] then s
      else
        let data := pas.map fun x => s.readByte t.part (s.dieView (c / 16) (pas.headD 0)) x
        let pois := pas.any fun x => s.poison.contains (x / 8)
        let s1 := (s.touchWalk t.part (va.toNat % 2 ^ 56)).touchPages pas true
        let s2 := s1.dieWrite (xferAgent t.id) (c / 16) true pois.toNat pa data
        { s2 with transfers := s2.transfers.map fun (x : Transfer) => if x.id = t.id then { x with pos := x.pos + 4 } else x }

/-- The next read of a binding of the selected hart (05 R137). -/
def State.bindMove (s : State) (slot : Nat) : State :=
  match s.h.binds.find? (·.slot == slot) with
  | some b => if b.open_ && s.prefetchOpen b && (s.needsRemote b b.preNext).isNone then s.prefetch b else s
  | none => s

/-- The SC accesses of an instruction's element take a ticket: one for the element, with its planes (05 R140, 06 R171). -/
def ticketElem (seq elem t : Nat) (l : List Access) : List Access :=
  l.map fun a => if a.seq = seq ∧ a.elem = elem ∧ a.sc then { a with ticket := some t } else a

/-- TICKET: an SC access at the head of its stream with its release conditions met draws the next ticket (05 R140). -/
def execTicket (n strm : Nat) (s : State) : Out :=
  match (s.hart n).head strm with
  | none => .next s
  | some a =>
    if 2048 ≤ n ∨ !a.sc ∨ a.ticket.isSome ∨ !s.guardsMet n (s.refreshed n a) then .next s
    else
      let h := s.hart n
      let sq := ticketElem a.seq a.elem s.tickets h.sq
      .next ({ s.setHart n { h with sq := sq } with tickets := s.tickets + 1 })

/-- DELIVER: a write reaches one more cluster (05 R133). -/
def execDeliver (wid cluster : Nat) (s : State) : Out :=
  .next (if cluster < 64 ∧ s.mayDeliver wid cluster then s.deliverTo wid cluster else s)

/-- COPY-COMPLETE: a copy is complete; its deliveries end with a later CDRAIN or LWAIT (06 R189, R195). -/
def execCopyComplete (n id : Nat) (s : State) : Out :=
  let h := s.hart n
  match h.copies.find? fun c => c.id == id with
  | none => .next s
  | some c =>
    if 2048 ≤ n ∨ !s.copyDone n c then .next s
    else
      let ended (d : Delivery) : Delivery := if d.src = .copy c.chan c.id then { d with done := true } else d
      .next (s.setHart n { h with
        copies := h.copies.filter fun x => x.id != id
        deliveries := h.deliveries.map ended })

/-- Does an earlier ring of an agent to a slot wait (15 R352). -/
def State.ringWaits (s : State) (agent dest slot seq : Nat) : Bool :=
  s.rings.any fun r => r.agent == agent && r.dest == dest && r.slot == slot && decide (r.seq < seq)

/-- The pages that n bytes at a virtual address of the selected hart are read from. -/
def State.sourcePages (s : State) (sup : Bool) (va : Word) (n : Nat) : List Nat :=
  match s.copyBytes sup .read va n with
  | .ok pas => (pas.map (· / 65536)).eraseDups
  | .error _ => []

/-- A remote write of a copy is injected (05 R152, 06 R192, 14 R326). -/
def State.injectCopy (s : State) (ch : Nat) : State :=
  match s.channelHead ch with
  | none => s
  | some c =>
    match c.dest, c.buf with
    | .remote dev slot, some (x, pois) =>
      if s.ringWaits s.hid dev slot c.seq || !s.egressOpen s.myPart c.bytes then s
      else if ((s.findSend dev slot).map (·.sent)).getD 0 + 1 = 2 ^ 23 then
        s.recordFault ch ⟨8, BitVec.ofNat 64 slot, 0⟩
      else
        let (va, d, _) := c.at_
        let p : Packet := { dst := dev, src := s.devId, kind := .write, slot := slot, addr := globalPa d
                            data := leBytes c.bytes x, poison := pois.toNat }
        match s.injectWrite s.myPart p (if c.zsrc then [] else s.sourcePages c.sup va c.bytes) (.hart s.hid) with
        | none => s
        | some s1 =>
          let s2 := s1.setCopy c.step
          if c.total ≤ c.pos + 1 then s2.copyRing s.hid c else s2
    | _, _ => s

/-- A remote read is sent (14 R318). -/
def State.sendRead (s : State) (agent strm dev pa n : Nat) : State :=
  let s1 := s.emit { dst := dev, src := s.devId, kind := .readReq, addr := pa, expect := n, seqn := s.nextRid }
  { s1 with
    rreads := s1.rreads ++ [{ id := s.nextRid, agent, strm, dev, pa, n, sentAt := s.ref, sends := 1 }]
    nextRid := s.nextRid + 1 }

/-- Is a remote read of an agent's stream outstanding. -/
def State.readOut (s : State) (agent strm : Nat) : Bool := s.rreads.any fun r => r.agent == agent && r.strm == strm

/-- The next read of a binding that lies on another device is sent (05 R137, R155). -/
def State.injectBind (s : State) (slot : Nat) : State :=
  match s.h.binds.find? (·.slot == slot) with
  | none => s
  | some b =>
    if !(b.open_ && s.prefetchOpen b) then s
    else
      match s.needsRemote b b.preNext with
      | none => s
      | some (scale, i) =>
        let (va, n) := b.readVa scale i
        match s.readTargets va n with
        | .error _ => s
        | .ok l =>
          match allRemote l with
          | none => s
          | some (dev, pa) =>
            let rt : ReadTo := .bind slot i scale (if scale then none else b.elemNib i)
            (s.enqueue [{ s.access (2 + slot) va (.readRemote rt dev pa n va) with seq := b.seq }]).sendRead s.hid (2 + slot) dev pa n

/-- Does an access contribute to a slot of another device. -/
def AccOp.contributes (o : AccOp) (dest slot : Nat) : Bool :=
  match o with
  | .contrib p _ => p.dst == dest && p.slot == slot
  | _ => false

/-- Has the instruction numbered seq elements still to issue. -/
def Hart.issuing (h : Hart) (seq : Nat) : Bool :=
  h.nextSeq == seq || h.sq.any fun a => a.seq == seq && match a.op with
    | .await .. => true
    | _ => false

/-- The head of a pipe stream leaves for another device: a remote read is sent, a contribution is injected; after the
last element of a reducing-window store its slot is rung silently (14 R337), which waits while the store has elements to issue; a contribution that would make SENT 2^23 is not sent, and
is cause 8 as an event (14 R326, log 73); a chunk of a strip is sent (15 R357). -/
def State.injectHead (s : State) (n strm : Nat) (a : Access) : State :=
  if !s.guardsMet n (s.refreshed n a) then s
  else
    match a.op with
    | .readRemote .. =>
      if s.readOut n strm then s
      else
        (match s.freshOp n a with
        | .error t =>
          let h := s.hart n
          ((s.setHart n { h with sq := dropHead strm h.sq }).accessFails n a t).dropFences n
        | .ok op =>
          let s1 := s.renewHead n strm a op
          match op with
          | .readRemote _ dev pa k _ => s1.sendRead n strm dev pa k
          | _ => s1)
    | .contrib p part =>
      if p.freg ≠ 0 then
        if p.dst = s.devId ∨ !s.egressOpen part p.data.length then s
        else
          let h := s.hart n
          let s1 := s.charge part p.data.length
          let up (x : SentStrip) : SentStrip := if x.hart = n ∧ x.f + 1 = p.freg ∧ x.seqn = p.seqn then { x with sentAt := s.ref } else x
          ((({ s1 with sentStrips := s1.sentStrips.map up }).setHart n { h with sq := dropHead strm h.sq }).dropFences n).emit p
      else if p.dst = s.devId ∨ s.ringWaits n p.dst p.slot a.seq ∨ !s.egressOpen part p.data.length then s
      else if ((s.findSend p.dst p.slot).map (·.sent)).getD 0 + 1 = 2 ^ 23 then
        let h := s.hart n
        ((s.setHart n { h with sq := dropHead strm h.sq }).pushEvent n 8 (BitVec.ofNat 64 p.slot)).dropFences n
      else
        (match s.injectWrite part p [] (.hart n) with
        | none => s
        | some s1 =>
          let h := s1.hart n
          let sq := dropHead strm h.sq
          let s2 := (s1.setHart n { h with sq := sq }).dropFences n
          let ring : PendRing := { maker := .hart n, agent := n, seq := a.seq, dest := p.dst, slot := p.slot, faddr := 0, fval := 0, part := part }
          if (sq.any fun b => b.seq == a.seq && b.op.contributes p.dst p.slot) || s2.rings.contains ring then s2
          else if (s2.hart n).issuing a.seq then { s2 with rings := s2.rings ++ [ring] }
          else (s2.injectRing part p.dst p.slot 0 0 (.hart n)).getD { s2 with rings := s2.rings ++ [ring] })
    | _ => s

/-- Has a hart's context a write to a slot of an instruction before seq still to inject. -/
def Hart.owesSlot (h : Hart) (dest slot seq : Nat) : Bool :=
  (h.copies.any fun c => c.dest == .remote dest slot && decide (c.seq < seq) && decide (c.pos < c.total)) ||
    h.sq.any fun a => decide (a.seq < seq) && a.op.contributes dest slot

/-- The context of an agent that is a hart, or an instance saved from one (15 R352, 18 R405). -/
def State.agentCtx (s : State) (agent : Nat) : Option Hart :=
  if agent < 2048 then some (s.hart agent)
  else s.kernels.findSome? fun k => (k.resumable.find? fun x => savedAgent x.part x.poolEntry == agent).map (·.ctx)

/-- Has every write to a slot that an agent made before a ring been injected (05 R153, 15 R352). -/
def State.writesOut (s : State) (agent dest slot seq : Nat) : Bool :=
  match s.agentCtx agent with
  | some h => !h.owesSlot dest slot seq
  | none => true

/-- Has the reducing-window store that makes a ring elements still to issue or to inject (14 R337). -/
def State.storing (s : State) (r : PendRing) : Bool :=
  match s.agentCtx r.agent with
  | some h => h.issuing r.seq || h.sq.any fun a => a.seq == r.seq && a.op.contributes r.dest r.slot
  | none => false

/-- A pending ring is injected when its agent's earlier writes and rings to the slot have been (05 R153, 15 R352). -/
def State.injectPending (s : State) (i : Nat) : State :=
  match s.rings[i]? with
  | none => s
  | some r =>
    if !s.writesOut r.agent r.dest r.slot r.seq || s.ringWaits r.agent r.dest r.slot r.seq || s.storing r then s
    else
      match s.injectRing r.part r.dest r.slot r.faddr r.fval r.maker with
      | none => s
      | some s1 => { s1 with rings := dropAt s1.rings i }

/-- The next packet of an engine's transfer (15 R363, R364): up to 512 bytes of a SEND, with the silent ring at 2^22
packets (14 R326), or the request of a RECV. -/
def State.injectEngine (s : State) (e : Nat) : State :=
  let g := s.engine e
  match g.xfers with
  | [] => s
  | x :: _ =>
    let n := min 512 (x.len - x.pos)
    match x.kind with
    | .send slot =>
      if !s.egressOpen g.part n then s
      else
        (match s.engineBytes g.part .read (x.a + BitVec.ofNat 64 x.pos) n with
        | .error c => s.failXfer e c x
        | .ok pas =>
          if s.bankDelays pas then s
          else
            let data := pas.map fun pa => s.readByte (s.engine e).part (s.dieView (engineDie e) (pa / 8 * 8)) pa
            let words := (pas.zipIdx.filter fun y => s.poison.contains (y.1 / 8)).map (·.2 / 8)
            let p : Packet := {
              dst := globalDev x.c, src := s.devId, kind := .write, slot := slot, addr := globalPa x.c + x.pos, data := data
              poison := words.eraseDups.foldl (fun a w => a + 2 ^ w) 0 }
            match (s.engineUse e (x.a + BitVec.ofNat 64 x.pos) pas).injectWrite g.part p ((pas.map (· / 65536)).eraseDups) (.engine g.starter) with
            | none => s
            | some s1 =>
              let s2 := s1.stepXfer e { x with pos := x.pos + n }
              if 2 ^ 22 ≤ ((s2.findSend p.dst slot).map (·.sent)).getD 0 then
                (s2.injectRing g.part p.dst slot 0 0 (.engine g.starter)).getD s2
              else s2)
    | .recv =>
      let dev := globalDev x.a
      if s.isOwn dev || x.buf.isSome || s.readOut (engineAgent e) 0 then s
      else s.sendRead (engineAgent e) 0 dev (globalPa x.a + x.pos) n
    | _ => s

/-- The next packet of the fabric unit's own for a device: a packet of a combined chunk, or the silent ring after one (14 R338,
17 R384). -/
def State.injectUnit (s : State) (dest : Nat) : State :=
  match findPos (fun (x : Nat × Packet) => x.2.dst == dest) s.unitOut with
  | none => s
  | some i =>
    match s.unitOut[i]? with
    | none => s
    | some (part, p) =>
      let gone (t : State) : State := { t with unitOut := dropAt t.unitOut i }
      if p.kind = .ring then ((s.injectRing part dest p.slot 0 0 .unit).map gone).getD s
      else if s.egressOpen part p.data.length then ((s.injectWrite part p [] .unit).map gone).getD s
      else s

/-- INJECT (05 R152, R153); the fabric unit's packets for device d go as those of agent 8192 + d. -/
def execInject (src : InjSrc) (s : State) : Out :=
  match src with
  | .stream n strm =>
    if 8192 ≤ n then .next (s.injectUnit (n - 8192))
    else if 2048 ≤ n then .next s
    else if 16 ≤ strm then .next (if strm < 32 then ((s.select n).injectCopy (strm - 16)).select s.hid else s)
    else
      match (s.hart n).head strm with
      | some a => .next (s.injectHead n strm a)
      | none => .next (if 2 ≤ strm ∧ strm < 10 then ((s.select n).injectBind (strm - 2)).select s.hid else s)
  | .ring i => .next (s.injectPending i)
  | .engine e => .next (if e < 16 then s.injectEngine e else s)

/-- REMOTE-READ: a read of another device is served with the last writes at device level, and answered (05 R155,
14 R318). -/
def execRemoteRead (p : Packet) (s : State) : Out :=
  if p.kind ≠ .readReq then .next s
  else if p.dst = s.devId ∧ 0 < p.expect ∧ p.expect ≤ 512 ∧ (List.range 8).any fun q => s.reaches q p.addr p.expect then
    if s.bankDelays ((List.range p.expect).map (p.addr + ·)) then .next s
    else
    let words := (List.range ((p.expect + 7) / 8)).filter fun w => s.poison.contains (p.addr / 8 + w)
    .next ((s.touchPages [p.addr, p.addr + (p.expect - 1)] false).emit {
      dst := p.src, src := s.devId, kind := .readResp, addr := p.addr, data := bytesFrom s.devByte p.addr p.expect
      seqn := p.seqn, poison := words.foldl (fun a w => a + 2 ^ w) 0 })
  else .next (s.discard 0)

/-- A remote read of a hart ends: its access leaves the queue with its data, or with a failure the waiting instruction
reports (14 R318, 18 R406). -/
def State.endRead (s : State) (n strm : Nat) (data : List Byte) (bad : Option (Nat × Word)) : State :=
  let h := s.hart n
  match h.head strm with
  | some a => (match a.op with
    | .readRemote rt _ _ _ va =>
      let h1 := { h with sq := dropHead strm h.sq }
      (match bad with
      | none => s.setHart n (h1.deliverRead rt data)
      | some (c, v) => (s.setHart n h1).readFails n a rt c (if c = 8 then va else v)).dropFences n
    | _ => s)
  | none => s

/-- READ-RESPONSE: the read that a response answers completes (14 R318). -/
def execReadResponse (p : Packet) (s : State) : Out :=
  if p.kind = .readResp ∧ p.dst ≠ s.devId then .next (s.discard 0)
  else
  match s.rreads.find? fun r => r.id == p.seqn && r.dev == p.src with
  | none => .next s
  | some r =>
    if p.kind ≠ .readResp ∨ p.dst ≠ s.devId ∨ p.data.length ≠ r.n then .next s
    else
      let s1 := { s with rreads := s.rreads.filter fun (x : RemoteRd) => x.id != r.id }
      if r.agent < 2048 then
        .next (s1.endRead r.agent r.strm p.data (if p.poison = 0 then none else some (19, BitVec.ofNat 64 r.pa)))
      else
        let e := r.agent - 2048
        let g := s1.engine e
        match g.xfers with
        | x :: l => .next (s1.setEngine e { g with xfers := { x with buf := some (p.data, p.poison) } :: l })
        | [] => .next s1

/-- REMOTE-READ-RESEND: after T_short without a response the read is sent again; after three sends it fails (14 R318,
15 R366). -/
def execRemoteReadResend (i : Nat) (s : State) : Out :=
  match s.rreads[i]? with
  | none => .next s
  | some r =>
    let part := if r.agent < 2048 then s.hartPart r.agent else (s.engine (r.agent - 2048)).part
    if s.ref - r.sentAt < s.tShort part then .next s
    else if r.sends < 3 then
      let s1 := s.emit { dst := r.dev, src := s.devId, kind := .readReq, addr := r.pa, expect := r.n, seqn := r.id }
      .next { s1 with rreads := modAt (fun (x : RemoteRd) => { x with sends := x.sends + 1, sentAt := s.ref }) s1.rreads i }
    else
      let s1 := { s with rreads := dropAt s.rreads i }
      if r.agent < 2048 then .next (s1.endRead r.agent r.strm [] (some (8, 0)))
      else
        let e := r.agent - 2048
        match (s1.engine e).xfers with
        | x :: _ => .next (s1.failXfer e 9 x)
        | [] => .next s1

/-- LAND: a packet of the current generation performs as a die-agent write at the home die of its address (05 R152,
14 R323); its address is checked as it performs (17 R383). A contribution is staged by its own move. -/
def State.landWrite (s : State) (i : Nat) (q : InPacket) : State :=
  let p := q.p
  let x := s.slot p.slot
  let gone := { s with inbox := dropAt s.inbox i }
  if x.state = 0 then gone.storeEarly (slotDie p.slot) q.at_ p
  else if p.gen ≠ x.gen ∨ phaseDist p x = 3 then gone
  else if phaseDist p x = 2 then gone.storeEarly (slotDie p.slot) q.at_ p
  else if s.writeDelays ((List.range p.data.length).map (p.addr + ·)) then s
  else if !s.reaches ((s.partOfHandle p.slot).getD 8) p.addr p.data.length then gone.discard (slotDie p.slot)
  else
    let s1 := s.dieWrite (fabricAgent (homeDie p.addr)) (homeDie p.addr) false p.poison p.addr p.data
    { s1 with inbox := modAt (fun (y : InPacket) => { y with wids := some (if s1.nextWid = s.nextWid then [] else [s1.nextWid - 1]) }) s1.inbox i }

end Sys2Proof.Machine
end

