-- ==== Sys2Proof/Machine/Fetch.lean ====
section
/-! DEFINITION. Sys2Proof/Machine/Fetch.lean: fetching the parcels of an instruction (03 R70, R72). -/

namespace Sys2Proof.Machine

/-- n parcels from an address on, or the fault of the first that cannot be fetched. -/
def State.fetchParcels (s : State) (va : Word) : Nat → Except Trp (List (BitVec 32))
  | 0 => .ok []
  | n + 1 =>
    match s.fetchParcel va with
    | .error t => .error t
    | .ok p =>
      match s.fetchParcels (va + 4) n with
      | .error t => .error t
      | .ok l => .ok (p :: l)

/-- The bytes of an instruction at an address: one parcel, or two when bits [1:0] are 11 (03 R70). -/
def State.fetchBytes (s : State) (va : Word) : Except Trp (List Byte) :=
  match s.fetchParcel va with
  | .error t => .error t
  | .ok p =>
    if p.toNat % 4 = 3 then
      match s.fetchParcel (va + 4) with
      | .error t => .error t
      | .ok q => .ok (leBytes 4 p.toNat ++ leBytes 4 q.toNat)
    else .ok (leBytes 4 p.toNat)

/-- Does a waking bank delay the fetch of the parcel at an address (01 R54). -/
def State.parcelDelayed (s : State) (va : Word) : Bool :=
  match s.accessBytes s.hid s.h.sup .fetch va 4 with
  | .error _ => false
  | .ok l => match allLocal l with
    | some pas => s.bankDelays pas
    | none => false

/-- Does one delay the fetch of a parcel of the instruction or the convoy at an address. -/
def State.fetchDelayed (s : State) (va : Word) : Bool :=
  !s.waking.isEmpty && (s.parcelDelayed va ||
    match s.fetchParcel va with
    | .error _ => false
    | .ok p =>
      let n := if p.toNat % 128 = 0x19 then 2 * (bitsOf p.toNat 7 3 + 2) else if p.toNat % 4 = 3 then 1 else 0
      (List.range n).any fun i => s.parcelDelayed (va + BitVec.ofNat 64 (4 * i + 4)))

/-- The fault of fetching the instruction or the convoy at an address, with whether it is a convoy's: the header's parcel, then those
of the members its count announces (03 R72, R87, R89). -/
def State.fetchFault (s : State) (va : Word) : Option (Bool × Trp) :=
  match s.fetchBytes va with
  | .error t => some (false, t)
  | .ok bs =>
    let w := leValue bs
    let count := bitsOf w 7 3
    if w % 128 = 0x19 ∧ count ≤ 4 then
      match s.fetchParcels (va + 4) (2 * (count + 2)) with
      | .error t => some (true, t)
      | .ok _ => none
    else none

end Sys2Proof.Machine
end

