-- ==== Sys2Proof/Machine/Sys.lean ====
section
/-! DEFINITION. Sys2Proof/Machine/Sys.lean: entering and leaving the supervisor, EXIT and YIELD (15 R344, R345, 04 R125), LAUNCH, KSEND, KWAIT and KSTAT (15 R346, 13 R296 to R305), and the moves of a hart's own: the end of a WAITV, events, fetch faults (06 R164, 18 R399, 03 R72, R87). -/

namespace Sys2Proof.Machine

/-- ECALL: cause 13 from a program, 14 from the supervisor (15 R344). -/
def execEcall (s : State) : Out := .next (s.trap ⟨if s.h.sup then 14 else 13, 0, 0⟩)

/-- EBREAK: cause 15 (15 R344). -/
def execEbreak (s : State) : Out := .next (s.trap ⟨15, 0, 0⟩)

/-- TRET: privileged; a TPC off a parcel boundary is cause 4 (15 R344, 03 R72, R80). -/
def execTret (s : State) : Out :=
  privStep s .tret
    (if s.h.tpc.toNat % 4 ≠ 0 then .next (s.trap ⟨4, s.h.tpc, 0⟩) else .next s.trapReturn)

/-- The first recorded fault of a channel that no trap has taken. -/
def Hart.anyFault (h : Hart) : Option (Nat × ChanFault) :=
  (List.range 16).findSome? fun c => (h.chanFault c).map (c, ·)

/-- Have a hart's copies all completed, and its leasing deliveries (04 R125). -/
def State.copiesDone (s : State) (n : Nat) : Bool :=
  ((s.hart n).copies.all fun c => s.copyDone n c) && (s.hart n).deliveries.all (·.done)

/-- Have older instructions of the selected hart that have no access left to perform completed: its fences, the posted receives,
the bindings' reads (05 R137, R143, 15 R357). -/
def State.olderDone (s : State) : Bool :=
  (s.h.fences.all fun f => s.fenceDone s.hid f) && s.h.pipesDone s.h.nextSeq && s.h.lates.isEmpty

/-- Have the older instructions of the selected hart completed but for deliveries into registers they have leased, and what waits for
those (15 R345, 18 R405). -/
def State.olderButLeases (s : State) : Bool :=
  s.h.lates.isEmpty && (s.h.binds.all fun b => !b.open_) &&
    ((s.h.fences.all fun f => s.fenceDone s.hid f) || !s.h.postsDone s.h.nextSeq)

/-- EXIT: reports a channel's fault, waits for older instructions, copies and leases, and ends the instance (04 R125, 06 R186, R193). The
wait for a lease, of a receive too, is a blocking point (13 R313). -/
def execExit (s : State) : Out :=
  match s.h.anyFault with
  | some (c, f) => .next (s.chanTrap c 0 f)
  | none =>
    if !s.h.sq.isEmpty then .next (s.stallOn fun _ => true)
    else if !s.olderDone then .next (if s.olderButLeases && !s.h.postsDone s.h.nextSeq then s.block else s.pause)
    else if !s.copiesDone s.hid then .next s.block
    else .next ((s.retire 4).finishInstance s.hid)

/-- YIELD: once older instructions are complete, deliveries into leased registers apart, which the save itself waits for, the hart stops to be saved when something of at least its kernel's priority waits for
its capacity and a pool entry is free (15 R345, 18 R404, R405). A yield restarts the blocked time. -/
def execYield (s : State) : Out :=
  if !s.h.sq.isEmpty then .next (s.stallOn fun _ => true)
  else if !s.olderButLeases then .next s.pause
  else
    let s1 := s.retire 4
    match s.kernelOf s.hid with
    | some k => .next (if s.poolRoom s.myPart 1 && (s1.yieldsTo s.hid k).isSome then s1.leave s.hid true else s1)
    | none => .next s1

/-- The release of device scope and the wait for copies of LAUNCH, KSEND and DGSTART (13 R301, 15 R361). -/
def State.launchReady (s : State) : Bool :=
  s.releaseMet s.hid s.h.nextSeq .dev && s.h.copies.all fun c => s.copyDone s.hid c

/-- The wait of LAUNCH, KSEND and DGSTART: for accesses as any instruction that needs them, for copies as a CDRAIN, at a blocking
point (13 R294, R301, R313, log 86). -/
def State.launchWait (s : State) : State :=
  if !s.h.sq.isEmpty then s.stallOn fun _ => true
  else if s.releaseMet s.hid s.h.nextSeq .dev then s.block
  else s.pause

/-- A record's doublewords as a die agent of the hart's die reads them in its partition (13 R297, R299), or the trap: a
failed translation with its own cause, memory of another device and an access violation as cause 8; TVAL is the
record's address. A poisoned word is cause 19 with its own (18 R406). -/
def State.dieWords (s : State) (va : Word) (i : Nat) : Nat → Except Trp (List Nat)
  | 0 => .ok []
  | n + 1 =>
    match s.translate (some (hartCore s.hid)) s.myPart s.h.sup .read (va + BitVec.ofNat 64 (8 * i)) with
    | .error t => .error ⟨t.cause, va, 0⟩
    | .ok (.remote _ _) => .error ⟨8, va, 0⟩
    | .ok (.loc pa) =>
      match s.checkLocal s.hid s.h.sup va pa with
      | some t => .error ⟨t.cause, va, 0⟩
      | none =>
        match s.poisonWord [pa] with
        | some w => .error ⟨19, BitVec.ofNat 64 (8 * w), 0⟩
        | none =>
        match s.dieWords va (i + 1) n with
        | .error t => .error t
        | .ok l => .ok (leValue (bytesFrom (s.readByte s.myPart (s.dieView s.myDie pa)) pa 8) :: l)

/-- Does a waking bank delay the reading of a record of n doublewords (01 R54). -/
def State.dieDelayed (s : State) (va : Word) (n : Nat) : Bool :=
  (List.range n).any fun i =>
    match s.translate (some (hartCore s.hid)) s.myPart s.h.sup .read (va + BitVec.ofNat 64 (8 * i)) with
    | .ok (.loc pa) => s.bankDelays [pa]
    | _ => false

/-- A field of a record of doublewords. -/
def recBits (l : List Nat) (lo n : Nat) : Nat :=
  bitsOf (l.zipIdx.foldl (fun a x => a + x.1 * 2 ^ (64 * x.2)) 0) lo n

/-- Levels of a kernel record: kind and extent, outermost first (13 R296). -/
def recLevels (l : List Nat) : List (Nat × Nat) :=
  (List.range (recBits l 69 3)).map fun n => (recBits l (288 + 64 * n) 2, recBits l (256 + 64 * n) 32)

/-- Product of the C and D extents. -/
def instanceCount (l : List (Nat × Nat)) : Nat := (l.map fun x => if x.1 = 0 then 1 else x.2).foldl (· * ·) 1

/-- Why a kernel record is refused (13 R297). -/
def recBad (l : List Nat) : Bool :=
  let nlev := recBits l 69 3
  let entry := BitVec.ofNat 64 (recBits l 0 64)
  let xcnt := recBits l 72 8
  let xlist := recBits l 128 64
  recBits l 88 8 != 0 || recBits l 112 16 != 0 || recBits l 192 64 != 0 || recBits l 640 384 != 0 ||
    nlev = 0 || nlev = 7 || ((recLevels l).any fun x => x.1 == 3) ||
    ((List.range 6).any fun n => if n < nlev then recBits l (290 + 64 * n) 30 != 0 else recBits l (256 + 64 * n) 64 != 0) ||
    !canonical entry || entry.toNat % 4 != 0 || (if xcnt = 0 then xlist != 0 else xlist % 32 != 0) ||
    decide (2 ^ 32 < instanceCount (recLevels l))

/-- A transfer descriptor broken in layout; inList: one of a record's list (13 R299). -/
def descriptorBad (l : List Nat) (inList : Bool) : Bool :=
  recBits l 0 64 % 4 != 0 || recBits l 64 23 % 4 != 0 || recBits l 87 41 != 0 || recBits l 128 32 % 4 != 0 ||
    decide (0x800000 < recBits l 64 23 + recBits l 128 32) || recBits l 176 16 != 0 ||
    (inList && recBits l 192 64 != 0)

/-- Target clusters of a transfer: TMASK, or the kernel's CMASK, or every cluster of the partition, on the dies where
the kernel has instances (13 R299). -/
def State.targets (s : State) (part tmask cmask : Nat) (dies : List Nat) : List Nat :=
  let m := if tmask ≠ 0 then tmask else if cmask ≠ 0 then cmask else 65535
  dies.flatMap fun d =>
    ((List.range 16).filter fun c => m.testBit c && (s.part part).clus.getLsbD (16 * d + c)).map (16 * d + ·)

/-- A transfer with no byte to write is resident at once (13 R300). -/
def Transfer.atOnce (t : Transfer) : Bool := t.len == 0 || t.clusters.isEmpty

/-- A transfer that starts (13 R299, R300), and one fewer is missing where it is resident at once. -/
def State.startTransfer (s : State) (token : Word) (l : List Nat) (cmask : Nat) (dies : List Nat) (ent : Option Nat) : State :=
  let t : Transfer := {
    id := s.nextXfer, die := s.myDie, part := s.myPart, token := token, src := BitVec.ofNat 64 (recBits l 0 64)
    doff := recBits l 64 23, len := recBits l 128 32, viaKsend := ent
    clusters := s.targets s.myPart (recBits l 160 16) cmask dies }
  let s1 := { s with nextXfer := s.nextXfer + 1 }
  if t.atOnce then s1.setKernel token fun k => ({ k with notResident := k.notResident - 1 }).ready s.now
  else { s1 with transfers := s1.transfers ++ [t] }

/-- Has a kernel freed its entries: it is complete, or its failure has been observed (13 R302). -/
def Kernel.gone (k : Kernel) : Bool := k.state == .complete || (k.state == .failed && k.seen)

/-- Scoreboard entries in use on a die, and the lowest free one (13 R302, R304): which free entry a kernel or a transfer takes, and that a
transfer sent by KSEND takes one on the die of the hart that sends it, the spec leaves open (log 100). -/
def State.entryUsed (s : State) (d e : Nat) : Bool :=
  (s.kernels.any fun k => !k.gone && k.ents.contains (d, e)) || s.transfers.any fun t => t.die == d && t.viaKsend == some e

def State.freeEntry (s : State) (d : Nat) : Option Nat := (List.range 256).find? fun e => !s.entryUsed d e

/-- The descriptors of a record's transfer list, read and checked (13 R299). -/
def State.listWords (s : State) (xlist : Word) : Nat → Except Trp (List (List Nat))
  | 0 => .ok []
  | n + 1 =>
    match s.listWords xlist n with
    | .error t => .error t
    | .ok l =>
      let va := xlist + BitVec.ofNat 64 (32 * n)
      match s.dieWords va 0 4 with
      | .error t => .error t
      | .ok w => if descriptorBad w true then .error ⟨8, va, 0⟩ else .ok (l ++ [w])

/-- Dies a kernel launched on a die spreads its instances over, and those that have one (13 R303). -/
def State.spreadDies (s : State) (die : Nat) (levels : List (Nat × Nat)) : List Nat × List Nat :=
  let ds := levels.filter (·.1 == 2)
  let total := instanceCount levels
  if ds.isEmpty then ([die], if total = 0 then [] else [die])
  else
    let p := (List.range 4).filter fun d => ((s.part s.myPart).clus &&& dieClusters d) != 0
    (p, if total = 0 then [] else p.take (instanceCount ds))

/-- Dies on which a kernel has instances (13 R303). -/
def Kernel.liveDies (k : Kernel) : List Nat :=
  if k.total = 0 then [] else k.dies.take (instanceCount (k.levels.filter (·.1 == 2)))

/-- LAUNCH of a record that has been read and checked (13 R297, R300 to R304, R314). One that comes in the cycle of a LAUNCH by a
higher hart comes after it, so that it waits a cycle: in one cycle the order is that of the harts (R304). -/
def launchWith (s : State) (d : SReg) (va : Word) (l : List Nat) (xs : List (List Nat)) : Out :=
  let levels := recLevels l
  let (spread, mine) := s.spreadDies s.myDie levels
  let needs := (List.range 4).filter fun x => mine.contains x || x == s.myDie
  let ents := needs.map fun x => (x, s.freeEntry x)
  let c := s.ctl s.myDie
  if ents.any (·.2.isNone) then .next s.block
  else if c.launched.any fun x => x.1 == s.now && decide (s.hid < x.2) then .next s.pause
  else
    let entry := (s.freeEntry s.myDie).getD 0
    let seqn := c.nextSeqn % 2 ^ 40
    let token := BitVec.ofNat 64 (entry + 256 * s.myDie + 1024 * seqn)
    let k : Kernel := {
      token := token, die := s.myDie, seqn := seqn, part := s.myPart, record := va, entry := BitVec.ofNat 64 (recBits l 0 64)
      prio := recBits l 64 2, memlight := recBits l 66 1 == 1, compactable := recBits l 67 1 == 1
      lanes16 := recBits l 68 1 == 1, cmask := recBits l 96 16, levels := levels, total := instanceCount levels
      dies := spread, ents := ents.map fun x => (x.1, x.2.getD 0), toCome := recBits l 80 8, notResident := xs.length
      state := .waiting, win := (bitsOf s.h.twin.toNat 0 32) }
    let s1 := s.setCtl s.myDie { c with nextSeqn := (c.nextSeqn + 1) % 2 ^ 40, launched := some (s.now, s.hid) }
    let stale (x : Kernel) : Bool := x.gone && k.ents.contains (x.die, x.token.toNat % 256)
    let s2 := { s1 with kernels := (s1.kernels.filter (!stale ·)) ++ [k.ready s.now] }
    let s3 := xs.foldl (fun (t : State) w => t.startTransfer token w k.cmask mine none) s2
    .next ((s3.ws d token).retire 4)

/-- LAUNCH (15 R346, 13 R297, R301). -/
def execLaunch (d a : SReg) (s : State) : Out :=
  if !s.ready [d, a] then .next (s.stall [d, a])
  else if !s.launchReady then .next s.launchWait
  else
    let va := s.rs a
    if va.toNat % 64 ≠ 0 then .next (s.trap ⟨8, va, 0⟩)
    else if s.dieDelayed va 16 then .next s.pause
    else
      match s.dieWords va 0 16 with
      | .error t => .next (s.memTrap t)
      | .ok l =>
        if recBad l then .next (s.trap ⟨8, va, 0⟩)
        else if s.dieDelayed (BitVec.ofNat 64 (recBits l 128 64)) (4 * recBits l 72 8) then .next s.pause
        else
          match s.listWords (BitVec.ofNat 64 (recBits l 128 64)) (recBits l 72 8) with
          | .error t => .next (s.memTrap t)
          | .ok xs => launchWith s d va l xs

/-- A token whose bits [63:50] are not zero is cause 8 (15 R346). -/
def tokenBad (t : Word) : Bool := t.toNat / 2 ^ 50 != 0

/-- KSEND (15 R346, 13 R299, R300, R302, R305). -/
def execKsend (a : SReg) (s : State) : Out :=
  if !s.ready [a] then .next (s.stall [a])
  else if !s.launchReady then .next s.launchWait
  else
    let va := s.rs a
    if va.toNat % 32 ≠ 0 then .next (s.trap ⟨8, va, 0⟩)
    else if s.dieDelayed va 4 then .next s.pause
    else
      match s.dieWords va 0 4 with
      | .error t => .next (s.memTrap t)
      | .ok l =>
        let token := BitVec.ofNat 64 (recBits l 192 64)
        if descriptorBad l false then .next (s.trap ⟨8, va, 0⟩)
        else if tokenBad token then .next (s.trap ⟨8, token, 0⟩)
        else
          match s.kernel? s.myPart token with
          | none => .next (s.trap ⟨8, token, 0⟩)
          | some k =>
            if k.state = .failed then .next (s.retire 4)
            else if k.toCome = 0 then .next (s.trap ⟨8, token, 0⟩)
            else
              match s.freeEntry s.myDie with
              | none => .next s.block
              | some e =>
                let s1 := s.setKernel token fun k => { k with toCome := k.toCome - 1, notResident := k.notResident + 1 }
                .next ((s1.startTransfer token l k.cmask k.liveDies (some e)).retire 4)

/-- A FAILED kernel that KWAIT or KSTAT has observed frees its entries (13 R302); its token stays its own until one of them holds another
number (13 R304). -/
def State.observe (s : State) (k : Kernel) : State :=
  if k.state = .failed then s.setKernel k.token fun k => { k with seen := true } else s

/-- KWAIT: completes on COMPLETE or FAILED, or on a stale token; every write of a complete kernel is at device level, so
its acquire waits for nothing more (15 R346, 13 R305). -/
def execKwait (a : SReg) (s : State) : Out :=
  if !s.ready [a] then .next (s.stall [a])
  else
    let token := s.rs a
    if tokenBad token then .next (s.trap ⟨8, token, 0⟩)
    else
      match s.kernel? s.myPart token with
      | none => .next ((s.addFence (.acquire .dev)).retire 4)
      | some k =>
        if k.state = .failed ∨ k.state = .complete then .next (((s.observe k).addFence (.acquire .dev)).retire 4)
        else .next s.block

/-- Codes of the kernel states (13 R305). -/
def kstateCode : KState → Nat
  | .complete => 0 | .waiting => 1 | .issuable => 2 | .running => 3 | .failed => 4

/-- The status word of a kernel (13 R305). -/
def State.statusWord (s : State) (k : Kernel) : Word :=
  BitVec.ofNat 64 (kstateCode k.state + 256 * (k.done % 2 ^ 32) + 2 ^ 40 * s.effPrio k)

/-- KSTAT (15 R346). -/
def execKstat (d a : SReg) (s : State) : Out :=
  if !s.ready [d, a] then .next (s.stall [d, a])
  else
    let token := s.rs a
    if tokenBad token then .next (s.trap ⟨8, token, 0⟩)
    else
      match s.kernel? s.myPart token with
      | none => .next ((s.ws d 0).retire 4)
      | some k => .next (((s.observe k).ws d (s.statusWord k)).retire 4)

/-- The instruction a hart stands at. -/
def State.atInstr (s : State) : Option Instr :=
  match s.fetchBytes s.h.pc with
  | .error _ => none
  | .ok b => match decodeBytes b with
    | .ok (i, _) => some i
    | .error _ => none

/-- WAITV-TIMEOUT of a hart: the timeout has passed, the word has been read and the condition did not hold: sd := 0
(06 R164). -/
def execWaitvTimeout (n : Nat) (s : State) : Out :=
  if 2048 ≤ n then .next s
  else
    let s1 := s.select n
    match s1.atInstr, s1.h.got.find? (·.1 == 0), s1.h.waitAt with
    | some (.waitv c d _ b), some (_, v), some t =>
      if s1.h.run == .running && !condHolds c v (s1.rs b) && decide (waitLimit (s1.rs d) ≤ s1.now - t) then
        .next (((s1.ws d 0).retire 4).select s.hid)
      else .next s
    | _, _, _ => .next s

/-- EVENT-TAKEN: a hart takes its oldest event, or a pending interrupt (18 R399). -/
def execEventTaken (n : Nat) (s : State) : Out :=
  if 2048 ≤ n then .next s
  else
    let s1 := s.select n
    .next (if s1.eventReady then (s1.takeEvent).select s.hid else s)

/-- INTERRUPT: a source is raised for a partition (18 R399). -/
def execInterrupt (part src : Nat) (s : State) : Out :=
  .next (if part < 8 ∧ src < 3 then s.raiseSource part src else s)

/-- INTSRC written by a partition's supervisor (18 R399). -/
def execIntsrc (part : Nat) (v : Word) (s : State) : Out := .next (if part < 8 then s.writeIntsrc part v else s)

/-- A write of a hart's block of the window (17 R392). -/
def execContextWrite (who : Writer) (n off : Nat) (v : Word) (s : State) : Out :=
  .next (if off % 8 = 0 then s.writeContext who n off v else s)

/-- The encoding of a pattern that is no instruction, at the selected hart's pc (03 R87, R88). -/
def State.illegalAt (s : State) : Option Word :=
  match s.fetchFault s.h.pc, s.fetchBytes s.h.pc with
  | some _, _ => none
  | none, .error _ => none
  | none, .ok b => match decodeBytes b with
    | .ok _ => none
    | .error _ => some (BitVec.ofNat 64 (leValue b))

/-- ILLEGAL-INSTRUCTION: a fetched pattern that is no instruction raises cause 1 with its bits (03 R71, R87, R88). -/
def execIllegalInstruction (bits : Word) (s : State) : Out :=
  .next (if s.illegalAt = some bits then s.trapWith (bits.toNat % 128 == 0x19) none ⟨1, bits, 0⟩ else s)

/-- FETCH-FAULT: a parcel that cannot be fetched raises cause 5 at its instruction, with the parcel's address (03 R72). -/
def execFetchFault (tpc tval : Word) (s : State) : Out :=
  .next (if s.h.pc = tpc then
      match s.fetchFault tpc with
      | some (conv, t) => if t = ⟨5, tval, 0⟩ then s.trapWith conv none t else s
      | none => s
    else s)

end Sys2Proof.Machine
end

