-- ==== Sys2Proof/Machine/Bell.lean ====
section
/-! DEFINITION. Sys2Proof/Machine/Bell.lean: bells as a hart uses them (15 R350 to R354), the privileged group (15 R347 to R349) and the control of the Dungen engines (15 R359 to R362). -/

namespace Sys2Proof.Machine

/-- Is a value no handle of a slot a partition may use (14 R319). -/
def State.handleBad (s : State) (part : Nat) (h : Word) : Bool :=
  decide (2 ^ 14 ≤ h.toNat) || decide (h.toNat < (s.part part).belllo) || decide ((s.part part).bellhi < h.toNat)

/-- Does a value break the layout of BELLA's operand (15 R350). -/
def allocBad (x : Word) : Bool := bitsOf x.toNat 13 3 != 0 || bitsOf x.toNat 32 32 != 0

/-- BELLA (15 R351). -/
def execBella (d a : SReg) (s : State) : Out :=
  if !s.ready [d, a] then .next (s.stall [d, a])
  else
    let x := s.rs a
    if allocBad x then .next (s.trap ⟨8, x, 0⟩)
    else
      match s.freeSlotOn s.myPart s.myDie with
      | none => .next ((s.ws d (BitVec.allOnes 64)).retire 4)
      | some h =>
        .next (((s.allocSlot h (bitsOf x.toNat 0 13) (bitsOf x.toNat 16 16) s.hid).ws d (BitVec.ofNat 64 h)).retire 4)

/-- BELLF (15 R351). -/
def execBellf (a : SReg) (s : State) : Out :=
  if !s.ready [a] then .next (s.stall [a])
  else
    let x := s.rs a
    if s.handleBad s.myPart x then .next (s.trap ⟨8, x, 0⟩)
    else .next ((if (s.slot x.toNat).state = 0 then s else s.freeSlot x.toNat).retire 4)

/-- Is a global address no other device's, or one outside the allowlist (01 R53). -/
def State.destBad (s : State) (part : Nat) (g : Word) : Bool :=
  bitsOf g.toNat 57 7 != 0 || s.isOwn (globalDev g) || !s.allowed part (globalDev g)

/-- BELLRING (15 R352): retires at its issue; the ring waits for the hart's earlier writes to the slot. -/
def execBellring (a b d : SReg) (s : State) : Out :=
  if !s.ready [a, b, d] then .next (s.stall [a, b, d])
  else
    let x := s.rs a
    let y := s.rs b
    if 2 ^ 14 ≤ x.toNat then .next (s.trap ⟨8, x, 0⟩)
    else if y.toNat % 8 ≠ 0 ∨ s.destBad s.myPart y then .next (s.trap ⟨8, y, 0⟩)
    else
      let r : PendRing := {
        maker := .hart s.hid, agent := s.hid, seq := s.h.nextSeq, dest := globalDev y, slot := x.toNat, faddr := globalPa y
        fval := s.rs d, part := s.myPart }
      .next ({ s with rings := s.rings ++ [r] }.retire 4)

/-- BELLQ (15 R354). -/
def execBellq (d a : SReg) (s : State) : Out :=
  if !s.ready [d, a] then .next (s.stall [d, a])
  else
    let x := s.rs a
    if s.handleBad s.myPart x then .next (s.trap ⟨8, x, 0⟩)
    else .next ((s.ws d (slotWord (s.slot x.toNat) 0)).retire 4)

/-- TSYNC (15 R347). -/
def execTsync (d a : SReg) (s : State) : Out :=
  privStep s (.tsync d a)
    (if !s.ready [d, a] then .next (s.stall [d, a])
    else
      let x := s.rs a
      let t := s.timebase
      .next ((({ s with timebase := if a = 0 then t else t + x }).ws d t).retire 4))

/-- Ranges of a cask descriptor, read and checked: the trap of one that is broken is given (18 R409); a poisoned word is cause 19
(18 R406). -/
def State.caskRanges (s : State) (bad : Trp) (va : Word) : Nat → Except Trp (List (Nat × Nat))
  | 0 => .ok []
  | n + 1 =>
    match s.caskRanges bad va n with
    | .error t => .error t
    | .ok l =>
      match s.dieWords (va + BitVec.ofNat 64 (16 * n)) 0 2 with
      | .error t => .error (if t.cause = 19 then t else bad)
      | .ok w =>
        if recBits w 0 64 % 65536 ≠ 0 ∨ recBits w 64 32 = 0 ∨ recBits w 96 32 ≠ 0 then .error bad
        else .ok (l ++ [(recBits w 0 64, recBits w 64 32)])

/-- Does every page of some ranges lie in the partition's mapping (18 R409). -/
def State.rangesMapped (s : State) (part : Nat) (l : List (Nat × Nat)) : Bool :=
  l.all fun r => (List.range r.2).all fun i =>
    match s.translate none part true .read (BitVec.ofNat 64 (r.1 + 65536 * i)) with
    | .ok (.loc _) => true
    | _ => false

/-- Does a cask descriptor break its layout, its ranges apart (18 R409). -/
def State.caskBad (s : State) (part : Nat) (w : List Nat) : Bool :=
  let dest := BitVec.ofNat 64 (recBits w 0 64)
  let n := recBits w 96 32
  let buf := recBits w 192 44
  let pages := recBits w 256 32
  dest.toNat % 65536 != 0 || s.destBad part dest || recBits w 79 17 != 0 || n == 0 || decide (4096 < n) ||
    buf % 65536 != 0 || recBits w 236 20 != 0 || pages == 0 || recBits w 288 224 != 0 ||
    decide (2 ^ 40 < buf + 65536 * pages) || !(List.range pages).all fun i => s.reaches part (buf + 65536 * i) 1

/-- CASK (15 R348, 18 R409): requests the cut at a later step; the descriptor is captured at its issue. -/
def execCask (a : SReg) (s : State) : Out :=
  privStep s (.cask a)
    (if !s.ready [a] then .next (s.stall [a])
    else
      let part := s.myPart
      let p := s.part part
      let bad : Out := .next (s.trap ⟨8, p.caskd, 0⟩)
      let busy := (List.range 8).any fun q => (s.part q).cask.state == 1 || (s.part q).cask.state == 2
      if (s.rs a).toNat ≤ s.stepno.toNat ∨ busy then .next (s.trap ⟨8, s.stepno, 0⟩)
      else if p.caskd = 0 then bad
      else if s.dieDelayed p.caskd 8 then .next s.pause
      else
        match s.dieWords p.caskd 0 8 with
        | .error t => .next (s.memTrap t)
        | .ok w =>
          if s.caskBad part w then bad
          else if s.dieDelayed (BitVec.ofNat 64 (recBits w 128 64)) (2 * recBits w 96 32) then .next s.pause
          else
            match s.caskRanges ⟨8, p.caskd, 0⟩ (BitVec.ofNat 64 (recBits w 128 64)) (recBits w 96 32) with
            | .error t => .next (s.memTrap t)
            | .ok l =>
              if 2 ^ 24 < (l.map (·.2)).foldl (· + ·) 0 ∨ !s.rangesMapped part l then bad
              else
                let c := { p.cask with
                  state := 1, step := (s.rs a).toNat, desc := p.caskd, dest := recBits w 0 64, slot := recBits w 64 14
                  incr := recBits w 78 1 == 1, ranges := l, buf := recBits w 192 44 / 65536, nbuf := recBits w 256 32 }
                .next ((s.setPart part { p with cask := c }).retire 4))

/-- The tier of a die. -/
def State.tier (s : State) (d : Nat) : Tier := SMap.get {} s.tiers d
def State.setTier (s : State) (d : Nat) (t : Tier) : State := { s with tiers := SMap.put {} s.tiers d t }

/-- Does a leaf forbid all access (15 R349). -/
def leafShut (leaf : Nat) : Bool :=
  !(leafPermits leaf true .fetch || leafPermits leaf true .read || leafPermits leaf true .write)

/-- A pin of a page is recorded, or ended (15 R349, 17 R380). With tiering disabled there are no pins (17 R381). -/
def State.setPin (s : State) (page : Nat) (pin : Bool) : State :=
  let d := page % 4
  let t := s.tier d
  let mark (l : List TierPage) : List TierPage := l.map fun (x : TierPage) => if x.page = page then { x with pinned := pin } else x
  if pin then (if t.en && !t.pins.contains page then s.setTier d { t with pins := t.pins ++ [page], pages := mark t.pages } else s)
  else s.setTier d { t with pins := t.pins.filter (· != page), pages := mark t.pages }

/-- PGPIN (15 R349). -/
def execPgpin (a : SReg) (s : State) : Out :=
  privStep s (.pgpin a)
    (if !s.ready [a] then .next (s.stall [a])
    else
      let x := s.rs a
      let part := s.myPart
      let bad : Out := .next (s.trap ⟨8, x, 0⟩)
      if bitsOf x.toNat 1 15 ≠ 0 ∨ !canonical x then bad
      else
        let va := x.toNat % 2 ^ 56
        match s.leafOf (some (hartCore s.hid)) part va true .read with
        | .error .page => .next (s.memTrap ⟨6, x, 0⟩)
        | .error .owner => bad
        | .ok (leaf, level) =>
          let pa := s.liveAddr part va (bitsOf leaf 16 28 * 65536 + va % levelSize level)
          let page := pa / 65536
          let t := s.tier (page % 4)
          if leafShut leaf ∨ pteRmt leaf ∨ 2 ^ 40 ≤ pa ∨ !s.physOk part pa then bad
          else if x.getLsbD 0 = false ∧ !t.pins.contains page ∧ t.en ∧ min t.quota 98304 ≤ t.pins.length then bad
          else .next ((s.setPin page (!x.getLsbD 0)).retire 4))

/-- An engine of the selected hart's die. -/
def State.myEngine (s : State) (e : Fin 4) : Nat := 4 * s.myDie + e.val

/-- A DGN instruction on an engine of another partition raises cause 8 with the engine's number (15 R359). -/
def State.engineForeign (s : State) (e : Fin 4) : Bool := (s.engine (s.myEngine e)).part != s.myPart

/-- Does an engine run or wait. -/
def Engine.busy (g : Engine) : Bool := g.state == .running || g.state == .waiting

/-- The reads of a schedule image of n words by the hart, as words from place i on, or the trap of the first that cannot be read
(15 R360). -/
def State.imageReads (s : State) (began : Nat) (va : Word) (i : Nat) : Nat → Except Trp (List Access)
  | 0 => .ok []
  | n + 1 =>
    match s.readTargets va 4 with
    | .error t => .error t
    | .ok l =>
      match s.poisonTrap (localsOf l) with
      | some t => .error t
      | none =>
        match s.imageReads began (va + 4) (i + 1) n with
        | .error t => .error t
        | .ok r => .ok ((readOps va 4 l (.word began i) fun _ => .word began i).map (s.access 0 va) ++ r)

/-- Does a waking bank delay the reads of a schedule image (01 R54). -/
def State.readsDelayed (s : State) (l : List Access) : Bool := l.any fun a => s.bankDelays a.op.touches

/-- The words of a schedule image that lies on this device alone, read at once. -/
def State.imageWords (s : State) (l : List Access) : Option (List (BitVec 32)) :=
  l.mapM fun a => match a.op with
    | .read _ pas => some (BitVec.ofNat 32 (leValue (pas.map fun pa => s.readByte s.myPart s.myCluster pa)))
    | _ => none

/-- Words put into a schedule from an index on. -/
def putWords (m : SMap (Option (BitVec 32))) (i : Nat) : List (BitVec 32) → SMap (Option (BitVec 32))
  | [] => m
  | w :: l => putWords (SMap.put none m (i % 4096) (some w)) (i + 1) l

/-- DGLOAD puts words into an engine's schedule (15 R360). -/
def dgloadPut (n off : Nat) (l : List (BitVec 32)) (s : State) : Out :=
  let g := s.engine n
  .next ((s.setEngine n { g with sched := putWords g.sched off l, part := s.myPart, state := .loaded, fcode := 0
                                 waitAt := none, stopReq := false }).retire 4)

/-- DGLOAD with the words of its load descriptor: it reads the image, and waits for one that lies on another device in part
(15 R360, 05 R155, 17 R376). -/
def dgloadWith (e : Fin 4) (va : Word) (s : State) (w : Nat → Word) : Out :=
  let src := w 0
  let off := bitsOf (w 1).toNat 0 12
  let nw := bitsOf (w 1).toNat 12 13
  let n := s.myEngine e
  let bad := src.toNat % 4 ≠ 0 ∨ bitsOf (w 1).toNat 25 39 ≠ 0 ∨ nw = 0 ∨ 4096 < off + nw ∨ (s.engine n).busy
  if bad then .next (s.trap ⟨8, va, 0⟩)
  else if s.h.got.any (·.1 == 2) then dgloadPut n off ((List.range nw).map fun i => BitVec.ofNat 32 (w (2 + i)).toNat) s
  else
    match s.imageReads (s.h.waitAt.getD s.now) src 2 nw with
    | .error t => .next (s.memTrap t)
    | .ok l =>
      match s.imageWords l with
      | some ws => if s.readsDelayed l then .next s.pause else dgloadPut n off ws s
      | none => .next (s.awaitWords l)

/-- DGLOAD: privileged (15 R359, R360). -/
def execDgload (e : Fin 4) (a : SReg) (s : State) : Out :=
  privStep s (.dgload e a)
    (if !s.ready [a] then .next (s.stall [a])
    else
      let va := s.rs a
      if va.toNat % 16 ≠ 0 then .next (s.trap ⟨8, va, 0⟩) else recordStep s va 2 (dgloadWith e va s))

/-- DGSTART with the words of its start record (15 R361): a release of device scope that waits for the hart's copies. -/
def dgstartWith (e : Fin 4) (va : Word) (s : State) (w : Nat → Word) : Out :=
  let n := s.myEngine e
  let g := s.engine n
  if !(g.state == .loaded || g.state == .halted) then .next (s.trap ⟨8, engineWord g, 0⟩)
  else if 4096 ≤ (w 0).toNat then .next (s.trap ⟨8, va, 0⟩)
  else if !s.launchReady then .next s.launchWait
  else
    let c := (List.range 16).foldl (fun (m : SMap Word) i => SMap.put 0 m i (w (i + 1))) []
    let g' := { g with
      state := .running, fcode := 0, pc := (w 0).toNat, base := (w 0).toNat, steps := s.stepno, c := c, starter := s.hid
      waitAt := none, stopReq := false }
    .next ((s.setEngine n g').updateStepno.retire 4)

/-- DGSTART (15 R361). -/
def execDgstart (e : Fin 4) (a : SReg) (s : State) : Out :=
  if !s.ready [a] then .next (s.stall [a])
  else
    let va := s.rs a
    if s.engineForeign e then .next (s.trap ⟨8, BitVec.ofNat 64 e.val, 0⟩)
    else if va.toNat % 8 ≠ 0 then .next (s.trap ⟨8, va, 0⟩)
    else recordStep s va 17 (dgstartWith e va s)

/-- DGSTOP: privileged; a WAITING engine halts at once, a RUNNING one after the instruction it is in (15 R362). -/
def execDgstop (e : Fin 4) (s : State) : Out :=
  privStep s (.dgstop e)
    (let n := s.myEngine e
    let g := s.engine n
    let halted := (s.setEngine n { g with state := .halted, waitAt := none, stopReq := false }).updateStepno
    match g.state with
    | .waiting => .next (halted.retire 4)
    | .running => .next ((if g.waitAt.isSome then s.setEngine n { g with stopReq := true } else halted).retire 4)
    | _ => .next (s.retire 4))

/-- DGSTAT (15 R362). -/
def execDgstat (d : SReg) (e : Fin 4) (s : State) : Out :=
  if !s.ready [d] then .next (s.stall [d])
  else if s.engineForeign e then .next (s.trap ⟨8, BitVec.ofNat 64 e.val, 0⟩)
  else .next ((s.ws d (engineWord (s.engine (s.myEngine e)))).retire 4)

end Sys2Proof.Machine
end

