-- ==== Sys2Proof/Machine/Branch.lean ====
section
/-! DEFINITION. Sys2Proof/Machine/Branch.lean: branches and jumps (04 R111 to R114). -/

namespace Sys2Proof.Machine

/-- PC + sign-extend(off12) × 4 (03 R73, 04 R111). -/
def branchTarget (s : State) (off : BitVec 12) : Word := s.h.pc + off.signExtend 64 * 4

/-- A branch: taken to its target, or on in sequence (04 R111). It waits for a register whose load has not performed (05 R129), so
nothing after it issues before that load performs; 07 R202 and 16 R372 speak of a later VLD performing ahead of such a load
(log 91, DESIGN CHOICE). -/
def branchStep (s : State) (a b : SReg) (off : BitVec 12) (test : Word → Word → Bool) : Out :=
  if !s.ready [a, b] then .next (s.stall [a, b])
  else if test (s.rs a) (s.rs b) then .next (s.retireTo (branchTarget s off))
  else .next (s.retire 4)

/-- Subtract and branch: the test reads sa after the write, so s0 never branches (04 R112). -/
def bsubStep (s : State) (a b : SReg) (off : BitVec 12) (test : Word → Bool) : Out :=
  if !s.ready [a, b] then .next (s.stall [a, b])
  else
    let s1 := s.ws a (s.rs a - s.rs b)
    if test (s1.rs a) then .next (s1.retireTo (branchTarget s off)) else .next (s1.retire 4)

def execBeq (a b : SReg) (off : BitVec 12) (s : State) : Out := branchStep s a b off fun x y => x == y
def execBne (a b : SReg) (off : BitVec 12) (s : State) : Out := branchStep s a b off fun x y => x != y
def execBlt (a b : SReg) (off : BitVec 12) (s : State) : Out := branchStep s a b off fun x y => BitVec.slt x y
def execBge (a b : SReg) (off : BitVec 12) (s : State) : Out := branchStep s a b off fun x y => !BitVec.slt x y
def execBltu (a b : SReg) (off : BitVec 12) (s : State) : Out := branchStep s a b off fun x y => BitVec.ult x y
def execBgeu (a b : SReg) (off : BitVec 12) (s : State) : Out := branchStep s a b off fun x y => !BitVec.ult x y
def execBsubnz (a b : SReg) (off : BitVec 12) (s : State) : Out := bsubStep s a b off fun x => x != 0
def execBsubgt (a b : SReg) (off : BitVec 12) (s : State) : Out := bsubStep s a b off fun x => decide (0 < x.toInt)

/-- JAL: sd := PC + 4, PC := PC + sign-extend(off20) × 4 (04 R113). -/
def execJal (d : SReg) (off : BitVec 20) (s : State) : Out :=
  if !s.ready [d] then .next (s.stall [d])
  else .next ((s.ws d (s.h.pc + 4)).retireTo (s.h.pc + off.signExtend 64 * 4))

/-- JALR: a target with bits [1:0] not zero raises cause 4 and leaves sd (04 R113, 03 R72). -/
def execJalr (d a : SReg) (imm : BitVec 12) (s : State) : Out :=
  if !s.ready [a, d] then .next (s.stall [a, d])
  else
    let t := s.rs a + sext12 imm
    if t.toNat % 4 ≠ 0 then .next (s.trap ⟨4, t, 0⟩) else .next ((s.ws d (s.h.pc + 4)).retireTo t)

end Sys2Proof.Machine
end

