-- ==== Sys2Proof/Machine/Csr.lean ====
section
/-! DEFINITION. Sys2Proof/Machine/Csr.lean: the CSR instructions (04 R115, R116, 03 R78, R80), and the moves that write a register with behaviour (08 R229, 01 R24, 17 R377, 00 R9). -/

namespace Sys2Proof.Machine

/-- A write of a control and status register by the selected hart: the registers a partition, a core or the device
holds, and the hart's own (03 R78, 18 R395, 17 R377, 14 R327, R334, 01 R23). -/
def State.writeCsr (s : State) (c : Csr) (x : Word) : State :=
  let p := s.myPart
  match c with
  | .tvec => s.setPart p { s.part p with tvec := keep 0xFFFFFFFFFFFFFFFC x }
  | .tshort => s.setPart p { s.part p with tshort := keep 0xFFFFFF x }
  | .rwin => s.setPart p { s.part p with rwin := x }
  | .ptbase => s.setPtbase p x
  | .lpart => if s.h.sup then s.writeLpart (hartCore s.hid) x else s
  | c => s.onH fun h => h.writeCsr c h.sup x

/-- Has a vector, matrix or FALU access of the hart still to set flags (04 R116, 06 R174). -/
def Hart.flagsPending (h : Hart) : Bool :=
  !h.lates.isEmpty || h.sq.any fun a => match a.op with
    | .vadd .. => true
    | _ => false

/-- May an access of a register take effect (04 R116, 17 R377). -/
def State.csrReady (s : State) (c : Csr) (writes : Bool) : Bool :=
  match c with
  | .fflags => !s.h.flagsPending
  | .ptbase => !writes || s.releaseMet s.hid s.h.nextSeq .dev
  | _ => true

/-- A CSR instruction: old into sd, and new old into the register when it writes (04 R115). -/
def csrStep (s : State) (i : Instr) (d : SReg) (c : Csr) (regs : List SReg) (new : Word → Option Word) : Out :=
  if csrPriv c && !s.h.sup then .next (s.trap ⟨8, encodeWord i, 0⟩)
  else
    let old := s.csrValue s.hid c
    if !s.ready (d :: regs) then .next (s.stall (d :: regs))
    else if !s.csrReady c (new old).isSome then .next (s.stallOn fun _ => true)
    else
      let s1 := match new old with
        | some x => s.writeCsr c x
        | none => s
      .next ((s1.ws d old).retire 4)

def execCsrr (d : SReg) (c : Csr) (s : State) : Out := csrStep s (.csrr d c) d c [] fun _ => none
def execCsrw (d : SReg) (c : Csr) (a : SReg) (s : State) : Out := csrStep s (.csrw d c a) d c [a] fun _ => some (s.rs a)
def execCsrs (d : SReg) (c : Csr) (a : SReg) (s : State) : Out :=
  csrStep s (.csrs d c a) d c [a] fun old => if a = 0 then none else some (old ||| s.rs a)
def execCsrc (d : SReg) (c : Csr) (a : SReg) (s : State) : Out :=
  csrStep s (.csrc d c a) d c [a] fun old => if a = 0 then none else some (old &&& ~~~(s.rs a))

/-- The move of a write of LSCALE by the selected hart (08 R229). -/
def execLscaleWrite (v : Word) (s : State) : Out := .next (s.onH fun h => h.writeCsr .lscale h.sup v)

/-- The move of a supervisor write of a core's LPART (01 R24). -/
def execLpartWrite (core : Nat) (v : Word) (s : State) : Out :=
  .next (if decide (core < 1024) then s.writeLpart core v else s)

/-- The move of a PTBASE write by the selected hart: made in supervisor mode once the release conditions hold
(17 R377). -/
def execPtbaseWrite (v : Word) (s : State) : Out :=
  .next (if s.h.sup && s.releaseMet s.hid s.h.nextSeq .dev then s.setPtbase s.myPart v else s)

/-- A write of a plain register of the window, masked by its fields' Access column (00 R9, 17 R373, R391). -/
def execRegisterWrite (who : Writer) (r : WinReg) (v : Word) (s : State) : Out := .next (s.writeWinReg who r v)

end Sys2Proof.Machine
end

