-- ==== Sys2Proof/Machine/Sha.lean ====
section
/-! DEFINITION. Sys2Proof/Machine/Sha.lean: SHA-256, which the measurements and the attestation report use (17 R386 to R388). The spec names the function; its algorithm is that of FIPS 180-4 (log 20). -/

namespace Sys2Proof.Machine

/-- The round constants. -/
def shaK : List (BitVec 32) :=
    [0x428A2F98, 0x71374491, 0xB5C0FBCF, 0xE9B5DBA5, 0x3956C25B, 0x59F111F1, 0x923F82A4, 0xAB1C5ED5]
    ++ [0xD807AA98, 0x12835B01, 0x243185BE, 0x550C7DC3, 0x72BE5D74, 0x80DEB1FE, 0x9BDC06A7, 0xC19BF174]
    ++ [0xE49B69C1, 0xEFBE4786, 0x0FC19DC6, 0x240CA1CC, 0x2DE92C6F, 0x4A7484AA, 0x5CB0A9DC, 0x76F988DA]
    ++ [0x983E5152, 0xA831C66D, 0xB00327C8, 0xBF597FC7, 0xC6E00BF3, 0xD5A79147, 0x06CA6351, 0x14292967]
    ++ [0x27B70A85, 0x2E1B2138, 0x4D2C6DFC, 0x53380D13, 0x650A7354, 0x766A0ABB, 0x81C2C92E, 0x92722C85]
    ++ [0xA2BFE8A1, 0xA81A664B, 0xC24B8B70, 0xC76C51A3, 0xD192E819, 0xD6990624, 0xF40E3585, 0x106AA070]
    ++ [0x19A4C116, 0x1E376C08, 0x2748774C, 0x34B0BCB5, 0x391C0CB3, 0x4ED8AA4A, 0x5B9CCA4F, 0x682E6FF3]
    ++ [0x748F82EE, 0x78A5636F, 0x84C87814, 0x8CC70208, 0x90BEFFFA, 0xA4506CEB, 0xBEF9A3F7, 0xC67178F2]

/-- The initial hash value. -/
def shaInit : List (BitVec 32) := [0x6A09E667, 0xBB67AE85, 0x3C6EF372, 0xA54FF53A, 0x510E527F, 0x9B05688C, 0x1F83D9AB, 0x5BE0CD19]

def shaSum0 (x : BitVec 32) : BitVec 32 := x.rotateRight 2 ^^^ x.rotateRight 13 ^^^ x.rotateRight 22
def shaSum1 (x : BitVec 32) : BitVec 32 := x.rotateRight 6 ^^^ x.rotateRight 11 ^^^ x.rotateRight 25
def shaSig0 (x : BitVec 32) : BitVec 32 := x.rotateRight 7 ^^^ x.rotateRight 18 ^^^ (x >>> 3)
def shaSig1 (x : BitVec 32) : BitVec 32 := x.rotateRight 17 ^^^ x.rotateRight 19 ^^^ (x >>> 10)

/-- The message schedule: the last 16 words, newest first, and the words so far in order. -/
def shaSchedule : Nat → List (BitVec 32) → List (BitVec 32)
  | 0, w => w
  | n + 1, w =>
    let i := w.length
    let at_ (k : Nat) : BitVec 32 := w[i - k]?.getD 0
    shaSchedule n (w ++ [shaSig1 (at_ 2) + at_ 7 + shaSig0 (at_ 15) + at_ 16])

/-- One round on the eight working words. -/
def shaRound (v : List (BitVec 32)) (k w : BitVec 32) : List (BitVec 32) :=
  match v with
  | [a, b, c, d, e, f, g, h] =>
    let t1 := h + shaSum1 e + ((e &&& f) ^^^ (~~~e &&& g)) + k + w
    let t2 := shaSum0 a + ((a &&& b) ^^^ (a &&& c) ^^^ (b &&& c))
    [t1 + t2, a, b, c, d + t1, e, f, g]
  | v => v

/-- A block of 16 big-endian words added into the hash. -/
def shaBlock (h : List (BitVec 32)) (block : List (BitVec 32)) : List (BitVec 32) :=
  let w := shaSchedule 48 block
  let v := (shaK.zip w).foldl (fun v x => shaRound v x.1 x.2) h
  (h.zip v).map fun x => x.1 + x.2

/-- Bytes as big-endian words. -/
def beWords : List Byte → List (BitVec 32)
  | a :: b :: c :: d :: l => (a ++ b ++ c ++ d) :: beWords l
  | _ => []

/-- Blocks of a padded message, by fuel. -/
def shaBlocks : Nat → List (BitVec 32) → List (BitVec 32) → List (BitVec 32)
  | 0, h, _ => h
  | n + 1, h, w => if w.isEmpty then h else shaBlocks n (shaBlock h (w.take 16)) (w.drop 16)

/-- SHA-256 of bytes, as 32 bytes. -/
def sha256 (m : List Byte) : List Byte :=
  let n := m.length
  let pad := (119 - n % 64) % 64
  let len := (leBytes 8 (8 * n)).reverse
  let w := beWords (m ++ [0x80] ++ List.replicate pad 0 ++ len)
  (shaBlocks (n / 64 + 2) shaInit w).flatMap fun x => (leBytes 4 x.toNat).reverse

end Sys2Proof.Machine
end

