-- ==== Sys2Proof/Machine/Device.lean ====
section
/-! DEFINITION. Sys2Proof/Machine/Device.lean: the cask engine's drain (18 R409 to R412), the migration engine (17 R380, R381), power gating (01 R54), the belfry: watchdog, boot, measurement and attestation (17 R384 to R388), reset, and soft errors (18 R406, R407). -/

namespace Sys2Proof.Machine

/-- The words of a packet that are poisoned in an image: 64 words from its place on. -/
def packetPoison (l : List Nat) (from_ : Nat) : Nat :=
  ((List.range 64).filter fun i => l.contains (from_ + i)).foldl (fun a i => a + 2 ^ i) 0

/-- The next packet of the lowest marked page tiered on a die, with the silent ring after its last (18 R411). A page that a write has come
to is sent from its pool page, which its drain releases (18 R410). -/
def State.drainPage (s : State) (part die : Nat) (j f : Nat) : State :=
  let c := (s.part part).cask
  let k := SMap.get 0 c.drainPos die
  let dest := BitVec.ofNat 64 c.dest
  let copy := (c.copies.find? (·.1 == f)).map (·.2)
  let srcs := if copy.isSome then [] else [f]
  let p : Packet := {
    dst := globalDev dest, src := s.devId, kind := .write, slot := c.slot, addr := globalPa dest + 65536 * j + 512 * k
    data := match copy with
      | some g => bytesFrom (s.viewByte (s.dieView die (65536 * g))) (65536 * g + 512 * k) 512
      | none => bytesFrom (memByte c.image) (65536 * j + 512 * k) 512
    poison := match copy with
      | some g => packetPoison s.poison (8192 * g + 64 * k)
      | none => packetPoison c.poison (8192 * j + 64 * k) }
  if !s.egressOpen part 512 then s
  else
    match s.injectWrite part p srcs (.cask part) with
    | none => s
    | some s1 =>
      let x := s1.part part
      if k < 127 then s1.setPart part { x with cask := { x.cask with drainPos := SMap.put 0 x.cask.drainPos die (k + 1) } }
      else
        let s2 := s1.setPart part { x with cask := { x.cask with
          drainPos := SMap.put 0 x.cask.drainPos die 0, pages := x.cask.pages + 1
          marked := x.cask.marked.filter fun y => y.1 != j
          copies := x.cask.copies.filter fun y => x.cask.marked.any fun z => z.1 != j && z.2 == y.1 } }
        (s2.injectRing part p.dst c.slot 0 0 (.cask part)).getD s

/-- The cut record (18 R411); its layout is the model's (log 15). -/
def cutRecord (c : Cask) (dev : Nat) : List Byte :=
  leBytes 8 0x4B534143 ++ leBytes 8 c.step ++ leBytes 8 dev ++ leBytes 8 c.pages ++ leBytes 8 c.nmarked ++ leBytes 24 0

/-- The cut record and its own ring, after the last page (18 R411). -/
def State.drainRecord (s : State) (part : Nat) : State :=
  let c := (s.part part).cask
  let dest := BitVec.ofNat 64 c.dest
  let at_ := globalPa dest + 2 ^ 40
  let p : Packet := { dst := globalDev dest, src := s.devId, kind := .write, slot := c.slot, addr := at_, data := cutRecord c s.devId }
  if !s.egressOpen part p.data.length then s
  else
    match (s.injectWrite part p [] (.cask part)).bind fun t => t.injectRing part p.dst c.slot (at_ + 64) (BitVec.ofNat 64 c.step) (.cask part) with
    | none => s
    | some s1 =>
      let x := s1.part part
      s1.setPart part { x with cask := { x.cask with recordSent := true } }

/-- CASK-DRAIN of a die (18 R411). -/
def execCaskDrain (part die : Nat) (s : State) : Out :=
  let c := (s.part part).cask
  if 8 ≤ part ∨ 4 ≤ die ∨ c.state ≠ 2 ∨ c.recordSent then .next s
  else
    match c.marked.find? fun x => x.2 % 4 == die with
    | some (j, f) => .next (s.drainPage part die j f)
    | none => .next (if c.marked.isEmpty then s.drainRecord part else s)

/-- CASK-COMPLETE: the hold of every ring of the drain has ended (18 R411, R412). -/
def execCaskComplete (part : Nat) (s : State) : Out :=
  let x := s.part part
  let held := s.sends.any fun r => r.held.any fun g => g.maker == .cask part
  .next (if part < 8 ∧ x.cask.state = 2 ∧ x.cask.recordSent ∧ !held then
      s.setPart part { x with cask := { x.cask with state := 0, lasts := x.cask.step % 2 ^ 32, image := [], poison := [] } }
    else s)

/-- CASKD written by a partition's supervisor (18 R409, R410). -/
def execCaskd (part : Nat) (v : Word) (s : State) : Out := .next (if part < 8 then s.writeCaskd part v else s)

/-- Pages a die's stacked SRAM holds (17 R381). -/
def tierSize : Nat := 98304

/-- The least of some pages by a measure. -/
def leastPage (f : TierPage → Nat) : List TierPage → Option TierPage
  | [] => none
  | x :: l => match leastPage f l with
    | some y => if f y < f x then some y else some x
    | none => some x

/-- The victim of a full tier: the oldest USE-ONCE page, otherwise the RETAINED page longest unused (17 R380). -/
def Tier.victim (t : Tier) : Option TierPage :=
  let free := t.pages.filter fun x => !x.pinned
  let once (x : TierPage) : Bool := t.useonce && x.useOnce
  match leastPage (·.entered) (free.filter once) with
  | some x => some x
  | none => leastPage (·.lastUse) free

/-- PAGE-MIGRATION: a page that an access has missed, or that PGPIN holds, enters the tier of its die; USE-ONCE when every access since
its first miss was streaming (17 R380). -/
def execPageMigration (die page : Nat) (s : State) : Out :=
  let t := s.tier die
  let miss := t.missed.find? (·.1 == page)
  if 4 ≤ die ∨ page % 4 ≠ die ∨ 2 ^ 24 ≤ page ∨ !t.en ∨ t.pages.any (·.page == page) ∨ (miss.isNone && !t.pins.contains page) then .next s
  else
    let new : TierPage := {
      page := page, pinned := t.pins.contains page, useOnce := miss.all (·.2), entered := s.now, lastUse := s.now }
    let t := { t with missed := t.missed.filter (·.1 != page) }
    if t.pages.length < tierSize then .next (s.setTier die { t with pages := t.pages ++ [new] })
    else
      match t.victim with
      | none => .next s
      | some v => .next (s.setTier die { t with pages := (t.pages.filter fun x => x.page != v.page) ++ [new] })

/-- TIERCTL written by firmware (17 R381). -/
def execTierctl (die : Nat) (v : Word) (s : State) : Out := .next (if die < 4 then s.writeTier die v else s)

/-- Is an address in a scratchpad bank. -/
def inBank (cluster bank a : Nat) : Bool :=
  match paClass a with
  | .scratch c b => c == cluster && b == bank
  | _ => false

/-- A scratchpad bank reads as zero (01 R54). -/
def State.zeroBank (s : State) (cluster bank : Nat) : State :=
  let hit (a : Nat) : Bool := inBank cluster bank a
  { s with
    mem := s.mem.filter fun c => !hit c.1
    log := s.log.map fun (w : WriteRec) => { w with data := w.data.zipIdx.map fun x => if hit (w.pa + x.2) then 0 else x.1 }
    poison := s.poison.filter fun w => !(hit (8 * w) || hit (8 * w + 4)) }

/-- May storage be gated: a scratchpad bank, or a register segment that serves as cache (01 R54). -/
def State.mayGate (s : State) (g : Gated) : Bool :=
  match g with
  | .bank c b => decide (c < 64) && decide (b < 64)
  | .segment c l i =>
    let owner := match (SMap.get {} s.cores c).mode with
      | 1 => if l < 16 then 2 * c else 2 * c + 1
      | 2 => 2 * c + 1
      | _ => 2 * c
    decide (c < 1024) && decide (l < 32) && decide (i < 16) && decide ((s.hart owner).sreg ≤ i)

/-- POWER-GATING by the supervisor: gated, or re-enabled with a wake-up on zeroed storage (01 R54). -/
def execPowerGating (g : Gated) (on : Bool) (s : State) : Out :=
  if on then
    .next (if s.mayGate g ∧ !s.gated.contains g then
        { s with gated := s.gated ++ [g], waking := s.waking.filter (· != g) }
      else s)
  else if !s.gated.contains g then .next s
  else
    let s1 := { s with gated := s.gated.filter (· != g), waking := s.waking ++ [g] }
    match g with
    | .bank c b => .next (s1.zeroBank c b)
    | .segment .. => .next s1

/-- WAKE-UP ends (01 R54). -/
def execWakeUp (g : Gated) (s : State) : Out := .next { s with waking := s.waking.filter (· != g) }

/-- The watchdog's fused period of 2 s, in quarters of a nanosecond of the reference clock (17 R385). -/
def watchdogPeriod : Nat := 8000000000

/-- WATCHDOG-EXPIRY: the belfry alone is reset into the mask ROM (17 R385), which measures what it boots anew (R373, R386, log 95). -/
def execWatchdogExpiry (s : State) : Out :=
  .next (if watchdogPeriod ≤ s.ref - s.wdkick then { s with belfry := .rom, measOpen := true, wdcause := true, wdkick := s.ref, hostSaid := s.hostSaid ++ [.watchdog] } else s)

/-- WDKICK: any value restarts the period (17 R385). -/
def execWdkick (_v : Word) (s : State) : Out := .next { s with wdkick := s.ref }

/-- RESET: every register and partition in its reset state (17 R382). The device's number, the counter of free values and
the moves chosen outside stay (log 21). -/
def execReset (s : State) : Out := .next { State.reset with devId := s.devId, fresh := s.fresh, agenda := s.agenda }

/-- n bytes of a list from an offset on, absent ones zero. -/
def sliceOf (l : List Byte) (o n : Nat) : List Byte := (List.range n).map fun i => l[o + i]?.getD 0

/-- A 256-bit value of 32 bytes, the lowest first, and its bytes. -/
def digestOf (l : List Byte) : BitVec 256 := BitVec.ofNat 256 (leValue (sliceOf l 0 32))
def digestBytes (d : BitVec 256) : List Byte := leBytes 32 d.toNat

/-- The step at which a boot stops, or none (17 R386). -/
def bootFails (img : BootImage) : Option Nat :=
  let h := img.header
  let f (o n : Nat) : Nat := leValue (sliceOf h o n)
  let body := sliceOf img.body 0 (f 8 4)
  let pk := digestOf (sliceOf h 32 32)
  if !img.fetched || decide (6291456 < f 8 4) then some 2
  else if f 0 4 ≠ 0x42525747 ∨ f 4 2 < Config.minVer.toNat ∨ digestOf (sha256 (sliceOf h 32 32)) ≠ Config.pkHash then some 3
  else if !Config.slhVerify pk (sliceOf h 0 336 ++ body) (sliceOf h 336 7856) then some 4
  else none

/-- Is an address of main memory in a GiB that a seal table names (17 R385). -/
def sealedAddr (l : List Word) (a : Nat) : Bool :=
  decide (a < 2 ^ 40) && l.any fun x => decide (bitsOf x.toNat 0 10 ≤ a / 2 ^ 30) && decide (a / 2 ^ 30 < bitsOf x.toNat 0 10 + bitsOf x.toNat 10 11)

/-- The belfry, a die agent of die 0 (05 R148), and the size of its SRAM (00 R5). -/
def belfryAgent : Nat := 8704
def belfrySram : Nat := 0x800000

/-- Doublewords, by number, that memory lists or the log covers in a GiB of a seal table. -/
def State.sealedWords (s : State) (seals : List Word) : List Nat :=
  ((s.mem.map (·.1) ++ s.log.flatMap fun w => (List.range w.data.length).map (w.pa + ·)).filter (sealedAddr seals) |>.map (· / 8)).eraseDups

/-- Every sealed GiB is zeroed by the belfry (17 R386 step 5); a zero over what is zero everywhere changes nothing. -/
def State.zeroSealed (s : State) (seals : List Word) : State :=
  let t := (s.sealedWords seals).foldl (fun (t : State) w =>
    t.writeMem belfryAgent 0 0 0 true false false false (8 * w) (List.replicate 8 0)) s
  { t with poison := t.poison.filter fun w => !sealedAddr seals (8 * w) }

/-- A sealed GiB is marked in no other partition's OWN (17 R385). -/
def sealOwn (seals : List Word) (p : Nat) (own : BitVec 1024) : BitVec 1024 :=
  let shut (g : Nat) : Bool := seals.any fun x =>
    bitsOf x.toNat 21 3 != p && decide (bitsOf x.toNat 0 10 ≤ g) && decide (g < bitsOf x.toNat 0 10 + bitsOf x.toNat 10 11)
  BitVec.ofNat 1024 ((List.range 1024).foldl (fun a g => if own.getLsbD g && !shut g then a + 2 ^ g else a) 0)

/-- PSEAL: the seal table is written, sealed memory zeroed, and taken from the OWN of every other partition (17 R385, R386). -/
def State.seal (s : State) (seals : List Word) : State :=
  let t := s.zeroSealed seals
  { t with seals := seals, parts := t.parts.map fun (x : Nat × Part) => (x.1, { x.2 with own := sealOwn seals x.1 x.2.own }) }

/-- The ROM stops at a step: BOOTSTAT holds the step and a reason (log 7), and the belfry halts (17 R386). -/
def State.bootStop (s : State) (n : Nat) : State :=
  { s with belfry := .halted, bootstat := BitVec.ofNat 64 (n + 256 * (Config.bootReason n).toNat) }

/-- MASK-ROM-BOOT: the steps of the mask ROM, from its reset (17 R386). A body that does not fit the belfry's SRAM at LOAD fails at
step 8, with the steps before it done (00 R5, log 88). -/
def execMaskRomBoot (img : BootImage) (s : State) : Out :=
  if s.belfry ≠ .rom then .next s
  else
    match bootFails img with
    | some n => .next (s.bootStop n)
    | none =>
      let h := img.header
      let f (o n : Nat) : Nat := leValue (sliceOf h o n)
      let body := sliceOf img.body 0 (f 8 4)
      let s1 := s.seal ((List.range 8).map fun i => BitVec.ofNat 64 (f (64 + 8 * i) 8))
      let s2 := { s1 with
        meas := if s.measOpen then
            SMap.put 0 s.meas 0 (digestOf (sha256 (List.replicate 32 0 ++ sha256 (sliceOf h 0 336 ++ body))))
          else s.meas
        measOpen := false }
      if belfrySram < f 12 4 + body.length then .next (s2.bootStop 8)
      else .next { s2 with bsram := memPutList [] (f 12 4) body, belfry := .firmware (f 12 4 + f 16 4) }

/-- Does a seal name a partition (17 R385). -/
def State.sealedPart (s : State) (p : Nat) : Bool :=
  s.seals.any fun x => bitsOf x.toNat 10 11 != 0 && bitsOf x.toNat 21 3 == p

/-- Does firmware see and reach a place: sealed memory, and the hart blocks, registers and scratchpads of a sealed partition, are shut
to it (17 R385). -/
def State.firmwareOpen (s : State) (pa : Nat) : Bool :=
  match paClass pa with
  | .main => (s.sealedTo (pa / 2 ^ 30)).isNone
  | .scratch c b => !s.sealedPart (s.partOf c) && !s.bankGated c b
  | .alias_ t _ _ => !s.sealedPart (s.hartPart t)
  | .window off =>
    let o := off % 0x400000000
    !(decide (o < 0x200000000) && s.sealedPart (s.hartPart (512 * (off / 0x400000000) + o / 0x1000000)))
  | .bad => false

/-- A byte as firmware reads it, by the belfry's view (05 R148, 17 R385, R392). -/
def State.firmwareByte (s : State) (pa : Nat) : Byte :=
  if !s.firmwareOpen pa then 0
  else
    match paClass pa with
    | .window off => BitVec.ofNat 8 ((s.windowDword (off / 8 * 8)).toNat / 256 ^ (off % 8))
    | _ => s.readByte 8 (s.dieView 0 (pa / 8 * 8)) pa

/-- FIRMWARE-READ of memory or of a block of the window (17 R385, R392); a waking bank delays it, and a write (01 R54). -/
def State.firmwareRead (s : State) (pa n : Nat) : State :=
  if s.bankDelays ((List.range n).map (pa + ·)) then s else { s with fwdata := bytesFrom s.firmwareByte pa n }

/-- FIRMWARE-WRITE of memory, or of a doubleword of a hart's block; what is shut to firmware is dropped (17 R385, R392). The registers
that firmware writes have moves of their own. -/
def State.firmwareWrite (s : State) (pa : Nat) (data : List Byte) : State :=
  match paClass pa with
  | .window off =>
    let o := off % 0x400000000
    if o < 0x200000000 ∧ off % 8 = 0 ∧ data.length = 8 then
      s.writeContext .firmware (512 * (off / 0x400000000) + o / 0x1000000) (o % 0x1000000) (BitVec.ofNat 64 (leValue data))
    else s
  | _ => if s.writeDelays ((List.range data.length).map (pa + ·)) then s
    else if (List.range data.length).all fun i => s.firmwareOpen (pa + i) then s.dieWrite belfryAgent 0 false 0 pa data else s

/-- MEAS-EXTEND of MEAS1 to MEAS7 (17 R387). -/
def execMeasExtend (n : Nat) (d : BitVec 256) (s : State) : Out :=
  .next (if 1 ≤ n ∧ n ≤ 7 then
      { s with meas := SMap.put 0 s.meas n (digestOf (sha256 (digestBytes (SMap.get 0 s.meas n) ++ digestBytes d))) }
    else s)

/-- ATTREQ: a nonce is written (17 R388). -/
def execAttreq (nonce : BitVec 256) (s : State) : Out := .next { s with attreq := some nonce }

/-- The bytes of a name, padded. -/
def partNumber : List Byte := [0x47, 0x57, 0x52, 0x2D, 0x57, 0x31, 0x2D, 0x34, 0x44, 0, 0, 0, 0, 0, 0, 0]

/-- The report's first 592 bytes (17 R388). -/
def State.report (s : State) (nonce : BitVec 256) : List Byte :=
  leBytes 4 0x54525747 ++ leBytes 4 1 ++ partNumber ++ digestBytes (Config.slhPublicKey Config.idSeed) ++
    ((List.range 8).flatMap fun i => digestBytes (SMap.get 0 s.meas i)) ++ leBytes 2 Config.minVer.toNat ++
    (s.seals.flatMap fun x => leBytes 8 x.toNat) ++
    sha256 ((List.range 8).flatMap fun p => leBytes 1024 (if (s.part p).locked then (s.part p).allowMap.toNat else 0)) ++
    digestBytes nonce ++ leBytes 150 0

/-- ATTREP: the ROM service writes the signed report (17 R388). -/
def execAttrep (s : State) : Out :=
  match s.attreq, s.belfry with
  | some nonce, .firmware _ =>
    let r := s.report nonce
    .next { s with attrep := r ++ sliceOf (Config.slhSign Config.idSeed r) 0 7856, attdone := true, attreq := none }
  | _, _ => .next s

/-- A byte that has reached device level, as firmware reads it (17 R374, R385). -/
def State.firmwareDev (s : State) (pa : Nat) : Byte := if s.firmwareOpen pa then s.devByte pa else 0

/-- ALLOW: its first write copies the bitmap and locks it with EGRESS (17 R384). The bitmap is read as firmware reads it (R385). -/
def execAllow (part : Nat) (v : Word) (s : State) : Out :=
  let x := s.part part
  if 8 ≤ part ∨ x.locked then .next s
  else
    let a := bitsOf v.toNat 0 44
    .next (s.setPart part { x with
      allow := BitVec.ofNat 64 a, allowMap := BitVec.ofNat 8192 (leValue (bytesFrom s.firmwareDev a 1024)), locked := true
      egressLocked := true })

/-- The partition that owns a place of memory (17 R382). -/
def State.ownerOf (s : State) (pa : Nat) : Nat :=
  match paClass pa with
  | .main => ((List.range 8).find? fun p => s.owns p (pa / 2 ^ 30)).getD 0
  | .scratch c _ => s.partOf c % 8
  | .alias_ t _ _ => s.hartPart t % 8
  | .window off => ((s.windowOwner off).getD 0) % 8
  | .bad => 0

/-- The die that holds a place of memory. -/
def placeDie (pa : Nat) : Nat :=
  match paClass pa with
  | .window off => off / 0x400000000 % 4
  | _ => homeDie pa

/-- Every running hart of a partition takes cause 19 for a poisoned structure (18 R406). -/
def State.structurePoison (s : State) (part off : Nat) : State :=
  ((List.range 2048).filter fun n => (s.hart n).run == .running && s.hartPart n == part).foldl
    (fun (t : State) n => t.trapOn n ⟨19, BitVec.ofNat 64 (3 * 2 ^ 62 + off % 2 ^ 44), 0⟩) s

/-- A word of a hart's state is poisoned, by its offset in the context image (18 R406). A container of a pinned register lies at its
alias (01 R41). -/
def State.poisonHart (s : State) (n off : Nat) : State :=
  let h := s.hart n
  let pinned := ((List.range 64).filter h.pins.getLsbD).flatMap fun i =>
    (h.containers.filter fun x => h.regWord (s.lanesOf n) (Fin.ofNat 64 i) x == off).map (h.aliasWord n (Fin.ofNat 64 i))
  if pinned.isEmpty then s.setHart n (h.addPoison off)
  else { s with poison := s.poison ++ pinned.eraseDups.filter fun w => !s.poison.contains w }

/-- ADDR and DETAIL of an error in a word: as in TVAL, an offset in the context image for hart state and one in the window for another
structure; the hart, the slot's handle, or the syndrome, which is a free value (18 R398, R406, R407, log 106). -/
def State.errorPlace (s : State) (pa : Nat) : Word × Word :=
  let syn := Config.syndrome s.fresh
  match paClass pa with
  | .window off =>
    let d := off / 0x400000000
    let o := off % 0x400000000
    if o < 0x200000000 then
      (BitVec.ofNat 64 (2 ^ 63 + o % 0x1000000 / 8 * 8), BitVec.ofNat 64 (512 * d + o / 0x1000000))
    else
      (BitVec.ofNat 64 (3 * 2 ^ 62 + off / 8 * 8 % 2 ^ 44),
        if 0x220000000 ≤ o ∧ o < 0x220010000 then BitVec.ofNat 64 (4096 * d + (o - 0x220000000) / 16) else syn)
  | _ => (BitVec.ofNat 64 (pa / 8 * 8), syn)

/-- SOFT-ERROR in a word: a single one is corrected and counted, a double one poisons it and is logged (18 R406, R407).
A place of the introspection window stands for the structure shown there. -/
def execSoftError (pa : Nat) (double : Bool) (s : State) : Out :=
  let w := pa / 8
  let part := s.ownerOf pa
  let die := placeDie pa
  let (addr, detail) := s.errorPlace pa
  if !double then
    let s1 := ({ s with errcorr := (s.errcorr + 1) % 2 ^ 32 }).logErr 1 die part addr detail
    .next (if s.corrected.contains w then s1
      else ({ s1 with corrected := s1.corrected ++ [w] }).reportErr { kind := 1, die, part, addr, time := s.timebase, detail })
  else
    let s1 := s.logErr 2 die part addr detail
    match paClass pa with
    | .main | .scratch .. => .next { s1 with poison := if s1.poison.contains w then s1.poison else s1.poison ++ [w] }
    | .alias_ t v off =>
      .next (if (s1.hart t).pinned v ∧ off < (s1.hart t).aliasBytes ∧ !s1.poison.contains w then { s1 with poison := s1.poison ++ [w] }
        else s1)
    | .bad => .next s1
    | .window off =>
      let d := off / 0x400000000
      let o := off % 0x400000000
      if d < 4 ∧ o < 0x200000000 then .next (s1.poisonHart (512 * d + o / 0x1000000) (o % 0x1000000 / 8 * 8))
      else if d < 4 ∧ 0x220000000 ≤ o ∧ o < 0x220010000 then
        let h := 4096 * d + (o - 0x220000000) / 16
        .next (if (s1.slot h).state = 0 ∨ (s1.slot h).state = 4 then s1 else if s.failDelayed h then s else s1.slotFail h true)
      else .next (s1.structurePoison part off)

end Sys2Proof.Machine
end

