-- ==== Sys2Proof/Machine/Dungen.lean ====
section
/-! DEFINITION. Sys2Proof/Machine/Dungen.lean: the Dungen instructions, executed by the engine State.eng (14 R341, R342, 15 R363, R364, R366). -/

namespace Sys2Proof.Machine

/-- The engine whose turn it is. -/
def State.dg (s : State) : Engine := s.engine s.eng

/-- A Dungen instruction acts only while its engine is RUNNING or WAITING (14 R341). -/
def dgStep (s : State) (k : Out) : Out := if s.dg.busy then k else .next s

/-- A chunk register, and one written. -/
def Engine.reg (g : Engine) (r : CReg) : Word := SMap.get 0 g.c r.val
def Engine.setReg (g : Engine) (r : CReg) (x : Word) : Engine := { g with c := SMap.put 0 g.c r.val x }

/-- An engine's instruction is complete: it goes on at an index, or halts there when DGSTOP asked for it (14 R341,
15 R362). -/
def State.dgTo (s : State) (g : Engine) (pc : Nat) : State :=
  let g := { g with pc := pc % 4096, waitAt := none, stopReq := false, state := if g.stopReq then .halted else .running }
  let s1 := s.setEngine s.eng g
  if g.state = .halted then s1.updateStepno else s1

/-- The engine goes on with the next instruction. -/
def State.dgNext (s : State) : State := s.dgTo s.dg (s.dg.pc + 1)

/-- The engine's instruction waits. -/
def State.dgWait (s : State) : State := s.setEngine s.eng { s.dg with waitAt := some (s.dg.waitAt.getD s.now) }

/-- The engine's instruction faults (15 R366). -/
def dgFault (s : State) (code : Nat) : Out := .next (s.engineFault s.eng code s.dg.pc)

/-- A transfer starts, and its instruction retires (14 R341). -/
def dgStart (s : State) (kind : XferKind) (a c len : Word) : Out :=
  let g := s.dg
  let x : Xfer := { kind := kind, pc := g.pc, a := a, c := c, len := len.toNat, shadows := s.openShadows g.part }
  .next ((s.setEngine s.eng { g with xfers := g.xfers ++ [x] }).dgNext)

/-- A length that breaks its multiple or its bound (15 R363), or an address its alignment (15 R366, log 55). -/
def lenBad (n : Word) (unit : Nat) (addrs : List Word) : Bool :=
  n.toNat % unit != 0 || decide (2 ^ 32 ≤ n.toNat) || addrs.any fun a => a.toNat % unit != 0

def execNop (s : State) : Out := dgStep s (.next s.dgNext)

/-- SEND (15 R363, R364): a bad handle or destination is FCODE 7. -/
def execSend (a b c d : CReg) (s : State) : Out :=
  dgStep s
    (let g := s.dg
    if g.reg d = 0 then .next s.dgNext
    else if 2 ^ 14 ≤ (g.reg c).toNat ∨ s.destBad g.part (g.reg b) then dgFault s 7
    else if lenBad (g.reg d) 4 [g.reg a, g.reg b] then dgFault s 8
    else dgStart s (.send (g.reg c).toNat) (g.reg a) (g.reg b) (g.reg d))

/-- RECV (15 R363): a source on this device is a local access (01 R53). -/
def execRecv (a b d : CReg) (s : State) : Out :=
  dgStep s
    (let g := s.dg
    let x := g.reg a
    if g.reg d = 0 then .next s.dgNext
    else if bitsOf x.toNat 57 7 ≠ 0 ∨ !(s.isOwn (globalDev x) || s.allowed g.part (globalDev x)) then dgFault s 7
    else if lenBad (g.reg d) 4 [x, g.reg b] then dgFault s 8
    else dgStart s .recv x (g.reg b) (g.reg d))

/-- REDUCE (15 R363): a format it does not take is FCODE 8. -/
def execReduce (op : RedOp) (fmt : BitVec 5) (a b c d : CReg) (s : State) : Out :=
  dgStep s
    (let g := s.dg
    if g.reg d = 0 then .next s.dgNext
    else
      match (fmtOfCode fmt.toNat).filter reduceFmt with
      | none => dgFault s 8
      | some f =>
        if lenBad (g.reg d) (fmtBits f / 8) [g.reg a, g.reg b, g.reg c] then dgFault s 8
        else dgStart s (.reduce op f (g.reg b)) (g.reg a) (g.reg c) (g.reg d))

/-- COPY (15 R363). -/
def execCopy (a b d : CReg) (s : State) : Out :=
  dgStep s
    (let g := s.dg
    if g.reg d = 0 then .next s.dgNext
    else if lenBad (g.reg d) 4 [g.reg a, g.reg b] then dgFault s 8
    else dgStart s .copy (g.reg a) (g.reg b) (g.reg d))

/-- Has the timeout of a WAIT passed (15 R363). -/
def State.dgTimedOut (s : State) (g : Engine) (t : BitVec 8) : Bool :=
  t != 0 && decide (65536 * t.toNat ≤ s.now - g.waitAt.getD s.now)

/-- WAIT (15 R363): one read of its doubleword; once the condition holds it completes as an acquire of device scope, when
every write it returned has reached that level. -/
def execWait (cond : Cond) (a b : CReg) (t : BitVec 8) (s : State) : Out :=
  dgStep s
    (let g := s.dg
    let va := g.reg a
    if va.toNat % 8 ≠ 0 then dgFault s 8
    else
    match s.engineBytes g.part .read va 8 with
    | .error c => dgFault s c
    | .ok pas =>
      let x := BitVec.ofNat 64 (leValue ((s.engineRead s.eng pas).map (·.1)))
      let wids := s.widsAt (s.dieView (engineDie s.eng) (pas.headD 0)) pas
      let s1 := s.engineUse s.eng va pas
      if s.bankDelays pas = false ∧ condHolds cond x (g.reg b) ∧ wids.all fun w => s.widReached w .dev then
        .next (s1.dgTo s1.dg (g.pc + 1))
      else if s.dgTimedOut g t ∧ !condHolds cond x (g.reg b) then dgFault s 6
      else .next (s1.setEngine s.eng { s1.dg with state := .waiting, waitAt := some (g.waitAt.getD s.now) }))

/-- Is a SEND of the engine to a slot still under way. -/
def Engine.sending (g : Engine) (dest slot : Nat) : Bool :=
  g.xfers.any fun x => globalDev x.c == dest && match x.kind with
    | .send k => k == slot
    | _ => false

/-- RING (14 R324, 15 R363): waits until the engine's earlier packets to the slot are injected (05 R153). -/
def execRing (a b c : CReg) (s : State) : Out :=
  dgStep s
    (let g := s.dg
    let slot := (g.reg a).toNat
    let y := g.reg b
    if 2 ^ 14 ≤ slot ∨ s.destBad g.part y then dgFault s 7
    else if globalPa y % 8 ≠ 0 then dgFault s 8
    else if g.sending (globalDev y) slot then .next s.dgWait
    else
      match s.injectRing g.part (globalDev y) slot (globalPa y) (g.reg c) (.engine g.starter) with
      | none => .next s.dgWait
      | some s1 => .next s1.dgNext)

/-- ALLOC (14 R321, 15 R363). -/
def execAlloc (a b : CReg) (s : State) : Out :=
  dgStep s
    (let g := s.dg
    let x := g.reg b
    if allocBad x then dgFault s 7
    else
      match s.freeSlotOn g.part (engineDie s.eng) with
      | none => dgFault s 5
      | some h =>
        let s1 := s.allocSlot h (bitsOf x.toNat 0 13) (bitsOf x.toNat 16 16) g.starter
        .next (s1.dgTo (g.setReg a (BitVec.ofNat 64 h)) (g.pc + 1)))

/-- FREE (14 R321, 15 R363). -/
def execFree (a : CReg) (s : State) : Out :=
  dgStep s
    (let x := s.dg.reg a
    if s.handleBad s.dg.part x then dgFault s 7
    else .next ((if (s.slot x.toNat).state = 0 then s else s.freeSlot x.toNat).dgNext))

/-- Have the engine's transfers ended, with every write of it at device level (14 R341). -/
def State.dgSettled (s : State) : Bool :=
  s.dg.xfers.isEmpty && s.log.all fun w => w.agent != engineAgent s.eng || w.atDevice

/-- FLAG (14 R341): its write waits for those of the engine's transfers. -/
def execFlag (a b : CReg) (s : State) : Out :=
  dgStep s
    (let g := s.dg
    let va := g.reg a
    if va.toNat % 8 ≠ 0 then dgFault s 8
    else
    match s.engineBytes g.part .write va 8 with
    | .error c => dgFault s c
    | .ok pas =>
      if !s.dgSettled || s.writeDelays pas then .next s.dgWait
      else
        let s1 := s.dieWriteBytes (engineAgent s.eng) (engineDie s.eng) false pas (leBytes 8 (g.reg b).toNat)
        .next s1.dgNext)

/-- SETC and ADDC (15 R363). -/
def execSetc (a : CReg) (imm : BitVec 23) (s : State) : Out :=
  dgStep s (.next (s.dgTo (s.dg.setReg a (imm.signExtend 64)) (s.dg.pc + 1)))

def execAddc (a b c : CReg) (imm : BitVec 11) (s : State) : Out :=
  dgStep s (.next (s.dgTo (s.dg.setReg a (s.dg.reg b + s.dg.reg c + imm.signExtend 64)) (s.dg.pc + 1)))

/-- LOOP: the register counts down, and a value other than zero branches (15 R363). -/
def execDungenLoop (a : CReg) (target : BitVec 12) (s : State) : Out :=
  dgStep s
    (let g := s.dg
    let x := g.reg a - 1
    .next (s.dgTo (g.setReg a x) (if x = 0 then g.pc + 1 else g.base + target.toNat)))

/-- Does a branch condition hold (15 R363). -/
def brHolds (c : BrCond) (x y : Word) : Bool :=
  match c with
  | .always => true
  | .cmp k => condHolds k x y

def execBr (c : BrCond) (a b : CReg) (target : BitVec 12) (s : State) : Out :=
  dgStep s
    (let g := s.dg
    .next (s.dgTo g (if brHolds c (g.reg a) (g.reg b) then g.base + target.toNat else g.pc + 1)))

/-- STEP (14 R342). -/
def execStep (s : State) : Out :=
  dgStep s
    (if !s.dgSettled then .next s.dgWait
    else .next ((s.dgTo { s.dg with steps := s.dg.steps + 1 } (s.dg.pc + 1)).updateStepno))

/-- FENCE (14 R341). -/
def execDungenFence (s : State) : Out := dgStep s (if s.dgSettled then .next s.dgNext else .next s.dgWait)

/-- HALT (15 R363): PC stays at it. -/
def execHalt (s : State) : Out :=
  dgStep s (.next ((s.setEngine s.eng { s.dg with state := .halted, waitAt := none, stopReq := false }).updateStepno))

/-- The instruction at an engine's index: none where no DGLOAD has written it, and whether it decodes (14 R341). -/
def Engine.fetch (g : Engine) : Option (BitVec 32) := SMap.get none g.sched g.pc

/-- DUNGEN-WAIT-TIMEOUT: the timeout of the WAIT at which an engine waits has passed (15 R366). -/
def execDungenWaitTimeout (e : Nat) (s : State) : Out :=
  let g := s.engine e
  match (g.fetch.bind fun w => decodeDungen w.toNat) with
  | some (.wait _ _ _ t) => .next (if e < 16 ∧ g.state = .waiting ∧ s.dgTimedOut g t then s.engineFault e 6 g.pc else s)
  | _ => .next s

/-- RESERVED-OPCODE: an engine at an index never written is FCODE 2, at a word that is no instruction FCODE 1 (15 R366). -/
def execReservedOpcode (e : Nat) (s : State) : Out :=
  let g := s.engine e
  if 16 ≤ e ∨ !g.busy then .next s
  else
    match g.fetch with
    | none => .next (s.engineFault e 2 g.pc)
    | some w => .next (if (decodeDungen w.toNat).isNone then s.engineFault e 1 g.pc else s)

end Sys2Proof.Machine
end

