-- ==== Sys2Proof/Machine/Falu.lean ====
section
/-! DEFINITION. Sys2Proof/Machine/Falu.lean: scalar floating point (04 R106 to R110). -/

namespace Sys2Proof.Machine

/-- The format of a precision bit (04 R106). -/
def precFmt (dp : Bool) : Fmt := if dp then .f64 else .f32

/-- The exact value of an operand of a precision: f32 ignores bits [63:32] (04 R106). -/
def precEx (dp : Bool) (x : Word) : Ex := decodeEx (precFmt dp) (if dp then x.toNat else x.toNat % 2 ^ 32)

/-- A rounded operation on sa, sb and sd (04 R107). -/
def faluRound (s : State) (i : Instr) (dp : Bool) (rm : Rm) (d : SReg) (regs : List SReg)
    (f : Rm → Ex × Nat) : Out :=
  faluStep s i rm (d :: regs) d fun r u =>
    let (x, fl) := f r
    let (b, g) := roundFloat (precFmt dp) false r u x
    (b, fl ||| g)

/-- An operation that does not round: bits and flags (04 R107, R108). -/
def faluPlain (s : State) (d a b : SReg) (f : Word → Word → Word × Nat) : Out :=
  if !s.ready [a, b, d] then .next (s.stall [a, b, d])
  else
    let (x, fl) := f (s.rs a) (s.rs b)
    let s1 := s.onH (·.raise 0 fl)
    if s.h.enabled 0 fl then .next (s1.trapWith false none ⟨10, fpTval fl 0 0, 0⟩)
    else .next ((s1.ws d x).retire 4)

/-- FMIN and FMAX: −0 below +0; one NaN gives the other operand; two give the canonical NaN (04 R107, R108). -/
def faluMinMax (dp max : Bool) (x y : Word) : Word × Nat :=
  let p := precEx dp x
  let q := precEx dp y
  let m : Word := if dp then BitVec.allOnes 64 else 0xFFFFFFFF#64
  if p.isNan && q.isNan then (BitVec.ofNat 64 (fmtNan (precFmt dp)), snanFlag p q)
  else ((if (minmaxFirst max p q).1 then x else y) &&& m, snanFlag p q)

/-- The compares: NV for a signalling NaN, and for any NaN where ordered (04 R107, R108). -/
def faluCompare (dp ordered : Bool) (test : Ordering → Bool) (x y : Word) : Word × Nat :=
  let p := precEx dp x
  let q := precEx dp y
  if p.isNan || q.isNan then (0, if ordered || p.isSnan || q.isSnan then flNV else 0)
  else (boolWord (test (exCmp p q)), 0)

def execFadd (dp : Bool) (rm : Rm) (d a b : SReg) (s : State) : Out :=
  faluRound s (.fadd dp rm d a b) dp rm d [a, b] fun r => exAdd r (precEx dp (s.rs a)) (precEx dp (s.rs b))
def execFsub (dp : Bool) (rm : Rm) (d a b : SReg) (s : State) : Out :=
  faluRound s (.fsub dp rm d a b) dp rm d [a, b] fun r => exAdd r (precEx dp (s.rs a)) (precEx dp (s.rs b)).neg
def execFmul (dp : Bool) (rm : Rm) (d a b : SReg) (s : State) : Out :=
  faluRound s (.fmul dp rm d a b) dp rm d [a, b] fun _ => exMul (precEx dp (s.rs a)) (precEx dp (s.rs b))
def execFdiv (dp : Bool) (rm : Rm) (d a b : SReg) (s : State) : Out :=
  faluRound s (.fdiv dp rm d a b) dp rm d [a, b] fun _ => exDiv (precEx dp (s.rs a)) (precEx dp (s.rs b))
def execFsqrt (dp : Bool) (rm : Rm) (d a : SReg) (s : State) : Out :=
  faluRound s (.fsqrt dp rm d a) dp rm d [a] fun _ => exSqrt (precEx dp (s.rs a))
def execFmin (dp : Bool) (d a b : SReg) (s : State) : Out := faluPlain s d a b (faluMinMax dp false)
def execFmax (dp : Bool) (d a b : SReg) (s : State) : Out := faluPlain s d a b (faluMinMax dp true)
def execFmadd (dp : Bool) (rm : Rm) (d a b : SReg) (s : State) : Out :=
  faluRound s (.fmadd dp rm d a b) dp rm d [a, b] fun r =>
    let (p, f) := exMul (precEx dp (s.rs a)) (precEx dp (s.rs b))
    let (x, g) := exAdd r p (precEx dp (s.rs d))
    (x, f ||| g)
def execFeq (dp : Bool) (d a b : SReg) (s : State) : Out := faluPlain s d a b (faluCompare dp false (· == .eq))
def execFlt (dp : Bool) (d a b : SReg) (s : State) : Out := faluPlain s d a b (faluCompare dp true (· == .lt))
def execFle (dp : Bool) (d a b : SReg) (s : State) : Out := faluPlain s d a b (faluCompare dp true (· != .gt))
def execFcvtfi (dp : Bool) (rm : Rm) (d a : SReg) (s : State) : Out :=
  faluStep s (.fcvtfi dp rm d a) rm [a, d] d fun r u => roundInt .i64 r u (precEx dp (s.rs a))
def execFcvtif (dp : Bool) (rm : Rm) (d a : SReg) (s : State) : Out :=
  faluStep s (.fcvtif dp rm d a) rm [a, d] d fun r u => roundFloat (precFmt dp) false r u (.ofInt (s.rs a).toInt)
def execFcvtff (dp : Bool) (rm : Rm) (d a : SReg) (s : State) : Out :=
  faluRound s (.fcvtff dp rm d a) dp rm d [a] fun _ =>
    let x := precEx (!dp) (s.rs a)
    (x, if x.isSnan then flNV else 0)

end Sys2Proof.Machine
end

