-- ==== Sys2Proof/Machine/Group.lean ====
section
/-! DEFINITION. Sys2Proof/Machine/Group.lean: registered groups and their buckets (14 R334 to R340), the owner's combination of contributions, and the release of a bucket at a member. -/

namespace Sys2Proof.Machine

/-- Device of a rank, and its backup (14 R336, R340). -/
def State.rankDev (s : State) (part : Nat) (g : Grp) (r : Nat) : Nat × Option Nat :=
  let w := (s.tableDword part (g.ranks + BitVec.ofNat 64 (4 * r))).getD 0
  let own (d : Nat) : Nat := if s.isOwn d then s.devId else d
  (own (bitsOf w 0 13), if bitsOf w 13 1 = 1 then some (own (bitsOf w 16 13)) else none)

/-- Operation, format and mode of a COPS value (14 R335). -/
def copsOp (x : Nat) : Option RedOp := redOpOf (bitsOf x 0 2)
def copsFmt (x : Nat) : Option Fmt := (fmtOfCode (bitsOf x 2 5)).filter reduceFmt
def copsScatter (x : Nat) : Bool := bitsOf x 7 1 == 1

/-- Is a chunk size valid (14 R335). -/
def chunkOk (c : Nat) : Bool := c % 64 == 0 && decide (64 ≤ c) && decide (c ≤ 8388608)

/-- Cat(GROUP, TAG) (14 R339). -/
def catTag (group tag : Nat) : Word := BitVec.ofNat 64 (65536 * group + tag)

/-- The bucket of a group, and the state with it changed. -/
def State.bucket? (s : State) (part group tag : Nat) : Option Bucket :=
  s.buckets.find? fun b => b.part == part && b.group == group && b.tag == tag

def State.putBucket (s : State) (b : Bucket) : State :=
  let l := s.buckets.filter fun x => !(x.part == b.part && x.group == b.group && x.tag == b.tag)
  { s with buckets := if b.partials.isEmpty && b.results.isEmpty && b.combined.isEmpty && b.epoch.isNone && !b.stopped then l else l ++ [b] }

/-- The buckets of a withdrawn group end (14 R339, 18 R408). -/
def State.dropBuckets (s : State) (part group : Nat) : State :=
  { s with buckets := s.buckets.filter fun b => !(b.part == part && b.group == group) }

/-- Offsets of a chunk's bytes (14 R337). -/
def chunkBytes (c size : Nat) : List Nat := (List.range size).map (c * size + ·)

/-- Is a partial complete (14 R338). -/
def Partial.complete (p : Partial) (size : Nat) : Bool :=
  (chunkBytes p.chunk size).all fun o => (SMap.get none p.bytes o).isSome

/-- Bytes of a contribution added to a partial. -/
def Partial.add (p : Partial) (q : Packet) : Partial :=
  { p with
    bytes := q.data.zipIdx.foldl (fun (m : SMap (Option Byte)) x => SMap.put none m (q.addr + x.2) (some x.1)) p.bytes
    bad := p.bad ++ ((List.range q.data.length).filter fun i => q.poison.testBit (i / 8)).map (q.addr + ·) }

/-- Is a partial the one of a contribution's chunk, rank and device. -/
def Partial.takes (p : Partial) (q : Packet) : Bool :=
  p.chunk == q.addr / q.chunk && p.size == q.chunk && p.rank == q.rank && p.dev == q.src

/-- Is the other partial of a contribution's rank complete, its chunk not yet combined (14 R340). -/
def Bucket.won (b : Bucket) (q : Packet) : Bool :=
  b.partials.any fun p => p.chunk == q.addr / q.chunk && p.rank == q.rank && p.dev != q.src && !p.late && p.complete p.size

/-- Does a contribution belong to a partial that is discarded, of a chunk that has been combined (14 R340). -/
def Bucket.past (b : Bucket) (q : Packet) : Bool := !b.won q && b.partials.any fun p => p.late && p.takes q

/-- A contribution is staged at its owner: into the partial of its chunk, rank and device (14 R338). The second partial of a rank to
complete is discarded: it is late while its chunk waits to be combined, and after that goes as it is complete (14 R340). -/
def Bucket.stage (b : Bucket) (q : Packet) (now : Nat) : Bucket :=
  let p0 := (b.partials.find? (·.takes q)).getD { chunk := q.addr / q.chunk, size := q.chunk, rank := q.rank, dev := q.src, firstAt := now }
  let p := { p0.add q with late := p0.late || b.won q }
  let rest := b.partials.filter fun p => !p.takes q
  { b with partials := if b.past q && p.complete p.size then rest else rest ++ [p] }

/-- A contribution reaches its owner. The first of a round fixes its epoch, operation and chunk; an epoch that differs raises cause 18 on
the group's NOTIFY hart and stops the bucket (14 R339). One for a partial that a combination has left behind counts for the round it was
made in, so that it fixes nothing of the next and is not held to its epoch: the spec does not say for which round it counts (log 44). -/
def State.stageContribution (s : State) (part : Nat) (g : Grp) (q : Packet) : State :=
  let b0 := (s.bucket? part q.group q.tag).getD { part := part, group := q.group, tag := q.tag, ops := q.ops, chunk := q.chunk }
  let b := if b0.epoch.isNone then { b0 with ops := q.ops, chunk := q.chunk } else b0
  if b0.stopped || q.chunk = 0 then s
  else if b0.past q then s.putBucket (b0.stage q s.ref)
  else if b.epoch.isSome && b.epoch != some q.epoch then
    (s.putBucket { b with stopped := true }).pushEvent g.notify 18 (catTag q.group q.tag)
  else s.putBucket (({ b with epoch := some q.epoch }).stage q s.ref)

/-- The first packet of the inbox that is p and has not landed. -/
def State.inboxPlace (s : State) (p : Packet) : Option Nat := findPos (fun (q : InPacket) => q.p == p && q.wids.isNone) s.inbox

/-- The fabric unit looks a group up: it walks to the group's entry and reads it (17 R380, R384). -/
def State.touchGroup (s : State) (part group : Nat) : State :=
  let va := (s.part part).gtab + BitVec.ofNat 64 (8 * group)
  let s1 := s.touchWalk part (va.toNat % 2 ^ 56)
  match s.translate none part true .read va with
  | .ok (.loc pa) => s1.touchTier pa false
  | _ => s1

/-- The contribution at a place of the inbox, which arrived at a time, is staged, and then counted like a landed packet; this device's own reach
its staging area with no slot (14 R337, R323). -/
def State.stageAt (s : State) (i t : Nat) (p : Packet) : State :=
  let x := s.slot p.slot
  let gone := { s with inbox := dropAt s.inbox i }
  let part := s.packetPart p
  match s.group? part p.group with
  | none => if p.src = s.devId then gone.dropBuckets part p.group
            else (gone.dropBuckets part p.group).storeEarly (slotDie p.slot) t p
  | some g =>
    if p.src = s.devId then (gone.touchGroup part p.group).stageContribution part g p
    else if x.state = 0 ∨ phaseDist p x = 2 then gone.storeEarly (slotDie p.slot) t p
    else if p.gen ≠ x.gen ∨ phaseDist p x = 3 then gone
    else
      let s1 := (s.touchGroup part p.group).stageContribution part g p
      { s1 with inbox := modAt (fun (y : InPacket) => { y with wids := some [] }) s1.inbox i }

/-- The packets of a group that wait early at a die and whose condition has cleared arrive, in the order of their arrival (14 R332). -/
def State.letGroup (s0 : State) (d group : Nat) : State :=
  let s := s0.dropAged d
  let l := s.earlyOf d
  let mine (x : EarlyPacket) : Bool :=
    x.p.freg == 0 && (x.p.kind == .contribution || x.p.kind == .result) && x.p.group == group && (s.slot x.p.slot).state != 0 &&
      !s.groupMissing x.p
  (l.filter mine).foldl (fun (t : State) x => t.slotArrival x.at_ x.p) (s.setEarly d (l.filter fun x => !mine x))

/-- CONTRIBUTION: a contribution that has arrived is staged; where it waits early for its group, now registered, the packets that wait
for it are admitted first (14 R332, R337 to R339). -/
def execContribution (p : Packet) (s : State) : Out :=
  match s.inboxPlace p with
  | some i => .next (if p.kind = .contribution ∧ p.freg = 0 then s.stageAt i ((s.inbox[i]?.map (·.at_)).getD s.ref) p else s)
  | none => .next (if (s.earlyOf (slotDie p.slot)).any (·.p == p) then s.letGroup (slotDie p.slot) p.group else s)

/-- The partial of a rank that a chunk's combination takes. -/
def Bucket.used (b : Bucket) (c r : Nat) : Option Partial :=
  b.partials.find? fun p => p.chunk == c && p.rank == r && !p.late && p.size == b.chunk && p.complete b.chunk

/-- The element at an offset of a partial, with whether it is poisoned. -/
def Partial.elem (p : Partial) (o n : Nat) : Nat × Bool :=
  (leValue ((List.range n).map fun i => (SMap.get none p.bytes (o + i)).getD 0), (List.range n).any fun i => p.bad.contains (o + i))

/-- A chunk combined in rank order (14 R338): its bytes, each with whether a partial of its element was poisoned. -/
def combineChunk (op : RedOp) (f : Fmt) (c size : Nat) (ps : List Partial) : List (Byte × Bool) :=
  let n := fmtBits f / 8
  (List.range (size / n)).flatMap fun i =>
    let o := c * size + n * i
    match ps with
    | [] => []
    | p :: l =>
      let (x, bad) := l.foldl (fun (acc : Nat × Bool) q =>
        (combineBits op f acc.1 (q.elem o n).1, acc.2 || (q.elem o n).2)) (p.elem o n)
      (leBytes n x).map (·, bad)

/-- Bytes of the fabric unit's write at a virtual address of a member's partition, at shadow pages where one of the given shadows is
open (05 R149). None while it stalls: the pool is empty, or a bank is waking (06 R198, 01 R54). Memory the partition may not reach
is not written (17 R383). -/
def State.unitWrite (s : State) (part : Nat) (shadows : List (Nat × Nat)) (va : Word) (data : List (Byte × Bool)) : Option State :=
  match s.unitTargets part va data.length with
  | none => some s
  | some pas =>
    match s.shadowAddrs part shadows (va.toNat % 2 ^ 56) pas with
    | none => none
    | some (s1, l) =>
      let d := homeDie (l.headD 0)
      if !s1.shadowOk part l then some s
      else if s.writeDelays l then none
      else some ((s1.dieWriteList (fabricAgent d) d false l data).touchWalk part (va.toNat % 2 ^ 56))

/-- Packets of a chunk: their window offsets (14 R338). -/
def resultOffsets (c size : Nat) : List Nat := (List.range ((size + 511) / 512)).map fun i => c * size + 512 * i

/-- A result packet of a round's operation and chunk size reaches this member: it is written in the result area, unless the member has it
already (14 R338). None while that write stalls. -/
def State.takeResult (s : State) (part : Nat) (g : Grp) (b : Bucket) (ops chunk o : Nat) (data : List (Byte × Bool)) : Option State :=
  if b.results.any (·.1 == o) then some s
  else
    (s.unitWrite part (s.openShadows part) ((s.bktEnt part g b.tag).resultVa o) data).map fun s1 =>
      let wids := (List.range (s1.nextWid - s.nextWid)).map (s.nextWid + ·)
      s1.putBucket { b with
        results := b.results ++ [(o, wids)], resOps := if b.results.isEmpty then ops else b.resOps
        resChunk := if b.results.isEmpty then chunk else b.resChunk }

/-- A chunk's result packets for another rank, then the silent ring, go to the fabric unit (14 R338). A device outside the
allowlist, or a handle with more than 14 bits, is refused: nothing is sent there (17 R384, 14 R319, log 82). -/
def State.sendResult (s : State) (part : Nat) (b : Bucket) (dev slot c : Nat) (data : List (Byte × Bool)) : State :=
  if !s.allowed part dev ∨ 2 ^ 14 ≤ slot then s
  else
    let base : Packet := { dst := dev, src := s.devId, kind := .result, slot := slot, group := b.group, tag := b.tag, ops := b.ops
                           chunk := b.chunk }
    let packets := (resultOffsets c b.chunk).map fun o =>
      let bytes := (data.drop (o - c * b.chunk)).take 512
      let bad := (bytes.zipIdx.filter (·.1.2)).map (·.2 / 8)
      { base with addr := o, data := bytes.map (·.1), poison := bad.eraseDups.foldl (fun a w => a + 2 ^ w) 0 }
    { s with unitOut := s.unitOut ++ (packets ++ [{ base with kind := .ring }]).map (part, ·) }

/-- The bucket after a chunk is combined: its partials go, and of a rank served by two devices the other one, unless it has come whole, is
to be discarded; with the last own chunk the round ends (14 R338, R340). -/
def State.afterCombine (s : State) (part : Nat) (g : Grp) (b : Bucket) (c : Nat) : Bucket :=
  let others := (List.range g.nr).flatMap fun r =>
    match b.used c r, s.rankDev part g r with
    | some p, (d, some d') =>
      let o := if p.dev = d then d' else d
      let q := (b.partials.find? fun q => q.chunk == c && q.size == b.chunk && q.rank == r && q.dev == o).getD
        { chunk := c, size := b.chunk, rank := r, dev := o, firstAt := s.ref }
      if q.complete b.chunk then [] else [q]
    | _, _ => []
  let e := s.bktEnt part g b.tag
  let own := (List.range (e.blen / b.chunk)).filter fun i => (e.boff / b.chunk + i) % g.nr == g.me
  let done := c :: b.combined
  let b1 := { b with partials := (b.partials.filter fun (p : Partial) => p.chunk != c) ++ others.map fun (p : Partial) => { p with late := true } }
  if own.all fun i => done.contains (e.boff / b.chunk + i) then { b1 with combined := [], epoch := none } else { b1 with combined := done }

/-- COMBINE: with every rank's partial of a chunk complete its owner combines them and sends or writes the result
(14 R338). -/
def execCombine (part group tag c : Nat) (s : State) : Out :=
  match s.group? part group, s.bucket? part group tag with
  | none, some _ => .next (s.dropBuckets part group)
  | some g, some b =>
    let ps := (List.range g.nr).filterMap (b.used c)
    (match copsOp b.ops, copsFmt b.ops with
    | some op, some f =>
      if b.stopped || b.chunk = 0 || c % g.nr ≠ g.me || ps.length ≠ g.nr then .next s
      else
        let data := combineChunk op f c b.chunk ps
        let s1 := s.putBucket (s.afterCombine part g b c)
        let others := (List.range g.nr).filter fun r => r != g.me && !copsScatter b.ops
        let s2 := others.foldl (fun (t : State) r =>
          t.sendResult part b (s.rankDev part g r).1 (g.slotbase + g.nr + g.me) c data) s1
        .next (((resultOffsets c b.chunk).foldl (fun (acc : Option State) o => acc.bind fun t =>
          t.takeResult part g ((t.bucket? part group tag).getD { b with partials := [], combined := [], epoch := none, results := [] })
            b.ops b.chunk o
            ((data.drop (o - c * b.chunk)).take 512)) (some s2)).getD s)
    | _, _ => .next s)
  | _, none => .next s

/-- Chunks of a bucket that a member is due: all, or with MODE 1 its own (14 R338). -/
def dueChunks (g : Grp) (e : BktEnt) (b : Bucket) : List Nat :=
  ((List.range (e.blen / b.resChunk)).map (e.boff / b.resChunk + ·)).filter fun c => !copsScatter b.resOps || c % g.nr == g.me

/-- BUCKET-RELEASE: every due result has reached device level, and the member writes its flag, at its live page (14 R338, 05 R149). -/
def execBucketRelease (part group tag : Nat) (s : State) : Out :=
  match s.group? part group, s.bucket? part group tag with
  | none, some _ => .next (s.dropBuckets part group)
  | some g, some b =>
    let e := s.bktEnt part g tag
    let got (o : Nat) : Bool := b.results.any fun x => x.1 == o && x.2.all fun w => s.widReached w .dev
    if b.stopped || b.resChunk = 0 || !((dueChunks g e b).all fun c => (resultOffsets c b.resChunk).all got) then .next s
    else
      .next (((s.putBucket { b with results := [], resOps := 0, resChunk := 0 }).unitWrite part [] e.faddr ((leBytes 8 e.fval.toNat).map (·, false))).getD s)
  | _, none => .next s

/-- T-LATE: a rank has no complete partial of a chunk T_late after the chunk's first (14 R340). -/
def execTLate (part group tag c rank : Nat) (s : State) : Out :=
  match s.group? part group, s.bucket? part group tag with
  | none, some _ => .next (s.dropBuckets part group)
  | some g, some b =>
    let l := (b.partials.filter fun p => p.chunk == c && !p.late).map (·.firstAt)
    (match l with
    | [] => .next s
    | a :: r =>
      let first := r.foldl min a
      if b.stopped || decide (g.nr ≤ rank) || (b.used c rank).isSome || decide (s.ref - first < g.late) then .next s
      else .next ((s.putBucket { b with stopped := true }).pushEvent g.notify 23 (catTag group tag)))
  | _, none => .next s

/-- A result packet lands: the member writes it in its own result area (14 R338, 05 R152). -/
def State.landResult (s : State) (i : Nat) (q : InPacket) : State :=
  let p := q.p
  let x := s.slot p.slot
  let gone := { s with inbox := dropAt s.inbox i }
  let part := s.packetPart p
  match s.group? part p.group with
  | none => (gone.dropBuckets part p.group).storeEarly (slotDie p.slot) q.at_ p
  | some g =>
    if x.state = 0 ∨ phaseDist p x = 2 then gone.storeEarly (slotDie p.slot) q.at_ p
    else if p.gen ≠ x.gen ∨ phaseDist p x = 3 then gone
    else
      let b := (s.bucket? part p.group p.tag).getD
        { part := part, group := p.group, tag := p.tag, ops := p.ops, chunk := p.chunk }
      match s.takeResult part g b p.ops p.chunk p.addr (p.data.zipIdx.map fun y => (y.1, p.poison.testBit (y.2 / 8))) with
      | none => s
      | some s1 =>
      let wids := (List.range (s1.nextWid - s.nextWid)).map (s.nextWid + ·)
      { s1 with inbox := modAt (fun (y : InPacket) => { y with wids := some wids }) s1.inbox i }

/-- LAND of a packet that has arrived (05 R152). -/
def execLand (i : Nat) (s : State) : Out :=
  match s.inbox[i]? with
  | none => .next s
  | some q =>
    if q.wids.isSome then .next s
    else
      match q.p.kind with
      | .write => .next (s.landWrite i q)
      | .result => .next (s.landResult i q)
      | _ => .next s

end Sys2Proof.Machine
end

