-- ==== Sys2Proof/Machine/Strip.lean ====
section
/-! DEFINITION. Sys2Proof/Machine/Strip.lean: fabric streams (15 R355 to R358): strips as they arrive, are delivered, fall short and fail; and the arrival of any packet (05 R152, 14 R318). -/

namespace Sys2Proof.Machine

/-- The hart of a partition that runs with its stream register f OPEN on a group and tag. -/
def State.stripHart (s : State) (part f group tag : Nat) : Option Nat :=
  (List.range 2048).find? fun n =>
    let r := (s.hart n).freg f
    (s.hart n).run != .idle && r.state == 1 && r.group == group && r.tag == tag && s.hartPart n == part

/-- A received strip of a stream. -/
def State.inStrip (s : State) (part f group tag seqn : Nat) : Option InStrip :=
  s.inStrips.find? fun x => x.part == part && x.f == f && x.group == group && x.tag == tag && x.seqn == seqn

/-- A chunk of a strip added to what has arrived. -/
def State.addChunk (s : State) (part : Nat) (p : Packet) : State :=
  let f := p.freg - 1
  match s.inStrip part f p.group p.tag p.seqn with
  | some x =>
    if x.chunks.any fun c => c.1 == p.index && c.2.1 == p.addr then s
    else { s with inStrips := s.inStrips.map fun (y : InStrip) =>
      if y = x then { y with chunks := y.chunks ++ [(p.index, p.addr, p.data)] } else y }
  | none => { s with inStrips := s.inStrips ++ [{ part := part, f := f, group := p.group, tag := p.tag, seqn := p.seqn, elems := p.elems
                                                  chunk := p.chunk, chunks := [(p.index, p.addr, p.data)], firstAt := s.ref }] }

/-- A receive of a hart for strip seqn of a stream register. -/
def Hart.post (h : Hart) (f seqn : Nat) : Option RecvPost := h.posts.find? fun r => r.f == f && r.seqn == seqn

/-- A strip chunk that arrived at a time (15 R358, 14 R318, R332): of a group not registered, or with no receive posted, it waits in the
early-arrival store; of another format, or of a strip already delivered, it is discarded. -/
def State.stripArrival (s : State) (t : Nat) (p : Packet) : State :=
  if p.dst ≠ s.devId ∨ !packetFits p then s.discard 0
  else
    match s.groupPart p.group with
    | none => s.storeEarly 0 t p
    | some part =>
      match s.stripHart part (p.freg - 1) p.group p.tag with
      | none => s.storeEarly 0 t p
      | some n =>
        let h := s.hart n
        let r := h.freg (p.freg - 1)
        if r.opfmt ≠ p.ops then s.discard 0
        else
          match h.post (p.freg - 1) p.seqn with
          | some _ =>
            let first := (s.inStrip part (p.freg - 1) p.group p.tag p.seqn).isNone
            let s1 := s.addChunk part p
            if first then
              let re (x : RecvPost) : RecvPost := if x.f = p.freg - 1 ∧ x.seqn = p.seqn then { x with since := s.ref } else x
              s1.setHart n { h with posts := h.posts.map re }
            else s1
          | none => if (p.seqn + 2 ^ 32 - r.pseq) % 2 ^ 32 < 2 ^ 31 then s.storeEarly 0 t p else s

/-- Chunks of a strip of some bytes: a strip of no elements is one empty chunk. -/
def chunkCount (bytes size : Nat) : Nat := if size = 0 then 1 else max 1 ((bytes + size - 1) / size)

/-- Packets of up to 512 bytes that chunk i of a strip goes in (14 R318), and all packets of a strip, by chunk and place. -/
def chunkParts (bytes size i : Nat) : Nat := max 1 ((min size (bytes - i * size) + 511) / 512)
def stripParts (bytes size : Nat) : List (Nat × Nat) :=
  (List.range (chunkCount bytes size)).flatMap fun i => (List.range (chunkParts bytes size i)).map (i, ·)

/-- Has a packet of a strip arrived. -/
def InStrip.piece (x : InStrip) (c : Nat × Nat) : Option (List Byte) :=
  (x.chunks.find? fun y => y.1 == c.1 && y.2.1 == c.2).map (·.2.2)

/-- The bytes of a strip that has wholly arrived (15 R355). -/
def InStrip.whole (x : InStrip) (n : Nat) : Option (List Byte) :=
  (stripParts (x.elems * n) x.chunk).foldl (fun (acc : Option (List Byte)) c =>
    match acc, x.piece c with
    | some l, some d => some (l ++ d)
    | _, _ => none) (some [])

/-- Element e of a strip's bytes: zero bits at or above its length (15 R357). -/
def stripElem (data : List Byte) (n e : Nat) : Nat := leValue ((List.range n).map fun i => data[n * e + i]?.getD 0)

/-- Bytes of an element of a stream register's format. -/
def FReg.esize (r : FReg) : Nat := match copsFmt r.opfmt with
  | some f => fmtBits f / 8
  | none => 4

/-- The planes that one element of a delivery writes (15 R357): active, the strip's bits and zero tangents, or tangents kept under
VONLY; inactive, as the captured kz says. -/
def RecvPost.writes (r : RecvPost) (t e x : Nat) : List (Nat × Nat) :=
  let tan := (List.range t).map fun p => (p + 1, 0)
  if r.mask.getLsbD e then (0, x) :: (if r.vonly then [] else tan)
  else if r.kz then (0, 0) :: tan
  else []

/-- The strip that arrived for the oldest receive of a stream register, with that receive. -/
def State.readyStrip (s : State) (n f : Nat) : Option (RecvPost × InStrip × List Byte) :=
  let h := s.hart n
  let r := h.freg f
  match h.posts.find? fun x => x.f == f with
  | none => none
  | some x =>
    match s.inStrip (s.hartPart n) f r.group r.tag x.seqn with
    | none => none
    | some t => (t.whole r.esize).map fun d => (x, t, d)

/-- The receive at the head of a stream register, changed. -/
def Hart.setPost (h : Hart) (x y : RecvPost) : Hart := { h with posts := h.posts.map fun (z : RecvPost) => if z = x then y else z }

/-- STRIP-DELIVERY: a complete strip is delivered into the receive of a VCRECV, an element at each move and in element order, as
writes of stream F that the VCRECV makes, after those of the receives before it (05 R128, R135); then DSEQ advances (15 R357). -/
def execStripDelivery (n f : Nat) (s : State) : Out :=
  if 2048 ≤ n ∨ 4 ≤ f then .next s
  else
    match s.readyStrip n f with
    | none => .next s
    | some (x, t, d) =>
      match x.vd with
      | none => .next s
      | some v =>
        let h := s.hart n
        let r := h.freg f
        if r.state ≠ 1 ∨ s.fenced n 11 x.seq true ∨ !h.postsDone x.seq then .next s
        else if x.next < x.vl then
          let s1 := (x.writes h.tangents x.next (stripElem d r.esize x.next)).foldl (fun (t : State) w =>
            t.writePinned n 11 x.seq false v w.1 x.next w.2) s
          .next (s1.setHart n ((s1.hart n).setPost x { x with next := x.next + 1 }))
        else
          let ended (y : Delivery) : Delivery := if y.src = .strip f x.seqn then { y with done := true } else y
          let h2 := { h.setF f { r with dseq := (r.dseq + 1) % 2 ^ 32 } with
            posts := h.posts.filter fun y => y != x
            deliveries := h.deliveries.map ended }
          .next ({ s.setHart n h2 with inStrips := s.inStrips.filter fun y => y != t }.dropFences n)

/-- The neighbour before a member in rank order, and the one after it (15 R355). -/
def State.rankBefore (s : State) (part : Nat) (g : Grp) : Nat := (s.rankDev part g ((g.me + g.nr - 1) % g.nr)).1
def State.rankAfter (s : State) (part : Nat) (g : Grp) : Nat := (s.rankDev part g ((g.me + 1) % g.nr)).1

/-- Bitmap of the chunks of a strip that are missing, as little-endian bytes; none arrived means all (15 R358). -/
def missingMap (x : Option InStrip) (n : Nat) : Nat × List Byte :=
  match x with
  | none => (0, [])
  | some x =>
    let bytes := x.elems * n
    let k := chunkCount bytes x.chunk
    let m := (List.range k).foldl (fun a i =>
      if (List.range (chunkParts bytes x.chunk i)).all fun j => (x.piece (i, j)).isSome then a else a + 2 ^ i) 0
    (1, leBytes ((k + 7) / 8) m)

/-- STRIP-SHORTFALL: a receive whose strip is not complete T_short after its post, its first chunk or its last notice
sends a shortfall notice to the neighbour (15 R358). -/
def execStripShortfall (n f : Nat) (s : State) : Out :=
  if 2048 ≤ n ∨ 4 ≤ f then .next s
  else
    let h := s.hart n
    let r := h.freg f
    let part := s.hartPart n
    let due (x : RecvPost) : Bool := x.f == f && decide (s.tShort part ≤ s.ref - x.since) &&
      ((s.inStrip part f r.group r.tag x.seqn).bind fun y => y.whole r.esize).isNone
    match h.posts.find? due, s.group? part r.group with
    | some x, some g =>
        let t := s.inStrip part f r.group r.tag x.seqn
        let (known, m) := missingMap t r.esize
        let re (y : RecvPost) : RecvPost := if y = x then { y with since := s.ref } else y
        .next ((s.setHart n { h with posts := h.posts.map re }).emit
          { dst := s.rankBefore part g, src := s.devId, kind := .shortfall, group := r.group, tag := r.tag, freg := f + 1
            seqn := x.seqn, expect := known, data := m })
    | _, _ => .next s

/-- The stream of a register on a group and tag fails in a context that still holds it: FAILED, with no receive of it left (15 R358). -/
def Hart.failStream (h : Hart) (f group tag : Nat) : Hart :=
  let r := h.freg f
  if r.group = group ∧ r.tag = tag then { h.setF f { r with state := 2 } with posts := h.posts.filter fun x => x.f != f } else h

/-- The stream of a register fails on a hart, or on an instance saved from one, in its image too: cause 17, and the chunks that had
arrived go (15 R358, 18 R399, R408). -/
def State.failStream (s : State) (n f group tag : Nat) : State :=
  let part := s.agentPart n
  let s1 := { s with inStrips := s.inStrips.filter fun x => !(x.part == part && x.f == f && x.group == group && x.tag == tag) }
  let s2 := if n < 2048 then s1.setHart n ((s1.hart n).failStream f group tag)
    else match s1.savedFrom n with
      | none => s1
      | some x =>
        (s1.setSaved x (·.failStream f group tag)).putSaved (hartDie x.left) (s1.poolBase x.part x.poolEntry) (0x590 + 32 * f) false
          (fregWord ((x.ctx.failStream f group tag).freg f) 2)
  s2.pushEvent n 17 (catTag group tag)

/-- A packet of a sent strip, by chunk and place (15 R355). -/
def SentStrip.packet (x : SentStrip) (dev : Nat) (c : Nat × Nat) : Packet :=
  { dst := x.dest, src := dev, kind := .contribution, addr := c.2
    data := (x.data.drop (c.1 * x.chunk + 512 * c.2)).take (min 512 (x.chunk - 512 * c.2)), group := x.group
    tag := x.tag, ops := x.ops, chunk := x.chunk, freg := x.f + 1, seqn := x.seqn, index := c.1, elems := x.elems }

def SentStrip.packets (x : SentStrip) (dev : Nat) : List Packet := (stripParts x.data.length x.chunk).map (x.packet dev)

/-- Is a packet of a strip still in its hart's queue. -/
def State.stripQueued (s : State) (x : SentStrip) : Bool :=
  (s.agentCtx x.hart).any fun h => h.sq.any fun a => match a.op with
    | .contrib p _ => p.freg == x.f + 1 && p.seqn == x.seqn && p.group == x.group && p.tag == x.tag
    | _ => false

/-- Has an OPEN stream of a hart, or of an instance saved from one, on a register, group and tag still to send a strip (15 R358). -/
def State.unsent (s : State) (part f group tag seqn : Nat) : Bool :=
  let owes (h : Hart) : Bool :=
    let r := h.freg f
    r.state == 1 && r.group == group && r.tag == tag && decide ((seqn + 2 ^ 32 - r.sseq) % 2 ^ 32 < 2 ^ 31)
  ((s.stripHart part f group tag).any fun n => owes (s.hart n)) || s.kernels.any fun k => k.resumable.any fun x => x.part == part && owes x.ctx

/-- The strip that a notice names, in this device's hold or past it; of an earlier stream none counts while the stream of today has still to
send it (15 R358). -/
def State.noticedStrip (s : State) (p : Packet) : Option SentStrip :=
  let l := s.sentStrips.filter fun x => x.dest == p.src && x.f + 1 == p.freg && x.group == p.group && x.tag == p.tag && x.seqn == p.seqn
  (l.find? fun x => !x.ended).or
    (if (s.groupPart p.group).any fun part => s.unsent part (p.freg - 1) p.group p.tag p.seqn then none else l.head?)

/-- The fail reply to a notice (15 R358). -/
def stripFail (dev : Nat) (p : Packet) : Packet :=
  { dst := p.src, src := dev, kind := .fail, group := p.group, tag := p.tag, freg := p.freg, seqn := p.seqn }

/-- STRIP-NOTICE: a shortfall notice at the sender, which re-sends the named chunks of a strip it holds, ignores it for a
strip it has not sent, and otherwise replies that its hold has ended; a fourth notice, or that reply, fails the stream at
both ends (15 R358). -/
def execStripNotice (p : Packet) (s : State) : Out :=
  if p.freg = 0 then .next s
  else if p.dst ≠ s.devId then .next (s.discard 0)
  else
    let f := p.freg - 1
    match p.kind with
    | .fail =>
      (match (s.groupPart p.group).bind fun part => s.stripHart part f p.group p.tag with
      | some n => .next (if ((s.hart n).post f p.seqn).isSome then s.failStream n f p.group p.tag else s)
      | none => .next s)
    | .shortfall =>
      (match s.noticedStrip p with
      | some x =>
        if s.stripQueued x then .next s
        else if x.ended || x.notices = 3 then
          .next ((({ s with sentStrips := s.sentStrips.map fun y => if y = x then { y with ended := true, data := [] } else y }).failStream
            x.hart f p.group p.tag).emit (stripFail s.devId p))
        else
          let named (q : Packet) : Bool := p.expect == 0 || (leValue p.data).testBit q.index
          let up (y : SentStrip) : SentStrip := if y = x then { y with notices := y.notices + 1 } else y
          .next (((x.packets s.devId).filter named).foldl (fun (t : State) q => t.emit q) { s with sentStrips := s.sentStrips.map up })
      | none => .next s)
    | _ => .next s

/-- STRIP-HOLD-END: the fabric unit drops a strip T_hold after it is sent (15 R357); that it was sent is still known (15 R358). -/
def execStripHoldEnd (n f seqn : Nat) (s : State) : Out :=
  let past (x : SentStrip) : Bool :=
    x.hart == n && x.f == f && x.seqn == seqn && !s.stripQueued x && decide (s.tHold (s.agentPart n) ≤ s.ref - x.sentAt)
  .next { s with sentStrips := s.sentStrips.map fun x => if past x then { x with ended := true, data := [] } else x }

/-- STRIP-CHUNK: a chunk from the fabric, or one of this device's own that has left its hart's queue (15 R355, R358). -/
def execStripChunk (p : Packet) (s : State) : Out :=
  if p.kind ≠ .contribution ∨ p.freg = 0 then .next s
  else
    match s.inboxPlace p with
    | some i => .next (({ s with inbox := dropAt s.inbox i }).stripArrival ((s.inbox[i]?.map fun (y : InPacket) => y.at_).getD s.ref) p)
    | none => .next (if p.src = s.devId then s else s.stripArrival s.ref p)

/-- Strip chunks that wait early for a stream are admitted once its receive is posted (14 R332). -/
def State.admitStrips (s0 : State) (f group tag seqn : Nat) : State :=
  let s := s0.dropAged 0
  let mine (x : EarlyPacket) : Bool := x.p.freg == f + 1 && x.p.group == group && x.p.tag == tag && x.p.seqn == seqn
  let l := s.earlyOf 0
  (l.filter mine).foldl (fun (t : State) x => t.stripArrival x.at_ x.p) (s.setEarly 0 (l.filter fun x => !mine x))

/-- ARRIVE: a packet reaches this device's fabric unit, or is lost (05 R152, 14 R318). -/
def execArrive (p : Packet) (lost : Bool) (s : State) : Out :=
  if lost then .next s
  else
    match p.kind with
    | .write => .next (s.slotArrival s.ref p)
    | .ring => execRingArrival p s
    | .shortfall => if p.freg = 0 then execShortfallNotice p s else execStripNotice p s
    | .fail => if p.freg = 0 then execFailNotice p s else execStripNotice p s
    | .contribution => if p.freg = 0 then .next (s.slotArrival s.ref p) else .next (s.stripArrival s.ref p)
    | .result => .next (s.slotArrival s.ref p)
    | .readReq => execRemoteRead p s
    | .readResp => execReadResponse p s

end Sys2Proof.Machine
end

