-- ==== Sys2Proof/Machine/Queue.lean ====
section
/-! DEFINITION. Sys2Proof/Machine/Queue.lean: queues (06 R183 to R187). -/

namespace Sys2Proof.Machine

/-- QPUSH: a queue with a feeding channel is cause 8 with the queue number (06 R184). -/
def execQpush (q : Fin 8) (a : SReg) (s : State) : Out :=
  if !s.ready [a] then .next (s.stall [a])
  else
    let x := s.h.queue q.val
    if x.chan.isSome then .next (s.trap ⟨8, BitVec.ofNat 64 q.val, 0⟩)
    else .next ((s.enqueue [s.access x.home 0 (.push q.val (s.rs a))]).retire 4)

/-- The channel's fault a pop of n entries takes at its issue (06 R186). -/
def Hart.popIssueFault (h : Hart) (q n : Nat) : Option (Nat × ChanFault) :=
  match (h.queue q).chan with
  | none => none
  | some c =>
    if (h.queue q).entries.length < n then ((SMap.get none h.chanFaults c).filter (!·.reported)).map (c, ·) else none

/-- A poisoned entry among the n oldest of a queue (18 R406). -/
def State.popPoisoned (s : State) (q n : Nat) : Option Trp :=
  (s.h.imagePoison [(queueOffset q 0, queueOffset q (min n 16))]).map fun o => ⟨19, BitVec.ofNat 64 (2 ^ 63 + o), s.h.eidx⟩

/-- QPOP (06 R184, R186). -/
def execQpop (d : SReg) (q : Fin 8) (s : State) : Out :=
  if !s.ready [d] then .next (s.stall [d])
  else
    match s.h.popIssueFault q.val 1 with
    | some (c, f) => .next (s.chanTrap c s.h.eidx f)
    | none =>
      match s.popPoisoned q.val 1 with
      | some t => .next (s.memTrap t)
      | none => .next ((s.enqueue [s.access (s.h.queue q.val).home 0 (.popS q.val d)]).retire 4)

/-- Is an access a push or pop of a queue. -/
def AccOp.onQueue (q : Nat) : AccOp → Bool
  | .push r _ => r == q
  | .popS r _ => r == q
  | .popV r _ _ _ => r == q
  | .popW r _ _ => r == q
  | _ => false

/-- QBIND: waits for earlier pushes and pops of the queue and for copies of its channel; a channel that feeds another
queue is cause 8 (06 R185). -/
def execQbind (q : Fin 8) (t : QTarget) (s : State) : Out :=
  let h := s.h
  let x := h.queue q.val
  let taken := match t with
    | .chan c => (List.range 8).any fun r => r != q.val && (h.queue r).chan == some c.val
    | _ => false
  let copying := match x.chan with
    | some c => h.copies.any fun y => y.chan == c && !s.copyDone s.hid y
    | none => false
  if taken then .next (s.trap ⟨8, BitVec.ofNat 64 q.val, 0⟩)
  else if h.sq.any fun a => a.op.onQueue q.val then .next (s.stallOn fun a => a.op.onQueue q.val)
  else if copying then .next s.block
  else
    let x' : QReg := match t with
      | .stream n => { x with home := n.val, chan := none }
      | .chan c => { x with home := 0, chan := some c.val }
      | .none => {}
    .next ((s.onH fun h => h.setQ q.val x').retire 4)

end Sys2Proof.Machine
end

