-- ==== Sys2Proof/Machine/Operands.lean ====
section
/-! DEFINITION. Sys2Proof/Machine/Operands.lean: what every vector and matrix member shares: its operands (01 R20, R30, 09 R231 to R236), its waits (05 R129), its checks at issue (03 R87, 09 R237), the strips it consumes from bound registers (06 R179 to R182), its element loop (09 R237, 08 R217), and its issue outside a convoy. -/

namespace Sys2Proof.Machine

/-- How one execution of a member goes: the elements lo ≤ e < hi it may process, whether it stands in a convoy, the place of
the first word it reads, its rounding mode and the number it drew. -/
structure Pass where
  lo : Nat := 0
  hi : Nat := 65536
  conv : Bool := false
  /-- number of the instruction, or of a convoy's first member; and which member it is -/
  base : Nat := 0
  member : Nat := 0
  place : Nat := 0
  rm : Rm := .rne
  seq : Option Word := none
  deriving DecidableEq, Repr

/-- How an execution ends: done; a trap with the effects that stand; reads whose words it needs, with the fences they
carry; or a wait, as the state it waits in. -/
inductive VRes where
  | done (s : State)
  | trap (s : State) (t : Trp)
  | need (l : List Access) (f : List Fence)
  | hold (f : State → State)

/-- A member as its issue sees it: its encoding; the vector registers it reads and writes, and those it only names; the block length
of its scales, which its last source gives; the scalar registers it names and the one it writes; the mask it writes and those it reads
beside its governing one; its tiles, and whether it writes them; its accumulators; whether it uses the compaction buffer; whether it
stops only at element 0 and whether DET refuses it; its cause-1 tests; the rounding mode it resolves; which elements it reads of the
source at a place; elements of a source that are all read before any element is processed (10 R267, R268); its own checks after those of
09 R237; its index register; whether its only effects are on vector registers, flags and memory; whether its execution may come
after its issue, element by element as its reads of pinned registers perform, and the stream of the accesses it then makes; and its
execution. -/
structure VOp where
  enc : Word
  srcs : List VReg := []
  dsts : List VReg := []
  named : List VReg := []
  scale : Option Nat := none
  regs : List SReg := []
  sdst : Option SReg := none
  kd : Option KReg := none
  ks : List KReg := []
  tiles : List (Fin 4) := []
  tdst : Bool := false
  accs : List (Fin 4) := []
  buf : Bool := false
  whole : Bool := false
  det : Bool := false
  bad : Bool := false
  rm : Option Rm := none
  want : Nat → Nat → Bool := fun _ _ => true
  early : Option (VReg × Nat) := none
  more : Option Trp := none
  index : List VReg := []
  plain : Bool := false
  defer : Bool := false
  strm : Nat := 1
  body : Pass → State → VRes

/-- The block length of the source at a place, where that source gives scales. -/
def VOp.scaleOf (o : VOp) (j : Nat) : Option Nat := if j + 1 = o.srcs.length then o.scale else none

/-- The governing mask of a member by its encoding: bits 34 to 32, of every group but MTX (03 R84, R86). -/
def VOp.mask (o : VOp) : KReg :=
  if bitsOf o.enc.toNat 2 6 = 8 then 0 else Fin.ofNat 8 (bitsOf o.enc.toNat 32 3)

/-- Must an instruction wait for one that has issued and whose results are still to come: for a register it takes or writes (05 R129). -/
def Late.feeds (x : Late) (o : VOp) : Bool :=
  ((o.srcs ++ o.dsts ++ o.named).any (x.dsts.contains ·)) || (o.regs.any fun r => r != 0 && x.sdsts.contains r) ||
    (x.kdst.any fun k => k == o.mask || o.kd == some k || o.ks.contains k) ||
    (o.tiles.any fun w => x.tdsts.contains w.val) || (o.accs.any fun a => x.adsts.contains a.val) || (o.buf && x.buf)

/-- Is an element active (01 R20). -/
def Hart.active (h : Hart) (c : Ctl) (e : Nat) : Bool := decide (e < h.vl) && h.kBit c.k e

/-- The broadcast of a scalar register (09 R233). -/
def Hart.bval (h : Hart) (r : SReg) : Nat := (h.getS r).toNat % 2 ^ keepBits h.fmt

/-- An exact value rounded into a format, with the flags of its exact part. -/
def roundRes (f : Fmt) (sat : Bool) (rm : Rm) (u : Nat) (x : Ex × Nat) : Nat × Nat :=
  let (y, g) := roundTo f sat rm u x.1
  (y, x.2 ||| g)

/-- A conversion's operand: a signalling NaN raises NV (08 R210). -/
def convEx (x : Ex) : Ex × Nat := (x, snanFlag x x)

/-- Element e of a strip of a bound register as container bits, with the flags of its decoding (06 R179, R180). Under a NaN block
scale the value is NaN whatever the code, and a signalling NaN code then raises no NV: 08 R209 is silent (log 92, DESIGN CHOICE). -/
def Binding.value (b : Binding) (ef : Fmt) (e : Nat) : Nat × Nat :=
  if b.scalereg then
    let blk := b.pos / b.blen + e
    if b.tlen ≤ blk * b.blen then (convertLoad .e8m0 ef 127, 0) else (convertLoad .e8m0 ef ((b.held true blk).getD 0), 0)
  else
    let i := b.pos + e
    let raw := (b.held false i).getD 0
    if b.tlen ≤ i then (0, 0)
    else if b.scaled then
      let x := (b.held true (i / b.blen)).getD 0
      if x = 255 then (fmtNan ef, 0)
      else roundRes ef false .rne 0 (exMul (decodeEx b.fmt raw) (.pow2 false 1 ((x : Int) - 127)))
    else (convertLoad b.fmt ef raw, 0)

/-- A container of a pinned register as the instruction has read it: as operand k where that operand is this register, otherwise
as the first operand that is (09 R231). -/
def Hart.lentAt (h : Hart) (k : Nat) (v : VReg) (p e : Nat) : Nat :=
  (([k, 0, 1, 2].findSome? fun j => h.lent.find? (·.1 == pinKey j v p e)).map (·.2.toNat)).getD 0

/-- Plane p of element e of a source that stands as operand k (01 R30); a bound register's tangents read as zero (06 R179). -/
def Hart.operand (h : Hart) (k : Nat) (v : VReg) (p e : Nat) : Nat :=
  match h.bound v with
  | none => if h.pinned v then h.lentAt k v p e else h.getV v p e
  | some b => if p = 0 then (b.value h.fmt e).1 else 0

/-- The first source, and any other. -/
def Hart.src (h : Hart) (v : VReg) (p e : Nat) : Nat := h.operand 0 v p e

/-- The vb operand; a broadcast has zero tangents (09 R233). -/
def Hart.vbAt (h : Hart) (vb : VB) (p e : Nat) : Nat :=
  match vb with
  | .reg v => h.operand 1 v p e
  | .scalar r => if p = 0 then h.bval r else 0

/-- The scale of the block of element e that a source supplies (06 R180, 09 R252, 10 R275). -/
def Hart.scaleAt (h : Hart) (v : VReg) (blk e : Nat) : Nat :=
  match h.bound v with
  | none => h.operand 1 v 0 (e / blk) % 256
  | some b =>
    let k := b.pos / b.blen + e / b.blen
    if b.tlen ≤ k * b.blen then 127 else (b.held true k).getD 0

/-- Vector and scalar registers a vb operand names. -/
def vbVregs : VB → List VReg
  | .reg v => [v]
  | .scalar _ => []

def vbSregs : VB → List SReg
  | .reg _ => []
  | .scalar r => [r]

/-- Flags of the decoding of element e of the strips an instruction consumes (06 R179, 09 R234). -/
def Hart.stripFlags (h : Hart) (srcs : List VReg) (e : Nat) : Nat :=
  srcs.eraseDups.foldl (fun a v => match h.bound v with
    | some b => if b.scaled then a ||| (b.value h.fmt e).2 else a
    | none => a) 0

/-- The accesses an instruction waits for at its issue: those that bring its registers, and those of an issued instruction that
has still to write one of them (05 R129). -/
def State.vAwaits (s : State) (o : VOp) (a : Access) : Bool :=
  (match a.op.sdest with
    | some d => d != 0 && (o.regs.contains d || s.h.levels.any fun x => x.isLoopn && x.reg == d)
    | none => false) ||
  (match a.op.vdest with
    | some v => (o.srcs ++ o.dsts ++ o.named).contains v
    | none => false) ||
  (match a.op.tdest with
    | some w => o.tiles.any fun t => t.val == w
    | none => false) ||
  (s.h.lates.any fun x => x.seq == a.seq && (x.feeds o || s.h.levels.any fun l => l.isLoopn && x.sdsts.contains l.reg))

/-- The state in which the hart waits to issue an instruction, if it must. -/
def State.vStall (s : State) (o : VOp) : Option State :=
  if s.h.sq.any (s.vAwaits o) then some (s.stallOn (s.vAwaits o)) else none

/-- Does a binding give an instruction the strip it reads under EFMT: as a scale operand of blocks of blk, or as a plain
source (06 R179, R180, 09 R252, 10 R275). -/
def Binding.accepts (b : Binding) (ef : Fmt) (scale : Option Nat) : Bool :=
  (!b.scalereg || b.pos % b.blen == 0) &&
  match scale with
  | some blk => b.scalereg && b.blen == blk
  | none =>
    if b.scaled then ef == .f32 || ef == .bf16 || ef == .f16 else loadPair b.fmt ef

/-- Is a source, given with its place, bound with a binding that does not accept its use. -/
def Hart.refuses (h : Hart) (o : VOp) (x : VReg × Nat) : Bool :=
  match h.bound x.1 with
  | some b => !b.accepts h.fmt (o.scaleOf x.2)
  | none => false

/-- The checks of an instruction at its issue, in the order of 03 R87 steps 5 to 7 and 09 R237; an encoding that DET refuses is so once
its cause-1 tests have passed (log 57). at_ is the element that cause 20 reports. -/
def State.vCheck (s : State) (o : VOp) (at_ : Nat) : Option Trp :=
  let h := s.h
  let illegal : Trp := ⟨1, o.enc, 0⟩
  let all := o.srcs ++ o.dsts
  if (all ++ o.named).any fun v => decide (h.nreg ≤ v.val) then some illegal
  else if o.kd == some 0 then some illegal
  else if (o.tiles ++ o.accs).any fun t => decide (s.slotsOf s.hid ≤ t.val) then some illegal
  else if h.vill then some illegal
  else if o.bad then some illegal
  else if (o.rm.bind fun r => if (h.resolveRm r).isNone then some r else none).isSome then some illegal
  else if o.det && h.det then some ⟨12, o.enc, 0⟩
  else
    match all.find? fun v => h.leased v with
    | some v => some ⟨9, BitVec.ofNat 64 v.val, 0⟩
    | none =>
      match o.dsts.find? fun v => (h.bound v).isSome with
      | some v => some ⟨20, BitVec.ofNat 64 v.val, at_⟩
      | none =>
        match o.srcs.zipIdx.find? (h.refuses o) with
        | some x => some ⟨20, BitVec.ofNat 64 x.1.val, at_⟩
        | none => o.more

/-- The reads behind element e of a strip (06 R179, R180). -/
def Binding.stripReads (b : Binding) (scale : Bool) (e : Nat) : List (Bool × Nat) :=
  if b.scalereg then
    let k := b.pos / b.blen + (if scale then e / b.blen else e)
    if b.tlen ≤ k * b.blen then [] else [(true, k)]
  else if b.tlen ≤ b.pos + e then [] else b.needs (b.pos + e)

/-- What an instruction has of its sources: the state with what has been read, the first failure, the reads of other
devices it needs, and whether a stream holds it. -/
structure Strips where
  st : State
  stop : Option Trp := none
  need : List Access := []
  hold : Bool := false

/-- The place of the word of a binding's read (05 R137). -/
def bindPlace (b : Binding) (x : Bool × Nat) : Nat := 2 ^ 61 * (8 * b.seq + b.slot + 1) + 2 * x.2 + x.1.toNat

/-- Is the stream of a binding free for a read of the consuming instruction (05 R137, R143). -/
def State.bindFree (s : State) (b : Binding) : Bool :=
  !s.fenced s.hid (2 + b.slot) b.seq false && !(s.h.sq.any fun a => a.acq.isSome && decide (a.seq < b.seq)) &&
    (s.h.head (2 + b.slot)).isNone

/-- One read of the strip, at element e: made already, made now, or awaited (05 R137, 06 R182). -/
def Strips.read (t : Strips) (b0 : Binding) (e : Nat) (x : Bool × Nat) : Strips :=
  let s := t.st
  match s.h.binds.find? (·.slot == b0.slot) with
  | none => t
  | some b =>
    let place := bindPlace b x
    if t.stop.isSome || (b.held x.1 x.2).isSome then t
    else
      match s.h.gotBad.find? (·.1 == place) with
      | some (_, c, v) => { t with stop := some ⟨c, v, e⟩ }
      | none =>
        match s.h.got.find? (·.1 == place) with
        | some (_, v) =>
          let y := match (if x.1 then none else b.elemNib x.2) with
            | none => v.toNat
            | some hi => nibbleOf hi v.toNat
          { t with st := s.onH fun h => h.keepRead b.slot x.1 x.2 y }
        | none =>
          if !s.bindFree b then { t with hold := true }
          else
            match s.bindRead b x.1 x.2 with
            | .error f => { t with stop := some { f with eidx := e } }
            | .ok (some (v, pas)) =>
              if s.bankDelays pas then { t with hold := true }
              else { t with st := (s.noteBindRead b x.1 x.2 pas).onH fun h => h.keepRead b.slot x.1 x.2 v }
            | .ok none =>
              let (va, n) := b.readVa x.1 x.2
              match s.readTargets va n with
              | .error f => { t with stop := some { f with eidx := e } }
              | .ok l =>
                let ops : List AccOp := match allRemote l with
                  | some (d, pa) => [.readRemote (.word (s.h.waitAt.getD s.now) place) d pa n va]
                  | none => []
                { t with need := t.need ++ ops.map fun o => { seq := b.seq, strm := 2 + b.slot, op := o } }

/-- Addresses of a container of a pinned register of the selected hart (01 R41). -/
def State.aliasPas (s : State) (v : VReg) (p e : Nat) : List Nat :=
  (List.range s.h.aliasSize).map (aliasAddr s.hid v (s.h.aliasOff p e) + ·)

/-- Poison in plane 0 to T of an element of a register: at its alias, or in its window (18 R406). -/
def State.regPoison (s : State) (v : VReg) (e : Nat) : Option Trp :=
  if s.h.pinned v then (s.poisonTrap ((List.range (1 + s.h.tangents)).flatMap fun p => s.aliasPas v p e)).map fun t => { t with eidx := e }
  else ((List.range (1 + s.h.tangents)).map fun p => s.h.regOffset (s.lanesOf s.hid) v p e / 8 * 8).find? (fun o => s.h.poison.contains o)
    |>.map fun o => ⟨19, BitVec.ofNat 64 (2 ^ 63 + o), e⟩

/-- An element of a source is read, or with a block length its scale. -/
def Strips.elem (t : Strips) (blk : Option Nat) (v : VReg) (e : Nat) : Strips :=
  if t.stop.isSome then t
  else
    match t.st.h.bound v with
    | some b => (b.stripReads blk.isSome e).foldl (fun (t : Strips) x => t.read b e x) t
    | none => match t.st.regPoison v (e / blk.getD 1) with
      | some f => { t with stop := some { f with eidx := e } }
      | none => t

/-- The elements of its sources that an instruction reads, in ascending order (06 R179, R182, 18 R406). -/
def State.readStrips (s : State) (o : VOp) (lo hi : Nat) : Strips :=
  let srcs := o.srcs.zipIdx
  if s.h.poison.isEmpty && srcs.all fun x => (s.h.bound x.1).isNone && (s.poison.isEmpty || !s.h.pinned x.1) then { st := s }
  else
    ((List.range (min s.h.vl hi)).drop lo).foldl (fun (t : Strips) e =>
      srcs.foldl (fun (t : Strips) x => if o.want x.2 e then t.elem (o.scaleOf x.2) x.1 e else t) t) { st := s }

/-- A binding whose strip of VL elements has been consumed (06 R60, R179, R180). -/
def Binding.advance (b : Binding) (vl : Nat) : Binding :=
  let pos := b.pos + vl
  let blk := if b.blen = 0 then pos else pos / b.blen
  { b with
    pos := pos
    failed := false
    pre := b.pre.filter fun x => decide (pos ≤ x.1)
    preScale := b.preScale.filter fun x => decide (blk ≤ x.1)
    preNext := max b.preNext (min b.reads (if b.scalereg then blk else pos)) }

/-- The elements of a source that are read first; of a bound register those below VL (10 R267, R268). -/
def State.readFirst (s : State) (o : VOp) : Strips :=
  match o.early with
  | none => { st := s }
  | some (v, n) =>
    let n := if (s.h.bound v).isSome then min n s.h.vl else n
    (List.range n).foldl (fun (t : Strips) e => t.elem none v e) { st := s }

/-- The reads of pinned registers for one element: every source in turn, plane after plane (01 R43, 09 R231). Of the source that
takes scales, the scale of the element's block. -/
def State.pinElem (s : State) (o : VOp) (r : Pass) (e : Nat) : List Access :=
  o.srcs.zipIdx.flatMap fun x =>
    if !(s.h.pinned x.1 && o.want x.2 e) then []
    else
      let sc := o.scaleOf x.2
      let i := e / sc.getD 1
      (if sc.isSome then [0] else List.range (1 + s.h.tangents)).map fun p =>
        let pas := s.aliasPas x.1 p i
        { s.access 1 (BitVec.ofNat 64 (pas.headD 0)) (.read (.pin r.base (2 ^ 40 * r.member + pinKey x.2 x.1 p i) (s.h.aliasNib p i)) pas)
          with elem := e }

/-- Those of a source whose elements are read first, before element 0. -/
def State.pinEarly (s : State) (o : VOp) (r : Pass) : List Access :=
  match o.early with
  | none => []
  | some (v, n) => (List.range n).flatMap fun e =>
      (s.pinElem { o with srcs := [v], want := fun _ _ => true, scale := none } r e).map fun a => { a with elem := 0 }

/-- The reads of pinned registers that an execution needs and has not made. -/
def State.pinReads (s : State) (o : VOp) (r : Pass) : List Access :=
  if o.srcs.all fun v => !s.h.pinned v then []
  else
    (s.pinEarly o r ++ ((List.range (min s.h.vl r.hi)).drop r.lo).flatMap (s.pinElem o r)).filter fun a => match a.op with
      | .read (.pin _ key _) _ => !s.h.lent.any (·.1 == key % 2 ^ 40)
      | _ => false

/-- The writes to pinned registers that an execution has left enter stream V (01 R43). -/
def State.flushPuts (s : State) : State :=
  if s.h.puts.isEmpty then s
  else
    (s.onH fun h => { h with puts := [] }).enqueue (s.h.puts.reverse.map fun x =>
      { s.access 1 (BitVec.ofNat 64 ((s.aliasPas x.1 x.2.1 x.2.2.1).headD 0)) (.writeReg x.1 x.2.1 x.2.2.1 x.2.2.2) with elem := x.2.2.1 })

/-- P of every binding consumed advances by VL (06 R60, R179). -/
def State.advanceStrips (s : State) (srcs : List VReg) : State :=
  s.onH fun h => { h with binds := h.binds.map fun (b : Binding) => if srcs.contains b.reg then b.advance h.vl else b }

/-- The execution of a member whose checks have passed: its sources are read, then its body runs; a source that fails stops
it at that element, or at element 0 (06 R182, 09 R236, 10 R262). The strips are consumed once every element is done. -/
def State.runOp (s : State) (o : VOp) (r : Pass) : VRes :=
  let r := if o.whole then { r with lo := 0, hi := 65536 } else r
  let t0 := s.readFirst o
  let t := if t0.stop.isSome then t0 else
    let t1 := t0.st.readStrips o r.lo r.hi
    { t1 with need := t0.need ++ t1.need, hold := t0.hold || t1.hold }
  let pins := match t.stop with
    | none => s.pinReads o r
    | some f => if o.whole || t0.stop.isSome then [] else s.pinReads o { r with hi := min r.hi f.eidx }
  if t.hold then .hold (·.pause)
  else if !(t.need.isEmpty && pins.isEmpty) then .need (t.need ++ pins) []
  else
    match t0.stop, t.stop with
    | some f, _ => .trap t.st { f with eidx := r.lo }
    | none, none =>
      (match o.body r t.st with
      | .done s1 => .done (if s.h.vl ≤ r.hi then s1.advanceStrips o.srcs else s1)
      | x => x)
    | none, some f =>
      if o.whole then .trap t.st { f with eidx := 0 }
      else
        match o.body { r with hi := min r.hi f.eidx } t.st with
        | .done s1 => if f.eidx < s1.h.vl then .trap s1 f else .done (s1.advanceStrips o.srcs)
        | x => x

/-- The hart waits for words: those outstanding, or those it asks for now. -/
def State.awaitNeed (s : State) (l : List Access) (f : List Fence) : State :=
  if s.h.sq.any s.h.isWordRead then s.stallOn s.h.isWordRead
  else (s.onH fun h => { h with fences := h.fences ++ f }).awaitWords l

/-- The resolved mode and the draw of an instruction (09 R234). -/
def Hart.drawOp (h : Hart) (o : VOp) : Rm × Option Word × Hart :=
  match o.rm.bind h.resolveRm with
  | none => (.rne, none, h)
  | some r => (r, (h.drawFor r).1, (h.drawFor r).2)

/-- An instruction that traps with accesses issued has executed once and counts (05 R136); one that has issued none leaves no
fence. -/
def State.countIssued (s1 s : State) : State :=
  if s1.h.sq.length = s.h.sq.length then s1.onH fun h => { h with fences := s.h.fences }
  else s1.onH fun h => { h with nextSeq := h.nextSeq + 1 }

/-- SEED and BASE as the instruction at hand takes them: those it captured, where it was stopped (10 R264, R283). -/
def Hart.genNow (h : Hart) : Word × Word := h.gen.getD (h.tseedv, h.tbase)

/-- May an instruction issue before its reads of pinned registers have performed: it has such reads, none of its addresses or
traps depends on them, and nothing it does stops it (05 R129). -/
def State.defers (s : State) (o : VOp) (r : Pass) : Bool :=
  o.defer && !r.conv && s.bound.isNone && s.h.valueEnables == 0 && s.h.tangentEnables == 0 && s.h.poison.isEmpty && s.poison.isEmpty &&
    s.h.lent.isEmpty && (o.srcs.all fun v => (s.h.bound v).isNone) && (o.index.all fun v => !s.h.pinned v) &&
    !(s.pinReads o (if o.whole then { r with lo := 0, hi := 65536 } else r)).isEmpty &&
    match o.body r s with
    | .done _ => true
    | _ => false

/-- Such an instruction issues: its reads enter stream V in element order, each element's with a place for the writes that come of
it, and what it captures is kept with it. The elements before the first that reads are done at once. -/
def State.deferOp (s : State) (o : VOp) (r : Pass) : State :=
  let es := (List.range s.h.vl).drop r.lo
  let first := s.pinEarly o r
  let lo := if o.whole then 0 else if !first.isEmpty then r.lo else (es.find? fun e => !(s.pinElem o r e).isEmpty).getD s.h.vl
  let s1 := if o.whole then s else match o.body { r with hi := lo } s with
    | .done t => t.flushPuts
    | _ => s
  let wait (e : Nat) : List Access := [{ s.access o.strm 0 (.await (o.dsts.find? s.h.pinned) e) with elem := e }]
  let accs := if o.whole then s.pinReads o { r with lo := 0, hi := 65536 } ++ wait 0
    else first ++ (es.filter (lo ≤ ·)).flatMap fun e => s.pinElem o r e ++ wait e
  (s1.enqueue accs).onH fun h => { h with lates := h.lates ++ [{
    seq := h.nextSeq, enc := o.enc, dsts := o.dsts.filter fun v => !h.pinned v, sdsts := o.sdst.toList, kdst := o.kd
    tdsts := if o.tdst then o.tiles.map (·.val) else [], adsts := o.accs.map (·.val), buf := o.buf
    rm := r.rm, drew := r.seq, vl := h.vl, s := h.s, k := h.k, v := h.v, fctl := h.fctl, srseed := h.srseed, gen := some h.genNow
    efmt := h.efmt, tcfg := h.tcfg, tel := h.tel, tsc := h.tsc, scale := h.scale, epoch := h.epoch, cgroup := h.cgroup
    cops := h.cops, cstride := h.cstride, ctag := h.ctag, cdens := h.cdens, next := lo }] }

/-- How the issue of an instruction goes: it waits; traps; has stopped before an element; or has issued whole. -/
inductive Issued where
  | wait (f : State → State)
  | trap (s : State) (t : Trp)
  | part (s : State) (hi : Nat)
  | done (s : State)

/-- An instruction issues, from element r.lo on, its registers being available: whole, or up to the element at which the move stops
it (01 R14). Element by element, where it reads pinned registers (09 R231). -/
def State.issueOp (s : State) (o : VOp) (r : Pass) : Issued :=
  if s.defers o r then .done (s.deferOp o r)
  else
    let hi := if o.whole then 65536
      else min (s.bound.getD 65536) (if o.srcs.any fun v => s.h.pinned v then r.lo + 1 else 65536)
    match s.runOp o { r with hi := hi } with
    | .done s1 => if hi < s.h.vl then .part s1.flushPuts hi else .done s1.flushPuts
    | .trap s1 t => .trap s1.flushPuts t
    | .need l f => .wait (·.awaitNeed l f)
    | .hold f => .wait f

/-- An instruction that stands before element e (01 R14): what it has captured and drawn stays its own (08 R224, 10 R283). -/
def State.standAt (s : State) (e : Nat) (drew : Option Word) : State :=
  s.onH fun h => { h with eidx := e, reuse := drew.or h.reuse, gen := some h.genNow, blocked := none, waiting := false }

/-- A vector or matrix instruction outside a convoy. -/
def vStep (s : State) (mk : State → VOp) : Out :=
  let o := mk s
  match s.vStall o with
  | some s1 => .next s1
  | none =>
    match s.vCheck o s.h.eidx with
    | some t => .next (s.trapLog false none t)
    | none =>
      let (rm, seq, h) := s.h.drawOp o
      match State.issueOp { s with h := h } o { lo := h.eidx, base := h.nextSeq, rm := rm, seq := seq } with
      | .done s1 => .next (s1.retire 8)
      | .part s1 hi => .next (s1.standAt hi seq)
      | .trap s1 t => .next (if s.walkHeld 1 t.cause then s.pause else (s1.countIssued s).trapLog false seq t)
      | .wait f => .next (f s)

/-- A register's planes of one element written: none leaves a plane unchanged, a plane not given becomes zero. -/
def Hart.putPlanes (h : Hart) (v : VReg) (e : Nat) (vals : List (Option Nat)) : Hart :=
  (List.range (1 + h.tangents)).foldl (fun (h : Hart) p => match vals[p]? with
    | some (some x) => h.setV v p e x
    | some none => h
    | none => h.setV v p e 0) h

/-- The planes tm directs to be written (01 R46, 09 R235): planes not computed become zero. -/
def tmVals (tm : Tm) (t : Nat) (vals : List Nat) : List (Option Nat) :=
  match tm with
  | .prop => vals.map some
  | .tstop => (vals.take 1).map some
  | .vonly => (vals.take 1).map some ++ List.replicate t none

/-- Planes an instruction computes: all under propagate with a floating result, otherwise the value plane; the tangents of an integer
result are zero, of a copy too: 01 R47 over the copy rules 09 R253, R257, 10 R277 and 15 R357 (01 R46, 09 R235, log 94). -/
def Hart.planes (h : Hart) (tm : Tm) : List Nat := if tm = .prop ∧ !fmtInt h.fmt then List.range (1 + h.tangents) else [0]

/-- Flags of a result with tm: no TKINK but under propagate (08 R220). -/
def tmFlags (tm : Tm) (f : List Nat) : List Nat := if tm = .prop then f else f.map (· % 64)

/-- Flags of planes 0, 1, … from plane p on ORed into FFLAGS (08 R215). -/
def Hart.raiseFrom (h : Hart) : Nat → List Nat → Hart
  | _, [] => h
  | p, f :: l => (h.raise p f).raiseFrom (p + 1) l

/-- The lowest plane that raised an enabled flag (08 R217). -/
def Hart.enabledFrom (h : Hart) : Nat → List Nat → Option (Nat × Nat)
  | _, [] => none
  | p, f :: l => if h.enabled p f then some (p, f) else h.enabledFrom (p + 1) l

/-- The value or tangent trap of flags raised at element e (08 R217). -/
def Hart.flagTrap (h : Hart) (e : Nat) (fls : List Nat) : Option Trp :=
  (h.enabledFrom 0 fls).map fun x => ⟨if x.1 = 0 then 10 else 11, fpTval x.2 x.1 e, e⟩

/-- The element loop of 09 R237 over some elements: planes and flags of each come from f. -/
def elemLoop (h0 : Hart) (c : Ctl) (v : VReg) (f : Nat → List (Option Nat) × List Nat) : List Nat → Hart → Hart × Option Trp
  | [], h => (h, none)
  | e :: es, h =>
    if !h0.kBit c.k e then elemLoop h0 c v f es (if c.kz then h.zeroPlanes v e else h)
    else
      let (vals, fls) := f e
      match h.flagTrap e fls with
      | some t => (h.raiseFrom 0 fls, some t)
      | none => elemLoop h0 c v f es ((h.raiseFrom 0 fls).putPlanes v e vals)

/-- The same with a mask register as destination (09 R243). -/
def maskLoop (h0 : Hart) (c : Ctl) (kd : KReg) (f : Nat → Bool × Nat) : List Nat → Hart → Hart × Option Trp
  | [], h => (h, none)
  | e :: es, h =>
    if !h0.kBit c.k e then maskLoop h0 c kd f es (if c.kz then h.setKBit kd e false else h)
    else
      let (b, fl) := f e
      match h.flagTrap e [fl] with
      | some t => (h.raise 0 fl, some t)
      | none => maskLoop h0 c kd f es ((h.raise 0 fl).setKBit kd e b)

/-- Elements an execution processes. -/
def Pass.elems (r : Pass) (h : Hart) : List Nat := (List.range (min h.vl r.hi)).drop r.lo

/-- The end of a loop. -/
def loopEnd (s : State) (x : Hart × Option Trp) : VRes :=
  match x.2 with
  | none => .done { s with h := x.1 }
  | some t => .trap { s with h := x.1 } t

/-- The flags of decoding bound sources at some elements, raised by an instruction that takes no value trap on them. -/
def Hart.raiseStrips (h : Hart) (srcs : List VReg) (es : List Nat) : Hart :=
  if srcs.all fun v => (h.bound v).isNone then h else es.foldl (fun (g : Hart) e => g.raise 0 (h.stripFlags srcs e)) h

/-- The first plane's flags with those of decoding bound sources added. -/
def addFlags (g : Nat) : List Nat → List Nat
  | [] => []
  | f :: l => (f ||| g) :: l

/-- The body of a member that works element by element on a vector register: f gives the planes' bits and flags from the hart
as it stands before the element (09 R231, R235, R237). -/
def elemBody (srcs : List VReg) (v : VReg) (tm : Tm) (c : Ctl) (f : Hart → Pass → Nat → List Nat × List Nat) (r : Pass)
    (s : State) : VRes :=
  let h := s.h
  loopEnd s (elemLoop h c v (fun e =>
    let (vals, fls) := f h r e
    (tmVals tm h.tangents vals, tmFlags tm (addFlags (h.stripFlags srcs e) fls))) (r.elems h) h)

/-- The body of a member that writes a mask register element by element. -/
def maskBody (srcs : List VReg) (kd : KReg) (c : Ctl) (f : Hart → Nat → Bool × Nat) (r : Pass) (s : State) : VRes :=
  let h := s.h
  loopEnd s (maskLoop h c kd (fun e =>
    let (b, fl) := f h e
    (b, fl ||| h.stripFlags srcs e)) (r.elems h) h)

/-- The traps of a member that stops only at element 0: at the first element of the list with an enabled flag, every flag up
to it is ORed in and the trap reports TEIDX 0; otherwise all flags are ORed in (08 R217, 10 R262). -/
def wholeFlags (h : Hart) : List (Nat × List Nat) → Hart × Option Trp
  | [] => (h, none)
  | (e, fls) :: l =>
    match h.flagTrap e fls with
    | some t => (h.raiseFrom 0 fls, some { t with eidx := 0 })
    | none => wholeFlags (h.raiseFrom 0 fls) l

/-- The end of a member that stops only at element 0: its flags, then its writes. -/
def wholeEnd (s : State) (fls : List (Nat × List Nat)) (write : Hart → Hart) : VRes :=
  match wholeFlags s.h fls with
  | (h, some t) => .trap { s with h := h } t
  | (h, none) => .done { s with h := write h }

/-- Stochastic bits of plane p of element e in an execution (08 R222). -/
def Pass.u (r : Pass) (h : Hart) (p e : Nat) : Nat := h.uBits r.seq p e

/-- An exact value rounded into the element format for plane p of element e, with the flags of its exact part. -/
def Pass.round (r : Pass) (h : Hart) (p e : Nat) (x : Ex × Nat) : Nat × Nat :=
  roundRes h.fmt false r.rm (r.u h p e) x

/-- Planes' results as bits and flags apart. -/
def unzipRes (l : List (Nat × Nat)) : List Nat × List Nat := (l.map (·.1), l.map (·.2))

/-- The floating element formats (09 R232), and those of the special functions. -/
def isF8 (f : Fmt) : Bool := fmtFloat f && f != .f64
def isF3 (f : Fmt) : Bool := f == .f32 || f == .bf16 || f == .f16

end Sys2Proof.Machine
end

