-- ==== Sys2Proof/Machine/VFp.lean ====
section
/-! DEFINITION. Sys2Proof/Machine/VFp.lean: floating-point vector arithmetic, VFP (09 R238 to R240). -/

namespace Sys2Proof.Machine

/-- Which elements of its sources a member reads that works element by element: the active ones (01 R20, 09 R236). -/
def Hart.wantActive (h : Hart) (c : Ctl) (_ : Nat) (e : Nat) : Bool := h.kBit c.k e

/-- Exact operations on values with the flags they have raised. -/
def addF (rm : Rm) (x y : Ex × Nat) : Ex × Nat :=
  let (z, f) := exAdd rm x.1 y.1
  (z, x.2 ||| y.2 ||| f)
def mulF (x y : Ex × Nat) : Ex × Nat :=
  let (z, f) := exMul x.1 y.1
  (z, x.2 ||| y.2 ||| f)
def divF (x y : Ex × Nat) : Ex × Nat :=
  let (z, f) := exDiv x.1 y.1
  (z, x.2 ||| y.2 ||| f)
def negF (x : Ex × Nat) : Ex × Nat := (x.1.neg, x.2)

/-- The value operands a, b, c of an element, their tangents in a plane, and the rounded value q (09 R238). -/
structure Terms where
  a : Ex
  b : Ex
  c : Ex
  at_ : Ex := .zero false
  bt : Ex := .zero false
  ct : Ex := .zero false
  q : Ex := .zero false
  deriving DecidableEq, Repr

/-- An operand as an exact value without flags. -/
def ex0 (x : Ex) : Ex × Nat := (x, 0)

/-- a.t × b + a × b.t (09 R238). -/
def productTan (rm : Rm) (t : Terms) : Ex × Nat := addF rm (mulF (ex0 t.at_) (ex0 t.b)) (mulF (ex0 t.a) (ex0 t.bt))

/-- A rounding member of VFP or VSFU: val and tan give its exact value and tangent, each rounded once (09 R231, R235). -/
def roundedOp (s : State) (i : Instr) (vd : VReg) (va : VReg) (vb : VB) (vc : Option VReg) (rm : Rm) (tm : Tm) (c : Ctl)
    (ok : Fmt → Bool) (val : Rm → Terms → Ex × Nat) (tan : Rm → Terms → Ex × Nat) : VOp :=
  let srcs := va :: vbVregs vb ++ vc.toList
  { enc := encodeWord i
    srcs := srcs
    dsts := [vd]
    regs := vbSregs vb
    bad := !ok s.h.fmt
    rm := some rm
    want := s.h.wantActive c
    plain := true
    defer := true
    body := elemBody srcs vd tm c fun h r e =>
      let at_ (p : Nat) : Ex × Ex × Ex :=
        (decodeEx h.fmt (h.src va p e), decodeEx h.fmt (h.vbAt vb p e),
          match vc with
          | some v => decodeEx h.fmt (h.operand (1 + (vbVregs vb).length) v p e)
          | none => .zero false)
      let (a, b, cc) := at_ 0
      let t : Terms := { a := a, b := b, c := cc }
      let q := r.round h 0 e (val r.rm t)
      unzipRes ((h.planes tm).map fun p =>
        if p = 0 then q
        else
          let (x, y, z) := at_ p
          r.round h p e (tan r.rm { t with at_ := x, bt := y, ct := z, q := decodeEx h.fmt q.1 })) }

/-- A member of VFP that rounds. -/
def vfpOp (s : State) (i : Instr) (vd va : VReg) (vb : VB) (vc : Option VReg) (rm : Rm) (tm : Tm) (c : Ctl)
    (val : Rm → Terms → Ex × Nat) (tan : Rm → Terms → Ex × Nat) : VOp := roundedOp s i vd va vb vc rm tm c isF8 val tan

def vfaddOp (vd va : VReg) (vb : VB) (rm : Rm) (tm : Tm) (c : Ctl) (s : State) : VOp :=
  vfpOp s (.vfadd vd va vb rm tm c) vd va vb none rm tm c (fun m t => addF m (ex0 t.a) (ex0 t.b))
    fun m t => addF m (ex0 t.at_) (ex0 t.bt)
def vfsubOp (vd va : VReg) (vb : VB) (rm : Rm) (tm : Tm) (c : Ctl) (s : State) : VOp :=
  vfpOp s (.vfsub vd va vb rm tm c) vd va vb none rm tm c (fun m t => addF m (ex0 t.a) (negF (ex0 t.b)))
    fun m t => addF m (ex0 t.at_) (negF (ex0 t.bt))
def vfmulOp (vd va : VReg) (vb : VB) (rm : Rm) (tm : Tm) (c : Ctl) (s : State) : VOp :=
  vfpOp s (.vfmul vd va vb rm tm c) vd va vb none rm tm c (fun _ t => mulF (ex0 t.a) (ex0 t.b)) productTan
def vfdivOp (vd va : VReg) (vb : VB) (rm : Rm) (tm : Tm) (c : Ctl) (s : State) : VOp :=
  vfpOp s (.vfdiv vd va vb rm tm c) vd va vb none rm tm c (fun _ t => divF (ex0 t.a) (ex0 t.b))
    fun m t => divF (addF m (ex0 t.at_) (negF (mulF (ex0 t.q) (ex0 t.bt)))) (ex0 t.b)
def vfmaOp (vd va : VReg) (vb : VB) (vc : VReg) (rm : Rm) (tm : Tm) (c : Ctl) (s : State) : VOp :=
  vfpOp s (.vfma vd va vb vc rm tm c) vd va vb (some vc) rm tm c
    (fun m t => addF m (mulF (ex0 t.a) (ex0 t.b)) (ex0 t.c)) fun m t => addF m (productTan m t) (ex0 t.ct)
def vfmsOp (vd va : VReg) (vb : VB) (vc : VReg) (rm : Rm) (tm : Tm) (c : Ctl) (s : State) : VOp :=
  vfpOp s (.vfms vd va vb vc rm tm c) vd va vb (some vc) rm tm c
    (fun m t => addF m (mulF (ex0 t.a) (ex0 t.b)) (negF (ex0 t.c))) fun m t => addF m (productTan m t) (negF (ex0 t.ct))
def vfnmaOp (vd va : VReg) (vb : VB) (vc : VReg) (rm : Rm) (tm : Tm) (c : Ctl) (s : State) : VOp :=
  vfpOp s (.vfnma vd va vb vc rm tm c) vd va vb (some vc) rm tm c
    (fun m t => addF m (ex0 t.c) (negF (mulF (ex0 t.a) (ex0 t.b))))
    fun m t => addF m (addF m (ex0 t.ct) (negF (mulF (ex0 t.at_) (ex0 t.b)))) (negF (mulF (ex0 t.a) (ex0 t.bt)))

/-- √a; at ±0 TKINK, with every tangent +Inf and TDZ (08 R220, 09 R239). -/
def vfsqrtOp (vd va : VReg) (rm : Rm) (tm : Tm) (c : Ctl) (s : State) : VOp :=
  vfpOp s (.vfsqrt vd va rm tm c) vd va (.scalar 0) none rm tm c
    (fun _ t => let (x, f) := exSqrt t.a; (x, if t.a.isZero then f ||| flKINK else f))
    fun _ t => if t.a.isZero then (.inf false, flDZ) else divF (ex0 t.at_) (mulF (.fin false 2 1, 0) (ex0 t.q))

/-- Place of the sign bit of a floating format. -/
def signPlace (f : Fmt) : Nat := keepBits f - 1

/-- A container's kept bits; with the sign bit cleared; with it flipped. -/
def keptBits (f : Fmt) (x : Nat) : Nat := x % 2 ^ keepBits f
def absBits (f : Fmt) (x : Nat) : Nat := x % 2 ^ signPlace f
def flipBits (f : Fmt) (x : Nat) : Nat :=
  absBits f x + (if x.testBit (signPlace f) then 0 else 2 ^ signPlace f)

/-- A member of VFP that only chooses: f gives the value's bits and flags, whether the tangents are those of b, and whether they
are negated, from the bits of a and b (09 R240). -/
def chooseOp (s : State) (i : Instr) (vd va : VReg) (vb : VB) (tm : Tm) (c : Ctl) (f : Fmt → Nat → Nat → (Nat × Nat) × Bool × Bool) :
    VOp :=
  let srcs := va :: vbVregs vb
  { enc := encodeWord i
    srcs := srcs
    dsts := [vd]
    regs := vbSregs vb
    bad := !isF8 s.h.fmt
    want := s.h.wantActive c
    plain := true
    defer := true
    body := elemBody srcs vd tm c fun h _ e =>
      let (v, fromB, negT) := f h.fmt (keptBits h.fmt (h.src va 0 e)) (keptBits h.fmt (h.vbAt vb 0 e))
      unzipRes ((h.planes tm).map fun p =>
        if p = 0 then v
        else
          let x := if fromB then h.vbAt vb p e else h.src va p e
          (if negT then flipBits h.fmt x else x, 0)) }

/-- VFMIN and VFMAX on bits (09 R240). -/
def minmaxBits (max : Bool) (f : Fmt) (x y : Nat) : (Nat × Nat) × Bool × Bool :=
  let a := decodeEx f x
  let b := decodeEx f y
  let fl := snanFlag a b
  if a.isNan && b.isNan then ((fmtNan f, fl), false, false)
  else
    let (first, tie) := minmaxFirst max a b
    ((if first then x else y, if tie then fl ||| flKINK else fl), !first && !tie, false)

def vfminOp (vd va : VReg) (vb : VB) (tm : Tm) (c : Ctl) (s : State) : VOp :=
  chooseOp s (.vfmin vd va vb tm c) vd va vb tm c (minmaxBits false)
def vfmaxOp (vd va : VReg) (vb : VB) (tm : Tm) (c : Ctl) (s : State) : VOp :=
  chooseOp s (.vfmax vd va vb tm c) vd va vb tm c (minmaxBits true)

/-- |a|: at ±0 TKINK and the tangent as it is (08 R220). -/
def absChoice (f : Fmt) (x _ : Nat) : (Nat × Nat) × Bool × Bool :=
  let a := decodeEx f x
  if a.isNan then ((fmtNan f, snanFlag a a), false, false)
  else ((absBits f x, if a.isZero then flKINK else 0), false, x.testBit (signPlace f) && !a.isZero)
def vfabsOp (vd va : VReg) (tm : Tm) (c : Ctl) (s : State) : VOp :=
  chooseOp s (.vfabs vd va tm c) vd va (.scalar 0) tm c absChoice

def negChoice (f : Fmt) (x _ : Nat) : (Nat × Nat) × Bool × Bool :=
  let a := decodeEx f x
  ((if a.isNan then fmtNan f else flipBits f x, snanFlag a a), false, true)
def vfnegOp (vd va : VReg) (tm : Tm) (c : Ctl) (s : State) : VOp :=
  chooseOp s (.vfneg vd va tm c) vd va (.scalar 0) tm c negChoice

/-- |a| with the sign bit of b, which raises no flag (09 R240). -/
def cpsChoice (f : Fmt) (x y : Nat) : (Nat × Nat) × Bool × Bool :=
  let a := decodeEx f x
  let v := if a.isNan then fmtNan f else absBits f x + (if y.testBit (signPlace f) then 2 ^ signPlace f else 0)
  ((v, snanFlag a a), false, v.testBit (signPlace f) != x.testBit (signPlace f))
def vfcpsOp (vd va : VReg) (vb : VB) (tm : Tm) (c : Ctl) (s : State) : VOp :=
  chooseOp s (.vfcps vd va vb tm c) vd va vb tm c cpsChoice

def execVfadd (vd va : VReg) (vb : VB) (rm : Rm) (tm : Tm) (c : Ctl) (s : State) : Out := vStep s (vfaddOp vd va vb rm tm c)
def execVfsub (vd va : VReg) (vb : VB) (rm : Rm) (tm : Tm) (c : Ctl) (s : State) : Out := vStep s (vfsubOp vd va vb rm tm c)
def execVfmul (vd va : VReg) (vb : VB) (rm : Rm) (tm : Tm) (c : Ctl) (s : State) : Out := vStep s (vfmulOp vd va vb rm tm c)
def execVfdiv (vd va : VReg) (vb : VB) (rm : Rm) (tm : Tm) (c : Ctl) (s : State) : Out := vStep s (vfdivOp vd va vb rm tm c)
def execVfma (vd va : VReg) (vb : VB) (vc : VReg) (rm : Rm) (tm : Tm) (c : Ctl) (s : State) : Out :=
  vStep s (vfmaOp vd va vb vc rm tm c)
def execVfms (vd va : VReg) (vb : VB) (vc : VReg) (rm : Rm) (tm : Tm) (c : Ctl) (s : State) : Out :=
  vStep s (vfmsOp vd va vb vc rm tm c)
def execVfnma (vd va : VReg) (vb : VB) (vc : VReg) (rm : Rm) (tm : Tm) (c : Ctl) (s : State) : Out :=
  vStep s (vfnmaOp vd va vb vc rm tm c)
def execVfsqrt (vd va : VReg) (rm : Rm) (tm : Tm) (c : Ctl) (s : State) : Out := vStep s (vfsqrtOp vd va rm tm c)
def execVfmin (vd va : VReg) (vb : VB) (tm : Tm) (c : Ctl) (s : State) : Out := vStep s (vfminOp vd va vb tm c)
def execVfmax (vd va : VReg) (vb : VB) (tm : Tm) (c : Ctl) (s : State) : Out := vStep s (vfmaxOp vd va vb tm c)
def execVfabs (vd va : VReg) (tm : Tm) (c : Ctl) (s : State) : Out := vStep s (vfabsOp vd va tm c)
def execVfneg (vd va : VReg) (tm : Tm) (c : Ctl) (s : State) : Out := vStep s (vfnegOp vd va tm c)
def execVfcps (vd va : VReg) (vb : VB) (tm : Tm) (c : Ctl) (s : State) : Out := vStep s (vfcpsOp vd va vb tm c)

end Sys2Proof.Machine
end

