-- ==== Sys2Proof/Machine/VInt.lean ====
section
/-! DEFINITION. Sys2Proof/Machine/VInt.lean: integer and bit vector arithmetic, VINT (09 R241, R242). -/

namespace Sys2Proof.Machine

/-- The integer element formats (09 R232). -/
def intFmt (f : Fmt) : Bool := fmtInt f

/-- An integer container's value by its format's signedness (08 R207). -/
def intOf (f : Fmt) (x : Nat) : Int := if fmtSigned f then signedOf (fmtBits f) x else ((x % 2 ^ fmtBits f : Nat) : Int)

/-- A member of VINT: f gives the result and its flags from the containers a and b of format fmt (09 R241); tangents are
zero (09 R235). The flags of decoding a bound source are raised and take no trap. -/
def vintOp (s : State) (i : Instr) (vd va : VReg) (vb : VB) (tm : Tm) (c : Ctl) (ok : Fmt → Bool)
    (f : Fmt → Nat → Nat → Nat × Nat) : VOp :=
  let srcs := va :: vbVregs vb
  { enc := encodeWord i
    srcs := srcs
    dsts := [vd]
    regs := vbSregs vb
    bad := !ok s.h.fmt
    want := s.h.wantActive c
    plain := true
    defer := true
    body := fun r s =>
      elemBody [] vd tm c (fun h _ e =>
        let (x, fl) := f h.fmt (keptBits h.fmt (h.src va 0 e)) (keptBits h.fmt (h.vbAt vb 0 e))
        ([x], [fl])) r (s.onH fun h => h.raiseStrips srcs ((r.elems h).filter (h.kBit c.k ·))) }

/-- A result modulo 2^w that raises nothing. -/
def wrapRes (f : Fmt) (x : Int) : Nat × Nat := (wrapOf (fmtBits f) x, 0)

/-- A container read as a signed integer. -/
def sOf (f : Fmt) (x : Nat) : Int := signedOf (fmtBits f) x

/-- A result clamped to the range of a format; a clamp raises SAT (09 R241). -/
def clampRes (f : Fmt) (x : Int) : Nat × Nat :=
  let (y, cl) := clampInt f x
  (wrapOf (fmtBits f) y, if cl then flSAT else 0)

def vaddOp (vd va : VReg) (vb : VB) (tm : Tm) (c : Ctl) (s : State) : VOp :=
  vintOp s (.vadd vd va vb tm c) vd va vb tm c intFmt fun f a b => wrapRes f ((a + b : Nat) : Int)
def vsubOp (vd va : VReg) (vb : VB) (tm : Tm) (c : Ctl) (s : State) : VOp :=
  vintOp s (.vsub vd va vb tm c) vd va vb tm c intFmt fun f a b => wrapRes f ((a : Int) - b)
def vmulOp (vd va : VReg) (vb : VB) (tm : Tm) (c : Ctl) (s : State) : VOp :=
  vintOp s (.vmul vd va vb tm c) vd va vb tm c intFmt fun f a b => wrapRes f ((a * b : Nat) : Int)
def vmulhOp (vd va : VReg) (vb : VB) (tm : Tm) (c : Ctl) (s : State) : VOp :=
  vintOp s (.vmulh vd va vb tm c) vd va vb tm c intFmt fun f a b => wrapRes f (sOf f a * sOf f b / ((2 ^ fmtBits f : Nat) : Int))
def vmulhuOp (vd va : VReg) (vb : VB) (tm : Tm) (c : Ctl) (s : State) : VOp :=
  vintOp s (.vmulhu vd va vb tm c) vd va vb tm c intFmt fun f a b => (a * b / 2 ^ fmtBits f, 0)
def vandOp (vd va : VReg) (vb : VB) (tm : Tm) (c : Ctl) (s : State) : VOp :=
  vintOp s (.vand vd va vb tm c) vd va vb tm c fmtHasContainer fun _ a b => (a &&& b, 0)
def vorOp (vd va : VReg) (vb : VB) (tm : Tm) (c : Ctl) (s : State) : VOp :=
  vintOp s (.vor vd va vb tm c) vd va vb tm c fmtHasContainer fun _ a b => (a ||| b, 0)
def vxorOp (vd va : VReg) (vb : VB) (tm : Tm) (c : Ctl) (s : State) : VOp :=
  vintOp s (.vxor vd va vb tm c) vd va vb tm c fmtHasContainer fun _ a b => (a ^^^ b, 0)
def vsllOp (vd va : VReg) (vb : VB) (tm : Tm) (c : Ctl) (s : State) : VOp :=
  vintOp s (.vsll vd va vb tm c) vd va vb tm c fmtHasContainer fun f a b => (a * 2 ^ (b % fmtBits f) % 2 ^ fmtBits f, 0)
def vsrlOp (vd va : VReg) (vb : VB) (tm : Tm) (c : Ctl) (s : State) : VOp :=
  vintOp s (.vsrl vd va vb tm c) vd va vb tm c fmtHasContainer fun f a b => (a / 2 ^ (b % fmtBits f), 0)
def vsraOp (vd va : VReg) (vb : VB) (tm : Tm) (c : Ctl) (s : State) : VOp :=
  vintOp s (.vsra vd va vb tm c) vd va vb tm c fmtHasContainer fun f a b => wrapRes f (sOf f a / ((2 ^ (b % fmtBits f) : Nat) : Int))
def vminOp (vd va : VReg) (vb : VB) (tm : Tm) (c : Ctl) (s : State) : VOp :=
  vintOp s (.vmin vd va vb tm c) vd va vb tm c intFmt fun f a b => (if sOf f a ≤ sOf f b then a else b, 0)
def vmaxOp (vd va : VReg) (vb : VB) (tm : Tm) (c : Ctl) (s : State) : VOp :=
  vintOp s (.vmax vd va vb tm c) vd va vb tm c intFmt fun f a b => (if sOf f b ≤ sOf f a then a else b, 0)
def vminuOp (vd va : VReg) (vb : VB) (tm : Tm) (c : Ctl) (s : State) : VOp :=
  vintOp s (.vminu vd va vb tm c) vd va vb tm c intFmt fun _ a b => (min a b, 0)
def vmaxuOp (vd va : VReg) (vb : VB) (tm : Tm) (c : Ctl) (s : State) : VOp :=
  vintOp s (.vmaxu vd va vb tm c) vd va vb tm c intFmt fun _ a b => (max a b, 0)
def vsaddOp (vd va : VReg) (vb : VB) (tm : Tm) (c : Ctl) (s : State) : VOp :=
  vintOp s (.vsadd vd va vb tm c) vd va vb tm c intFmt fun f a b => clampRes f (intOf f a + intOf f b)
def vssubOp (vd va : VReg) (vb : VB) (tm : Tm) (c : Ctl) (s : State) : VOp :=
  vintOp s (.vssub vd va vb tm c) vd va vb tm c intFmt fun f a b => clampRes f (intOf f a - intOf f b)

def execVadd (vd va : VReg) (vb : VB) (tm : Tm) (c : Ctl) (s : State) : Out := vStep s (vaddOp vd va vb tm c)
def execVsub (vd va : VReg) (vb : VB) (tm : Tm) (c : Ctl) (s : State) : Out := vStep s (vsubOp vd va vb tm c)
def execVmul (vd va : VReg) (vb : VB) (tm : Tm) (c : Ctl) (s : State) : Out := vStep s (vmulOp vd va vb tm c)
def execVmulh (vd va : VReg) (vb : VB) (tm : Tm) (c : Ctl) (s : State) : Out := vStep s (vmulhOp vd va vb tm c)
def execVmulhu (vd va : VReg) (vb : VB) (tm : Tm) (c : Ctl) (s : State) : Out := vStep s (vmulhuOp vd va vb tm c)
def execVand (vd va : VReg) (vb : VB) (tm : Tm) (c : Ctl) (s : State) : Out := vStep s (vandOp vd va vb tm c)
def execVor (vd va : VReg) (vb : VB) (tm : Tm) (c : Ctl) (s : State) : Out := vStep s (vorOp vd va vb tm c)
def execVxor (vd va : VReg) (vb : VB) (tm : Tm) (c : Ctl) (s : State) : Out := vStep s (vxorOp vd va vb tm c)
def execVsll (vd va : VReg) (vb : VB) (tm : Tm) (c : Ctl) (s : State) : Out := vStep s (vsllOp vd va vb tm c)
def execVsrl (vd va : VReg) (vb : VB) (tm : Tm) (c : Ctl) (s : State) : Out := vStep s (vsrlOp vd va vb tm c)
def execVsra (vd va : VReg) (vb : VB) (tm : Tm) (c : Ctl) (s : State) : Out := vStep s (vsraOp vd va vb tm c)
def execVmin (vd va : VReg) (vb : VB) (tm : Tm) (c : Ctl) (s : State) : Out := vStep s (vminOp vd va vb tm c)
def execVmax (vd va : VReg) (vb : VB) (tm : Tm) (c : Ctl) (s : State) : Out := vStep s (vmaxOp vd va vb tm c)
def execVminu (vd va : VReg) (vb : VB) (tm : Tm) (c : Ctl) (s : State) : Out := vStep s (vminuOp vd va vb tm c)
def execVmaxu (vd va : VReg) (vb : VB) (tm : Tm) (c : Ctl) (s : State) : Out := vStep s (vmaxuOp vd va vb tm c)
def execVsadd (vd va : VReg) (vb : VB) (tm : Tm) (c : Ctl) (s : State) : Out := vStep s (vsaddOp vd va vb tm c)
def execVssub (vd va : VReg) (vb : VB) (tm : Tm) (c : Ctl) (s : State) : Out := vStep s (vssubOp vd va vb tm c)

end Sys2Proof.Machine
end

