-- ==== Sys2Proof/Machine/VCmp.lean ====
section
/-! DEFINITION. Sys2Proof/Machine/VCmp.lean: compares and mask logic, VCMP (09 R243 to R245). -/

namespace Sys2Proof.Machine

/-- A compare (09 R243): f gives the result and its flags from the containers a and b. -/
def vcmpOp (s : State) (i : Instr) (kd : KReg) (va : VReg) (vb : VB) (c : Ctl) (ok : Fmt → Bool)
    (f : Fmt → Nat → Nat → Bool × Nat) : VOp :=
  let srcs := va :: vbVregs vb
  { enc := encodeWord i
    srcs := srcs
    kd := some kd
    regs := vbSregs vb
    bad := !ok s.h.fmt
    want := s.h.wantActive c
    defer := true
    body := maskBody srcs kd c fun h e => f h.fmt (keptBits h.fmt (h.src va 0 e)) (keptBits h.fmt (h.vbAt vb 0 e)) }

/-- A floating compare: whether a NaN operand gives true, whether any NaN raises NV, and the test (09 R243). -/
def fcmp (onNan ordered : Bool) (test : Ordering → Bool) (f : Fmt) (x y : Nat) : Bool × Nat :=
  let a := decodeEx f x
  let b := decodeEx f y
  if a.isNan || b.isNan then (onNan, if ordered || a.isSnan || b.isSnan then flNV else 0)
  else (test (exCmp a b), 0)

def vfeqOp (kd : KReg) (va : VReg) (vb : VB) (c : Ctl) (s : State) : VOp :=
  vcmpOp s (.vfeq kd va vb c) kd va vb c isF8 (fcmp false false (· == .eq))
def vfltOp (kd : KReg) (va : VReg) (vb : VB) (c : Ctl) (s : State) : VOp :=
  vcmpOp s (.vflt kd va vb c) kd va vb c isF8 (fcmp false true (· == .lt))
def vfleOp (kd : KReg) (va : VReg) (vb : VB) (c : Ctl) (s : State) : VOp :=
  vcmpOp s (.vfle kd va vb c) kd va vb c isF8 (fcmp false true (· != .gt))
def vfneOp (kd : KReg) (va : VReg) (vb : VB) (c : Ctl) (s : State) : VOp :=
  vcmpOp s (.vfne kd va vb c) kd va vb c isF8 (fcmp true false (· != .eq))
def vieqOp (kd : KReg) (va : VReg) (vb : VB) (c : Ctl) (s : State) : VOp :=
  vcmpOp s (.vieq kd va vb c) kd va vb c fmtHasContainer fun _ a b => (a == b, 0)
def viltOp (kd : KReg) (va : VReg) (vb : VB) (c : Ctl) (s : State) : VOp :=
  vcmpOp s (.vilt kd va vb c) kd va vb c fmtHasContainer fun f a b => (decide (sOf f a < sOf f b), 0)
def viltuOp (kd : KReg) (va : VReg) (vb : VB) (c : Ctl) (s : State) : VOp :=
  vcmpOp s (.viltu kd va vb c) kd va vb c fmtHasContainer fun _ a b => (decide (a < b), 0)
def vileOp (kd : KReg) (va : VReg) (vb : VB) (c : Ctl) (s : State) : VOp :=
  vcmpOp s (.vile kd va vb c) kd va vb c fmtHasContainer fun f a b => (decide (sOf f a ≤ sOf f b), 0)

/-- Mask logic (09 R244): bit e of kd from bit e of the sources, read before any write. -/
def klogOp (i : Instr) (kd ka kb : KReg) (c : Ctl) (s : State) (f : Bool → Bool → Bool) : VOp :=
  { enc := encodeWord i
    kd := some kd
    ks := [ka, kb]
    bad := !fmtHasContainer s.h.fmt
    body := maskBody [] kd c fun h e => (f (h.kBit ka e) (h.kBit kb e), 0) }

def kandOp (kd ka kb : KReg) (c : Ctl) (s : State) : VOp := klogOp (.kand kd ka kb c) kd ka kb c s fun a b => a && b
def korOp (kd ka kb : KReg) (c : Ctl) (s : State) : VOp := klogOp (.kor kd ka kb c) kd ka kb c s fun a b => a || b
def kxorOp (kd ka kb : KReg) (c : Ctl) (s : State) : VOp := klogOp (.kxor kd ka kb c) kd ka kb c s fun a b => a != b
def kandnOp (kd ka kb : KReg) (c : Ctl) (s : State) : VOp := klogOp (.kandn kd ka kb c) kd ka kb c s fun a b => a && !b
def knotOp (kd ka : KReg) (c : Ctl) (s : State) : VOp := klogOp (.knot kd ka c) kd ka ka c s fun a _ => !a

/-- Active elements whose bit of ka is set, ascending (09 R245). -/
def Hart.hits (h : Hart) (ka : KReg) (c : Ctl) : List Nat := (List.range h.vl).filter fun e => h.kBit c.k e && h.kBit ka e

/-- KPOP and KFIRST write a scalar register (09 R245). -/
def kscalarOp (i : Instr) (sd : SReg) (ka : KReg) (s : State) (f : Hart → Word) : VOp :=
  { enc := encodeWord i
    regs := [sd]
    ks := [ka]
    bad := !fmtHasContainer s.h.fmt
    whole := true
    body := fun _ s => .done (s.ws sd (f s.h)) }

def kpopOp (sd : SReg) (ka : KReg) (c : Ctl) (s : State) : VOp :=
  kscalarOp (.kpop sd ka c) sd ka s fun h => BitVec.ofNat 64 (h.hits ka c).length
def kfirstOp (sd : SReg) (ka : KReg) (c : Ctl) (s : State) : VOp :=
  kscalarOp (.kfirst sd ka c) sd ka s fun h => match h.hits ka c with
    | e :: _ => BitVec.ofNat 64 e
    | [] => BitVec.allOnes 64

def execVfeq (kd : KReg) (va : VReg) (vb : VB) (c : Ctl) (s : State) : Out := vStep s (vfeqOp kd va vb c)
def execVflt (kd : KReg) (va : VReg) (vb : VB) (c : Ctl) (s : State) : Out := vStep s (vfltOp kd va vb c)
def execVfle (kd : KReg) (va : VReg) (vb : VB) (c : Ctl) (s : State) : Out := vStep s (vfleOp kd va vb c)
def execVfne (kd : KReg) (va : VReg) (vb : VB) (c : Ctl) (s : State) : Out := vStep s (vfneOp kd va vb c)
def execVieq (kd : KReg) (va : VReg) (vb : VB) (c : Ctl) (s : State) : Out := vStep s (vieqOp kd va vb c)
def execVilt (kd : KReg) (va : VReg) (vb : VB) (c : Ctl) (s : State) : Out := vStep s (viltOp kd va vb c)
def execViltu (kd : KReg) (va : VReg) (vb : VB) (c : Ctl) (s : State) : Out := vStep s (viltuOp kd va vb c)
def execVile (kd : KReg) (va : VReg) (vb : VB) (c : Ctl) (s : State) : Out := vStep s (vileOp kd va vb c)
def execKand (kd ka kb : KReg) (c : Ctl) (s : State) : Out := vStep s (kandOp kd ka kb c)
def execKor (kd ka kb : KReg) (c : Ctl) (s : State) : Out := vStep s (korOp kd ka kb c)
def execKxor (kd ka kb : KReg) (c : Ctl) (s : State) : Out := vStep s (kxorOp kd ka kb c)
def execKandn (kd ka kb : KReg) (c : Ctl) (s : State) : Out := vStep s (kandnOp kd ka kb c)
def execKnot (kd ka : KReg) (c : Ctl) (s : State) : Out := vStep s (knotOp kd ka c)
def execKpop (sd : SReg) (ka : KReg) (c : Ctl) (s : State) : Out := vStep s (kpopOp sd ka c)
def execKfirst (sd : SReg) (ka : KReg) (c : Ctl) (s : State) : Out := vStep s (kfirstOp sd ka c)

end Sys2Proof.Machine
end

