-- ==== Sys2Proof/Machine/VCvt.lean ====
section
/-! DEFINITION. Sys2Proof/Machine/VCvt.lean: conversions and block quantisation, VCVT (09 R248 to R252). -/

namespace Sys2Proof.Machine

/-- A source format a conversion cannot read from containers of EFMT (09 R248). -/
def Hart.badSource (h : Hart) (src : Fmt) : Bool := !fmtHasContainer src || decide (h.ebits < fmtBits src)

/-- The low bits of a container that a source format occupies (09 R248). -/
def lowBits (src : Fmt) (x : Nat) : Nat := x % 2 ^ fmtBits src

/-- VCVT (09 R249): every plane is converted, each with its own flags. -/
def vcvtOp (src : Fmt) (sat : Bool) (vd va : VReg) (rm : Rm) (tm : Tm) (c : Ctl) (s : State) : VOp :=
  { enc := encodeWord (.vcvt src sat vd va rm tm c)
    srcs := [va]
    dsts := [vd]
    bad := !isF8 s.h.fmt || s.h.badSource src || (sat && s.h.fmt != .e4m3)
    rm := some rm
    want := s.h.wantActive c
    plain := true
    defer := true
    body := elemBody [va] vd tm c fun h r e =>
      unzipRes ((h.planes tm).map fun p =>
        roundRes h.fmt sat r.rm (r.u h p e) (convEx (decodeEx src (lowBits src (h.src va p e))))) }

/-- VCVTI (09 R250): an integer of EFMT; an integer source is clamped, which raises SAT. -/
def vcvtiOp (src : Fmt) (vd va : VReg) (rm : Rm) (tm : Tm) (c : Ctl) (s : State) : VOp :=
  { enc := encodeWord (.vcvti src vd va rm tm c)
    srcs := [va]
    dsts := [vd]
    bad := !intFmt s.h.fmt || s.h.badSource src
    rm := some rm
    want := s.h.wantActive c
    plain := true
    defer := true
    body := elemBody [va] vd tm c fun h r e =>
      let x := lowBits src (h.src va 0 e)
      let (y, fl) := if fmtInt src then clampRes h.fmt (intOf src x) else roundInt h.fmt r.rm (r.u h 0 e) (decodeEx src x)
      ([y], [fl]) }

/-- Block length of the b32 field (03 R85). -/
def blockLen (b32 : Bool) : Nat := if b32 then 32 else 16

/-- Formats of VQBLK with their block exponent offset emax (09 R251). -/
def emaxOf (f : Fmt) : Option Nat :=
  match f with
  | .e5m2 => some 15 | .e4m3 => some 8 | .e3m2 => some 4 | .e2m3 => some 2 | .e2m1 => some 2 | .i16 => some 14 | .i8 => some 6
  | .i4 => some 2 | _ => none

/-- floor(log2 |x|) of a finite nonzero value. -/
def Ex.exponent (x : Ex) : Option Int :=
  match x with
  | .fin _ n d => if n = 0 then none else some (floorLog2 n d)
  | _ => none

/-- Is a value NaN or an infinity. -/
def Ex.special (x : Ex) : Bool :=
  match x with
  | .fin .. => false
  | _ => true

/-- The scale of a block from its active elements (09 R251). -/
def blockScale (emax : Nat) (l : List Ex) : Nat :=
  if l.any (·.special) then 255
  else
    match (l.filterMap (·.exponent)).foldl (fun (a : Option Int) k => some (match a with
        | none => k
        | some m => max m k)) none with
    | none => 127
    | some k => (max 0 (k - emax + 127)).toNat

/-- A code of VQBLK: floating by RoundTo; an integer rounded with q = 1 and clamped, a clamp raising SAT (09 R251, 08 R213). -/
def quantCode (f : Fmt) (sat : Bool) (rm : Rm) (u : Nat) (x : Ex) : Nat × Nat :=
  if fmtInt f then
    match x with
    | .fin neg n d =>
      let (i, inexact) := roundToInt rm u neg n d
      let (j, cl) := clampInt f i
      (wrapOf (fmtBits f) j, if cl then flSAT else if inexact then flNX else 0)
    | _ => (0, 0)
  else roundFloat f sat rm u x

/-- VQBLK (09 R251): codes into vd, one scale for each block into vb, which the mask does not govern. -/
def vqblkOp (fmt : Fmt) (sat b32 : Bool) (vd va vb : VReg) (rm : Rm) (tm : Tm) (c : Ctl) (s : State) : VOp :=
  { enc := encodeWord (.vqblk fmt sat b32 vd va vb rm tm c)
    srcs := [va]
    dsts := [vd, vb]
    whole := true
    defer := true
    bad := !isF3 s.h.fmt || (emaxOf fmt).isNone || (sat && fmt != .e4m3) || vb == vd || vb == va
    rm := some rm
    body := fun r s =>
      let h := s.h
      let b := blockLen b32
      let at_ (e : Nat) : Ex := decodeEx h.fmt (h.src va 0 e)
      let act := (List.range h.vl).filter fun e => h.kBit c.k e
      let nb := (h.vl + b - 1) / b
      let scales := (List.range nb).map fun j => blockScale ((emaxOf fmt).getD 0) ((act.filter fun e => e / b == j).map at_)
      let firstBad (e : Nat) : Bool := (act.find? fun d => d / b == e / b && (at_ d).special) == some e
      let codes := act.map fun e =>
        let x := scales[e / b]?.getD 127
        let q := if x = 255 then (0, if firstBad e then flNV else 0)
          else quantCode fmt sat r.rm (r.u h 0 e) (exMul (at_ e) (.pow2 false 1 (127 - (x : Int)))).1
        (e, q.1, q.2 ||| h.stripFlags [va] e)
      wholeEnd s (codes.map fun x => (x.1, [x.2.2])) fun h =>
        let h1 := codes.foldl (fun (h : Hart) x => h.putPlanes vd x.1 (tmVals tm h.tangents [x.2.1])) h
        let h2 := (List.range h.vl).foldl (fun (h : Hart) e => if !h.kBit c.k e && c.kz then h.zeroPlanes vd e else h) h1
        scales.zipIdx.foldl (fun (h : Hart) x => h.putPlanes vb x.2 [some x.1]) h2 }

/-- Element formats VDQBLK reads (09 R252). -/
def dequantFmt (f : Fmt) : Bool := (fmtHasContainer f && decide (fmtBits f ≤ 8) && f != .e8m0) || f == .i16

/-- VDQBLK (09 R252): codes times their block's scale; a scale of 0xFF gives the canonical NaN. -/
def vdqblkOp (fmt : Fmt) (b32 : Bool) (vd va vb : VReg) (rm : Rm) (tm : Tm) (c : Ctl) (s : State) : VOp :=
  let b := blockLen b32
  { enc := encodeWord (.vdqblk fmt b32 vd va vb rm tm c)
    srcs := [va, vb]
    dsts := [vd]
    scale := some b
    bad := !isF3 s.h.fmt || !dequantFmt fmt || vb == vd
    rm := some rm
    want := s.h.wantActive c
    plain := true
    defer := true
    body := elemBody [va] vd tm c fun h r e =>
      let x := h.scaleAt vb b e
      let (a, fa) := convEx (decodeEx fmt (lowBits fmt (h.src va 0 e)))
      let (y, fl) := if x = 255 then (fmtNan h.fmt, 0)
        else roundRes h.fmt false r.rm (r.u h 0 e) ((exMul a (.pow2 false 1 ((x : Int) - 127))).1, fa)
      ([y], [fl]) }

def execVcvt (src : Fmt) (sat : Bool) (vd va : VReg) (rm : Rm) (tm : Tm) (c : Ctl) (s : State) : Out :=
  vStep s (vcvtOp src sat vd va rm tm c)
def execVqblk (fmt : Fmt) (sat b32 : Bool) (vd va vb : VReg) (rm : Rm) (tm : Tm) (c : Ctl) (s : State) : Out :=
  vStep s (vqblkOp fmt sat b32 vd va vb rm tm c)
def execVdqblk (fmt : Fmt) (b32 : Bool) (vd va vb : VReg) (rm : Rm) (tm : Tm) (c : Ctl) (s : State) : Out :=
  vStep s (vdqblkOp fmt b32 vd va vb rm tm c)
def execVcvti (src : Fmt) (vd va : VReg) (rm : Rm) (tm : Tm) (c : Ctl) (s : State) : Out := vStep s (vcvtiOp src vd va rm tm c)

end Sys2Proof.Machine
end

