-- ==== Sys2Proof/Machine/VPerm.lean ====
section
/-! DEFINITION. Sys2Proof/Machine/VPerm.lean: slides, gathers and compression, VPERM (10 R277, R278). -/

namespace Sys2Proof.Machine

/-- Elements below VL of vd as an instruction that stops only at element 0 leaves them: x gives the planes of an element that is
written, from the hart as it stands before any write; the others follow kz (10 R277). -/
def Hart.permute (h : Hart) (vd : VReg) (tm : Tm) (kz : Bool) (x : Nat → Option (Nat → Nat)) : Hart :=
  (List.range h.vl).foldl (fun (g : Hart) e => match x e with
    | some y => g.putPlanes vd e (tmVals tm h.tangents ((h.planes tm).map y))
    | none => if kz then g.zeroPlanes vd e else g) h

/-- Flags of decoding the elements of its strips that an instruction reads. -/
def Hart.readFlags (h : Hart) (srcs : List VReg) (want : Nat → Nat → Bool) : List (Nat × List Nat) :=
  (List.range h.vl).map fun e => (e, [h.stripFlags ((srcs.zipIdx.filter fun x => want x.2 e).map (·.1)) e])

/-- A member of VPERM: f gives the planes of an element that is written. -/
def permOp (i : Instr) (vd : VReg) (srcs : List VReg) (regs : List SReg) (tm : Tm) (c : Ctl) (s : State)
    (want : Nat → Nat → Bool) (f : Hart → Nat → Option (Nat → Nat)) : VOp :=
  { enc := encodeWord i
    srcs := srcs
    dsts := [vd]
    regs := regs
    whole := true
    bad := !fmtHasContainer s.h.fmt
    want := want
    plain := true
    defer := true
    body := fun _ s => wholeEnd s (s.h.readFlags srcs want) fun h => h.permute vd tm c.kz (f h) }

/-- The amount of a slide (10 R277, 03 R84). -/
def Hart.slideBy (h : Hart) (ss : SReg) (imm : BitVec 11) : Nat := if ss = 0 then imm.toNat else (h.getS ss).toNat

/-- The planes of a fill value: a scalar with zero tangents (10 R277). -/
def Hart.fill (h : Hart) (sf : SReg) (p : Nat) : Nat := if p = 0 then h.bval sf else 0

def vslupOp (vd va : VReg) (ss : SReg) (imm : BitVec 11) (sf : SReg) (tm : Tm) (c : Ctl) (s : State) : VOp :=
  permOp (.vslup vd va ss imm sf tm c) vd [va] [ss, sf] tm c s (fun _ _ => true) fun h e =>
    let m := h.slideBy ss imm
    if !h.kBit c.k e then none else if m ≤ e then some fun p => h.src va p (e - m) else some (h.fill sf)

def vsldnOp (vd va : VReg) (ss : SReg) (imm : BitVec 11) (sf : SReg) (tm : Tm) (c : Ctl) (s : State) : VOp :=
  permOp (.vsldn vd va ss imm sf tm c) vd [va] [ss, sf] tm c s (fun _ _ => true) fun h e =>
    let m := h.slideBy ss imm
    if !h.kBit c.k e then none else if e + m < h.vl then some fun p => h.src va p (e + m) else some (h.fill sf)

/-- VRGATH: every element of va below VL can be a source; the indices read are those of active elements (10 R277). -/
def vrgathOp (vd va vb : VReg) (tm : Tm) (c : Ctl) (s : State) : VOp :=
  permOp (.vrgath vd va vb tm c) vd [va, vb] [] tm c s (fun j e => j == 0 || s.h.kBit c.k e) fun h e =>
    let x := keptBits h.fmt (h.operand 1 vb 0 e)
    if !h.kBit c.k e then none else if x < h.vl then some fun p => h.src va p x else some fun _ => 0

/-- VCOMPR: the r-th selected element of va goes to element r (10 R278). -/
def vcomprOp (vd va : VReg) (tm : Tm) (c : Ctl) (s : State) : VOp :=
  let sel := (List.range s.h.vl).filter fun e => s.h.kBit c.k e
  permOp (.vcompr vd va tm c) vd [va] [] tm c s (s.h.wantActive c) fun h r => sel[r]?.map fun e => fun p => h.src va p e

def execVslup (vd va : VReg) (ss : SReg) (imm : BitVec 11) (sf : SReg) (tm : Tm) (c : Ctl) (s : State) : Out :=
  vStep s (vslupOp vd va ss imm sf tm c)
def execVsldn (vd va : VReg) (ss : SReg) (imm : BitVec 11) (sf : SReg) (tm : Tm) (c : Ctl) (s : State) : Out :=
  vStep s (vsldnOp vd va ss imm sf tm c)
def execVrgath (vd va vb : VReg) (tm : Tm) (c : Ctl) (s : State) : Out := vStep s (vrgathOp vd va vb tm c)
def execVcompr (vd va : VReg) (tm : Tm) (c : Ctl) (s : State) : Out := vStep s (vcomprOp vd va tm c)

end Sys2Proof.Machine
end

