-- ==== Sys2Proof/Machine/VRed.lean ====
section
/-! DEFINITION. Sys2Proof/Machine/VRed.lean: reductions and scans, VRED (10 R279, R280, 08 R227, R228). -/

namespace Sys2Proof.Machine

/-- Active elements of an instruction, ascending. -/
def Hart.actives (h : Hart) (c : Ctl) : List Nat := (List.range h.vl).filter fun e => h.kBit c.k e

/-- A rounded addition of two containers for plane p of element e (08 R211, R214). -/
def Pass.add (r : Pass) (h : Hart) (p e x y : Nat) : Nat × Nat := r.round h p e (exAdd r.rm (decodeEx h.fmt x) (decodeEx h.fmt y))

/-- A chain in element order: for each element, what has been gathered with it, and the flags of its step (08 R227). -/
def redChain {α : Type} (step : α → Nat → α × Nat) (acc : α) : List Nat → List (α × Nat)
  | [] => []
  | e :: l => step acc e :: redChain step (step acc e).1 l

/-- What a chain ends with. -/
def chainEnd {α : Type} (acc : α) (l : List (α × Nat)) : α := (l.getLast?.map (·.1)).getD acc

/-- Flags by element and plane from the flags of each plane by element. -/
def flagsByElem (es : List Nat) (planes : List (List Nat)) : List (Nat × List Nat) :=
  planes.foldl (fun (acc : List (Nat × List Nat)) fl => List.zipWith (fun (x : Nat × List Nat) f => (x.1, x.2 ++ [f])) acc fl)
    (es.map fun e => (e, []))

/-- Flags of decoding a bound source join those of the value plane. -/
def Hart.withStrip (h : Hart) (srcs : List VReg) (l : List (Nat × List Nat)) : List (Nat × List Nat) :=
  l.map fun x => (x.1, addFlags (h.stripFlags srcs x.1) x.2)

/-- Flags of the value plane join those of element 0, whether that has others or none. -/
def joinFirst (g : Nat) : List (Nat × List Nat) → List (Nat × List Nat)
  | (0, fls) :: l => (0, addFlags g fls) :: l
  | l => (0, [g]) :: l

/-- A reduction of vb[0] with the active elements of va (10 R279): f gives the planes of the result and its flags by element, those of
decoding va among them; vb[0]'s are of element 0 (08 R217). -/
def vredOp (i : Instr) (vd va vb : VReg) (rm : Rm) (tm : Tm) (c : Ctl) (s : State) (ok : Fmt → Bool) (det : Bool)
    (f : Hart → Pass → List Nat × List (Nat × List Nat)) (draws : Hart → Nat) : VOp :=
  { enc := encodeWord i
    srcs := [va, vb]
    dsts := [vd]
    whole := true
    det := det
    bad := !ok s.h.fmt
    rm := some rm
    want := fun j e => (j == 0 && s.h.kBit c.k e) || (j == 1 && e == 0)
    plain := true
    defer := true
    body := fun r s =>
      let h := s.h
      if h.vl = 0 then .done s
      else
        let (vals, fls) := f h r
        match wholeEnd s (joinFirst (h.stripFlags [vb] 0) fls) fun h => h.putPlanes vd 0 (tmVals tm h.tangents vals) with
        | .done s1 => .done { s1 with fresh := s1.fresh + draws h }
        | x => x }

/-- VFREDO: each plane's sum in strict element order (08 R227). -/
def vfredoOp (vd va vb : VReg) (rm : Rm) (tm : Tm) (c : Ctl) (s : State) : VOp :=
  vredOp (.vfredo vd va vb rm tm c) vd va vb rm tm c s isF8 false
    (fun h r =>
      let es := h.actives c
      let chains := (h.planes tm).map fun p => (p, redChain (fun acc e => r.add h p e acc (h.src va p e)) (h.operand 1 vb p 0) es)
      (chains.map fun x => chainEnd (h.operand 1 vb x.1 0) x.2, h.withStrip [va] (flagsByElem es (chains.map fun x => x.2.map (·.2)))))
    fun _ => 0

/-- VFRMAX and VFRMIN: the choice by plane 0 carries its tangents (10 R279, 09 R240). -/
def pickStep (max : Bool) (h : Hart) (va : VReg) (acc : List Nat) (e : Nat) : List Nat × Nat :=
  let x := (List.range (1 + h.tangents)).map fun p => h.src va p e
  let (v, fromB, _) := minmaxBits max h.fmt (keptBits h.fmt (acc.headD 0)) (keptBits h.fmt (x.headD 0))
  (v.1 :: (if fromB then x else acc).tail, v.2)

def vpickOp (max : Bool) (i : Instr) (vd va vb : VReg) (rm : Rm) (tm : Tm) (c : Ctl) (s : State) : VOp :=
  vredOp i vd va vb rm tm c s isF8 false
    (fun h _ =>
      let es := h.actives c
      let start := (List.range (1 + h.tangents)).map fun p => h.operand 1 vb p 0
      let l := redChain (pickStep max h va) start es
      ((chainEnd start l).take (h.planes tm).length, h.withStrip [va] (flagsByElem es [tmFlags tm (l.map (·.2))])))
    fun _ => 0

def vfrmaxOp (vd va vb : VReg) (rm : Rm) (tm : Tm) (c : Ctl) (s : State) : VOp :=
  vpickOp true (.vfrmax vd va vb rm tm c) vd va vb rm tm c s
def vfrminOp (vd va vb : VReg) (rm : Rm) (tm : Tm) (c : Ctl) (s : State) : VOp :=
  vpickOp false (.vfrmin vd va vb rm tm c) vd va vb rm tm c s

/-- VIREDS: a sum modulo 2^w with zero tangents (08 R227). -/
def viredsOp (vd va vb : VReg) (rm : Rm) (tm : Tm) (c : Ctl) (s : State) : VOp :=
  vredOp (.vireds vd va vb rm tm c) vd va vb rm tm c s intFmt false
    (fun h _ =>
      let es := h.actives c
      ([(es.foldl (fun a e => a + h.src va 0 e) (h.operand 1 vb 0 0)) % 2 ^ fmtBits h.fmt], h.withStrip [va] (es.map fun e => (e, [0]))))
    fun _ => 0

/-- One parenthesisation of a list of containers, each with the highest element number it covers: neighbours are added, the place
of each addition being the next free choice (08 R228, log 8). -/
def treeSum (add : Nat → Nat → Nat → Nat × Nat) : Nat → Nat → Nat → List (Nat × Nat) → Nat × Nat
  | 0, _, fl, l => ((l.headD (0, 0)).1, fl)
  | fuel + 1, n, fl, l =>
    if l.length ≤ 1 then ((l.headD (0, 0)).1, fl)
    else
      let i := Config.freeChoice n % (l.length - 1)
      let x := l[i]?.getD (0, 0)
      let y := l[i + 1]?.getD (0, 0)
      let j := max x.2 y.2
      let z := add j x.1 y.1
      treeSum add fuel (n + 1) (fl ||| z.2) (l.take i ++ (z.1, j) :: l.drop (i + 2))

/-- VFREDU: an unordered sum of vb[0] and the active elements; every flag, of a decoding too, is reported at element 0 (10 R279, 08 R228). -/
def vfreduOp (vd va vb : VReg) (rm : Rm) (tm : Tm) (c : Ctl) (s : State) : VOp :=
  vredOp (.vfredu vd va vb rm tm c) vd va vb rm tm c s isF8 true
    (fun h r =>
      let es := h.actives c
      let sums := (h.planes tm).map fun p =>
        treeSum (fun j x y => r.add h p j x y) es.length (s.fresh + p * es.length) 0
          ((h.operand 1 vb p 0, 0) :: es.map fun e => (h.src va p e, e))
      (sums.map (·.1), [(0, addFlags (es.foldl (fun a e => a ||| h.stripFlags [va] e) 0) (sums.map (·.2)))]))
    fun h => (h.planes tm).length * (h.actives c).length

/-- A scan of the active elements of va (10 R280): f gives, for each plane, the prefixes with their flags. -/
def vscanWith (i : Instr) (vd va : VReg) (rm : Rm) (tm : Tm) (c : Ctl) (s : State) (det : Bool)
    (f : Hart → Pass → Nat → List (Nat × Nat)) (draws : Hart → Nat) : VOp :=
  { enc := encodeWord i
    srcs := [va]
    dsts := [vd]
    whole := true
    det := det
    bad := !isF8 s.h.fmt
    rm := some rm
    want := s.h.wantActive c
    plain := true
    defer := true
    body := fun r s =>
      let h := s.h
      let es := h.actives c
      let ps := (h.planes tm).map fun p => f h r p
      let rows := flagsByElem es (ps.map fun l => l.map (·.1))
      match wholeEnd s (h.withStrip [va] (flagsByElem es (ps.map fun l => l.map (·.2)))) fun h =>
          let h1 := rows.foldl (fun (g : Hart) x => g.putPlanes vd x.1 (tmVals tm h.tangents x.2)) h
          if c.kz then (List.range h.vl).foldl (fun (g : Hart) e => if h.kBit c.k e then g else g.zeroPlanes vd e) h1 else h1 with
      | .done s1 => .done { s1 with fresh := s1.fresh + draws h }
      | x => x }

/-- VSCAN: the first active element is copied, and each later one is added to the prefix (10 R280). -/
def vscanOp (vd va : VReg) (rm : Rm) (tm : Tm) (c : Ctl) (s : State) : VOp :=
  vscanWith (.vscan vd va rm tm c) vd va rm tm c s false
    (fun h r p => match h.actives c with
      | [] => []
      | e :: l => (h.src va p e, 0) :: redChain (fun acc d => r.add h p d acc (h.src va p d)) (h.src va p e) l)
    fun _ => 0

/-- VSCANF: each prefix is an unordered sum of its elements (10 R280, 08 R228). -/
def vscanfOp (vd va : VReg) (rm : Rm) (tm : Tm) (c : Ctl) (s : State) : VOp :=
  vscanWith (.vscanf vd va rm tm c) vd va rm tm c s true
    (fun h r p =>
      let es := h.actives c
      let n := es.length
      (List.range n).map fun i =>
        treeSum (fun j x y => r.add h p j x y) i (s.fresh + (p * n + i) * n) 0 ((es.take (i + 1)).map fun e => (h.src va p e, e)))
    fun h => (h.planes tm).length * (h.actives c).length * (h.actives c).length

def execVfredo (vd va vb : VReg) (rm : Rm) (tm : Tm) (c : Ctl) (s : State) : Out := vStep s (vfredoOp vd va vb rm tm c)
def execVfredu (vd va vb : VReg) (rm : Rm) (tm : Tm) (c : Ctl) (s : State) : Out := vStep s (vfreduOp vd va vb rm tm c)
def execVfrmax (vd va vb : VReg) (rm : Rm) (tm : Tm) (c : Ctl) (s : State) : Out := vStep s (vfrmaxOp vd va vb rm tm c)
def execVfrmin (vd va vb : VReg) (rm : Rm) (tm : Tm) (c : Ctl) (s : State) : Out := vStep s (vfrminOp vd va vb rm tm c)
def execVireds (vd va vb : VReg) (rm : Rm) (tm : Tm) (c : Ctl) (s : State) : Out := vStep s (viredsOp vd va vb rm tm c)
def execVscan (vd va : VReg) (rm : Rm) (tm : Tm) (c : Ctl) (s : State) : Out := vStep s (vscanOp vd va rm tm c)
def execVscanf (vd va : VReg) (rm : Rm) (tm : Tm) (c : Ctl) (s : State) : Out := vStep s (vscanfOp vd va rm tm c)

end Sys2Proof.Machine
end

