-- ==== Sys2Proof/Machine/Tang.lean ====
section
/-! DEFINITION. Sys2Proof/Machine/Tang.lean: the tangent group, TANG (10 R264 to R268). -/

namespace Sys2Proof.Machine

/-- TGen of the hart's seed for direction k at element e (10 R265, R266), of the SEED and BASE the instruction has captured. -/
def Hart.direction (h : Hart) (dist : Dist) (k e : Nat) : Ex := tGen h.genNow.1 k (h.genNow.2 + BitVec.ofNat 64 e) dist

/-- A member of TANG that works element by element on vd's planes (10 R266): v0 is what plane 0 becomes, none leaving it, and f
gives planes 1 to T with their flags. -/
def tangOp (i : Instr) (vd : VReg) (srcs : List VReg) (regs : List SReg) (rm : Option Rm) (c : Ctl) (s : State) (v0 : Option Nat)
    (f : Hart → Pass → Nat → Nat → Nat × Nat) : VOp :=
  { enc := encodeWord i
    srcs := srcs
    dsts := [vd]
    regs := regs
    bad := !isF3 s.h.fmt
    rm := rm
    want := s.h.wantActive c
    plain := true
    defer := true
    body := fun r s =>
      let h := s.h
      loopEnd s (elemLoop h c vd (fun e =>
        let x := (List.range h.tangents).map fun k => f h r (k + 1) e
        (v0 :: x.map fun y => some y.1, 0 :: x.map (·.2))) (r.elems h) h) }

/-- A component rounded into EFMT by RNE (10 R266). -/
def Hart.seedPlane (h : Hart) (dist : Dist) (k e : Nat) : Nat × Nat := roundFloat h.fmt false .rne 0 (h.direction dist k e)

def tseedOp (dist : Dist) (vd : VReg) (c : Ctl) (s : State) : VOp :=
  tangOp (.tseed dist vd c) vd [] [] none c s none fun h _ k e => h.seedPlane dist k e
def tzeroOp (vd : VReg) (c : Ctl) (s : State) : VOp := tangOp (.tzero vd c) vd [] [] none c s none fun _ _ _ _ => (0, 0)
def tregenOp (dist : Dist) (vd : VReg) (c : Ctl) (s : State) : VOp :=
  tangOp (.tregen dist vd c) vd [] [] none c s (some 0) fun h _ k e => h.seedPlane dist k e
def tsclOp (vd : VReg) (ss : SReg) (rm : Rm) (c : Ctl) (s : State) : VOp :=
  tangOp (.tscl vd ss rm c) vd [vd] [ss] (some rm) c s none fun h r k e =>
    r.round h k e (exMul (decodeEx h.fmt (h.src vd k e)) (decodeEx h.fmt (h.bval ss)))

/-- Plane k of element e of a source that TANG reads at any element: a strip ends at VL (10 R267). -/
def Hart.anySrc (h : Hart) (v : VReg) (p e : Nat) : Nat := if (h.bound v).isSome && decide (h.vl ≤ e) then 0 else h.src v p e

/-- Flags of decoding the first n elements of a strip, those below VL. -/
def Hart.firstFlags (h : Hart) (v : VReg) (n : Nat) : Nat :=
  (List.range (min n h.vl)).foldl (fun a e => a ||| h.stripFlags [v] e) 0

/-- TGET: plane k of va[0] into plane 0 of vd[k − 1] (10 R267). -/
def tgetOp (vd va : VReg) (c : Ctl) (s : State) : VOp :=
  let n := min s.h.tangents s.h.vl
  { enc := encodeWord (.tget vd va c)
    srcs := [va]
    dsts := [vd]
    whole := true
    bad := !isF3 s.h.fmt
    want := fun _ _ => false
    early := some (va, min 1 n)
    plain := true
    defer := true
    body := fun _ s =>
      wholeEnd s [(0, [s.h.firstFlags va (min 1 n)])] fun h =>
        (List.range n).foldl (fun (g : Hart) e =>
          if h.kBit c.k e then g.putPlanes vd e [some (h.src va (e + 1) 0)]
          else if c.kz then g.zeroPlanes vd e else g) h }

/-- TPUT: plane 0 of va[k − 1] into plane k of vd[0] (10 R267). It works on element 0 alone, and the flags of decoding what it reads are
reported there, whichever element of va raised them (log 98). -/
def tputOp (vd va : VReg) (c : Ctl) (s : State) : VOp :=
  let n := if s.h.active c 0 then s.h.tangents else 0
  { enc := encodeWord (.tput vd va c)
    srcs := [va]
    dsts := [vd]
    whole := true
    bad := !isF3 s.h.fmt
    want := fun _ _ => false
    early := some (va, n)
    plain := true
    defer := true
    body := fun _ s =>
      wholeEnd s [(0, [s.h.firstFlags va n])] fun h =>
        if h.tangents = 0 ∨ h.vl = 0 then h
        else if h.kBit c.k 0 then h.putPlanes vd 0 (none :: (List.range h.tangents).map fun k => some (h.anySrc va 0 k))
        else if c.kz then h.zeroPlanes vd 0 else h }

/-- Σ j[k] × g_k over the terms, in ascending order of k, with its flags (10 R268, log 58). -/
def sumTerms (rm : Rm) : List (Ex × Nat) → Ex × Nat
  | [] => (.zero false, 0)
  | x :: l => l.foldl (addF rm) x

/-- TFGA: u = vd[e] + (1/T) × Σ j[k] × g_k, rounded once (10 R268). The flags of decoding a bound va go with the first active
element; where none is active they are raised all the same. -/
def tfgaOp (dist : Dist) (vd va : VReg) (rm : Rm) (c : Ctl) (s : State) : VOp :=
  { enc := encodeWord (.tfga dist vd va rm c)
    srcs := [va, vd]
    dsts := [vd]
    bad := !isF3 s.h.fmt || s.h.tangents == 0 || vd == va
    rm := some rm
    want := fun j e => j == 1 && s.h.kBit c.k e
    defer := true
    early := some (va, s.h.tangents)
    plain := true
    body := fun r s =>
      let h := s.h
      let js := (List.range h.tangents).map fun k => (k + 1, ex0 (decodeEx h.fmt (h.anySrc va 0 k)))
      let read := h.firstFlags va h.tangents
      let first := (List.range h.vl).find? (h.kBit c.k ·)
      let h0 := if first.isNone then h.raise 0 read else h
      loopEnd s (elemLoop h c vd (fun e =>
        let sum := sumTerms r.rm (js.map fun j => mulF j.2 (ex0 (h.direction dist j.1 e)))
        let (x, fl) := r.round h 0 e (addF r.rm (ex0 (decodeEx h.fmt (h.operand 1 vd 0 e))) (mulF sum (.fin false 1 h.tangents, 0)))
        (some x :: List.replicate h.tangents none, [if first = some e then fl ||| read else fl]))
        (r.elems h) h0) }

def execTseed (dist : Dist) (vd : VReg) (c : Ctl) (s : State) : Out := vStep s (tseedOp dist vd c)
def execTzero (vd : VReg) (c : Ctl) (s : State) : Out := vStep s (tzeroOp vd c)
def execTget (vd va : VReg) (c : Ctl) (s : State) : Out := vStep s (tgetOp vd va c)
def execTput (vd va : VReg) (c : Ctl) (s : State) : Out := vStep s (tputOp vd va c)
def execTregen (dist : Dist) (vd : VReg) (c : Ctl) (s : State) : Out := vStep s (tregenOp dist vd c)
def execTfga (dist : Dist) (vd va : VReg) (rm : Rm) (c : Ctl) (s : State) : Out := vStep s (tfgaOp dist vd va rm c)
def execTscl (vd : VReg) (ss : SReg) (rm : Rm) (c : Ctl) (s : State) : Out := vStep s (tsclOp vd ss rm c)

end Sys2Proof.Machine
end

