-- ==== Sys2Proof/Machine/Mtx.lean ====
section
/-! DEFINITION. Sys2Proof/Machine/Mtx.lean: the matrix slice, MTX (10 R269 to R276, 08 R225, R226). -/

namespace Sys2Proof.Machine

/-- Width class and Kmax of a matrix format (10 R269). -/
def tileClass (f : Fmt) : Option (Nat × Nat) :=
  match f with
  | .f32 => some (0, 8)
  | .i16 => some (1, 16)
  | .bf16 | .f16 => some (2, 32)
  | .e5m2 | .e4m3 | .i8 | .n8 => some (3, 64)
  | .e3m2 | .e2m3 | .e2m1 | .i4 | .n4 | .ds8 | .ds4 | .tr2 => some (4, 128)
  | _ => none

/-- Formats that take block scales: no wider than 8 bits, or i16 (10 R270, R273, R275). -/
def scaledFmt (f : Fmt) : Bool := decide (fmtBits f ≤ 8) || f == .i16

/-- The row operand (10 R272). -/
def Hart.rowOf (h : Hart) (row : Row) : Nat :=
  match row with
  | .imm i => i.val
  | .reg s => (h.getS s).toNat

def rowRegs : Row → List SReg
  | .imm _ => []
  | .reg s => [s]

/-- A valid configuration word for a hart with NREG registers and cols columns (10 R270). -/
def tileWordOk (x nreg cols : Nat) : Bool :=
  let scaled := tileScaled x
  let asc := tileAsc x
  bitsOf x 5 3 == 0 && bitsOf x 23 1 == 0 && bitsOf x 27 5 == 0 && bitsOf x 38 26 == 0 &&
    (match (fmtOfCode (bitsOf x 0 5)).bind fun f => (tileClass f).map (f, ·.2) with
    | none => false
    | some (f, kmax) =>
      tileK x % 8 == 0 && decide (8 ≤ tileK x) && decide (tileK x ≤ kmax) && tileN x % 8 == 0 && decide (8 ≤ tileN x) &&
        decide (tileN x ≤ cols) && (scaled || asc || bitsOf x 25 1 == 0) && (!(scaled || asc) || scaledFmt f) &&
        (if asc then decide (tileAsr x < nreg) else tileAsr x == 0))

/-- The configuration of a slot of the selected hart. -/
def State.tile (s : State) (w : Fin 4) : Nat := s.h.tileCfg w.val (s.columnsOf s.hid)

/-- A slot configured: its elements zero, its scales 127 (10 R270). -/
def Hart.configTile (h : Hart) (w : Nat) (x : Word) : Hart :=
  { h with
    tcfg := SMap.put 0 h.tcfg w x
    tel := SMap.clear h.tel (telKey w 0 0) (telKey (w + 1) 0 0)
    tsc := SMap.clear h.tsc (tscKey w 0 0) (tscKey (w + 1) 0 0) }

/-- MCFG (10 R270). -/
def mcfgOp (w : Fin 4) (sr : SReg) (s : State) : VOp :=
  let x := s.rs sr
  { enc := encodeWord (.mcfg w sr)
    regs := [sr]
    tiles := [w]
    whole := true
    bad := sr == 0
    more := if tileWordOk x.toNat s.h.nreg (s.columnsOf s.hid) then none else some ⟨8, x, 0⟩
    body := fun _ s => .done (s.onH fun h => h.configTile w.val x) }

/-- MTSET (10 R272, R273). -/
def mtsetOp (w : Fin 4) (row : Row) (va : VReg) (plane : BitVec 5) (s : State) : VOp :=
  let cfg := s.tile w
  let i := s.h.rowOf row
  { enc := encodeWord (.mtset w row va plane)
    srcs := [va]
    regs := rowRegs row
    tiles := [w]
    whole := true
    bad := s.h.fmt != tileFmt cfg || decide (tileK cfg ≤ i) || decide (s.h.tangents < plane.toNat)
    tdst := true
    want := fun _ e => decide (e < tileN cfg)
    defer := true
    body := fun _ s =>
      wholeEnd s (s.h.readFlags [va] fun _ e => decide (e < tileN cfg)) fun h =>
        (List.range (tileN cfg)).foldl (fun (g : Hart) n =>
          let x := if n < h.vl then h.src va plane.toNat n else 0
          g.putTel w.val i n x) h }

/-- MTSCL (10 R272, R273). -/
def mtsclOp (w : Fin 4) (row : Row) (va : VReg) (s : State) : VOp :=
  let cfg := s.tile w
  let i := s.h.rowOf row
  { enc := encodeWord (.mtscl w row va)
    srcs := [va]
    regs := rowRegs row
    tiles := [w]
    whole := true
    bad := !tileScaled cfg || decide ((tileK cfg + tileBlen cfg - 1) / tileBlen cfg ≤ i)
    tdst := true
    want := fun _ e => decide (e < tileN cfg)
    defer := true
    body := fun _ s =>
      wholeEnd s (s.h.readFlags [va] fun _ e => decide (e < tileN cfg)) fun h =>
        (List.range (min (tileN cfg) h.vl)).foldl (fun (g : Hart) n =>
          { g with tsc := SMap.put 127 g.tsc (tscKey w.val i n) (BitVec.ofNat 8 (h.src va 0 n)) }) h }

/-- A factor of a block scale: none for a NaN scale (08 R209, 10 R274, R275). -/
def scaleExp (x : Nat) : Option Int := if x = 255 then none else some ((x : Int) - 127)

/-- What a group has gathered: the exact sum of its finite products, NaN and infinite products, and NV (08 R226). -/
structure GroupSum where
  sum : Ex := .zero false
  nan : Bool := false
  pos : Bool := false
  neg : Bool := false
  nv : Bool := false
  deriving DecidableEq, Repr

/-- A product joins a group (08 R225, R226). -/
def GroupSum.join (g : GroupSum) (a b : Ex) (sa sb : Option Int) : GroupSum :=
  let (p, fl) := exMul a b
  let g1 := if fl = 0 then g else { g with nv := true }
  match p, sa, sb with
  | .nan _, _, _ => { g1 with nan := true }
  | _, none, _ => { g1 with nan := true }
  | _, _, none => { g1 with nan := true }
  | .inf true, _, _ => { g1 with neg := true }
  | .inf false, _, _ => { g1 with pos := true }
  | p, some x, some y => { g1 with sum := (exAdd .rne g1.sum (exMul p (.pow2 false 1 (x + y))).1).1 }

/-- The group's G and its flags; an exact zero is +0 (08 R225, R226). -/
def GroupSum.value (g : GroupSum) : Ex × Nat :=
  let fl := if g.nv || (g.pos && g.neg) then flNV else 0
  if g.nan || (g.pos && g.neg) then (.nan false, fl)
  else if g.pos || g.neg then (.inf g.neg, fl)
  else (if g.sum.isZero then .zero false else g.sum, fl)

/-- Operands of one accumulation: the row's elements, its scales, and by column the tile's elements and scales. -/
structure RowTerms where
  k : Nat
  x : Nat → Ex
  sa : Nat → Option Int
  b : Nat → Nat → Ex
  sb : Nat → Nat → Option Int

/-- The accumulation of a column: group after group, each added to f32 by RNE (08 R225). -/
def RowTerms.column (t : RowTerms) (n acc : Nat) : Nat × Nat :=
  (List.range ((t.k + 15) / 16)).foldl (fun (a : Nat × Nat) g =>
    let grp := ((List.range (min 16 (t.k - 16 * g))).map (16 * g + ·)).foldl (fun (y : GroupSum) j =>
      y.join (t.x j) (t.b j n) (t.sa j) (t.sb j n)) {}
    let (z, f) := exAdd .rne (decodeEx .f32 a.1) grp.value.1
    let (r, f') := roundFloat .f32 false .rne 0 z
    (r, a.2 ||| grp.value.2 ||| f ||| f')) (acc, 0)

/-- An accumulator word. -/
def Hart.accWord (h : Hart) (a r n : Nat) : Nat := (SMap.get 0 h.acc (accKey a r n)).toNat

/-- Source planes with the planes of the accumulator row they go to (10 R274). -/
def Hart.rowPlanes (h : Hart) (q : Option Nat) : List (Nat × Nat) :=
  match q with
  | none => (List.range (1 + h.tangents)).map fun p => (p, p)
  | some q => [(0, q)]

/-- The words of a tile's image that a row instruction reads, and those of an accumulator's physical row (18 R403). -/
def tileRange (w cfg : Nat) : List (Nat × Nat) :=
  let o := 0x40000 + 0x2000 * w
  [(o, o + 8)] ++ (if tileScaled cfg then [(o + 8, o + 8 + 64 * ((tileK cfg + tileBlen cfg - 1) / tileBlen cfg))] else []) ++
    [(o + 520, o + 520 + tileK cfg * tileN cfg * fmtBits (tileFmt cfg) / 8)]

def accRange (a r n : Nat) : Nat × Nat := (0x48000 + 0x4000 * a + 256 * r, 0x48000 + 0x4000 * a + 256 * r + 4 * n)

/-- Poison of the image as the trap of an instruction that stops only at element 0 (18 R406). -/
def Hart.imageTrap (h : Hart) (l : List (Nat × Nat)) : Option Trp :=
  (h.imagePoison l).map fun o => ⟨19, BitVec.ofNat 64 (2 ^ 63 + o), 0⟩

/-- The terms a row instruction multiplies for a source plane (10 R274, R275). -/
def Hart.rowTerms (h : Hart) (w cfg : Nat) (va asr : VReg) (p : Nat) : RowTerms :=
  let blen := tileBlen cfg
  { k := tileK cfg
    x := fun j => if j < h.vl then decodeEx h.fmt (h.src va p j) else .zero false
    sa := fun j =>
      if tileAsc cfg && decide (j / blen * blen < h.vl) then scaleExp (h.scaleAt asr blen (j / blen * blen)) else some 0
    b := fun j n => decodeEx (tileFmt cfg) (SMap.get 0 h.tel (telKey w j n)).toNat
    sb := fun j n => if tileScaled cfg then scaleExp (h.tileScale w (j / blen) n) else some 0 }

/-- MROW and MROWD: the row's planes against the tile into an accumulator row; flags never trap (10 R274, 08 R226). -/
def rowOp (i : Instr) (a : Fin 4) (row : Row) (w : Fin 4) (va : VReg) (q : Option Nat) (s : State) : VOp :=
  let cfg := s.tile w
  let asr : VReg := Fin.ofNat 64 (tileAsr cfg)
  let r := s.h.rowOf row
  let t1 := 1 + s.h.tangents
  let ps := s.h.rowPlanes q
  { enc := encodeWord i
    srcs := va :: (if tileAsc cfg then [asr] else [])
    scale := if tileAsc cfg then some (tileBlen cfg) else none
    regs := rowRegs row
    tiles := [w]
    accs := [a]
    whole := true
    bad := (tileClass s.h.fmt).map (·.1) != (tileClass (tileFmt cfg)).map (·.1) || decide (64 / t1 ≤ r) ||
      (match q with
      | none => false
      | some q => q == 0 || decide (s.h.tangents < q)) || (tileAsc cfg && !scaledFmt s.h.fmt)
    want := fun j e => decide (e < tileK cfg) || j == 1
    defer := true
    more := s.h.imageTrap (tileRange w.val cfg ++ ps.map fun p => accRange a.val (r * t1 + p.2) (tileN cfg))
    body := fun _ s =>
      let h := s.h
      let cells := ps.flatMap fun p =>
        let t := h.rowTerms w.val cfg va asr p.1
        (List.range (tileN cfg)).map fun n => (r * t1 + p.2, n, p.2, t.column n (h.accWord a.val (r * t1 + p.2) n))
      let h1 := cells.foldl (fun (g : Hart) c =>
        { g.raise c.2.2.1 c.2.2.2.2 with acc := SMap.put 0 g.acc (accKey a.val c.1 c.2.1) (BitVec.ofNat 32 c.2.2.2.1) }) h
      let strips := h.readFlags [va] fun _ e => decide (e < tileK cfg)
      .done { s with h := strips.foldl (fun (g : Hart) x => g.raiseFrom 0 x.2) h1 } }

def mrowOp (a : Fin 4) (row : Row) (w : Fin 4) (va : VReg) (s : State) : VOp := rowOp (.mrow a row w va) a row w va none s
def mrowdOp (a : Fin 4) (row : Row) (w : Fin 4) (va : VReg) (plane : BitVec 5) (s : State) : VOp :=
  rowOp (.mrowd a row w va plane) a row w va (some plane.toNat) s

/-- Targets of a vector store's or a drain's bytes, or the trap of the lowest failing one: a reducing window, another device, a hart
block that is not open and, unless aliasOk, an alias are cause 8 (06 R172, R173, 10 R276, 17 R392). -/
def State.storeTargets (s : State) (aliasOk : Bool) (va : Word) : Nat → Except Trp (List Nat)
  | 0 => .ok []
  | n + 1 =>
    if canonical va && (s.inWindow s.myPart va).isSome then .error ⟨8, va, 0⟩
    else
      match s.accessByte s.hid s.h.sup .write va with
      | .error t => .error (if t.cause = 9 ∧ !aliasOk then ⟨8, va, 0⟩ else t)
      | .ok (.remote _ _) => .error ⟨8, va, 0⟩
      | .ok (.loc pa) =>
        if s.imageShut pa || (isAlias pa && !aliasOk) then .error ⟨8, va, 0⟩
        else
          match s.storeTargets aliasOk (va + 1) n with
          | .error t => .error t
          | .ok l => .ok (pa :: l)

/-- Bytes cut into elements, each with its place. -/
def chunksOf {α : Type} (n : Nat) : Nat → List α → List (List α)
  | 0, _ => []
  | k + 1, l => l.take n :: chunksOf n k (l.drop n)

/-- The TLB after an access to each of n elements of k bytes. -/
def State.touchElems (s : State) (kind : AccKind) (va : Word) (k n : Nat) : State :=
  (List.range n).foldl (fun (t : State) i => t.touchTlb t.hid t.h.sup kind (va + BitVec.ofNat 64 (k * i)) k) s

/-- MDRAIN and MDRAINT: word gives the accumulator's physical row and column behind element e of plane p, none standing for +0
(10 R276). -/
def drainOp (i : Instr) (dst : MDest) (a : Fin 4) (row : Row) (rm : Rm) (s : State) (limit : Nat) (word : Nat → Nat → Option (Nat × Nat)) :
    VOp :=
  let h := s.h
  let k := h.ebits / 8
  let count := (1 + h.tangents) * h.vl
  let mem := match dst with
    | .vec _ => none
    | .mem sr => some (s.rs sr)
  let targets : Except Trp (List Nat) := match mem with
    | none => .ok []
    | some va => s.storeTargets false va (count * k)
  let used := if h.poison.isEmpty then [] else
    (List.range h.vl).flatMap fun e => (List.range (1 + h.tangents)).filterMap fun p => (word e p).map fun x =>
      ((accRange a.val x.1 0).1 + 4 * x.2, (accRange a.val x.1 0).1 + 4 * x.2 + 4)
  { enc := encodeWord i
    dsts := match dst with
      | .vec v => [v]
      | .mem _ => []
    regs := rowRegs row ++ (match dst with
      | .vec _ => []
      | .mem sr => [sr])
    accs := [a]
    whole := true
    bad := !isF8 h.fmt || (mem.isSome && h.ebits == 4) || decide (limit ≤ h.rowOf row)
    rm := some rm
    more := match targets with
      | .error t => some { t with eidx := 0 }
      | .ok _ => h.imageTrap used
    body := fun r s =>
      let h := s.h
      let out := (List.range h.vl).map fun e => (e, (List.range (1 + h.tangents)).map fun p =>
        r.round h p e (convEx (match word e p with
          | some (x, n) => decodeEx .f32 (h.accWord a.val x n)
          | none => .zero false)))
      match wholeEnd s (out.map fun x => (x.1, x.2.map (·.2))) (fun h => match dst with
          | .vec v => out.foldl (fun (g : Hart) x => g.putPlanes v x.1 (x.2.map fun y => some y.1)) h
          | .mem _ => h), mem, targets with
      | .done s1, some va, .ok pas =>
        let open_ := s1.openShadows s1.myPart
        let bits := (List.range (1 + h.tangents)).flatMap fun p => out.map fun x => (x.2[p]?.getD (0, 0)).1
        let accs := ((chunksOf k count pas).zip bits).zipIdx.map fun x =>
          { s1.access 10 (va + BitVec.ofNat 64 (k * x.2)) (.write x.1.1 (leBytes k x.1.2)) with shadows := open_, elem := x.2 }
        .done ((s1.touchElems .write va k count).enqueue accs)
      | x, _, _ => x }

def mdrainOp (dst : MDest) (a : Fin 4) (row : Row) (rm : Rm) (s : State) : VOp :=
  let t1 := 1 + s.h.tangents
  let i := s.h.rowOf row
  drainOp (.mdrain dst a row rm) dst a row rm s (64 / t1) fun e p => if e < s.columnsOf s.hid then some (i * t1 + p, e) else none
def mdraintOp (dst : MDest) (a : Fin 4) (row : Row) (rm : Rm) (s : State) : VOp :=
  let t1 := 1 + s.h.tangents
  let i := s.h.rowOf row
  drainOp (.mdraint dst a row rm) dst a row rm s (s.columnsOf s.hid) fun e p => if e < 64 / t1 then some (e * t1 + p, i) else none

/-- MACLR (10 R276). -/
def maclrOp (a : Fin 4) (_ : State) : VOp :=
  { enc := encodeWord (.maclr a)
    accs := [a]
    whole := true
    body := fun _ s => .done (s.onH fun h => { h with acc := SMap.clear h.acc (accKey a.val 0 0) (accKey (a.val + 1) 0 0) }) }

def execMcfg (w : Fin 4) (sr : SReg) (s : State) : Out := vStep s (mcfgOp w sr)
def execMtset (w : Fin 4) (row : Row) (va : VReg) (plane : BitVec 5) (s : State) : Out := vStep s (mtsetOp w row va plane)
def execMrow (a : Fin 4) (row : Row) (w : Fin 4) (va : VReg) (s : State) : Out := vStep s (mrowOp a row w va)
def execMrowd (a : Fin 4) (row : Row) (w : Fin 4) (va : VReg) (plane : BitVec 5) (s : State) : Out := vStep s (mrowdOp a row w va plane)
def execMdrain (dst : MDest) (a : Fin 4) (row : Row) (rm : Rm) (s : State) : Out := vStep s (mdrainOp dst a row rm)
def execMdraint (dst : MDest) (a : Fin 4) (row : Row) (rm : Rm) (s : State) : Out := vStep s (mdraintOp dst a row rm)
def execMaclr (a : Fin 4) (s : State) : Out := vStep s (maclrOp a)
def execMtscl (w : Fin 4) (row : Row) (va : VReg) (s : State) : Out := vStep s (mtsclOp w row va)

end Sys2Proof.Machine
end

