-- ==== Sys2Proof/Machine/VMem.lean ====
section
/-! DEFINITION. Sys2Proof/Machine/VMem.lean: vector loads and stores, VLD and VST (06 R165 to R176, 14 R337). -/

namespace Sys2Proof.Machine

/-- How a vector access reaches its elements (06 R165). -/
inductive VMode where
  | unit | strided (ss : SReg) | indexed (vi : VReg)
  deriving DecidableEq, Repr

/-- Operands of a vector access. -/
structure VAcc where
  fmt : Fmt
  plane : Nat
  o : Order
  sb : SReg
  off : BitVec 10
  mode : VMode
  deriving DecidableEq, Repr

def accSregs (a : VAcc) : List SReg :=
  a.sb :: match a.mode with
    | .strided ss => [ss]
    | _ => []

def accVregs (a : VAcc) : List VReg :=
  match a.mode with
  | .indexed vi => [vi]
  | _ => []

/-- Base address with its offset: off10 counts containers, of 4-bit formats bytes (06 R165, 03 R86). -/
def State.accBase (s : State) (a : VAcc) : Word := vaOff (s.rs a.sb) (a.off.toInt * (fmtSize a.fmt : Int))

/-- Address of plane p of element e (06 R165, R168). -/
def State.accAddr (s : State) (a : VAcc) (p e : Nat) : Word :=
  let b := s.accBase a
  let va := match a.mode with
    | .unit => b + BitVec.ofNat 64 (e * fmtBits a.fmt / 8)
    | .strided ss => b + BitVec.ofNat 64 e * s.rs ss
    | .indexed vi => b + BitVec.ofNat 64 (keptBits s.h.fmt (s.h.operand 1 vi 0 e) * fmtSize a.fmt)
  if a.plane = 31 then va + BitVec.ofNat 64 (p * ((s.h.vl * fmtBits a.fmt + 7) / 8)) else va

/-- The nibble of element e of a 4-bit format. -/
def accNib (a : VAcc) (e : Nat) : Option Bool := if fmtBits a.fmt = 4 then some (e % 2 == 1) else none

/-- Planes an access moves (06 R168). -/
def accPlanes (a : VAcc) (t : Nat) : List Nat := if a.plane = 31 then List.range (1 + t) else [a.plane]

/-- Forms that are cause 1: a 4-bit format outside unit mode, .pall outside unit mode, a plane above T (06 R165, R168, 01 R47). -/
def accBad (a : VAcc) (t : Nat) : Bool :=
  (fmtBits a.fmt == 4 && a.mode != .unit) || (if a.plane = 31 then a.mode != .unit else decide (t < a.plane))

/-- One plane of one element as a load reaches it. -/
structure VItem where
  e : Nat
  p : Nat
  va : Word
  nib : Option Bool
  ts : List Target
  deriving DecidableEq, Repr

/-- The reads a load makes, in order, to the first that fails (06 R159, R169, R173, 18 R406). -/
def State.planReads (s : State) (a : VAcc) : List (Nat × Nat) → List VItem × Option (Nat × Trp)
  | [] => ([], none)
  | (e, p) :: l =>
    let va := s.accAddr a p e
    match s.readTargets va (fmtSize a.fmt) with
    | .error t => ([], some (e, t))
    | .ok ts =>
      match s.poisonTrap (localsOf ts) with
      | some t => ([], some (e, t))
      | none =>
        let (r, stop) := s.planReads a l
        (⟨e, p, va, accNib a e, ts⟩ :: r, stop)

/-- Is some byte of an item on another device. -/
def itemRemote (x : VItem) : Bool := x.ts.any (·.isRemote)

/-- The place of an item's word: bytes of a mixed item have places of their own. -/
def itemPlace (r : Pass) (x : VItem) : Nat := r.place + (x.p * 65536 + x.e) * 8

/-- The word reads of an item. -/
def State.itemReads (s : State) (r : Pass) (x : VItem) : List (Nat × AccOp) :=
  let t := s.h.waitAt.getD s.now
  let q := itemPlace r x
  match allLocal x.ts, allRemote x.ts with
  | some pas, _ => [(q, .read (.word t q) pas)]
  | none, some (d, pa) => [(q, .readRemote (.word t q) d pa x.ts.length x.va)]
  | none, none => x.ts.zipIdx.map fun y => match y.1 with
    | .loc pa => (q + y.2, .read (.word t (q + y.2)) [pa])
    | .remote d pa => (q + y.2, .readRemote (.word t (q + y.2)) d pa 1 (x.va + BitVec.ofNat 64 y.2))

/-- Orders of a vector access's element accesses (06 R171, 05 R138 to R140): acquire on each read, release on the first access of
the first active element, SC on each. -/
def orderElems (o : Order) (rd : Bool) (first : Option Nat) (l : List Access) : List Access :=
  match o, l with
  | .plain, l => l
  | .acq, l => if rd then l.map fun (a : Access) => if a.op.isRead then { a with acq := some .dev } else a else l
  | .rel, [] => []
  | .rel, a :: l => (if first = some a.elem then { a with rel := some .dev } else a) :: l
  | .sc, l => l.map fun (a : Access) => if a.op.isRead == rd then { a with acq := some .dev, rel := some .dev, sc := true } else a

/-- The fence a vector access leaves (06 R171, 05 R138). -/
def orderFences (o : Order) (rd : Bool) (seq : Nat) : List Fence :=
  match o with
  | .acq => [⟨seq, if rd then .acquire .dev else .ownWrites⟩]
  | .sc => [⟨seq, .acquire .dev⟩]
  | _ => []

/-- Bytes as the queued writes of a convoy's earlier members leave them: what a later member of it reads (03 R91, 05 R135). -/
def State.forward (s : State) (base : Nat) (l : List (Nat × Byte)) : List (Nat × Byte) :=
  (s.h.sq.filter fun a => a.strm == 1 && decide (base ≤ a.seq)).foldl (fun (l : List (Nat × Byte)) a =>
    let put (new : List (Nat × Byte)) : List (Nat × Byte) := l.map fun x => (x.1, ((new.find? (·.1 == x.1)).map (·.2)).getD x.2)
    let cur (pa : Nat) : Byte := ((l.find? (·.1 == pa)).map (·.2)).getD (s.readByte s.myPart s.myCluster pa)
    let nibble (pa : Nat) (hi : Bool) (v : Nat) : List (Nat × Byte) :=
      let old := (cur pa).toNat
      put [(pa, BitVec.ofNat 8 (if hi then old % 16 + 16 * (v % 16) else old / 16 * 16 + v % 16))]
    match a.op with
    | .write pas d => put (pas.zip d)
    | .writeNib pa hi v => nibble pa hi v
    | .writeReg v p e x =>
      let y := x % 2 ^ s.h.ebits
      let pas := s.aliasPas v p e
      (match s.h.aliasNib p e with
      | some hi => nibble (pas.headD 0) hi y
      | none => put (pas.zip (leBytes s.h.aliasSize y)))
    | .vadd f pa x rm u =>
      let k := fmtBits f / 8
      let m := (vaddNew f (leValue (bytesFrom cur pa k)) x rm u).1
      put (((List.range k).map (pa + ·)).zip (leBytes k m))
    | _ => l) l

/-- The containers of pinned registers that member m of a convoy has read, as the convoy's earlier members leave them. -/
def State.memberLent (s : State) (base m : Nat) (l : List (Nat × Word)) : List (Nat × Word) :=
  (l.filter fun x => x.1 / 2 ^ 40 == m).map fun x =>
    let key := x.1 % 2 ^ 40
    let e := key % 65536
    let p := key / 65536 % 32
    let pas := s.aliasPas (Fin.ofNat 64 (key / 2097152)) p e
    match s.h.aliasNib p e with
    | some hi =>
      let b := BitVec.ofNat 8 (if hi then 16 * x.2.toNat else x.2.toNat)
      (key, BitVec.ofNat 64 (nibbleOf hi (leValue ((s.forward base [(pas.headD 0, b)]).map (·.2)))))
    | none => (key, BitVec.ofNat 64 (leValue ((s.forward base (pas.zip (leBytes s.h.aliasSize x.2.toNat))).map (·.2))))

/-- The container bits of an item from its words; a member of a convoy sees the writes of earlier members. -/
def State.itemRaw (s : State) (r : Pass) (x : VItem) : Nat :=
  let q := itemPlace r x
  let whole := (allLocal x.ts).isSome || (allRemote x.ts).isSome
  let bytes := if whole then leBytes x.ts.length (s.h.word q).toNat
    else (List.range x.ts.length).map fun i => BitVec.ofNat 8 (s.h.word (q + i)).toNat
  let at_ := (x.ts.zip bytes).map fun y => match y.1 with
    | .remote _ _ => (2 ^ 64, y.2)
    | .loc pa => (pa, y.2)
  let v := leValue ((if r.conv then s.forward r.base at_ else at_).map (·.2))
  match x.nib with
  | none => v
  | some hi => nibbleOf hi v

/-- The TLB after the accesses of a plan. -/
def State.touchItems (s : State) (k : AccKind) (n : Nat) (l : List VItem) : State :=
  l.foldl (fun (t : State) x => t.touchTlb t.hid t.h.sup k x.va n) s

/-- What the words of a synchronous load give: reads still to make, each with its item, or the first failure among its items. -/
def State.wordsOf (s : State) (r : Pass) (l : List VItem) : List (VItem × AccOp) × Option (Nat × Trp) :=
  let reads := l.flatMap fun x => (s.itemReads r x).map fun y => (x, y.1, y.2)
  let known (q : Nat) : Bool := s.h.got.any (·.1 == q) || s.h.gotBad.any (·.1 == q)
  ((reads.filter fun y => !known y.2.1).map fun y => (y.1, y.2.2),
    reads.findSome? fun y => (s.h.gotBad.find? (·.1 == y.2.1)).map fun b => (y.1.e, ⟨b.2.1, b.2.2, y.1.e⟩))

/-- A load that has stopped at element e: poison, a flag of its index and element 0 trap, anything else trims VL (06 R169, 18 R406,
08 R217). -/
def loadStop (s : State) (stop : Option (Nat × Trp)) : VRes :=
  match stop with
  | none => .done s
  | some (e, t) => if t.cause = 19 ∨ t.cause = 10 ∨ e = 0 then .trap s { t with eidx := e } else .done (s.onH fun h => { h with vl := e })

/-- Inactive elements of an execution below a limit, zeroed with kz. -/
def Hart.zeroInactive (h : Hart) (c : Ctl) (vd : VReg) (es : List Nat) : Hart :=
  if c.kz then es.foldl (fun (g : Hart) e => if h.kBit c.k e then g else g.zeroPlanes vd e) h else h

/-- The first element at which decoding a bound index register raises an enabled flag, with its trap (06 R179, 08 R217). -/
def Hart.indexTrap (h : Hart) (idx : List VReg) (act : List Nat) : Option (Nat × Trp) :=
  if idx.all fun v => (h.bound v).isNone then none
  else act.findSome? fun e => (h.flagTrap e [h.stripFlags idx e]).map (e, ·)

/-- A read into plane p of element e of a register: of a pinned one the container is then written to its alias (01 R43). -/
def State.readInto (s : State) (mk : AccOp → Access) (vd : VReg) (p e : Nat) (mf : Fmt) (nib : Option Bool) (pas : List Nat) :
    List Access :=
  if s.h.pinned vd then [mk (.read (.fill s.h.nextSeq (65536 * p + e) mf s.h.fmt nib) pas), mk (.await (some vd) (65536 * p + e))]
  else [mk (.read (.velem vd p e mf s.h.fmt nib) pas)]

/-- The writes of zero to a pinned register's inactive elements, as accesses. -/
def State.zeroReg (s : State) (mk : AccOp → Access) (vd : VReg) (e : Nat) : List Access :=
  (List.range (1 + s.h.tangents)).map fun p => mk (.writeReg vd p e 0)

/-- The execution of a load: its reads enter stream V, or, in a convoy or with an element on another device, the hart waits for
its words and then writes its register (06 R166, R168, R169, R171, R172). -/
def loadBody (a : VAcc) (vd : VReg) (c : Ctl) (r : Pass) (s : State) : VRes :=
  let h := s.h
  let es := r.elems h
  let act := es.filter (h.kBit c.k ·)
  let idx := accVregs a
  let (plan, stop0) := s.planReads a (act.flatMap fun e => (accPlanes a h.tangents).map (e, ·))
  let stop := match h.indexTrap idx act, stop0 with
    | some (e, t), some (l, f) => some (if e ≤ l then (e, t) else (l, f))
    | x, y => x.or y
  match (if a.o = .plain then none else plan.find? itemRemote) with
  | some x => .trap s ⟨8, x.va, 0⟩
  | none =>
    let below (stop : Option (Nat × Trp)) (e : Nat) : Bool := match stop with
      | some (l, t) => decide (e < l) || (t.cause == 10 && e == l)
      | none => true
    let items := plan.filter fun x => match stop with
      | some (l, _) => decide (x.e < l)
      | none => true
    let s1 := (s.touchItems .read (fmtSize a.fmt) items).onH fun h => h.raiseStrips idx (act.filter (below stop))
    let n := s.h.nextSeq
    let first := (List.range h.vl).find? (h.kBit c.k ·)
    let mk (va : Word) (e : Nat) (op : AccOp) : Access := { s.access 1 va op with streaming := a.mode == .unit, elem := e }
    let before (stop : Option (Nat × Trp)) : List Nat := es.filter fun e => match stop with
      | some (l, _) => decide (e < l)
      | none => true
    if r.conv || items.any itemRemote then
      let (need, bad) := s.wordsOf r items
      if !need.isEmpty then .need (orderElems a.o true first (need.map fun x => mk x.1.va x.1.e x.2)) (orderFences a.o true n)
      else
        let stop := bad.or stop
        let h1 := s1.h.zeroInactive c vd (before stop)
        loadStop { s1 with h := (items.filter fun x => (before stop).contains x.e).foldl (fun (g : Hart) x =>
          g.setV vd x.p x.e (convertLoad a.fmt h.fmt (s.itemRaw r x))) h1 } stop
    else
      let accs := if h.pinned vd then
          (before stop).flatMap fun e =>
            if h.kBit c.k e then
              (items.filter (·.e == e)).flatMap fun x => s.readInto (mk x.va e) vd x.p e a.fmt x.nib (localsOf x.ts)
            else if c.kz then s.zeroReg (mk 0 e) vd e else []
        else items.flatMap fun x => s.readInto (mk x.va x.e) vd x.p x.e a.fmt x.nib (localsOf x.ts)
      let s2 := (s1.onH fun h => if h.pinned vd then h else h.zeroInactive c vd (before stop)).enqueue (orderElems a.o true first accs)
      loadStop (s2.onH fun h => { h with fences := h.fences ++ orderFences a.o true n }) stop

/-- VLD, VLDS and VLDX (06 R165 to R169). -/
def loadOp (i : Instr) (a : VAcc) (vd : VReg) (c : Ctl) (s : State) : VOp :=
  { enc := encodeWord i
    srcs := accVregs a
    dsts := [vd]
    regs := accSregs a
    bad := !loadPair a.fmt s.h.fmt || accBad a s.h.tangents
    want := s.h.wantActive c
    index := accVregs a
    plain := true
    body := loadBody a vd c }

def vldOp (fmt : Fmt) (plane : BitVec 5) (o : Order) (vd : VReg) (sb : SReg) (off : BitVec 10) (c : Ctl) (s : State) : VOp :=
  loadOp (.vld fmt plane o vd sb off c) ⟨fmt, plane.toNat, o, sb, off, .unit⟩ vd c s
def vldsOp (fmt : Fmt) (plane : BitVec 5) (o : Order) (vd : VReg) (sb ss : SReg) (off : BitVec 10) (c : Ctl) (s : State) : VOp :=
  loadOp (.vlds fmt plane o vd sb ss off c) ⟨fmt, plane.toNat, o, sb, off, .strided ss⟩ vd c s
def vldxOp (fmt : Fmt) (plane : BitVec 5) (o : Order) (vd : VReg) (sb : SReg) (off : BitVec 10) (vi : VReg) (c : Ctl) (s : State) : VOp :=
  loadOp (.vldx fmt plane o vd sb off vi c) ⟨fmt, plane.toNat, o, sb, off, .indexed vi⟩ vd c s

/-- Plane p of vd moved down by one element below VL, with x for the top one where there is a value (06 R175). -/
def Hart.slideDown (h : Hart) (vd : VReg) (p : Nat) (c : Ctl) (x : Option Nat) : Hart :=
  (List.range h.vl).foldl (fun (g : Hart) e =>
    if h.kBit c.k e then
      match (if e + 1 = h.vl then x else some (h.src vd p (e + 1))) with
      | some y => g.setV vd p e y
      | none => g
    else if c.kz then g.zeroPlanes vd e else g) h

/-- VSLR (06 R175): its one read is made even when the top element is inactive. -/
def vslrOp (fmt : Fmt) (plane : BitVec 5) (o : Order) (vd : VReg) (sb ss : SReg) (off : BitVec 10) (c : Ctl) (s : State) : VOp :=
  let a : VAcc := ⟨fmt, plane.toNat, o, sb, off, if ss = 0 then .unit else .strided ss⟩
  { enc := encodeWord (.vslr fmt plane o vd sb ss off c)
    srcs := [vd]
    dsts := [vd]
    regs := [sb, ss]
    whole := true
    bad := !loadPair fmt s.h.fmt || accBad a s.h.tangents || plane == 31
    want := fun _ e => e != 0
    plain := true
    body := fun r s =>
      let h := s.h
      let top := h.vl - 1
      if h.vl = 0 then .done s
      else
        match s.planReads a [(top, a.plane)] with
        | ([x], none) =>
          if a.o ≠ .plain ∧ itemRemote x then .trap s ⟨8, x.va, 0⟩
          else
            let s1 := s.touchItems .read (fmtSize fmt) [x]
            let mk (op : AccOp) : Access := { s.access 1 x.va op with streaming := a.mode == .unit, elem := top }
            let fl := orderFences a.o true h.nextSeq
            if r.conv || itemRemote x then
              let (need, bad) := s.wordsOf r [x]
              if !need.isEmpty then .need (orderElems a.o true (some top) (need.map fun y => mk y.2)) fl
              else
                match bad with
                | some (_, t) => .trap s { t with eidx := 0 }
                | none => .done (s1.onH fun h => h.slideDown vd a.plane c (some (convertLoad fmt h.fmt (s.itemRaw r x))))
            else
              let accs := if h.kBit c.k top then s.readInto mk vd a.plane top fmt x.nib (localsOf x.ts)
                else [mk (.read (.word s.now (2 ^ 59)) (localsOf x.ts))]
              .done (((s1.onH fun h => h.slideDown vd a.plane c none).flushPuts.enqueue (orderElems a.o true (some top) accs)).onH
                fun h => { h with fences := h.fences ++ fl })
        | (_, some (_, t)) => .trap s { t with eidx := 0 }
        | _ => .done s }

/-- Elements of a tile, row-major, as reads (06 R176). -/
def State.tileReads (s : State) (fmt : Fmt) (sb ss : SReg) (off : BitVec 10) (cfg : Nat) :
    List (Nat × Nat) → List VItem × Option Trp
  | [] => ([], none)
  | (i, n) :: l =>
    let pitch : Word := if ss = 0 then BitVec.ofNat 64 (tileN cfg * fmtBits fmt / 8) else s.rs ss
    let va := vaOff (s.rs sb) (off.toInt * (fmtSize fmt : Int)) + BitVec.ofNat 64 i * pitch + BitVec.ofNat 64 (n * fmtBits fmt / 8)
    match s.readTargets va (fmtSize fmt) with
    | .error t => ([], some t)
    | .ok ts =>
      match s.poisonTrap (localsOf ts) with
      | some t => ([], some t)
      | none =>
        let (r, stop) := s.tileReads fmt sb ss off cfg l
        (⟨i * 64 + n, 0, va, if fmtBits fmt = 4 then some (n % 2 == 1) else none, ts⟩ :: r, stop)

/-- The configuration of a slot with its format changed (10 R273). -/
def Hart.setTileFmt (h : Hart) (w cfg : Nat) (f : Fmt) : Hart :=
  { h with tcfg := SMap.put 0 h.tcfg w (BitVec.ofNat 64 (cfg / 32 * 32 + fmtCode f)) }

/-- MTLD (06 R176, 10 R273). -/
def mtldOp (fmt : Fmt) (w : Fin 4) (sb ss : SReg) (off : BitVec 10) (c : Ctl) (s : State) : VOp :=
  let cfg := s.tile w
  { enc := encodeWord (.mtld fmt w sb ss off c)
    regs := [sb, ss]
    tiles := [w]
    whole := true
    bad := (match tileClass fmt with
      | none => true
      | some (_, kmax) => decide (kmax < tileK cfg)) || (tileScaled cfg && !scaledFmt fmt)
    body := fun r s =>
      let cells := (List.range (tileK cfg)).flatMap fun i => (List.range (tileN cfg)).map (i, ·)
      match s.tileReads fmt sb ss off cfg cells with
      | (_, some t) => .trap s { t with eidx := 0 }
      | (items, none) =>
        let s1 := (s.touchItems .read (fmtSize fmt) items).onH fun h => h.setTileFmt w.val cfg fmt
        let mk (x : VItem) (op : AccOp) : Access := { s.access 10 x.va op with streaming := true, elem := x.e }
        if r.conv || items.any itemRemote then
          let (need, bad) := s.wordsOf r items
          if !need.isEmpty then .need (need.map fun x => mk x.1 x.2) []
          else
            match bad with
            | some (_, t) => .trap s { t with eidx := 0 }
            | none => .done (items.foldl (fun (t : State) x => t.onH fun h => h.putTel w.val (x.e / 64) (x.e % 64) (s.itemRaw r x)) s1)
        else
          .done (s1.enqueue (items.map fun x => mk x (.read (.tile w.val (x.e / 64) (x.e % 64) x.nib) (localsOf x.ts)))) }

/-- Pairs of register and memory formats a store accepts (06 R167). -/
def storePair (ef mf : Fmt) : Bool := (mf == ef && fmtHasContainer mf) || (isF3 ef && isF8 mf) || (fmtInt ef && fmtInt mf)

/-- Does a store round (06 R167). -/
def storeRounds (ef mf : Fmt) : Bool := isF3 ef && isF8 mf && mf != ef

/-- A store's conversion of container bits, with its flags (06 R167). -/
def convertStore (ef mf : Fmt) (sat : Bool) (rm : Rm) (u x : Nat) : Nat × Nat :=
  if mf = ef then (x, 0)
  else if fmtInt ef then clampRes mf (intOf ef x)
  else roundRes mf sat rm u (convEx (decodeEx ef x))

/-- An element of a store, checked and converted: its writes, and its flags by plane (06 R159, R167, R170 to R173). -/
def State.storeElem (s : State) (r : Pass) (a : VAcc) (vs : VReg) (sat : Bool) (e : Nat) :
    List Nat → Except Trp (List Access × List Nat)
  | [] => .ok ([], [])
  | p :: l =>
    let va := s.accAddr a p e
    match s.storeTargets true va (fmtSize a.fmt) with
    | .error t => .error { t with eidx := e }
    | .ok pas =>
      match s.storeElem r a vs sat e l with
      | .error t => .error t
      | .ok (accs, fls) =>
        let (x, fl) := convertStore s.h.fmt a.fmt sat r.rm (r.u s.h p e) (keptBits s.h.fmt (s.h.src vs p e))
        let op : AccOp := match accNib a e, pas with
          | some hi, pa :: _ => .writeNib pa hi x
          | _, _ => .write pas (leBytes (fmtSize a.fmt) x)
        .ok ({ s.access 1 va op with streaming := a.mode == .unit, elem := e } :: accs, fl :: fls)

/-- The lowest plane with an enabled flag among those of a strip's decoding, which are the value plane's, and those of planes p0 on. -/
def Hart.storeTrap (h : Hart) (p0 g : Nat) (fls : List Nat) : Option (Nat × Nat) :=
  if p0 ≠ 0 ∧ h.enabled 0 g then some (0, g) else h.enabledFrom p0 fls

/-- The elements of a store in ascending order, to the first that stops it: accesses, the hart with its flags, and the trap
(06 R167, R170). one gives an element's effects; a store that does not trap on flags only raises them (06 R174). -/
def storeLoop (srcs : List VReg) (p0 : Nat) (traps : Bool) (one : Nat → Except Trp (List Access × List Nat)) : List Nat → Hart →
    List Access × Hart × Option Trp
  | [], h => ([], h, none)
  | e :: es, h =>
    match one e with
    | .error t => ([], h, some t)
    | .ok (accs, fls) =>
      let g := h.stripFlags srcs e
      let fls := if p0 = 0 then addFlags g fls else fls
      let h1 := (h.raise 0 g).raiseFrom p0 fls
      match (if traps then h.storeTrap p0 g fls else none) with
      | some (p, f) => ([], h1, some ⟨if p = 0 then 10 else 11, fpTval f p e, e⟩)
      | none =>
        let (r, h2, t) := storeLoop srcs p0 traps one es h1
        (accs ++ r, h2, t)

/-- The end of a store, whose first active element is given: its accesses enter the queue, and its trap is taken (06 R170). -/
def storeFinish (s : State) (a : VAcc) (first : Option Nat) (x : List Access × Hart × Option Trp) : VRes :=
  let h := x.2.1
  let s1 := ({ s with h := { h with fences := h.fences ++ orderFences a.o false h.nextSeq } } : State).enqueue (orderElems a.o false first x.1)
  match x.2.2 with
  | none => .done s1
  | some t => .trap s1 t

/-- The first byte on another device among the elements of an ordered store (06 R171). -/
def State.orderedRemote (s : State) (a : VAcc) (es : List Nat) : Option Word :=
  if a.o = .plain then none
  else es.findSome? fun e => (accPlanes a s.h.tangents).findSome? fun p => (List.range (fmtSize a.fmt)).findSome? fun i =>
    let va := s.accAddr a p e + BitVec.ofNat 64 i
    match s.accessByte s.hid s.h.sup .write va with
    | .ok (.remote _ _) => some va
    | _ => none

/-- Offset of an element of n bytes that lies inside the reducing window. -/
def State.windowElem (s : State) (va : Word) (n : Nat) : Option Nat :=
  if canonical va && canonical (va + BitVec.ofNat 64 (n - 1)) && (s.inWindow s.myPart (va + BitVec.ofNat 64 (n - 1))).isSome then
    s.inWindow s.myPart va
  else none

/-- The group, bucket and owner checks of a reducing-window store whose active elements lie at some offsets (14 R337, 17 R384). -/
def State.reduceGroup (s : State) (mf : Fmt) (offs : List Nat) : Option Grp :=
  let h := s.h
  let part := s.myPart
  let ops := h.cops.toNat % 256
  let tag := h.ctag.toNat % 65536
  let size := bitsOf h.cstride.toNat 0 24
  match s.group? part (h.cgroup.toNat % 65536) with
  | none => none
  | some g =>
    let b := s.bktEnt part g tag
    let inside (o : Nat) : Bool := decide (b.boff ≤ o) && decide (o + fmtSize mf ≤ b.boff + b.blen)
    let ownerOk (o : Nat) : Bool :=
      let d := (s.rankDev part g (o / size % g.nr)).1
      d == s.devId || s.allowed part d
    if (copsOp ops).isSome && copsFmt ops == some mf && chunkOk size && decide (tag < g.nbkt) && b.boff % size == 0 &&
        b.blen % size == 0 && offs.all fun o => inside o && ownerOk o then some g
    else none

/-- The handle of a member's slot at an owner names its form (14 R319): one whose bits [63:14] are not zero is cause 8. -/
def badHandle (n : Nat) : Option Trp := if n < 16384 then none else some ⟨8, BitVec.ofNat 64 n, 0⟩

/-- A contribution of an element at a window offset (14 R337, R338). -/
def State.contribution (s : State) (g : Grp) (o : Nat) (data : List Byte) : AccOp :=
  let h := s.h
  let size := bitsOf h.cstride.toNat 0 24
  let p : Packet := {
    dst := (s.rankDev s.myPart g (o / size % g.nr)).1, src := s.devId, kind := .contribution, slot := g.slotbase + g.me, addr := o
    data := data, group := h.cgroup.toNat % 65536, tag := h.ctag.toNat % 65536, rank := g.me, epoch := h.epoch.toNat
    ops := h.cops.toNat % 256, chunk := size }
  .contrib p s.myPart

/-- The reads of a pinned index register that a reducing-window store has still to make: the addresses of all its elements are checked
at its issue (14 R337). -/
def State.indexReads (s : State) (a : VAcc) (r : Pass) (es : List Nat) : List Access :=
  match a.mode with
  | .indexed vi => if !s.h.pinned vi then [] else
      (es.filter fun e => !s.h.lent.any (·.1 == pinKey 1 vi 0 e)).map fun e =>
        let pas := s.aliasPas vi 0 e
        { s.access 1 (BitVec.ofNat 64 (pas.headD 0)) (.read (.pin r.base (2 ^ 40 * r.member + pinKey 1 vi 0 e) (s.h.aliasNib 0 e)) pas)
          with elem := e }
  | _ => []

/-- A reducing-window store: its elements leave as contributions on stream V (06 R173, 14 R337). Every active element's place is checked
at the issue, those past the pass at hand too. -/
def reduceBody (a : VAcc) (vs : VReg) (sat : Bool) (srcs : List VReg) (k : KReg) (r : Pass) (s : State) (first : Nat) (es : List Nat) :
    VRes :=
  let va0 := s.accAddr a a.plane first
  let n := fmtSize a.fmt
  let all := (List.range s.h.vl).filter fun e =>
    s.h.kBit k e && (decide (e < r.hi) || (accVregs a).all fun v => (s.h.bound v).isNone)
  let reads := s.indexReads a r all
  if a.plane ≠ 0 ∨ a.o ≠ .plain then .trap s ⟨8, va0, 0⟩
  else if !reads.isEmpty then .need reads []
  else
    match s.reduceGroup a.fmt (all.filterMap fun e => s.windowElem (s.accAddr a 0 e) n) with
    | none => .trap s ⟨8, va0, 0⟩
    | some g =>
      match badHandle (g.slotbase + g.me) with
      | some t => .trap s t
      | none =>
        let one (e : Nat) : Except Trp (List Access × List Nat) :=
          let va := s.accAddr a 0 e
          match s.windowElem va n with
          | none => .error ⟨8, va, e⟩
          | some o =>
            let (x, fl) := convertStore s.h.fmt a.fmt sat r.rm (r.u s.h 0 e) (keptBits s.h.fmt (s.h.src vs 0 e))
            .ok ([{ s.access 1 va (s.contribution g o (leBytes n x)) with elem := e }], [fl])
        storeFinish s a (some first) (storeLoop srcs 0 true one es s.h)

/-- The execution of a store (06 R167, R168, R170 to R173). -/
def storeBody (a : VAcc) (vs : VReg) (sat : Bool) (k : KReg) (r : Pass) (s : State) : VRes :=
  let h := s.h
  let es := (r.elems h).filter (h.kBit k ·)
  let srcs := vs :: accVregs a
  let ps := accPlanes a h.tangents
  match (List.range h.vl).find? (h.kBit k ·) with
  | none => storeFinish s a none ([], h, none)
  | some first =>
    let va0 := s.accAddr a (ps.headD 0) first
    if canonical va0 && (s.inWindow s.myPart va0).isSome then reduceBody a vs sat srcs k r s first es
    else
      match s.orderedRemote a es with
      | some va => .trap s ⟨8, va, 0⟩
      | none =>
        let s1 := es.foldl (fun (t : State) e => ps.foldl (fun (t : State) p =>
          t.touchTlb t.hid t.h.sup .write (s.accAddr a p e) (fmtSize a.fmt)) t) s
        storeFinish s1 a (some first) (storeLoop srcs (ps.headD 0) true (fun e => s.storeElem r a vs sat e ps) es h)

/-- VST, VSTS and VSTX (06 R165, R167, R168, R170). -/
def storeOp (i : Instr) (a : VAcc) (vs : VReg) (sat : Bool) (k : KReg) (s : State) : VOp :=
  { enc := encodeWord i
    srcs := vs :: accVregs a
    regs := accSregs a
    bad := !storePair s.h.fmt a.fmt || accBad a s.h.tangents
    rm := if storeRounds s.h.fmt a.fmt then some .dyn else none
    want := s.h.wantActive ⟨k, false⟩
    index := accVregs a
    plain := true
    defer := a.o == .plain
    body := storeBody a vs sat k }

def vstOp (fmt : Fmt) (plane : BitVec 5) (o : Order) (sat : Bool) (vs : VReg) (sb : SReg) (off : BitVec 10) (k : KReg) (s : State) :
    VOp :=
  storeOp (.vst fmt plane o sat vs sb off k) ⟨fmt, plane.toNat, o, sb, off, .unit⟩ vs sat k s
def vstsOp (fmt : Fmt) (plane : BitVec 5) (o : Order) (sat : Bool) (vs : VReg) (sb ss : SReg) (off : BitVec 10) (k : KReg)
    (s : State) : VOp :=
  storeOp (.vsts fmt plane o sat vs sb ss off k) ⟨fmt, plane.toNat, o, sb, off, .strided ss⟩ vs sat k s
def vstxOp (fmt : Fmt) (plane : BitVec 5) (o : Order) (sat : Bool) (vs : VReg) (sb : SReg) (off : BitVec 10) (vi : VReg) (k : KReg)
    (s : State) : VOp :=
  storeOp (.vstx fmt plane o sat vs sb off vi k) ⟨fmt, plane.toNat, o, sb, off, .indexed vi⟩ vs sat k s

/-- The formats of VSTXA (06 R174). -/
def addFmt (f : Fmt) : Bool := isF3 f || f == .i32 || f == .n32 || f == .i64

/-- VSTXA: one atomic addition per active element (06 R174). -/
def vstxaOp (fmt : Fmt) (plane : BitVec 5) (sat : Bool) (vs : VReg) (sb : SReg) (off : BitVec 10) (vi : VReg) (k : KReg)
    (s : State) : VOp :=
  let a : VAcc := ⟨fmt, plane.toNat, .plain, sb, off, .indexed vi⟩
  { enc := encodeWord (.vstxa fmt plane sat vs sb off vi k)
    srcs := [vs, vi]
    regs := [sb]
    det := true
    bad := fmt != s.h.fmt || !addFmt fmt || plane != 0
    rm := if isF3 fmt then some .dyn else none
    want := s.h.wantActive ⟨k, false⟩
    index := [vi]
    plain := true
    defer := true
    body := fun r s =>
      let h := s.h
      let n := fmtSize fmt
      let one (e : Nat) : Except Trp (List Access × List Nat) :=
        let va := s.accAddr a 0 e
        if va.toNat % n ≠ 0 then .error ⟨8, va, e⟩
        else
          match s.storeTargets false va n with
          | .error t => .error { t with eidx := e }
          | .ok pas =>
            .ok ([{ s.access 1 va (.vadd fmt (pas.headD 0) (keptBits fmt (h.src vs 0 e)) r.rm (r.u h 0 e)) with elem := e }], [0])
      let es := (r.elems h).filter (h.kBit k ·)
      let s1 := es.foldl (fun (t : State) e => t.touchTlb t.hid t.h.sup .write (s.accAddr a 0 e) n) s
      storeFinish s1 a es.head? (storeLoop [vs, vi] 0 false one es h) }

def execVld (fmt : Fmt) (plane : BitVec 5) (o : Order) (vd : VReg) (sb : SReg) (off : BitVec 10) (c : Ctl) (s : State) : Out :=
  vStep s (vldOp fmt plane o vd sb off c)
def execVlds (fmt : Fmt) (plane : BitVec 5) (o : Order) (vd : VReg) (sb ss : SReg) (off : BitVec 10) (c : Ctl) (s : State) : Out :=
  vStep s (vldsOp fmt plane o vd sb ss off c)
def execVldx (fmt : Fmt) (plane : BitVec 5) (o : Order) (vd : VReg) (sb : SReg) (off : BitVec 10) (vi : VReg) (c : Ctl) (s : State) :
    Out := vStep s (vldxOp fmt plane o vd sb off vi c)
def execVslr (fmt : Fmt) (plane : BitVec 5) (o : Order) (vd : VReg) (sb ss : SReg) (off : BitVec 10) (c : Ctl) (s : State) : Out :=
  vStep s (vslrOp fmt plane o vd sb ss off c)
def execMtld (fmt : Fmt) (w : Fin 4) (sb ss : SReg) (off : BitVec 10) (c : Ctl) (s : State) : Out :=
  vStep s (mtldOp fmt w sb ss off c)
def execVst (fmt : Fmt) (plane : BitVec 5) (o : Order) (sat : Bool) (vs : VReg) (sb : SReg) (off : BitVec 10) (k : KReg) (s : State) :
    Out := vStep s (vstOp fmt plane o sat vs sb off k)
def execVsts (fmt : Fmt) (plane : BitVec 5) (o : Order) (sat : Bool) (vs : VReg) (sb ss : SReg) (off : BitVec 10) (k : KReg)
    (s : State) : Out := vStep s (vstsOp fmt plane o sat vs sb ss off k)
def execVstx (fmt : Fmt) (plane : BitVec 5) (o : Order) (sat : Bool) (vs : VReg) (sb : SReg) (off : BitVec 10) (vi : VReg) (k : KReg)
    (s : State) : Out := vStep s (vstxOp fmt plane o sat vs sb off vi k)
def execVstxa (fmt : Fmt) (plane : BitVec 5) (sat : Bool) (vs : VReg) (sb : SReg) (off : BitVec 10) (vi : VReg) (k : KReg)
    (s : State) : Out := vStep s (vstxaOp fmt plane sat vs sb off vi k)

end Sys2Proof.Machine
end

