-- ==== Sys2Proof/Machine/VBind.lean ====
section
/-! DEFINITION. Sys2Proof/Machine/VBind.lean: binding a register to a stream in memory, VBIND, VUNBIND and VBSKIP (06 R177, R178, R181). -/

namespace Sys2Proof.Machine

/-- A binding record's fields, with the slot, register and number it is bound with (06 R177). -/
def recordBinding (slot : Nat) (vd : VReg) (seq : Nat) (f : Fmt) (w : Nat → Word) : Binding :=
  let x := (w 1).toNat
  let scaled := bitsOf x 48 1 == 1
  let scalereg := bitsOf x 49 1 == 1
  { slot := slot, reg := vd, seq := seq, base := w 0, estride := signedOf 32 x, fmt := f
    blen := if scaled || scalereg then bitsOf x 40 8 else 0, scaled := scaled, scalereg := scalereg, sbase := w 2
    sstride := signedOf 32 (w 3).toNat, tlen := bitsOf (w 3).toNat 32 32 }

/-- The format of a valid record (06 R178). A record with both SCALED and SCALEREG and FMT e8m0 passes every test of the rule, which
does not say which of the two holds; the register is then a scale register (log 89, DESIGN CHOICE). -/
def recordFmt (w : Nat → Word) : Option Fmt :=
  let x := (w 1).toNat
  let scaled := bitsOf x 48 1 == 1
  let scalereg := bitsOf x 49 1 == 1
  let blen := bitsOf x 40 8
  let stride := bitsOf x 0 32
  match (fmtOfCode (bitsOf x 32 5)).filter fmtHasContainer with
  | none => none
  | some f =>
    if bitsOf x 37 3 == 0 && bitsOf x 50 14 == 0 && (if fmtBits f = 4 then stride == 0 else stride % fmtSize f == 0) &&
        (!(scaled || scalereg) || blen == 16 || blen == 32) && (!scaled || scaledFmt f) && (!scalereg || f == .e8m0) then some f
    else none

/-- The lowest binding slot that is free once the register's own binding has ended (06 R178). -/
def Hart.freeBind (h : Hart) (vd : VReg) : Option Nat := (List.range 8).find? fun n => !h.binds.any fun b => b.slot == n && b.reg != vd

/-- A record's read that fails raises cause 6 (06 R178). -/
def asReadFault (t : Trp) : Trp := { t with cause := if t.cause = 19 then 19 else 6, eidx := 0 }

/-- Does a stream of binding slot n still hold an access. -/
def onBindStream (n : Nat) (a : Access) : Bool := a.strm == 2 + n

/-- The words of a record of n doublewords that a member reads from a place on: its reads still to make, or its first failure
(06 R178). -/
def State.memberWords (s : State) (r : Pass) (va : Word) (n : Nat) : Except Trp (Option (List Access)) :=
  let places := (List.range n).map (r.place + ·)
  match places.findSome? fun q => s.h.gotBad.find? (·.1 == q) with
  | some (_, c, v) => .error ⟨c, v, 0⟩
  | none =>
    if places.all fun q => s.h.got.any (·.1 == q) then .ok none
    else
      match s.wordReads (s.h.waitAt.getD s.now) va r.place n with
      | .error t => .error t
      | .ok l => .ok (some l)

/-- VBIND (06 R178). -/
def vbindOp (vd : VReg) (ss : SReg) (c : Ctl) (s : State) : VOp :=
  let va := s.rs ss
  { enc := encodeWord (.vbind vd ss c)
    named := [vd]
    regs := [ss]
    whole := true
    more := if va.toNat % 32 ≠ 0 then some ⟨20, va, 0⟩ else if s.h.pinned vd then some ⟨8, BitVec.ofNat 64 vd.val, 0⟩ else none
    body := fun r s =>
      match s.memberWords r va 4 with
      | .error t => .trap s (asReadFault t)
      | .ok (some l) => .need l []
      | .ok none =>
        let w (i : Nat) : Word := s.h.word (r.place + i)
        match recordFmt w, s.h.freeBind vd with
        | some f, some n =>
          if s.h.sq.any (onBindStream n) then .hold (·.stallOn (onBindStream n))
          else
            .done (((s.touchTlb s.hid s.h.sup .read va 32)).onH fun h =>
              { h with binds := (h.binds.filter fun (b : Binding) => b.reg != vd) ++ [recordBinding n vd h.nextSeq f w] })
        | _, _ => .trap s ⟨20, va, 0⟩ }

/-- Poison in the windows of a register goes with its zeroing (18 R406). -/
def Hart.cleanReg (h : Hart) (v : VReg) : Hart :=
  { h with poison := h.poison.filter fun o => decide (o < 0x800000) || o % 0x4000 / h.windowBytes != v.val }

/-- An instruction about a register's binding: none is cause 20 (06 R181). -/
def unboundTrap (h : Hart) (vd : VReg) : Option Trp := if (h.bound vd).isSome then none else some ⟨20, BitVec.ofNat 64 vd.val, 0⟩

/-- VUNBIND (06 R181). -/
def vunbindOp (vd : VReg) (c : Ctl) (s : State) : VOp :=
  { enc := encodeWord (.vunbind vd c)
    named := [vd]
    whole := true
    more := unboundTrap s.h vd
    body := fun _ s =>
      .done (s.onH fun h => ({ h with binds := h.binds.filter fun (b : Binding) => b.reg != vd }.zeroReg vd).cleanReg vd) }

/-- VBSKIP: P advances by ss and is held at TLEN (06 R181). -/
def Binding.skip (b : Binding) (n : Nat) : Binding := { b.advance (min (b.pos + n) b.tlen - b.pos) with pos := min (b.pos + n) b.tlen }

def vbskipOp (vd : VReg) (ss : SReg) (c : Ctl) (s : State) : VOp :=
  { enc := encodeWord (.vbskip vd ss c)
    named := [vd]
    regs := [ss]
    whole := true
    more := unboundTrap s.h vd
    body := fun _ s =>
      let n := (s.rs ss).toNat
      .done (s.onH fun h => { h with binds := h.binds.map fun (b : Binding) => if b.reg = vd then b.skip n else b }) }

def execVbind (vd : VReg) (ss : SReg) (c : Ctl) (s : State) : Out := vStep s (vbindOp vd ss c)
def execVunbind (vd : VReg) (c : Ctl) (s : State) : Out := vStep s (vunbindOp vd c)
def execVbskip (vd : VReg) (ss : SReg) (c : Ctl) (s : State) : Out := vStep s (vbskipOp vd ss c)

end Sys2Proof.Machine
end

