-- ==== Sys2Proof/Machine/VQ.lean ====
section
/-! DEFINITION. Sys2Proof/Machine/VQ.lean: vector pushes and pops of queues, VQPUSH and VQPOP (06 R186, R187). -/

namespace Sys2Proof.Machine

/-- The stream of a vector push or pop: V for a queue whose home stream is S (06 R187). -/
def Hart.vqStream (h : Hart) (q : Nat) : Nat := if (h.queue q).home = 0 then 1 else (h.queue q).home

/-- VQPUSH (06 R187). -/
def vqpushOp (q : Fin 8) (va : VReg) (c : Ctl) (s : State) : VOp :=
  { enc := encodeWord (.vqpush q va c)
    srcs := [va]
    want := s.h.wantActive c
    plain := true
    defer := true
    strm := s.h.vqStream q.val
    more := if (s.h.queue q.val).chan.isSome then some ⟨8, BitVec.ofNat 64 q.val, s.h.eidx⟩ else none
    body := fun r s =>
      let h := s.h
      let one (e : Nat) : Except Trp (List Access × List Nat) :=
        .ok ([{ s.access (h.vqStream q.val) 0 (.push q.val (BitVec.ofNat 64 (keptBits h.fmt (h.src va 0 e)))) with
          elem := e, vec := true }], [0])
      let (accs, h1, t) := storeLoop [va] 0 true one ((r.elems h).filter (h.kBit c.k ·)) h
      let s1 := ({ s with h := h1 } : State).enqueue accs
      match t with
      | none => .done s1
      | some t => .trap s1 t }

/-- Tangent planes of a popped element: zero, or unchanged under VONLY; an inactive element follows kz (06 R187). -/
def Hart.popPlanes (h : Hart) (vd : VReg) (tm : Tm) (c : Ctl) (es : List Nat) : Hart :=
  es.foldl (fun (g : Hart) e =>
    if h.kBit c.k e then (if tm = .vonly then g else g.putPlanes vd e [none])
    else if c.kz then g.zeroPlanes vd e else g) h

/-- VQPOP (06 R186, R187): its pops enter the queue's stream; in a convoy it waits for its entries. -/
def vqpopOp (vd : VReg) (q : Fin 8) (tm : Tm) (c : Ctl) (_ : State) : VOp :=
  { enc := encodeWord (.vqpop vd q tm c)
    dsts := [vd]
    body := fun r s =>
      let h := s.h
      let es := r.elems h
      let act := es.filter (h.kBit c.k ·)
      let known (e : Nat) : Bool := h.got.any (·.1 == popPlace q.val e)
      let left := act.filter fun e => !known e
      if r.conv && left.isEmpty then
        .done (s.onH fun _ => act.foldl (fun (g : Hart) e => g.setV vd 0 e (h.word (popPlace q.val e)).toNat) (h.popPlanes vd tm c es))
      else
        match (if left.length < act.length then none else h.popIssueFault q.val left.length) with
        | some (ch, f) =>
          .trap (s.onH fun h => { h with chanFaults := SMap.put none h.chanFaults ch (some { f with reported := true }) })
            ⟨f.cause, f.tval, r.lo⟩
        | none =>
          match s.popPoisoned q.val left.length with
          | some t => .trap s { t with eidx := r.lo }
          | none =>
            let strm := h.vqStream q.val
            let pop (e : Nat) (op : AccOp) : Access := { s.access strm 0 op with elem := e, vec := true }
            if r.conv then .need (left.map fun e => pop e (.popW q.val (h.waitAt.getD s.now) (popPlace q.val e))) []
            else if h.pinned vd then
              .done (s.enqueue (es.flatMap fun e =>
                if h.kBit c.k e then
                  pop e (.popV q.val vd e (keepBits h.fmt)) :: { s.access 1 0 (.await (some vd) e) with elem := e } ::
                    (if tm = .vonly then [] else (s.zeroReg (s.access 1 0) vd e).drop 1)
                else if c.kz then s.zeroReg (s.access 1 0) vd e else []))
            else .done ((s.onH fun h => h.popPlanes vd tm c es).enqueue (act.map fun e => pop e (.popV q.val vd e (keepBits h.fmt)))) }

def execVqpush (q : Fin 8) (va : VReg) (c : Ctl) (s : State) : Out := vStep s (vqpushOp q va c)
def execVqpop (vd : VReg) (q : Fin 8) (tm : Tm) (c : Ctl) (s : State) : Out := vStep s (vqpopOp vd q tm c)

end Sys2Proof.Machine
end

