-- ==== Sys2Proof/Machine/VCol.lean ====
section
/-! DEFINITION. Sys2Proof/Machine/VCol.lean: fabric streams, VCSEND, VCRECV and VCRED (15 R355 to R357). -/

namespace Sys2Proof.Machine

/-- CGROUP, CTAG, COPS[6:0] and CHUNK as a stream captures them (15 R355). -/
def Hart.colGroup (h : Hart) : Nat := h.cgroup.toNat % 65536
def Hart.colTag (h : Hart) : Nat := h.ctag.toNat % 65536
def Hart.colOps (h : Hart) : Nat := h.cops.toNat % 128
def Hart.colChunk (h : Hart) : Nat := bitsOf h.cstride.toNat 0 24

/-- Does a stream register hold the values of the current CSRs. -/
def FReg.fits (r : FReg) (h : Hart) : Bool :=
  r.group == h.colGroup && r.tag == h.colTag && r.opfmt == h.colOps && r.chunk == h.colChunk

/-- The checks of a fabric stream instruction at its issue; red: a VCRED, send: a VCSEND (15 R356, 17 R384). -/
def State.streamCheck (s : State) (f : Fin 4) (red send : Bool) : Option Trp :=
  let h := s.h
  let r := h.freg f.val
  let stop : Trp := ⟨8, catTag h.colGroup h.colTag, 0⟩
  match s.group? s.myPart h.colGroup with
  | none => some stop
  | some g =>
    let next := s.rankAfter s.myPart g
    if copsFmt h.colOps != some h.fmt || !chunkOk h.colChunk || (red && (copsOp h.colOps).isNone) || r.state == 2 ||
        (r.state == 1 && !r.fits h && r.pseq != r.dseq) || (send && next != s.devId && !s.allowed s.myPart next) then some stop
    else none

/-- An IDLE register opens, and an OPEN one of other values reopens (15 R356); strips whose hold has ended are then forgotten. -/
def Hart.openStream (h : Hart) (f : Nat) : Hart :=
  let r := h.freg f
  if r.state == 1 && r.fits h then h
  else
    { h.setF f { group := h.colGroup, tag := h.colTag, opfmt := h.colOps, chunk := h.colChunk, state := 1 } with
      posts := h.posts.filter fun x => x.f != f }

def State.openStream (s : State) (f : Nat) : State :=
  let opens := !((s.h.freg f).state == 1 && (s.h.freg f).fits s.h)
  { s with
    h := s.h.openStream f
    sentStrips := if opens then s.sentStrips.filter fun x => !(x.hart == s.hid && x.f == f && x.ended) else s.sentStrips }

/-- VCSEND: the strip goes to the fabric unit, which sends it in chunks on stream F (15 R357). -/
def vcsendOp (f : Fin 4) (va : VReg) (c : Ctl) (s : State) : VOp :=
  { enc := encodeWord (.vcsend f va c)
    srcs := [va]
    whole := true
    want := s.h.wantActive c
    more := s.streamCheck f false true
    body := fun _ s =>
      match s.group? s.myPart s.h.colGroup with
      | none => .done s
      | some g =>
        match wholeEnd s (s.h.readFlags [va] (s.h.wantActive c)) fun h => h with
        | .done s0 =>
          let s1 := s0.openStream f.val
          let h := s1.h
          let r := h.freg f.val
          let n := fmtBits h.fmt / 8
          let x : SentStrip := {
            hart := s1.hid, f := f.val, dest := s1.rankAfter s1.myPart g, group := r.group, tag := r.tag, ops := r.opfmt, chunk := r.chunk
            seqn := r.sseq, elems := h.vl, sentAt := s1.ref
            data := (List.range h.vl).flatMap fun e => leBytes n (if h.kBit c.k e then h.src va 0 e else 0) }
          let s2 := s1.onH fun h => h.setF f.val { r with sseq := (r.sseq + 1) % 2 ^ 32 }
          let others := s2.sentStrips.filter fun y =>
            !(y.hart == x.hart && y.f == x.f && y.group == x.group && y.tag == x.tag && y.seqn == x.seqn)
          .done ({ s2 with sentStrips := others ++ [x] }.enqueue
            ((x.packets s2.devId).map fun p => s2.access 11 0 (.contrib p s2.myPart)))
        | y => y }

/-- Receive PSEQ of a stream is posted, and chunks that wait early for it are admitted (15 R357, R358). -/
def State.postRecv (s : State) (f : Nat) (vd : Option VReg) (tm : Tm) (c : Ctl) : State :=
  let s := s.openStream f
  let h := s.h
  let r := h.freg f
  let x : RecvPost := {
    f := f, seqn := r.pseq, vd := vd, vl := h.vl, mask := h.getK c.k, kz := c.kz, vonly := tm == .vonly, since := s.ref, seq := h.nextSeq }
  let h1 := h.setF f { r with pseq := (r.pseq + 1) % 2 ^ 32 }
  let lease : List Delivery := match vd with
    | some v => [{ reg := v, src := .strip f r.pseq, seq := h.nextSeq }]
    | none => []
  ({ s with h := { h1 with posts := h1.posts ++ [x], deliveries := h1.deliveries ++ lease } } : State).admitStrips f r.group r.tag r.pseq

/-- VCRECV (15 R357). -/
def vcrecvOp (vd : VReg) (f : Fin 4) (tm : Tm) (c : Ctl) (s : State) : VOp :=
  { enc := encodeWord (.vcrecv vd f tm c)
    named := [vd]
    whole := true
    more := (s.streamCheck f false false).or (if s.h.pinned vd then none else some ⟨8, BitVec.ofNat 64 vd.val, 0⟩)
    body := fun _ s => .done (s.postRecv f.val (some vd) tm c) }

/-- One element of VCRED: first and second as planes' bits, in rank order (15 R357). -/
def redElem (op : RedOp) (h : Hart) (r : Pass) (e : Nat) (local_ : List Nat) (first second : List Nat) : List Nat × Nat :=
  let a := keptBits h.fmt (first.headD 0)
  let b := keptBits h.fmt (second.headD 0)
  match op with
  | .sum =>
    let (x, fl) := if fmtInt h.fmt then ((a + b) % 2 ^ fmtBits h.fmt, 0) else r.add h 0 e a b
    (x :: local_.tail, fl)
  | .max | .min =>
    if fmtInt h.fmt then
      let takeB := if op = .max then decide (sOf h.fmt a < sOf h.fmt b) else decide (sOf h.fmt b < sOf h.fmt a)
      (if takeB then second else first, 0)
    else
      let (v, fromB, _) := minmaxBits (op == .max) h.fmt a b
      (v.1 :: (if fromB then second else first).tail, v.2)

/-- VCRED: posts its receive, waits for its strip and combines it with va (15 R357). -/
def vcredOp (vd va : VReg) (f : Fin 4) (rm : Rm) (tm : Tm) (c : Ctl) (s : State) : VOp :=
  { enc := encodeWord (.vcred vd va f rm tm c)
    srcs := [va]
    dsts := [vd]
    whole := true
    rm := some rm
    want := s.h.wantActive c
    more := s.streamCheck f true false
    body := fun r s =>
      let h := s.h
      if !(h.posts.any fun x => x.f == f.val && x.vd.isNone) then
        .hold fun s0 => (((s0.onH fun g => { g with vl := h.vl }).postRecv f.val none tm c).onH fun g => { g with vl := s0.h.vl }).block
      else
        match s.readyStrip s.hid f.val, s.group? s.myPart h.colGroup, copsOp h.colOps with
        | some (x, t, d), some g, some op =>
          if x.vd.isSome then .hold (·.block)
          else
            let n := fmtBits h.fmt / 8
            let before := decide ((g.me + g.nr - 1) % g.nr < g.me)
            let out := (h.actives c).map fun e =>
              let l := (List.range (1 + h.tangents)).map fun p => h.src va p e
              let y := stripElem d n e :: List.replicate h.tangents 0
              let (vals, fl) := if before then redElem op h r e l y l else redElem op h r e l l y
              (e, vals, tmFlags tm [fl])
            let q := h.freg f.val
            match wholeEnd s (h.withStrip [va] (out.map fun z => (z.1, z.2.2))) fun h =>
                let h1 := out.foldl (fun (g : Hart) z =>
                  g.putPlanes vd z.1 (tmVals tm h.tangents (z.2.1.take (h.planes tm).length))) h
                let h2 := h1.zeroInactive c vd (List.range h.vl)
                { h2.setF f.val { q with dseq := (q.dseq + 1) % 2 ^ 32 } with posts := h2.posts.filter fun p => p != x } with
            | .done s1 => .done { s1 with inStrips := s1.inStrips.filter fun y => y != t }
            | z => z
        | _, _, _ => .hold (·.block) }

def execVcsend (f : Fin 4) (va : VReg) (c : Ctl) (s : State) : Out := vStep s (vcsendOp f va c)
def execVcrecv (vd : VReg) (f : Fin 4) (tm : Tm) (c : Ctl) (s : State) : Out := vStep s (vcrecvOp vd f tm c)
def execVcred (vd va : VReg) (f : Fin 4) (rm : Rm) (tm : Tm) (c : Ctl) (s : State) : Out := vStep s (vcredOp vd va f rm tm c)

end Sys2Proof.Machine
end

