-- ==== Sys2Proof/Machine/VCpk.lean ====
section
/-! DEFINITION. Sys2Proof/Machine/VCpk.lean: compaction, VCPK and VCPKF (10 R281, R282). -/

namespace Sys2Proof.Machine

/-- Formats of compaction (10 R263). -/
def packFmt (f : Fmt) : Bool := f == .i8 || f == .i16 || f == .i32 || f == .i64 || f == .n8 || f == .n32

/-- The density threshold: a value above 100 acts as 100 (10 R281). -/
def Hart.density (h : Hart) : Nat := min 100 (h.cdens.toNat % 128)

/-- May the hart compact: a kernel whose record has COMPACTABLE (10 R282). -/
def Hart.mayPack (h : Hart) : Bool := match h.inst with
  | some i => i.compactable
  | none => h.cbIdx.isSome

/-- Address of entry i of the hart's compaction buffer, counted from the oldest: the buffers of a die lie at its CBAREA, 1 MiB each
(13 R312, 17 R390). -/
def State.packAddr (s : State) (i : Nat) : Nat :=
  (s.ctl s.myDie).cbarea.toNat + s.h.cbIdx.getD 0 * 0x100000 + 8 * ((s.h.cbHead + i) % 131072)

/-- A buffer that the partition does not own, or a poisoned entry among some, stops the instruction (17 R383, log 87). -/
def State.packTrap (s : State) (from_ n : Nat) : Option Trp :=
  match ((List.range n).map fun i => s.packAddr (from_ + i)).find? fun pa => !s.physOk s.myPart pa with
  | some pa => some ⟨8, BitVec.ofNat 64 pa, 0⟩
  | none =>
    if (List.range (min n s.h.cbCount)).any fun i => (s.poisonAt (s.packAddr i) 8).isSome then some ⟨19, BitVec.ofNat 64 (2 ^ 63 + 0x1000), 0⟩
    else none

/-- Does a waking bank delay the buffer's first n entries (01 R54). -/
def State.packDelayed (s : State) (n : Nat) : Bool :=
  s.writeDelays ((List.range n).flatMap fun i => (List.range 8).map (s.packAddr i + ·))

/-- An entry joins the buffer, written by the die's own engine (05 R148), and an entry as it was last written. -/
def State.pushPacked (s : State) (x : Nat) : State :=
  (s.writeMem (caskAgent s.myDie) 0 0 (16 * s.myDie) true false false false (s.packAddr s.h.cbCount) (leBytes 8 x)).onH fun h =>
    { h with cbCount := h.cbCount + 1 }
def State.packed (s : State) (i : Nat) : Nat := leValue (bytesFrom s.lastByte (s.packAddr i) 8)

/-- The m oldest entries of the buffer popped into elements 0 to m − 1 of vd, with zero tangents (10 R282). -/
def State.popPacked (s : State) (vd : VReg) (m : Nat) : State :=
  (s.onH fun h => (List.range m).foldl (fun (g : Hart) i => g.putPlanes vd i [some (s.packed i)]) h).onH fun h =>
    { h with cbHead := (h.cbHead + m) % 131072, cbCount := h.cbCount - m }

/-- Mask bits below VL set from a test. -/
def Hart.setMask (h : Hart) (k : KReg) (f : Nat → Bool) : Hart :=
  let m := BitVec.ofNat 65536 ((List.range h.vl).foldl (fun a e => if f e then a + 2 ^ e else a) 0)
  let low := BitVec.ofNat 65536 (2 ^ h.vl - 1)
  h.setK k ((h.getK k &&& ~~~low) ||| m)

/-- VCPK: a bypass, a pop of a dense strip, or a hold (10 R282). -/
def vcpkOp (vd va : VReg) (c : Ctl) (s : State) : VOp :=
  { enc := encodeWord (.vcpk vd va c)
    srcs := [va]
    dsts := [vd]
    kd := some c.k
    buf := true
    whole := true
    bad := !packFmt s.h.fmt || !s.h.mayPack
    want := s.h.wantActive c
    defer := true
    body := fun _ s =>
      let h := s.h
      let act := h.actives c
      if h.cbCount = 0 ∧ h.density * h.vl ≤ 100 * act.length then wholeEnd s (h.readFlags [va] (h.wantActive c)) fun h => h
      else
        match s.packTrap 0 (h.cbCount + act.length) with
        | some t => .trap s t
        | none =>
        if s.packDelayed (h.cbCount + act.length) then .hold (·.pause) else
          match wholeEnd s (h.readFlags [va] (h.wantActive c)) fun h => h with
          | .done s1 =>
            let s2 := act.foldl (fun (t : State) e => t.pushPacked (keptBits h.fmt (h.src va 0 e))) s1
            let dense := decide (h.vl ≤ s2.h.cbCount ∧ 1 ≤ h.vl)
            .done ((if dense then s2.popPacked vd h.vl else s2).onH fun h => h.setMask c.k fun _ => dense)
          | x => x }

/-- VCPKF (10 R282). -/
def vcpkfOp (vd : VReg) (c : Ctl) (s : State) : VOp :=
  { enc := encodeWord (.vcpkf vd c)
    dsts := [vd]
    kd := some c.k
    buf := true
    whole := true
    bad := !packFmt s.h.fmt || !s.h.mayPack
    body := fun _ s =>
      let m := min s.h.cbCount s.h.vl
      match s.packTrap 0 m with
      | some t => .trap s t
      | none => if s.packDelayed m then .hold (·.pause) else .done ((s.popPacked vd m).onH fun h => h.setMask c.k fun e => decide (e < m)) }

def execVcpk (vd va : VReg) (c : Ctl) (s : State) : Out := vStep s (vcpkOp vd va c)
def execVcpkf (vd : VReg) (c : Ctl) (s : State) : Out := vStep s (vcpkfOp vd c)

end Sys2Proof.Machine
end

