-- ==== Sys2Proof/Machine/VMov.lean ====
section
/-! DEFINITION. Sys2Proof/Machine/VMov.lean: moves, pins and leases, VMOV (09 R253 to R260, 01 R41 to R44). -/

namespace Sys2Proof.Machine

/-- A register's planes of an element as they are, without flags. -/
def Hart.copyPlanes (h : Hart) (tm : Tm) (f : Nat → Nat) : List Nat × List Nat := ((h.planes tm).map f, [])

/-- VMV (09 R253). -/
def vmvOp (vd va : VReg) (tm : Tm) (c : Ctl) (s : State) : VOp :=
  { enc := encodeWord (.vmv vd va tm c)
    srcs := [va]
    dsts := [vd]
    bad := !fmtHasContainer s.h.fmt
    want := s.h.wantActive c
    plain := true
    defer := true
    body := elemBody [va] vd tm c fun h _ e => ((h.planes tm).map fun p => h.src va p e, [0]) }

/-- VSPLAT (09 R253). -/
def vsplatOp (vd : VReg) (ss : SReg) (tm : Tm) (c : Ctl) (s : State) : VOp :=
  { enc := encodeWord (.vsplat vd ss tm c)
    bad := !fmtHasContainer s.h.fmt
    dsts := [vd]
    regs := [ss]
    plain := true
    body := elemBody [] vd tm c fun h _ _ => ([h.bval ss], [0]) }

/-- VEXT (09 R254). -/
def vextOp (sd : SReg) (va : VReg) (si : SReg) (c : Ctl) (s : State) : VOp :=
  let i := (s.rs si).toNat
  { enc := encodeWord (.vext sd va si c)
    srcs := [va]
    regs := [sd, si]
    sdst := some sd
    whole := true
    bad := !fmtHasContainer s.h.fmt
    defer := true
    want := fun _ e => e == i && s.h.active c e
    body := fun _ s =>
      let h := s.h
      let x := keptBits h.fmt (h.src va 0 i)
      let y : Word := if h.active c i then (if fmtSigned h.fmt then BitVec.ofInt 64 (sOf h.fmt x) else BitVec.ofNat 64 x) else 0
      wholeEnd s (if h.active c i then [(i, [h.stripFlags [va] i])] else []) fun h => h.setS sd y }

/-- VINS (09 R255). -/
def vinsOp (vd : VReg) (ss si : SReg) (tm : Tm) (c : Ctl) (s : State) : VOp :=
  { bad := !fmtHasContainer s.h.fmt
    enc := encodeWord (.vins vd ss si tm c)
    dsts := [vd]
    regs := [ss, si]
    whole := true
    body := fun _ s =>
      let h := s.h
      let i := (h.getS si).toNat
      .done (s.onH fun h =>
        if h.active c i then h.putPlanes vd i (tmVals tm h.tangents [h.bval ss])
        else if decide (i < h.vl) && c.kz then h.zeroPlanes vd i
        else h) }

/-- The element number as a value of a format (09 R256). -/
def iotaBits (f : Fmt) (e : Nat) : Nat × Nat :=
  if isF8 f then roundFloat f false .rne 0 (.fin false e 1) else (e % 2 ^ fmtBits f, 0)

def viotaOp (vd : VReg) (c : Ctl) (s : State) : VOp :=
  { bad := !fmtHasContainer s.h.fmt
    enc := encodeWord (.viota vd c)
    dsts := [vd]
    plain := true
    body := elemBody [] vd .prop c fun h _ e => ([(iotaBits h.fmt e).1], [(iotaBits h.fmt e).2]) }

/-- VMERGE (09 R257): every element is selected; the mask chooses the source. -/
def vmergeOp (vd va : VReg) (vb : VB) (tm : Tm) (c : Ctl) (s : State) : VOp :=
  let srcs := va :: vbVregs vb
  { enc := encodeWord (.vmerge vd va vb tm c)
    srcs := srcs
    dsts := [vd]
    regs := vbSregs vb
    bad := !fmtHasContainer s.h.fmt
    want := fun j e => if s.h.kBit c.k e then j == 0 else j == 1 && !c.kz
    plain := true
    defer := true
    body := fun r s =>
      let h := s.h
      loopEnd s (elemLoop h ⟨0, false⟩ vd (fun e =>
        if h.kBit c.k e then (tmVals tm h.tangents ((h.planes tm).map fun p => h.src va p e), [h.stripFlags [va] e])
        else if c.kz then (tmVals tm h.tangents [0], [])
        else (tmVals tm h.tangents ((h.planes tm).map fun p => h.vbAt vb p e), [h.stripFlags (vbVregs vb) e]))
        (r.elems h) h) }

/-- VPIN (09 R258, 01 R41, R42): of a bound register, or a ninth, cause 8. -/
def vpinOp (vd : VReg) (c : Ctl) (s : State) : VOp :=
  let h := s.h
  let count := ((List.range 64).filter fun i => h.pins.getLsbD i).length
  { enc := encodeWord (.vpin vd c)
    bad := !fmtHasContainer h.fmt
    named := [vd]
    more := if (h.bound vd).isSome || (!h.pinned vd && decide (8 ≤ count)) then some ⟨8, BitVec.ofNat 64 vd.val, 0⟩ else none
    body := fun _ s => .done (if s.h.pinned vd then s else s.pinIn s.hid vd) }

/-- Is an access one to the alias of a register of hart n. -/
def onAlias (n : Nat) (v : VReg) (a : Access) : Bool :=
  decide (a.strm < 16) && (a.op.regOf == some v || a.op.touches.any (inAlias n v))

/-- Has a binding of the hart reads of a register's alias still to make (05 R137). -/
def State.bindsAlias (s : State) (v : VReg) : Bool :=
  s.h.binds.any fun b => ((List.range b.reads).drop b.preNext).any fun i => (b.needs i).any fun x =>
    let (va, n) := b.readVa x.1 x.2
    match s.readTargets va n with
    | .ok l => (localsOf l).any (inAlias s.hid v)
    | .error _ => false

/-- VUNPIN (09 R259): a leased register is cause 9; one that is not pinned, a no-operation. The register keeps the value that its
hart's cluster reads. -/
def vunpinOp (vd : VReg) (c : Ctl) (s : State) : VOp :=
  { enc := encodeWord (.vunpin vd c)
    bad := !fmtHasContainer s.h.fmt
    named := [vd]
    more := if s.h.leased vd then some ⟨9, BitVec.ofNat 64 vd.val, 0⟩ else none
    body := fun _ s =>
      if !s.h.pinned vd then .done s
      else if s.h.sq.any (onAlias s.hid vd) then .hold (·.stallOn (onAlias s.hid vd))
      else if s.bindsAlias vd then .hold (·.pause)
      else .done (s.pinOut s.hid vd (s.viewByte s.myCluster)) }

/-- Has a delivery completed (06 R195). -/
def State.delivered (s : State) (d : Delivery) : Bool :=
  d.done || match d.src with
    | .copy _ id => (match s.h.copies.find? fun c => c.id == id with
      | some c => s.copyDone s.hid c
      | none => true)
    | .strip .. => false

/-- The recorded fault of a channel that holds a delivery into a register (09 R260). -/
def Hart.leaseFault (h : Hart) (v : VReg) : Option (Nat × ChanFault) :=
  ((h.deliveries.filter fun d => d.reg == v && !d.done).filterMap fun d => match d.src with
    | .copy ch _ => (h.chanFault ch).map (ch, ·)
    | .strip .. => none).head?

/-- LWAIT (09 R260): waits for the deliveries into a register, reports the fault of a channel that holds one, and ends their
leases. -/
def lwaitOp (vd : VReg) (c : Ctl) (s : State) : VOp :=
  { enc := encodeWord (.lwait vd c)
    bad := !fmtHasContainer s.h.fmt
    named := [vd]
    body := fun _ s =>
      match s.h.leaseFault vd with
      | some (ch, f) => .trap (s.onH fun h => { h with chanFaults := SMap.put none h.chanFaults ch (some { f with reported := true }) })
          ⟨f.cause, f.tval, 0⟩
      | none =>
        if (s.h.deliveries.filter fun d => d.reg == vd).all s.delivered then
          .done (s.onH fun h => { h with deliveries := h.deliveries.filter fun d => d.reg != vd })
        else .hold (·.block) }

def execVmv (vd va : VReg) (tm : Tm) (c : Ctl) (s : State) : Out := vStep s (vmvOp vd va tm c)
def execVsplat (vd : VReg) (ss : SReg) (tm : Tm) (c : Ctl) (s : State) : Out := vStep s (vsplatOp vd ss tm c)
def execVext (sd : SReg) (va : VReg) (si : SReg) (c : Ctl) (s : State) : Out := vStep s (vextOp sd va si c)
def execVins (vd : VReg) (ss si : SReg) (tm : Tm) (c : Ctl) (s : State) : Out := vStep s (vinsOp vd ss si tm c)
def execViota (vd : VReg) (c : Ctl) (s : State) : Out := vStep s (viotaOp vd c)
def execVmerge (vd va : VReg) (vb : VB) (tm : Tm) (c : Ctl) (s : State) : Out := vStep s (vmergeOp vd va vb tm c)
def execVpin (vd : VReg) (c : Ctl) (s : State) : Out := vStep s (vpinOp vd c)
def execVunpin (vd : VReg) (c : Ctl) (s : State) : Out := vStep s (vunpinOp vd c)
def execLwait (vd : VReg) (c : Ctl) (s : State) : Out := vStep s (lwaitOp vd c)

end Sys2Proof.Machine
end

