-- ==== Sys2Proof/Machine/Func.lean ====
section
/-! DEFINITION. Sys2Proof/Machine/Func.lean: the special functions of 09 R246 and R247. Each gives an exact stand-in for the mathematical result: a rational in the same cell of a grid far finer than any rounding boundary of f32, bf16 and f16 (log 10). RoundTo of the stand-in is the correctly rounded result. -/

namespace Sys2Proof.Machine

/-- Fraction bits of the fixed-point work. -/
def fxBits : Nat := 768

/-- Sum of the exponential series of y/2^fxBits: term x^i/i! from i on. -/
def expSeries (y : Nat) : Nat → Nat → Nat → Nat → Nat
  | 0, _, _, acc => acc
  | fuel + 1, i, term, acc =>
    let term := term * y / (i * 2 ^ fxBits)
    expSeries y fuel (i + 1) term (acc + term)

/-- Repeated squaring in fixed point. -/
def squareTimes : Nat → Nat → Nat
  | 0, x => x
  | n + 1, x => squareTimes n (x * x / 2 ^ fxBits)

/-- e^(n/d) in fixed point, for 0 ≤ n/d ≤ 512: argument divided by 2^16, 64 terms, 16 squarings. -/
def expFixed (n d : Nat) : Nat :=
  squareTimes 16 (expSeries (n * 2 ^ fxBits / (d * 2 ^ 16)) 64 1 (2 ^ fxBits) (2 ^ fxBits))

/-- Twice the inverse hyperbolic tangent series: sum of z^(2i+1)/(2i+1), z and z² in fixed point. -/
def atanhSeries (z2 : Nat) : Nat → Nat → Nat → Nat → Nat
  | 0, _, _, acc => acc
  | fuel + 1, i, pow, acc =>
    atanhSeries z2 fuel (i + 2) (pow * z2 / 2 ^ fxBits) (acc + pow / i)

/-- ln((1 + z)/(1 − z)) in fixed point. -/
def logRatio (z : Nat) : Nat := 2 * atanhSeries (z * z / 2 ^ fxBits) 260 1 z 0

/-- ln 2 in fixed point. -/
def ln2Fixed : Nat := logRatio (2 ^ fxBits / 3)

/-- The midpoint of a cell of the grid, as an exact value. -/
def cellMid (neg : Bool) (x : Nat) : Ex := .fin neg (2 * x + 1) (2 ^ (fxBits + 1))

/-- Is the magnitude n/d above 256: beyond it the functions saturate every format of 09 R232. -/
def isLarge (n d : Nat) : Bool := decide (256 * d < n)

/-- A value nearer to zero than any rounding boundary, and one nearer to 1. -/
def tinyEx (neg : Bool) : Ex := .fin neg 1 (2 ^ 400)
def nearOne (neg : Bool) : Ex := .fin neg (2 ^ 400 - 1) (2 ^ 400)

/-- e^a (09 R246, R247). -/
def exExp : Ex → Ex × Nat
  | .nan s => nanOf (.nan s) (.nan false)
  | .inf neg => (if neg then .zero false else .inf false, 0)
  | .fin neg n d =>
    if n = 0 then (.fin false 1 1, 0)
    else if isLarge n d then (if neg then tinyEx false else .fin false (2 ^ 400) 1, 0)
    else
      let x := expFixed n d
      (if neg then .fin false (2 ^ (fxBits + 1)) (2 * x + 1) else cellMid false x, 0)

/-- ln a (09 R246, R247). -/
def exLog : Ex → Ex × Nat
  | .nan s => nanOf (.nan s) (.nan false)
  | .inf neg => if neg then (.nan false, flNV) else (.inf false, 0)
  | .fin neg n d =>
    if n = 0 then (.inf true, flDZ)
    else if neg then (.nan false, flNV)
    else if n = d then (.zero false, 0)
    else
      let k := floorLog2 n d
      let (a, b) := if 0 ≤ k then (n, d * 2 ^ k.toNat) else (n * 2 ^ (-k).toNat, d)
      let frac := logRatio ((a - b) * 2 ^ fxBits / (a + b))
      let x : Int := k * (ln2Fixed : Int) + frac
      (if x < 0 then .fin true (2 * x.natAbs - 1) (2 ^ (fxBits + 1)) else cellMid false x.natAbs, 0)

/-- tanh a (09 R246, R247). -/
def exTanh : Ex → Ex × Nat
  | .nan s => nanOf (.nan s) (.nan false)
  | .inf neg => (.fin neg 1 1, 0)
  | .fin neg n d =>
    if n = 0 then (.zero neg, 0)
    else if isLarge n d then (nearOne neg, 0)
    else
      let e := 2 * expFixed (2 * n) d + 1
      (.fin neg (e - 2 ^ (fxBits + 1)) (e + 2 ^ (fxBits + 1)), 0)

/-- 1/(1 + e^−a) (09 R246, R247). -/
def exSigm : Ex → Ex × Nat
  | .nan s => nanOf (.nan s) (.nan false)
  | .inf neg => (if neg then .zero false else .fin false 1 1, 0)
  | .fin neg n d =>
    if n = 0 then (.fin false 1 2, 0)
    else if isLarge n d then (if neg then tinyEx false else nearOne false, 0)
    else
      let e := 2 * expFixed n d + 1
      let one := 2 ^ (fxBits + 1)
      (if neg then .fin false one (e + one) else .fin false e (e + one), 0)

/-- a/(1 + e^−a) (09 R246, R247). -/
def exSilu (a : Ex) : Ex × Nat :=
  match a with
  | .inf true => (.zero true, 0)
  | .inf false => (.inf false, 0)
  | a => exMul a (exSigm a).1

/-- 1/√a (09 R246, R247). -/
def exRsq : Ex → Ex × Nat
  | .nan s => nanOf (.nan s) (.nan false)
  | .inf neg => if neg then (.nan false, flNV) else (.zero false, 0)
  | .fin neg n d =>
    if n = 0 then (.inf neg, flDZ) else if neg then (.nan false, flNV) else (sqrtRatio d n, 0)

/-- 1/a (09 R246, R247). -/
def exRcp (a : Ex) : Ex × Nat := exDiv (.fin false 1 1) a

end Sys2Proof.Machine
end

