-- ==== Sys2Proof/Machine/VSfu.lean ====
section
/-! DEFINITION. Sys2Proof/Machine/VSfu.lean: special functions, VSFU (09 R246, R247, 08 R219). -/

namespace Sys2Proof.Machine

/-- A special function of one operand (09 R246). -/
def vsfuOp (s : State) (i : Instr) (vd va : VReg) (rm : Rm) (tm : Tm) (c : Ctl) (val : Ex → Ex × Nat)
    (tan : Rm → Terms → Ex × Nat) : VOp :=
  roundedOp s i vd va (.scalar 0) none rm tm c isF3 (fun _ t => val t.a) tan

/-- The exact 1, and 1 − x (09 R246). -/
def exOne : Ex × Nat := (.fin false 1 1, 0)
def oneMinus (rm : Rm) (x : Ex × Nat) : Ex × Nat := addF rm exOne (negF x)

def tanExp (_ : Rm) (t : Terms) : Ex × Nat := mulF (ex0 t.q) (ex0 t.at_)
def tanLog (_ : Rm) (t : Terms) : Ex × Nat := divF (ex0 t.at_) (ex0 t.a)
def tanTanh (rm : Rm) (t : Terms) : Ex × Nat := mulF (oneMinus rm (mulF (ex0 t.q) (ex0 t.q))) (ex0 t.at_)
def tanSigm (rm : Rm) (t : Terms) : Ex × Nat := mulF (mulF (ex0 t.q) (oneMinus rm (ex0 t.q))) (ex0 t.at_)
def tanRcp (_ : Rm) (t : Terms) : Ex × Nat := mulF (negF (mulF (ex0 t.q) (ex0 t.q))) (ex0 t.at_)
def tanRsq (_ : Rm) (t : Terms) : Ex × Nat :=
  mulF (mulF (negF (mulF (mulF (ex0 t.q) (ex0 t.q)) (ex0 t.q))) (ex0 t.at_)) (.fin false 1 2, 0)

/-- (s + q × (1 − s)) × a.t with s = RoundTo(f32, 1/(1 + e^−a), RNE), which raises no flag (09 R246). -/
def tanSilu (rm : Rm) (t : Terms) : Ex × Nat :=
  let s := ex0 (decodeEx .f32 (roundFloat .f32 false .rne 0 (exSigm t.a).1).1)
  mulF (addF rm s (mulF (ex0 t.q) (oneMinus rm s))) (ex0 t.at_)

def vexpOp (vd va : VReg) (rm : Rm) (tm : Tm) (c : Ctl) (s : State) : VOp :=
  vsfuOp s (.vexp vd va rm tm c) vd va rm tm c exExp tanExp
def vlogOp (vd va : VReg) (rm : Rm) (tm : Tm) (c : Ctl) (s : State) : VOp :=
  vsfuOp s (.vlog vd va rm tm c) vd va rm tm c exLog tanLog
def vtanhOp (vd va : VReg) (rm : Rm) (tm : Tm) (c : Ctl) (s : State) : VOp :=
  vsfuOp s (.vtanh vd va rm tm c) vd va rm tm c exTanh tanTanh
def vsigmOp (vd va : VReg) (rm : Rm) (tm : Tm) (c : Ctl) (s : State) : VOp :=
  vsfuOp s (.vsigm vd va rm tm c) vd va rm tm c exSigm tanSigm
def vrcpOp (vd va : VReg) (rm : Rm) (tm : Tm) (c : Ctl) (s : State) : VOp :=
  vsfuOp s (.vrcp vd va rm tm c) vd va rm tm c exRcp tanRcp
def vrsqOp (vd va : VReg) (rm : Rm) (tm : Tm) (c : Ctl) (s : State) : VOp :=
  vsfuOp s (.vrsq vd va rm tm c) vd va rm tm c exRsq tanRsq
def vsiluOp (vd va : VReg) (rm : Rm) (tm : Tm) (c : Ctl) (s : State) : VOp :=
  vsfuOp s (.vsilu vd va rm tm c) vd va rm tm c exSilu tanSilu

/-- VRELU: the operand where it is above zero, otherwise +0 with zero tangents; ±0 raises TKINK; a NaN keeps its tangents
(09 R246, 08 R220). Its tangents go through RoundTo (08 R218), which makes a NaN canonical (08 R210). -/
def vreluOp (vd va : VReg) (rm : Rm) (tm : Tm) (c : Ctl) (s : State) : VOp :=
  { enc := encodeWord (.vrelu vd va rm tm c)
    srcs := [va]
    dsts := [vd]
    bad := !isF3 s.h.fmt
    rm := some rm
    want := s.h.wantActive c
    plain := true
    defer := true
    body := elemBody [va] vd tm c fun h r e =>
      let x := h.src va 0 e
      let a := decodeEx h.fmt x
      let pos := !a.isNan && !a.isNeg && !a.isZero
      let v := if a.isNan then fmtNan h.fmt else if pos then x else 0
      unzipRes ((h.planes tm).map fun p =>
        if p = 0 then (v, if a.isNan then snanFlag a a else if a.isZero then flKINK else 0)
        else if a.isNan || pos then r.round h p e (convEx (decodeEx h.fmt (h.src va p e))) else (0, 0)) }

def execVexp (vd va : VReg) (rm : Rm) (tm : Tm) (c : Ctl) (s : State) : Out := vStep s (vexpOp vd va rm tm c)
def execVlog (vd va : VReg) (rm : Rm) (tm : Tm) (c : Ctl) (s : State) : Out := vStep s (vlogOp vd va rm tm c)
def execVtanh (vd va : VReg) (rm : Rm) (tm : Tm) (c : Ctl) (s : State) : Out := vStep s (vtanhOp vd va rm tm c)
def execVsigm (vd va : VReg) (rm : Rm) (tm : Tm) (c : Ctl) (s : State) : Out := vStep s (vsigmOp vd va rm tm c)
def execVrcp (vd va : VReg) (rm : Rm) (tm : Tm) (c : Ctl) (s : State) : Out := vStep s (vrcpOp vd va rm tm c)
def execVrsq (vd va : VReg) (rm : Rm) (tm : Tm) (c : Ctl) (s : State) : Out := vStep s (vrsqOp vd va rm tm c)
def execVrelu (vd va : VReg) (rm : Rm) (tm : Tm) (c : Ctl) (s : State) : Out := vStep s (vreluOp vd va rm tm c)
def execVsilu (vd va : VReg) (rm : Rm) (tm : Tm) (c : Ctl) (s : State) : Out := vStep s (vsiluOp vd va rm tm c)

end Sys2Proof.Machine
end

