-- ==== Sys2Proof/Machine/Convoy.lean ====
section
/-! DEFINITION. Sys2Proof/Machine/Convoy.lean: convoys (02 R59, 03 R82, R87 to R91, 18 R401, R402). -/

namespace Sys2Proof.Machine

/-- A vector or matrix instruction as a member. -/
def memberOp (i : Instr) : Option (State → VOp) :=
  match i with
  | .vfadd vd va vb rm tm c => some (vfaddOp vd va vb rm tm c)
  | .vfsub vd va vb rm tm c => some (vfsubOp vd va vb rm tm c)
  | .vfmul vd va vb rm tm c => some (vfmulOp vd va vb rm tm c)
  | .vfdiv vd va vb rm tm c => some (vfdivOp vd va vb rm tm c)
  | .vfma vd va vb vc rm tm c => some (vfmaOp vd va vb vc rm tm c)
  | .vfms vd va vb vc rm tm c => some (vfmsOp vd va vb vc rm tm c)
  | .vfnma vd va vb vc rm tm c => some (vfnmaOp vd va vb vc rm tm c)
  | .vfsqrt vd va rm tm c => some (vfsqrtOp vd va rm tm c)
  | .vfmin vd va vb tm c => some (vfminOp vd va vb tm c)
  | .vfmax vd va vb tm c => some (vfmaxOp vd va vb tm c)
  | .vfabs vd va tm c => some (vfabsOp vd va tm c)
  | .vfneg vd va tm c => some (vfnegOp vd va tm c)
  | .vfcps vd va vb tm c => some (vfcpsOp vd va vb tm c)
  | .vadd vd va vb tm c => some (vaddOp vd va vb tm c)
  | .vsub vd va vb tm c => some (vsubOp vd va vb tm c)
  | .vmul vd va vb tm c => some (vmulOp vd va vb tm c)
  | .vmulh vd va vb tm c => some (vmulhOp vd va vb tm c)
  | .vmulhu vd va vb tm c => some (vmulhuOp vd va vb tm c)
  | .vand vd va vb tm c => some (vandOp vd va vb tm c)
  | .vor vd va vb tm c => some (vorOp vd va vb tm c)
  | .vxor vd va vb tm c => some (vxorOp vd va vb tm c)
  | .vsll vd va vb tm c => some (vsllOp vd va vb tm c)
  | .vsrl vd va vb tm c => some (vsrlOp vd va vb tm c)
  | .vsra vd va vb tm c => some (vsraOp vd va vb tm c)
  | .vmin vd va vb tm c => some (vminOp vd va vb tm c)
  | .vmax vd va vb tm c => some (vmaxOp vd va vb tm c)
  | .vminu vd va vb tm c => some (vminuOp vd va vb tm c)
  | .vmaxu vd va vb tm c => some (vmaxuOp vd va vb tm c)
  | .vsadd vd va vb tm c => some (vsaddOp vd va vb tm c)
  | .vssub vd va vb tm c => some (vssubOp vd va vb tm c)
  | .vfeq kd va vb c => some (vfeqOp kd va vb c)
  | .vflt kd va vb c => some (vfltOp kd va vb c)
  | .vfle kd va vb c => some (vfleOp kd va vb c)
  | .vfne kd va vb c => some (vfneOp kd va vb c)
  | .vieq kd va vb c => some (vieqOp kd va vb c)
  | .vilt kd va vb c => some (viltOp kd va vb c)
  | .viltu kd va vb c => some (viltuOp kd va vb c)
  | .vile kd va vb c => some (vileOp kd va vb c)
  | .kand kd ka kb c => some (kandOp kd ka kb c)
  | .kor kd ka kb c => some (korOp kd ka kb c)
  | .kxor kd ka kb c => some (kxorOp kd ka kb c)
  | .kandn kd ka kb c => some (kandnOp kd ka kb c)
  | .knot kd ka c => some (knotOp kd ka c)
  | .kpop sd ka c => some (kpopOp sd ka c)
  | .kfirst sd ka c => some (kfirstOp sd ka c)
  | .vexp vd va rm tm c => some (vexpOp vd va rm tm c)
  | .vlog vd va rm tm c => some (vlogOp vd va rm tm c)
  | .vtanh vd va rm tm c => some (vtanhOp vd va rm tm c)
  | .vsigm vd va rm tm c => some (vsigmOp vd va rm tm c)
  | .vrcp vd va rm tm c => some (vrcpOp vd va rm tm c)
  | .vrsq vd va rm tm c => some (vrsqOp vd va rm tm c)
  | .vrelu vd va rm tm c => some (vreluOp vd va rm tm c)
  | .vsilu vd va rm tm c => some (vsiluOp vd va rm tm c)
  | .vcvt src sat vd va rm tm c => some (vcvtOp src sat vd va rm tm c)
  | .vqblk fmt sat b32 vd va vb rm tm c => some (vqblkOp fmt sat b32 vd va vb rm tm c)
  | .vdqblk fmt b32 vd va vb rm tm c => some (vdqblkOp fmt b32 vd va vb rm tm c)
  | .vcvti src vd va rm tm c => some (vcvtiOp src vd va rm tm c)
  | .vmv vd va tm c => some (vmvOp vd va tm c)
  | .vsplat vd ss tm c => some (vsplatOp vd ss tm c)
  | .vext sd va si c => some (vextOp sd va si c)
  | .vins vd ss si tm c => some (vinsOp vd ss si tm c)
  | .viota vd c => some (viotaOp vd c)
  | .vmerge vd va vb tm c => some (vmergeOp vd va vb tm c)
  | .vpin vd c => some (vpinOp vd c)
  | .vunpin vd c => some (vunpinOp vd c)
  | .lwait vd c => some (lwaitOp vd c)
  | .vslup vd va ss imm sf tm c => some (vslupOp vd va ss imm sf tm c)
  | .vsldn vd va ss imm sf tm c => some (vsldnOp vd va ss imm sf tm c)
  | .vrgath vd va vb tm c => some (vrgathOp vd va vb tm c)
  | .vcompr vd va tm c => some (vcomprOp vd va tm c)
  | .vfredo vd va vb rm tm c => some (vfredoOp vd va vb rm tm c)
  | .vfredu vd va vb rm tm c => some (vfreduOp vd va vb rm tm c)
  | .vfrmax vd va vb rm tm c => some (vfrmaxOp vd va vb rm tm c)
  | .vfrmin vd va vb rm tm c => some (vfrminOp vd va vb rm tm c)
  | .vireds vd va vb rm tm c => some (viredsOp vd va vb rm tm c)
  | .vscan vd va rm tm c => some (vscanOp vd va rm tm c)
  | .vscanf vd va rm tm c => some (vscanfOp vd va rm tm c)
  | .tseed dist vd c => some (tseedOp dist vd c)
  | .tzero vd c => some (tzeroOp vd c)
  | .tget vd va c => some (tgetOp vd va c)
  | .tput vd va c => some (tputOp vd va c)
  | .tregen dist vd c => some (tregenOp dist vd c)
  | .tfga dist vd va rm c => some (tfgaOp dist vd va rm c)
  | .tscl vd ss rm c => some (tsclOp vd ss rm c)
  | .mcfg w sr => some (mcfgOp w sr)
  | .mtset w row va plane => some (mtsetOp w row va plane)
  | .mrow a row w va => some (mrowOp a row w va)
  | .mrowd a row w va plane => some (mrowdOp a row w va plane)
  | .mdrain dst a row rm => some (mdrainOp dst a row rm)
  | .mdraint dst a row rm => some (mdraintOp dst a row rm)
  | .maclr a => some (maclrOp a)
  | .mtscl w row va => some (mtsclOp w row va)
  | .vld fmt plane o vd sb off c => some (vldOp fmt plane o vd sb off c)
  | .vlds fmt plane o vd sb ss off c => some (vldsOp fmt plane o vd sb ss off c)
  | .vldx fmt plane o vd sb off vi c => some (vldxOp fmt plane o vd sb off vi c)
  | .vslr fmt plane o vd sb ss off c => some (vslrOp fmt plane o vd sb ss off c)
  | .mtld fmt w sb ss off c => some (mtldOp fmt w sb ss off c)
  | .vst fmt plane o sat vs sb off k => some (vstOp fmt plane o sat vs sb off k)
  | .vsts fmt plane o sat vs sb ss off k => some (vstsOp fmt plane o sat vs sb ss off k)
  | .vstx fmt plane o sat vs sb off vi k => some (vstxOp fmt plane o sat vs sb off vi k)
  | .vstxa fmt plane sat vs sb off vi k => some (vstxaOp fmt plane sat vs sb off vi k)
  | .vbind vd ss c => some (vbindOp vd ss c)
  | .vunbind vd c => some (vunbindOp vd c)
  | .vbskip vd ss c => some (vbskipOp vd ss c)
  | .vqpush q va c => some (vqpushOp q va c)
  | .vqpop vd q tm c => some (vqpopOp vd q tm c)
  | .vcsend f va c => some (vcsendOp f va c)
  | .vcrecv vd f tm c => some (vcrecvOp vd f tm c)
  | .vcred vd va f rm tm c => some (vcredOp vd va f rm tm c)
  | .vcpk vd va c => some (vcpkOp vd va c)
  | .vcpkf vd c => some (vcpkfOp vd c)
  | _ => none

/-- Unit codes of a group, by vmaj (03 R83); a group that is not assigned is left to decoding. -/
def unitsOf (vmaj : Nat) : List Nat :=
  match vmaj with
  | 0 | 1 | 2 | 4 | 5 => [0, 1]
  | 3 | 8 => [2]
  | 6 | 7 => [6]
  | 9 => [3]
  | 10 => [4]
  | 11 => [5]
  | 12 | 13 | 14 | 15 => [7]
  | _ => List.range 8

/-- The unit code of member m, counted from 0 (03 R82). -/
def unitCode (units : BitVec 18) (m : Nat) : Nat := bitsOf units.toNat (3 * m) 3

/-- A member that makes its convoy malformed: the length of 32 bits, a unit its group does not have, or VPIN, VUNPIN or LWAIT
(03 R90). -/
def memberMalformed (w unit : Nat) : Bool :=
  w % 4 != 3 || !(unitsOf (bitsOf w 2 6)).contains unit || (bitsOf w 2 6 == 5 && [6, 7, 8].contains (bitsOf w 42 6))

/-- Is a convoy of these members malformed (03 R82, R89, R90). -/
def malformed (units : BitVec 18) (ws : List Nat) : Bool :=
  let n := ws.length
  ((List.range 6).drop n).any (fun m => unitCode units m != 0) ||
    decide (((List.range n).map (unitCode units)).eraseDups.length < n) ||
    ws.zipIdx.any fun x => memberMalformed x.1 (unitCode units x.2)

/-- Parcels in pairs as words of 64 bits. -/
def wordsOfParcels : List (BitVec 32) → List Nat
  | a :: b :: l => (a.toNat + 2 ^ 32 * b.toNat) :: wordsOfParcels l
  | _ => []

/-- The members of a convoy from their words; the first illegal one is cause 1 with its 64 bits (03 R90). -/
def decodeMembers : List Nat → Except Trp (List (State → VOp))
  | [] => .ok []
  | w :: l =>
    match (decode64 w).bind memberOp with
    | none => .error ⟨1, BitVec.ofNat 64 w, 0⟩
    | some f =>
      match decodeMembers l with
      | .error t => .error t
      | .ok r => .ok (f :: r)

/-- The members behind a header at pc, in the order of 03 R87: fetch faults, the header's own checks, its members' encodings. -/
def State.convoyMembers (s : State) (count : BitVec 3) (units : BitVec 18) : Except Trp (List Nat × List (State → VOp)) :=
  let bad : Trp := ⟨2, encodeWord (.convoy count units), 0⟩
  if 4 < count.toNat then .error bad
  else
    match s.fetchParcels (s.h.pc + 4) (2 * (count.toNat + 2)) with
    | .error t => .error t
    | .ok ps =>
      let ws := wordsOfParcels ps
      if malformed units ws then .error bad else (decodeMembers ws).map (ws, ·)

/-- Registers that a bounded pass leaves without their whole result. -/
structure Taint where
  all : Bool := false
  vs : List VReg := []
  ss : List SReg := []
  deriving DecidableEq, Repr

/-- Does a member take an operand from such a register. -/
def Taint.touches (t : Taint) (o : VOp) : Bool :=
  t.all || (o.srcs ++ o.dsts).any (t.vs.contains ·) || o.regs.any (t.ss.contains ·)

/-- The registers of a member that has not begun, and those of one that has stopped at the bound. -/
def Taint.skip (t : Taint) (o : VOp) : Taint :=
  { all := t.all || o.kd.isSome || !o.tiles.isEmpty || !o.accs.isEmpty, vs := t.vs ++ o.dsts ++ o.named, ss := t.ss ++ o.regs }
def Taint.part (t : Taint) (o : VOp) : Taint :=
  if o.whole then t else { t with all := t.all || o.kd.isSome, vs := t.vs ++ o.dsts }

/-- What one pass over the members comes to: all done, a trap of member m with the flags that member has raised, or a wait. -/
inductive PassRes where
  | done (s : State)
  | trap (s : State) (m : Nat) (t : Trp) (fl : Word)
  | wait (f : State → State)

/-- Does a member draw a sequence number (08 R223). -/
def Hart.draws (h : Hart) (o : VOp) : Bool := o.rm.bind h.resolveRm == some .rsr

/-- Does a later member of a convoy take a register that a member loads, which must then hold its words at once. -/
def feedsLater (o : VOp) (l : List VOp) : Bool := l.any fun x => (x.srcs ++ x.dsts ++ x.named).any (o.dsts.contains ·)

/-- One pass over the members from member m on, one after another in program order (02 R59); n is the number of members before it
that draw, counted from draw, and lent the containers of pinned registers read for them. Below a bound on the elements, a member that
works across elements begins only when no register it takes has stopped at the bound, and not when it is the member whose trap set it;
a member that takes the result of one that has not begun does not begin (18 R401, R402). -/
def convoyPass (r : Pass) (draw : Word) (stopAt : Option Nat) (lent : List (Nat × Word)) (m n : Nat) (ta tp : Taint) :
    List (State → VOp) → State → PassRes
  | [], s => .done s
  | mk :: l, s =>
    let s := s.onH fun h => { h with nextSeq := r.base + m, lent := s.memberLent r.base m lent }
    let o := mk s
    let n1 := if s.h.draws o then n + 1 else n
    if decide (r.hi < 65536) && (ta.touches o || (o.whole && (stopAt == some m || tp.touches o))) then
      convoyPass r draw stopAt lent (m + 1) n1 (ta.skip o) tp l s
    else
      match s.vCheck o r.lo with
      | some t => .trap s m t 0
      | none =>
        let r1 : Pass := { r with
          place := m * 2 ^ 24, member := m, rm := (o.rm.bind s.h.resolveRm).getD .rne, conv := feedsLater o (l.map (· s))
          seq := if s.h.draws o then some (draw + BitVec.ofNat 64 n) else none }
        let raised (t : State) : State := t.flushPuts.onH fun h => { h with fflags := s.h.fflags ||| h.fflags }
        match (s.onH fun h => { h with fflags := 0 }).runOp o r1 with
        | .done s1 => convoyPass r draw stopAt lent (m + 1) n1 ta (tp.part o) l (raised s1)
        | .trap s1 t => .trap (raised s1) m t s1.h.fflags
        | .need a f => .wait fun s => s.awaitNeed a f
        | .hold f => .wait f

/-- The element at which a cause arose: of a value or tangent trap the one its TVAL reports (08 R217). -/
def faultElem (t : Trp) : Nat := if t.cause = 10 ∨ t.cause = 11 then bitsOf t.tval.toNat 16 16 else t.eidx

/-- How a convoy's execution ends: a wait, or a state with the trap at its fault point, if any. -/
inductive ConvoyRes where
  | wait (f : State → State)
  | stop (s : State) (t : Option Trp)

/-- Passes until the fault point is found: the lowest element at which a member raises a cause, at equal elements the earliest
member's (18 R401). Each repetition has a later member's fault at a lower element, so that six suffice. The flags that the member at
the fault point has raised up to it stand (08 R217). -/
def convoyRun (r : Pass) (draw : Word) (mems : List (State → VOp)) (s : State) (best : Option (Nat × Trp × Word)) : Nat → ConvoyRes
  | 0 => .stop s (best.map (·.2.1))
  | k + 1 =>
    let stop (s1 : State) : ConvoyRes := match best with
      | some (_, t, fl) => .stop (s1.onH fun h => { h with fflags := h.fflags ||| fl }) (some t)
      | none => .stop s1 none
    let hi := match best with
      | some (_, t, _) => min r.hi (faultElem t)
      | none => r.hi
    match convoyPass { r with hi := hi } draw (best.map (·.1)) s.h.lent 0 0 {} {} mems s with
    | .wait f => .wait f
    | .done s1 => stop s1
    | .trap s1 m t fl =>
      let t1 := { t with eidx := max r.lo t.eidx }
      match best with
      | none => convoyRun r draw mems s (some (m, t1, fl)) k
      | some (m0, t0, _) =>
        if faultElem t1 < faultElem t0 ∨ (faultElem t1 = faultElem t0 ∧ m < m0) then convoyRun r draw mems s (some (m, t1, fl)) k
        else stop s1

/-- The trap of a convoy whose members have run up to the fault point from state s to s1: bindings stand as before the header, and
of a convoy that stops only at element 0 only the stores to memory have been made, and the flags stand (18 R401, R402, 08 R217). -/
def State.convoyTrap (s s1 : State) (whole : Bool) (n : Nat) (srseq : Word) (drew : Option Word) (t : Trp) : State :=
  let base := s.h.nextSeq
  let s2 :=
    if whole then
      let stores := s1.h.sq.filter fun a => decide (base ≤ a.seq) && a.strm == 1 && a.op.isWrite && a.op.regOf.isNone
      s.onH fun h => { h with sq := h.sq ++ stores, fences := s1.h.fences, fflags := s1.h.fflags }
    else s1.onH fun h => { h with
      binds := s.h.binds
      got := h.got.filter fun x => !(decide (2 ^ 60 ≤ x.1) && decide (x.1 < popPlace 0 t.eidx)) }
  (s2.onH fun h => { h with srseq := srseq, nextSeq := base + n }).trapLog true drew (if whole then { t with eidx := 0 } else t)

/-- A convoy retires: each member counts in program order, the header does not (05 R136). Popped entries beyond VL go back. -/
def State.convoyDone (s1 : State) (base n : Nat) (srseq : Word) : State :=
  (s1.onH fun h => { { h with got := h.got.filter fun x => decide (popPlace 0 h.vl ≤ x.1) }.unpop with
    srseq := srseq, nextSeq := base + n - 1 }).retire (4 + 8 * n)

/-- What a convoy waits for before its members issue: their registers (05 R129). -/
def State.convoyStall (s : State) (ops : List VOp) : Option State := ops.findSome? s.vStall

/-- The checks made for all members at the header (18 R401). -/
def State.convoyCheck (s : State) (ops : List VOp) : Option Trp :=
  (ops.findSome? fun o => (s.vCheck o 0).filter fun t => [1, 9, 12, 20].contains t.cause).map fun t => { t with eidx := 0 }

/-- Do the members execute, one after another, whatever their loads bring. -/
def State.dryRun (lo : Nat) : List (State → VOp) → State → Bool
  | [], _ => true
  | f :: l, s =>
    let o := f s
    (s.vCheck o lo).isNone &&
      match o.body { lo := if o.whole then 0 else lo, rm := (o.rm.bind s.h.resolveRm).getD .rne } s with
      | .done s1 => State.dryRun lo l (s1.flushPuts.onH fun h => { h with nextSeq := h.nextSeq + 1 })
      | _ => false

/-- Is every member's index register free of the members before it. -/
def indexFree : List VReg → List VOp → Bool
  | _, [] => true
  | w, o :: l => (o.index.all fun v => !w.contains v) && indexFree (w ++ o.dsts) l

/-- May the members of a convoy issue one by one, since nothing that is not known at its header can stop one of them: no trap on
flags is enabled, no poison stands, no source is bound, and what they load decides no address (18 R401). -/
def State.splits (s : State) (mems : List (State → VOp)) (lo : Nat) : Bool :=
  let ops := mems.map (· s)
  s.bound.isNone && s.h.valueEnables == 0 && s.h.tangentEnables == 0 && s.h.poison.isEmpty && s.poison.isEmpty && s.h.lent.isEmpty &&
    s.h.got.isEmpty && (ops.all fun o => o.plain && o.srcs.all fun v => (s.h.bound v).isNone) && indexFree [] ops &&
    State.dryRun lo mems s

/-- A member has issued, and the next one stands before its first element. -/
def Hart.memberDone (h : Hart) (lo : Nat) : Hart :=
  { h with nextSeq := h.nextSeq + 1, eidx := lo, waitAt := none, got := [], gotBad := [], lent := [], blocked := none, waiting := false }

/-- The members of a convoy from the next one on issue one by one, each once its registers are available (02 R59, 05 R129), and the
convoy retires after the last. A member whose address has come to fail since the header was checked stops the convoy at its header and
that member's element (18 R401); what the members before it have done stands, and is not done again (log 99). -/
def State.runChain (c : Chain) : List (State → VOp) → State → State
  | [], s =>
    (s.onH fun h => { h with inConvoy := none, nextSeq := h.nextSeq - 1 }).retire (4 + 8 * c.words.length)
  | f :: l, s0 =>
    let s := s0.onH fun h => { h with inConvoy := some c }
    let o := f s
    match s.vStall o with
    | some s1 => s1
    | none =>
      let draws := s.h.draws o
      let r : Pass := {
        lo := if o.whole then 0 else s.h.eidx, base := s.h.nextSeq, rm := (o.rm.bind s.h.resolveRm).getD .rne
        seq := if draws then some c.draw else none }
      let drew := if draws then c.drew.or (some c.draw) else c.drew
      let c1 := { c with next := c.next + 1, draw := if draws then c.draw + 1 else c.draw, drew := drew }
      match s.issueOp o r with
      | .done s1 => State.runChain c1 l (s1.onH (·.memberDone c.lo))
      | .part s1 hi => s1.onH fun h => { h with eidx := hi }
      | .trap s1 t =>
        if s.walkHeld 1 t.cause then s.pause
        else (s1.countIssued s).trapLog true drew { t with eidx := if o.whole then c.lo else max r.lo t.eidx }
      | .wait g => g s

/-- A convoy whose members issue one by one goes on. -/
def State.goOn (s : State) (c : Chain) : State :=
  match decodeMembers (c.words.drop c.next) with
  | .ok mems => s.runChain c mems
  | .error _ => s

/-- A convoy whose members execute as one, from element lo on: what it comes to at once, at its fault point, at the element at which
the move stops it (01 R14), or as a wait (18 R401). -/
def State.convoyWhole (s : State) (mems : List (State → VOp)) (ops : List VOp) : State :=
  let n := ops.length
  let whole := ops.any (·.whole)
  let nd := (ops.filter s.h.draws).length
  let draw := s.h.reuse.getD s.h.srseq
  let srseq := if s.h.reuse.isSome then s.h.srseq else s.h.srseq + BitVec.ofNat 64 nd
  let drew := if nd = 0 then none else some draw
  let hi := if whole then 65536 else s.bound.getD 65536
  let r : Pass := { lo := if whole then 0 else s.h.eidx, hi := hi, conv := true, base := s.h.nextSeq }
  match convoyRun r draw mems s none 8 with
  | .wait f => f s
  | .stop s1 none =>
    if hi < s.h.vl then (s1.onH fun h => { h with srseq := srseq, nextSeq := s.h.nextSeq, binds := h.binds, lent := s.h.lent }).standAt hi drew
    else s1.convoyDone s.h.nextSeq n srseq
  | .stop s1 (some t) => if s.walkHeld 1 t.cause then s.pause else s.convoyTrap s1 whole n srseq drew t

/-- A convoy of decoded members, given with their words. -/
def convoyStep (s : State) (ws : List Nat) (mems : List (State → VOp)) : Out :=
  let ops := mems.map (· s)
  match s.convoyStall ops with
  | some s1 => .next s1
  | none =>
    match s.convoyCheck ops with
    | some t => .next (s.trapWith true none t)
    | none =>
      if s.splits mems s.h.eidx then
        let nd := (ops.filter s.h.draws).length
        let c : Chain := { words := ws, next := 0, lo := s.h.eidx, draw := s.h.reuse.getD s.h.srseq, drew := none }
        .next (State.runChain c mems (s.onH fun h => { h with
          srseq := if h.reuse.isSome then h.srseq else h.srseq + BitVec.ofNat 64 nd }))
      else .next (s.convoyWhole mems ops)

/-- CONVOY (02 R59, 03 R89 to R91). -/
def execConvoy (count : BitVec 3) (units : BitVec 18) (s : State) : Out :=
  match s.convoyMembers count units with
  | .error t => .next (s.trapWith true none t)
  | .ok (ws, mems) => convoyStep s ws mems

end Sys2Proof.Machine
end

