-- ==== Sys2Proof/Machine/Late.lean ====
section
/-! DEFINITION. Sys2Proof/Machine/Late.lean: vector instructions that have issued and wait for their reads of pinned registers: an element is computed when its reads have performed, and its writes take their place in stream V (01 R43, 05 R129, 09 R231); and the move that performs an access (05 R132). -/

namespace Sys2Proof.Machine

/-- Have the reads for the next element of an issued instruction performed; of one that works across elements, all of them. -/
def Late.ready (x : Late) (whole : Bool) (h : Hart) : Bool :=
  !h.sq.any fun a => a.op.pinSeq == some x.seq && (whole || decide (a.elem ≤ x.next))

/-- The hart as the instruction found it at its issue, with what its reads brought. -/
def Late.hart (x : Late) (h : Hart) : Hart :=
  { h with
    s := x.s, k := x.k, v := x.v, vl := x.vl, fctl := x.fctl, srseed := x.srseed, gen := x.gen, lent := x.words, lates := [], sq := []
    efmt := x.efmt, tcfg := x.tcfg, scale := x.scale, epoch := x.epoch, cgroup := x.cgroup, cops := x.cops, cstride := x.cstride
    ctag := x.ctag, cdens := x.cdens
    tel := if x.tdsts.isEmpty then x.tel else h.tel
    tsc := if x.tdsts.isEmpty then x.tsc else h.tsc
    puts := [], fences := [], binds := [], nextSeq := x.seq, eidx := x.next }

/-- The registers' containers of some elements as another hart holds them. -/
def Hart.takeElems (h g : Hart) (vs : List VReg) (es : List Nat) : Hart :=
  vs.foldl (fun (h : Hart) v => es.foldl (fun (h : Hart) e => (List.range (1 + h.tangents)).foldl (fun (h : Hart) p =>
    h.putC v p e (g.getV v p e)) h) h) h

/-- The other registers an issued instruction writes, as another hart holds them: a scalar register, a mask, the tiles, the accumulators
and the compaction buffer. What no instruction after it may write before it is done is taken as it stands (05 R129). -/
def Hart.takeRest (h g : Hart) (x : Late) : Hart :=
  let h1 := x.sdsts.foldl (fun (h : Hart) r => h.setS r (g.getS r)) h
  let h2 := match x.kdst with
    | some k => h1.setK k (g.getK k)
    | none => h1
  { h2 with
    tel := if x.tdsts.isEmpty then h2.tel else g.tel
    tsc := if x.tdsts.isEmpty then h2.tsc else g.tsc
    acc := if x.adsts.isEmpty then h2.acc else g.acc
    cbHead := if x.buf then g.cbHead else h2.cbHead
    cbCount := if x.buf then g.cbCount else h2.cbCount }

/-- The place an element's writes have in stream V taken by them. -/
def Hart.fillPlace (h : Hart) (seq key : Nat) (l : List Access) : Hart :=
  { h with sq := h.sq.flatMap fun (a : Access) => match a.op with
      | .await _ k => if a.seq = seq ∧ k = key then l else [a]
      | _ => [a] }

/-- The next element of an issued instruction of the selected hart is computed, or all of them. A fault its addresses have come to
since is an event (log 73). -/
def State.lateElem (s : State) (x : Late) (o : VOp) : State :=
  let h := s.h
  let es := if o.whole then List.range x.vl else [x.next]
  let key := if o.whole then 0 else x.next
  let r : Pass := { lo := if o.whole then 0 else x.next, hi := if o.whole then 65536 else x.next + 1, base := x.seq, rm := x.rm, seq := x.drew }
  let next (g : Hart) (l : List Late) : List Late := l.map fun (y : Late) =>
    if y.seq = x.seq then { y with next := if o.whole then x.vl else x.next + 1, v := g.v, k := g.k } else y
  match o.body r { s with h := x.hart h } with
  | .done s1 =>
    let s2 := s1.flushPuts
    { s2 with h := { (((h.takeElems s2.h x.dsts es).takeRest s2.h x).fillPlace x.seq key s2.h.sq) with
        fflags := s2.h.fflags, lates := next s2.h h.lates } }
  | .trap _ t => (s.onH fun h => { h.fillPlace x.seq key [] with lates := next (x.hart h) h.lates }).pushEvent s.hid t.cause t.tval
  | _ => s.onH fun h => { h.fillPlace x.seq key [] with lates := next (x.hart h) h.lates }

/-- Issued instructions of the selected hart whose next reads have performed go on, and those that are done are forgotten; the list
bounds how often. -/
def State.settleAll (s : State) : List Unit → State
  | [] => s
  | _ :: l =>
    let f (x : Late) : Option (State → VOp) := (decode64 x.enc.toNat).bind memberOp
    let op (x : Late) : Option VOp := (f x).map (· { s with h := x.hart s.h })
    match s.h.lates.find? fun x => match op x with
      | some o => decide (x.vl ≤ x.next) || x.ready o.whole s.h
      | none => true with
    | none => s
    | some x =>
      match op x with
      | some o => if x.next < x.vl then (s.lateElem x o).settleAll l
        else (s.onH fun h => { h with lates := h.lates.filter fun y => y.seq != x.seq }).settleAll l
      | none => (s.onH fun h => { h with lates := h.lates.filter fun y => y.seq != x.seq }).settleAll l

/-- The same for hart n. -/
def State.lateWork (s : State) (n : Nat) : State :=
  if (s.hart n).lates.isEmpty then s
  else
    let s1 := s.select n
    (s1.settleAll (List.replicate ((s1.h.lates.map fun x => x.vl + 1).sum) ())).select s.hid

/-- PERFORM-ACCESS (05 R132): the access at the head of a stream of a hart, engine or stream transfer performs. -/
def execPerformAccess (n strm : Nat) (s : State) : Out :=
  if n < 2048 then
    if strm < 16 then
      match s.mayPerform n strm with
      | some a => .next ((s.performHead n strm a).lateWork n)
      | none =>
        if 2 ≤ strm ∧ strm < 10 ∧ ((s.hart n).head strm).isNone then
          .next (((s.select n).bindMove (strm - 2)).select s.hid)
        else .next s
    else if strm < 32 then .next (((s.select n).copyMove (strm - 16)).select s.hid)
    else .next s
  else if n < 4096 then .next (if n < 2064 then s.engineMove (n - 2048) else s)
  else
    match s.transfers.find? fun t => xferAgent t.id == n with
    | some t => .next (s.transferMove t)
    | none => .next s

end Sys2Proof.Machine
end

