-- ==== Sys2Proof/Machine/Loop.lean ====
section
/-! DEFINITION. Sys2Proof/Machine/Loop.lean: LOOP and LOOPN (04 R121 to R124, 03 R91). -/

namespace Sys2Proof.Machine

/-- Parcels of the instruction a parcel begins: a convoy counts with its members (03 R70, R82, R91). A header whose COUNT of 5
to 7 makes it malformed spans the members its field numbers (log 72). -/
def spanOf (p : BitVec 32) : Nat :=
  if p.toNat % 4 = 3 then 2
  else if bitsOf p.toNat 0 7 = 0x19 then 1 + 2 * (bitsOf p.toNat 7 3 + 2)
  else 1

/-- Does a body of parcels end with an instruction: neither between the parcels of one nor inside a convoy (04 R122,
03 R91). skip parcels belong to the instruction before. -/
def endsWhole : List (BitVec 32) → Nat → Bool
  | [], skip => skip == 0
  | _ :: l, skip + 1 => endsWhole l skip
  | p :: l, 0 => endsWhole l (spanOf p - 1)

/-- The faults of a LOOP or LOOPN at itself: a body parcel that cannot be fetched (03 R87 step 1); four active levels, a body past
the end of an active one, or one that ends inside an instruction or a convoy (04 R122). -/
def State.loopFault (s : State) (i : Instr) (len : Nat) : Option Trp :=
  let pc := s.h.pc
  match s.fetchParcels (pc + 4) len with
  | .error t => some t
  | .ok l =>
    if decide (4 ≤ s.h.levels.length) || (s.h.levels.any fun l => l.holds pc && decide (4 * l.len < (pc - l.start).toNat + 4 + 4 * len)) ||
        !endsWhole l 0 then some ⟨3, encodeWord i, 0⟩
    else none

/-- LOOP and LOOPN: a zero count skips the body in sequence, otherwise a level is pushed (04 R121, R123). -/
def loopStep (s : State) (i : Instr) (a : SReg) (len : Nat) (isLoopn : Bool) : Out :=
  if !s.ready [a] then .next (s.stall [a])
  else
    match s.loopFault i len with
    | some t => .next (s.trap t)
    | none =>
      let c := (s.rs a).toNat
      if c = 0 then .next (s.retire (4 * (len + 1)))
      else
        let level : LoopLevel :=
          { start := s.h.pc + 4, len, isLoopn, reg := if isLoopn then a else 0, count := if isLoopn then 0 else c }
        .next ((s.onH fun h => { h with loops := pushLevel level h.loops }).retire 4)

def execLoop (a : SReg) (len : BitVec 6) (s : State) : Out := loopStep s (.loop a len) a (len.toNat + 1) false
def execLoopn (a : SReg) (len : BitVec 6) (s : State) : Out := loopStep s (.loopn a len) a (len.toNat + 1) true

end Sys2Proof.Machine
end

