-- ==== Sys2Proof/Machine/VConf.lean ====
section
/-! DEFINITION. Sys2Proof/Machine/VConf.lean: vector configuration: VCONF, VSETVL and VSETVLX (04 R117 to R120, 01 R31, R32, R36, R37). -/

namespace Sys2Proof.Machine

/-- Is an access one of a vector or matrix instruction: every access of a stream but S, but for those of QPUSH and QPOP, whose
queue may have another home (06 R184). -/
def isVectorAccess (a : Access) : Bool :=
  match a.op with
  | .popS .. => false
  | .push .. => a.vec
  | .popV .. => true
  | _ => a.strm != 0

/-- Has every older vector and matrix instruction of the hart completed (01 R36). -/
def Hart.vectorsDone (h : Hart) : Bool := h.sq.all fun a => !isVectorAccess a

/-- Cause 8 with the lowest pinned register (01 R37). -/
def Hart.pinTrap (h : Hart) : Option Trp := h.lowestPin.map fun v => ⟨8, BitVec.ofNat 64 v, 0⟩

/-- VTYPE is VILL only, VLMAX and VL 0. -/
def Hart.setIllegal (h : Hart) : Hart := { h with vill := true, efmt := 0, tb := 0, vlmax := 0, vl := 0 }

/-- VCONF (04 R117). -/
def execVconf (nrc : BitVec 3) (sreq : BitVec 5) (s : State) : Out :=
  if nrc = s.h.nrc then .next ((s.onH fun h => { h with sreq := sreq.toNat }).retire 4)
  else
    match s.h.pinTrap with
    | some t => .next (s.trap t)
    | none =>
      if !s.h.vectorsDone then .next (s.stallOn isVectorAccess)
      else .next ((s.onH fun h => { h.zeroWindows.setIllegal with nrc := nrc, sreq := sreq.toNat }).retire 4)

/-- The geometry of a hart with its lanes, or none while VILL is set (04 R118). -/
def Hart.geometry (h : Hart) (lanes : Nat) : Option (Nat × Nat × Nat × Nat × Nat) :=
  if h.vill then none else some (lanes, h.sreg, h.nreg, h.tangents, h.ebits)

/-- The register segments a negotiation takes from the cache are woken where power-gated, in each of the hart's own lane slices
(01 R36, R54). -/
def State.wakeSegments (s : State) (lo hi : Nat) : State :=
  let mine (l : Nat) : Bool := match s.lanesOf s.hid with
    | 32 => true
    | 16 => if s.hid % 2 = 0 then decide (l < 16) else decide (16 ≤ l)
    | _ => false
  { s with gated := s.gated.filter fun g => match g with
      | .segment c l i => !(c == hartCore s.hid && mine l && decide (lo ≤ i) && decide (i < hi))
      | .bank _ _ => true }

/-- The effect of VSETVL and VSETVLX for a vtype field of nine bits (04 R118). -/
def setvl (d a b x : SReg) (vt : Nat) (s : State) : Out :=
  if !s.ready [d, a, b, x] then .next (s.stall [d, a, b, x])
  else
    let h := s.h
    let lanes := s.lanesOf s.hid
    let avl := (s.rs a).toNat
    let cap := if b = 0 then 2 ^ 64 else (s.rs b).toNat
    let code := bitsOf vt 0 5
    let tb := bitsOf vt 5 3
    let newS := if vt.testBit 8 then h.sreq else h.sreg
    let fmt := (fmtOfCode code).filter fmtHasContainer
    let bits := match fmt with
      | some f => fmtBits f
      | none => 0
    let vlmax := vlmaxOf lanes newS h.nreg (tangentsOf tb) bits
    let legal := decide (tb ≤ 5) && fmt.isSome && decide (0 < lanes) && decide (lanes ≤ vlmax)
    let newG := if legal then some (lanes, newS, h.nreg, tangentsOf tb, bits) else none
    let changes := newG != h.geometry lanes
    let negotiates := newS != h.sreg
    match (if changes || negotiates then h.pinTrap else none) with
    | some t => .next (s.trap t)
    | none =>
      if (changes || negotiates) && !h.vectorsDone then .next (s.stallOn isVectorAccess)
      else
        let s1 := if negotiates then (s.wakeSegments h.sreg newS).onH fun h => { h with sreg := newS } else s
        let s2 := if changes then s1.onH (·.zeroWindows) else s1
        let s3 := s2.onH fun h =>
          if legal then
            { h with vill := false, efmt := BitVec.ofNat 5 code, tb := BitVec.ofNat 3 tb, vlmax := vlmax
                     vl := min (min avl cap) vlmax }
          else h.setIllegal
        .next ((s3.ws d (BitVec.ofNat 64 s3.h.vl)).retire 4)

def execVsetvl (d a b : SReg) (vt : BitVec 9) (s : State) : Out := setvl d a b 0 vt.toNat s
def execVsetvlx (d a b x : SReg) (s : State) : Out := setvl d a b x ((s.rs x).toNat % 512) s

end Sys2Proof.Machine
end

