-- ==== Sys2Proof/Machine/Dispatch.lean ====
section
/-! DEFINITION. Sys2Proof/Machine/Dispatch.lean: the meaning of every row of the opcode table. -/

namespace Sys2Proof.Machine

/-- What an instruction or a move does (spec/opcode_table.json). -/
def exec (i : Instr) (s : State) : Host.Outcome State Fault Refusal :=
  match i with
  | .add d a b => Sys2Proof.Machine.execAdd d a b s
  | .sub d a b => Sys2Proof.Machine.execSub d a b s
  | .and d a b => Sys2Proof.Machine.execAnd d a b s
  | .or d a b => Sys2Proof.Machine.execOr d a b s
  | .xor d a b => Sys2Proof.Machine.execXor d a b s
  | .sll d a b => Sys2Proof.Machine.execSll d a b s
  | .srl d a b => Sys2Proof.Machine.execSrl d a b s
  | .sra d a b => Sys2Proof.Machine.execSra d a b s
  | .slt d a b => Sys2Proof.Machine.execSlt d a b s
  | .sltu d a b => Sys2Proof.Machine.execSltu d a b s
  | .mul d a b => Sys2Proof.Machine.execMul d a b s
  | .mulh d a b => Sys2Proof.Machine.execMulh d a b s
  | .mulhu d a b => Sys2Proof.Machine.execMulhu d a b s
  | .div d a b => Sys2Proof.Machine.execDiv d a b s
  | .divu d a b => Sys2Proof.Machine.execDivu d a b s
  | .rem d a b => Sys2Proof.Machine.execRem d a b s
  | .remu d a b => Sys2Proof.Machine.execRemu d a b s
  | .min d a b => Sys2Proof.Machine.execMin d a b s
  | .max d a b => Sys2Proof.Machine.execMax d a b s
  | .minu d a b => Sys2Proof.Machine.execMinu d a b s
  | .maxu d a b => Sys2Proof.Machine.execMaxu d a b s
  | .clz d a => Sys2Proof.Machine.execClz d a s
  | .ctz d a => Sys2Proof.Machine.execCtz d a s
  | .popc d a => Sys2Proof.Machine.execPopc d a s
  | .andn d a b => Sys2Proof.Machine.execAndn d a b s
  | .addi d a imm => Sys2Proof.Machine.execAddi d a imm s
  | .andi d a imm => Sys2Proof.Machine.execAndi d a imm s
  | .ori d a imm => Sys2Proof.Machine.execOri d a imm s
  | .xori d a imm => Sys2Proof.Machine.execXori d a imm s
  | .slti d a imm => Sys2Proof.Machine.execSlti d a imm s
  | .sltiu d a imm => Sys2Proof.Machine.execSltiu d a imm s
  | .slli d a sh => Sys2Proof.Machine.execSlli d a sh s
  | .srli d a sh => Sys2Proof.Machine.execSrli d a sh s
  | .srai d a sh => Sys2Proof.Machine.execSrai d a sh s
  | .lui d imm => Sys2Proof.Machine.execLui d imm s
  | .auipc d imm => Sys2Proof.Machine.execAuipc d imm s
  | .fadd dp rm d a b => Sys2Proof.Machine.execFadd dp rm d a b s
  | .fsub dp rm d a b => Sys2Proof.Machine.execFsub dp rm d a b s
  | .fmul dp rm d a b => Sys2Proof.Machine.execFmul dp rm d a b s
  | .fdiv dp rm d a b => Sys2Proof.Machine.execFdiv dp rm d a b s
  | .fsqrt dp rm d a => Sys2Proof.Machine.execFsqrt dp rm d a s
  | .fmin dp d a b => Sys2Proof.Machine.execFmin dp d a b s
  | .fmax dp d a b => Sys2Proof.Machine.execFmax dp d a b s
  | .fmadd dp rm d a b => Sys2Proof.Machine.execFmadd dp rm d a b s
  | .feq dp d a b => Sys2Proof.Machine.execFeq dp d a b s
  | .flt dp d a b => Sys2Proof.Machine.execFlt dp d a b s
  | .fle dp d a b => Sys2Proof.Machine.execFle dp d a b s
  | .fcvtfi dp rm d a => Sys2Proof.Machine.execFcvtfi dp rm d a s
  | .fcvtif dp rm d a => Sys2Proof.Machine.execFcvtif dp rm d a s
  | .fcvtff dp rm d a => Sys2Proof.Machine.execFcvtff dp rm d a s
  | .beq a b off => Sys2Proof.Machine.execBeq a b off s
  | .bne a b off => Sys2Proof.Machine.execBne a b off s
  | .blt a b off => Sys2Proof.Machine.execBlt a b off s
  | .bge a b off => Sys2Proof.Machine.execBge a b off s
  | .bltu a b off => Sys2Proof.Machine.execBltu a b off s
  | .bgeu a b off => Sys2Proof.Machine.execBgeu a b off s
  | .bsubnz a b off => Sys2Proof.Machine.execBsubnz a b off s
  | .bsubgt a b off => Sys2Proof.Machine.execBsubgt a b off s
  | .jal d off => Sys2Proof.Machine.execJal d off s
  | .jalr d a imm => Sys2Proof.Machine.execJalr d a imm s
  | .lb d a off => Sys2Proof.Machine.execLb d a off s
  | .lh d a off => Sys2Proof.Machine.execLh d a off s
  | .lw d a off => Sys2Proof.Machine.execLw d a off s
  | .ld d a off => Sys2Proof.Machine.execLd d a off s
  | .lbn d a off => Sys2Proof.Machine.execLbn d a off s
  | .lhn d a off => Sys2Proof.Machine.execLhn d a off s
  | .lwn d a off => Sys2Proof.Machine.execLwn d a off s
  | .sb b a off => Sys2Proof.Machine.execSb b a off s
  | .sh b a off => Sys2Proof.Machine.execSh b a off s
  | .sw b a off => Sys2Proof.Machine.execSw b a off s
  | .sd b a off => Sys2Proof.Machine.execSd b a off s
  | .amoswp sc o d a b => Sys2Proof.Machine.execAmoswp sc o d a b s
  | .amoadd sc o d a b => Sys2Proof.Machine.execAmoadd sc o d a b s
  | .amoand sc o d a b => Sys2Proof.Machine.execAmoand sc o d a b s
  | .amoor sc o d a b => Sys2Proof.Machine.execAmoor sc o d a b s
  | .amoxor sc o d a b => Sys2Proof.Machine.execAmoxor sc o d a b s
  | .amomin sc o d a b => Sys2Proof.Machine.execAmomin sc o d a b s
  | .amomax sc o d a b => Sys2Proof.Machine.execAmomax sc o d a b s
  | .amominu sc o d a b => Sys2Proof.Machine.execAmominu sc o d a b s
  | .amomaxu sc o d a b => Sys2Proof.Machine.execAmomaxu sc o d a b s
  | .amocas sc o d a b => Sys2Proof.Machine.execAmocas sc o d a b s
  | .amofadd sc o d a b => Sys2Proof.Machine.execAmofadd sc o d a b s
  | .ldo sc o d a => Sys2Proof.Machine.execLdo sc o d a s
  | .sto sc o a b => Sys2Proof.Machine.execSto sc o a b s
  | .fence sc acq rel => Sys2Proof.Machine.execFence sc acq rel s
  | .sbar a => Sys2Proof.Machine.execSbar a s
  | .waitv cond d a b => Sys2Proof.Machine.execWaitv cond d a b s
  | .csrr d csr => Sys2Proof.Machine.execCsrr d csr s
  | .csrw d csr a => Sys2Proof.Machine.execCsrw d csr a s
  | .csrs d csr a => Sys2Proof.Machine.execCsrs d csr a s
  | .csrc d csr a => Sys2Proof.Machine.execCsrc d csr a s
  | .vconf nrc sreq => Sys2Proof.Machine.execVconf nrc sreq s
  | .vsetvl d a b vt => Sys2Proof.Machine.execVsetvl d a b vt s
  | .vsetvlx d a b x => Sys2Proof.Machine.execVsetvlx d a b x s
  | .convoy count units => Sys2Proof.Machine.execConvoy count units s
  | .loop a len => Sys2Proof.Machine.execLoop a len s
  | .loopn a len => Sys2Proof.Machine.execLoopn a len s
  | .launch d a => Sys2Proof.Machine.execLaunch d a s
  | .ksend a => Sys2Proof.Machine.execKsend a s
  | .kwait a => Sys2Proof.Machine.execKwait a s
  | .kstat d a => Sys2Proof.Machine.execKstat d a s
  | .cpy ch d a => Sys2Proof.Machine.execCpy ch d a s
  | .cnest ch a => Sys2Proof.Machine.execCnest ch a s
  | .cdrain ch => Sys2Proof.Machine.execCdrain ch s
  | .shadow a => Sys2Proof.Machine.execShadow a s
  | .publish a => Sys2Proof.Machine.execPublish a s
  | .qpush q a => Sys2Proof.Machine.execQpush q a s
  | .qpop d q => Sys2Proof.Machine.execQpop d q s
  | .qbind q t => Sys2Proof.Machine.execQbind q t s
  | .dgload e a => Sys2Proof.Machine.execDgload e a s
  | .dgstart e a => Sys2Proof.Machine.execDgstart e a s
  | .dgstop e => Sys2Proof.Machine.execDgstop e s
  | .dgstat d e => Sys2Proof.Machine.execDgstat d e s
  | .tsync d a => Sys2Proof.Machine.execTsync d a s
  | .cask a => Sys2Proof.Machine.execCask a s
  | .pgpin a => Sys2Proof.Machine.execPgpin a s
  | .bella d a => Sys2Proof.Machine.execBella d a s
  | .bellf a => Sys2Proof.Machine.execBellf a s
  | .bellring a b d => Sys2Proof.Machine.execBellring a b d s
  | .bellq d a => Sys2Proof.Machine.execBellq d a s
  | .vfadd vd va vb rm tm c => Sys2Proof.Machine.execVfadd vd va vb rm tm c s
  | .vfsub vd va vb rm tm c => Sys2Proof.Machine.execVfsub vd va vb rm tm c s
  | .vfmul vd va vb rm tm c => Sys2Proof.Machine.execVfmul vd va vb rm tm c s
  | .vfdiv vd va vb rm tm c => Sys2Proof.Machine.execVfdiv vd va vb rm tm c s
  | .vfma vd va vb vc rm tm c => Sys2Proof.Machine.execVfma vd va vb vc rm tm c s
  | .vfms vd va vb vc rm tm c => Sys2Proof.Machine.execVfms vd va vb vc rm tm c s
  | .vfnma vd va vb vc rm tm c => Sys2Proof.Machine.execVfnma vd va vb vc rm tm c s
  | .vfsqrt vd va rm tm c => Sys2Proof.Machine.execVfsqrt vd va rm tm c s
  | .vfmin vd va vb tm c => Sys2Proof.Machine.execVfmin vd va vb tm c s
  | .vfmax vd va vb tm c => Sys2Proof.Machine.execVfmax vd va vb tm c s
  | .vfabs vd va tm c => Sys2Proof.Machine.execVfabs vd va tm c s
  | .vfneg vd va tm c => Sys2Proof.Machine.execVfneg vd va tm c s
  | .vfcps vd va vb tm c => Sys2Proof.Machine.execVfcps vd va vb tm c s
  | .vadd vd va vb tm c => Sys2Proof.Machine.execVadd vd va vb tm c s
  | .vsub vd va vb tm c => Sys2Proof.Machine.execVsub vd va vb tm c s
  | .vmul vd va vb tm c => Sys2Proof.Machine.execVmul vd va vb tm c s
  | .vmulh vd va vb tm c => Sys2Proof.Machine.execVmulh vd va vb tm c s
  | .vmulhu vd va vb tm c => Sys2Proof.Machine.execVmulhu vd va vb tm c s
  | .vand vd va vb tm c => Sys2Proof.Machine.execVand vd va vb tm c s
  | .vor vd va vb tm c => Sys2Proof.Machine.execVor vd va vb tm c s
  | .vxor vd va vb tm c => Sys2Proof.Machine.execVxor vd va vb tm c s
  | .vsll vd va vb tm c => Sys2Proof.Machine.execVsll vd va vb tm c s
  | .vsrl vd va vb tm c => Sys2Proof.Machine.execVsrl vd va vb tm c s
  | .vsra vd va vb tm c => Sys2Proof.Machine.execVsra vd va vb tm c s
  | .vmin vd va vb tm c => Sys2Proof.Machine.execVmin vd va vb tm c s
  | .vmax vd va vb tm c => Sys2Proof.Machine.execVmax vd va vb tm c s
  | .vminu vd va vb tm c => Sys2Proof.Machine.execVminu vd va vb tm c s
  | .vmaxu vd va vb tm c => Sys2Proof.Machine.execVmaxu vd va vb tm c s
  | .vsadd vd va vb tm c => Sys2Proof.Machine.execVsadd vd va vb tm c s
  | .vssub vd va vb tm c => Sys2Proof.Machine.execVssub vd va vb tm c s
  | .vfeq kd va vb c => Sys2Proof.Machine.execVfeq kd va vb c s
  | .vflt kd va vb c => Sys2Proof.Machine.execVflt kd va vb c s
  | .vfle kd va vb c => Sys2Proof.Machine.execVfle kd va vb c s
  | .vfne kd va vb c => Sys2Proof.Machine.execVfne kd va vb c s
  | .vieq kd va vb c => Sys2Proof.Machine.execVieq kd va vb c s
  | .vilt kd va vb c => Sys2Proof.Machine.execVilt kd va vb c s
  | .viltu kd va vb c => Sys2Proof.Machine.execViltu kd va vb c s
  | .vile kd va vb c => Sys2Proof.Machine.execVile kd va vb c s
  | .kand kd ka kb c => Sys2Proof.Machine.execKand kd ka kb c s
  | .kor kd ka kb c => Sys2Proof.Machine.execKor kd ka kb c s
  | .kxor kd ka kb c => Sys2Proof.Machine.execKxor kd ka kb c s
  | .kandn kd ka kb c => Sys2Proof.Machine.execKandn kd ka kb c s
  | .knot kd ka c => Sys2Proof.Machine.execKnot kd ka c s
  | .kpop sd ka c => Sys2Proof.Machine.execKpop sd ka c s
  | .kfirst sd ka c => Sys2Proof.Machine.execKfirst sd ka c s
  | .vexp vd va rm tm c => Sys2Proof.Machine.execVexp vd va rm tm c s
  | .vlog vd va rm tm c => Sys2Proof.Machine.execVlog vd va rm tm c s
  | .vtanh vd va rm tm c => Sys2Proof.Machine.execVtanh vd va rm tm c s
  | .vsigm vd va rm tm c => Sys2Proof.Machine.execVsigm vd va rm tm c s
  | .vrcp vd va rm tm c => Sys2Proof.Machine.execVrcp vd va rm tm c s
  | .vrsq vd va rm tm c => Sys2Proof.Machine.execVrsq vd va rm tm c s
  | .vrelu vd va rm tm c => Sys2Proof.Machine.execVrelu vd va rm tm c s
  | .vsilu vd va rm tm c => Sys2Proof.Machine.execVsilu vd va rm tm c s
  | .vcvt src sat vd va rm tm c => Sys2Proof.Machine.execVcvt src sat vd va rm tm c s
  | .vqblk fmt sat b32 vd va vb rm tm c => Sys2Proof.Machine.execVqblk fmt sat b32 vd va vb rm tm c s
  | .vdqblk fmt b32 vd va vb rm tm c => Sys2Proof.Machine.execVdqblk fmt b32 vd va vb rm tm c s
  | .vcvti src vd va rm tm c => Sys2Proof.Machine.execVcvti src vd va rm tm c s
  | .vmv vd va tm c => Sys2Proof.Machine.execVmv vd va tm c s
  | .vsplat vd ss tm c => Sys2Proof.Machine.execVsplat vd ss tm c s
  | .vext sd va si c => Sys2Proof.Machine.execVext sd va si c s
  | .vins vd ss si tm c => Sys2Proof.Machine.execVins vd ss si tm c s
  | .viota vd c => Sys2Proof.Machine.execViota vd c s
  | .vmerge vd va vb tm c => Sys2Proof.Machine.execVmerge vd va vb tm c s
  | .vpin vd c => Sys2Proof.Machine.execVpin vd c s
  | .vunpin vd c => Sys2Proof.Machine.execVunpin vd c s
  | .lwait vd c => Sys2Proof.Machine.execLwait vd c s
  | .vslup vd va ss imm sf tm c => Sys2Proof.Machine.execVslup vd va ss imm sf tm c s
  | .vsldn vd va ss imm sf tm c => Sys2Proof.Machine.execVsldn vd va ss imm sf tm c s
  | .vrgath vd va vb tm c => Sys2Proof.Machine.execVrgath vd va vb tm c s
  | .vcompr vd va tm c => Sys2Proof.Machine.execVcompr vd va tm c s
  | .vfredo vd va vb rm tm c => Sys2Proof.Machine.execVfredo vd va vb rm tm c s
  | .vfredu vd va vb rm tm c => Sys2Proof.Machine.execVfredu vd va vb rm tm c s
  | .vfrmax vd va vb rm tm c => Sys2Proof.Machine.execVfrmax vd va vb rm tm c s
  | .vfrmin vd va vb rm tm c => Sys2Proof.Machine.execVfrmin vd va vb rm tm c s
  | .vireds vd va vb rm tm c => Sys2Proof.Machine.execVireds vd va vb rm tm c s
  | .vscan vd va rm tm c => Sys2Proof.Machine.execVscan vd va rm tm c s
  | .vscanf vd va rm tm c => Sys2Proof.Machine.execVscanf vd va rm tm c s
  | .tseed dist vd c => Sys2Proof.Machine.execTseed dist vd c s
  | .tzero vd c => Sys2Proof.Machine.execTzero vd c s
  | .tget vd va c => Sys2Proof.Machine.execTget vd va c s
  | .tput vd va c => Sys2Proof.Machine.execTput vd va c s
  | .tregen dist vd c => Sys2Proof.Machine.execTregen dist vd c s
  | .tfga dist vd va rm c => Sys2Proof.Machine.execTfga dist vd va rm c s
  | .tscl vd ss rm c => Sys2Proof.Machine.execTscl vd ss rm c s
  | .mcfg w sr => Sys2Proof.Machine.execMcfg w sr s
  | .mtset w row va plane => Sys2Proof.Machine.execMtset w row va plane s
  | .mrow a row w va => Sys2Proof.Machine.execMrow a row w va s
  | .mrowd a row w va plane => Sys2Proof.Machine.execMrowd a row w va plane s
  | .mdrain dst a row rm => Sys2Proof.Machine.execMdrain dst a row rm s
  | .mdraint dst a row rm => Sys2Proof.Machine.execMdraint dst a row rm s
  | .maclr a => Sys2Proof.Machine.execMaclr a s
  | .mtscl w row va => Sys2Proof.Machine.execMtscl w row va s
  | .vld fmt plane o vd sb off c => Sys2Proof.Machine.execVld fmt plane o vd sb off c s
  | .vlds fmt plane o vd sb ss off c => Sys2Proof.Machine.execVlds fmt plane o vd sb ss off c s
  | .vldx fmt plane o vd sb off vi c => Sys2Proof.Machine.execVldx fmt plane o vd sb off vi c s
  | .vslr fmt plane o vd sb ss off c => Sys2Proof.Machine.execVslr fmt plane o vd sb ss off c s
  | .mtld fmt w sb ss off c => Sys2Proof.Machine.execMtld fmt w sb ss off c s
  | .vst fmt plane o sat vs sb off k => Sys2Proof.Machine.execVst fmt plane o sat vs sb off k s
  | .vsts fmt plane o sat vs sb ss off k => Sys2Proof.Machine.execVsts fmt plane o sat vs sb ss off k s
  | .vstx fmt plane o sat vs sb off vi k => Sys2Proof.Machine.execVstx fmt plane o sat vs sb off vi k s
  | .vstxa fmt plane sat vs sb off vi k => Sys2Proof.Machine.execVstxa fmt plane sat vs sb off vi k s
  | .vbind vd ss c => Sys2Proof.Machine.execVbind vd ss c s
  | .vunbind vd c => Sys2Proof.Machine.execVunbind vd c s
  | .vbskip vd ss c => Sys2Proof.Machine.execVbskip vd ss c s
  | .vqpush q va c => Sys2Proof.Machine.execVqpush q va c s
  | .vqpop vd q tm c => Sys2Proof.Machine.execVqpop vd q tm c s
  | .vcsend f va c => Sys2Proof.Machine.execVcsend f va c s
  | .vcrecv vd f tm c => Sys2Proof.Machine.execVcrecv vd f tm c s
  | .vcred vd va f rm tm c => Sys2Proof.Machine.execVcred vd va f rm tm c s
  | .vcpk vd va c => Sys2Proof.Machine.execVcpk vd va c s
  | .vcpkf vd c => Sys2Proof.Machine.execVcpkf vd c s
  | .send a b c d => Sys2Proof.Machine.execSend a b c d s
  | .recv a b d => Sys2Proof.Machine.execRecv a b d s
  | .reduce op fmt a b c d => Sys2Proof.Machine.execReduce op fmt a b c d s
  | .copy a b d => Sys2Proof.Machine.execCopy a b d s
  | .wait cond a b t => Sys2Proof.Machine.execWait cond a b t s
  | .ring a b c => Sys2Proof.Machine.execRing a b c s
  | .alloc a b => Sys2Proof.Machine.execAlloc a b s
  | .free a => Sys2Proof.Machine.execFree a s
  | .flag a b => Sys2Proof.Machine.execFlag a b s
  | .setc a imm => Sys2Proof.Machine.execSetc a imm s
  | .addc a b c imm => Sys2Proof.Machine.execAddc a b c imm s
  | .dungenLoop a target => Sys2Proof.Machine.execDungenLoop a target s
  | .br cond a b target => Sys2Proof.Machine.execBr cond a b target s
  | .fenceSv => Sys2Proof.Machine.execFenceSv s
  | .fenceVs => Sys2Proof.Machine.execFenceVs s
  | .ecall => Sys2Proof.Machine.execEcall s
  | .ebreak => Sys2Proof.Machine.execEbreak s
  | .tret => Sys2Proof.Machine.execTret s
  | .exit => Sys2Proof.Machine.execExit s
  | .yield => Sys2Proof.Machine.execYield s
  | .nop => Sys2Proof.Machine.execNop s
  | .step => Sys2Proof.Machine.execStep s
  | .dungenFence => Sys2Proof.Machine.execDungenFence s
  | .halt => Sys2Proof.Machine.execHalt s
  | .waitvTimeout h => Sys2Proof.Machine.execWaitvTimeout h s
  | .lscaleWrite v => Sys2Proof.Machine.execLscaleWrite v s
  | .lpartWrite core v => Sys2Proof.Machine.execLpartWrite core v s
  | .ptbaseWrite v => Sys2Proof.Machine.execPtbaseWrite v s
  | .registerWrite who r v => Sys2Proof.Machine.execRegisterWrite who r v s
  | .publishMove part handle => Sys2Proof.Machine.execPublishMove part handle s
  | .dungenWaitTimeout e => Sys2Proof.Machine.execDungenWaitTimeout e s
  | .performAccess h stream => Sys2Proof.Machine.execPerformAccess h stream s
  | .ticket h stream => Sys2Proof.Machine.execTicket h stream s
  | .deliver wid cluster => Sys2Proof.Machine.execDeliver wid cluster s
  | .copyComplete h id => Sys2Proof.Machine.execCopyComplete h id s
  | .inject src => Sys2Proof.Machine.execInject src s
  | .arrive p lost => Sys2Proof.Machine.execArrive p lost s
  | .land j => Sys2Proof.Machine.execLand j s
  | .count j => Sys2Proof.Machine.execCount j s
  | .ringArrival p => Sys2Proof.Machine.execRingArrival p s
  | .release handle => Sys2Proof.Machine.execRelease handle s
  | .ringRepeat dest slot phase => Sys2Proof.Machine.execRingRepeat dest slot phase s
  | .holdEnd dest slot => Sys2Proof.Machine.execHoldEnd dest slot s
  | .shortTimer handle => Sys2Proof.Machine.execShortTimer handle s
  | .shortfallNotice p => Sys2Proof.Machine.execShortfallNotice p s
  | .failNotice p => Sys2Proof.Machine.execFailNotice p s
  | .earlyArrivalDrop die j => Sys2Proof.Machine.execEarlyArrivalDrop die j s
  | .dropRecordExpiry die j => Sys2Proof.Machine.execDropRecordExpiry die j s
  | .remoteRead p => Sys2Proof.Machine.execRemoteRead p s
  | .readResponse p => Sys2Proof.Machine.execReadResponse p s
  | .remoteReadResend j => Sys2Proof.Machine.execRemoteReadResend j s
  | .contribution p => Sys2Proof.Machine.execContribution p s
  | .combine part group tag chunk => Sys2Proof.Machine.execCombine part group tag chunk s
  | .bucketRelease part group tag => Sys2Proof.Machine.execBucketRelease part group tag s
  | .tLate part group tag chunk rank => Sys2Proof.Machine.execTLate part group tag chunk rank s
  | .stripChunk p => Sys2Proof.Machine.execStripChunk p s
  | .stripDelivery h f => Sys2Proof.Machine.execStripDelivery h f s
  | .stripShortfall h f => Sys2Proof.Machine.execStripShortfall h f s
  | .dispatch core hart => Sys2Proof.Machine.execDispatch core hart s
  | .preemption die => Sys2Proof.Machine.execPreemption die s
  | .trafficWindow die => Sys2Proof.Machine.execTrafficWindow die s
  | .transferResident die id => Sys2Proof.Machine.execTransferResident die id s
  | .kernelComplete token => Sys2Proof.Machine.execKernelComplete token s
  | .progressFault token => Sys2Proof.Machine.execProgressFault token s
  | .lpartChange core => Sys2Proof.Machine.execLpartChange core s
  | .eventTaken h => Sys2Proof.Machine.execEventTaken h s
  | .interrupt part src => Sys2Proof.Machine.execInterrupt part src s
  | .intsrc part v => Sys2Proof.Machine.execIntsrc part v s
  | .contextWrite who h off v => Sys2Proof.Machine.execContextWrite who h off v s
  | .cut part => Sys2Proof.Machine.execCut part s
  | .caskDrain part die => Sys2Proof.Machine.execCaskDrain part die s
  | .caskComplete part => Sys2Proof.Machine.execCaskComplete part s
  | .caskd part v => Sys2Proof.Machine.execCaskd part v s
  | .pageMigration die page => Sys2Proof.Machine.execPageMigration die page s
  | .tierctl die v => Sys2Proof.Machine.execTierctl die v s
  | .watchdogExpiry => Sys2Proof.Machine.execWatchdogExpiry s
  | .wdkick v => Sys2Proof.Machine.execWdkick v s
  | .reset => Sys2Proof.Machine.execReset s
  | .maskRomBoot img => Sys2Proof.Machine.execMaskRomBoot img s
  | .measExtend n digest => Sys2Proof.Machine.execMeasExtend n digest s
  | .attreq nonce => Sys2Proof.Machine.execAttreq nonce s
  | .attrep => Sys2Proof.Machine.execAttrep s
  | .allow part v => Sys2Proof.Machine.execAllow part v s
  | .illegalInstruction bits => Sys2Proof.Machine.execIllegalInstruction bits s
  | .fetchFault tpc tval => Sys2Proof.Machine.execFetchFault tpc tval s
  | .reservedOpcode e => Sys2Proof.Machine.execReservedOpcode e s
  | .softError pa double => Sys2Proof.Machine.execSoftError pa double s
  | .egressWindow part => Sys2Proof.Machine.execEgressWindow part s
  | .stripNotice p => Sys2Proof.Machine.execStripNotice p s
  | .stripHoldEnd h f seqn => Sys2Proof.Machine.execStripHoldEnd h f seqn s
  | .powerGating g on => Sys2Proof.Machine.execPowerGating g on s
  | .wakeUp g => Sys2Proof.Machine.execWakeUp g s

end Sys2Proof.Machine
end

