-- ==== Sys2Proof/Machine/Turn.lean ====
section
/-! DEFINITION. Sys2Proof/Machine/Turn.lean: how the next move of the machine is found (05 R127, R132): from the agenda, which is chosen outside, or by the order a machine without an agenda takes (log 4). -/

namespace Sys2Proof.Machine

/-- Cycles pass: TIMEBASE counts nanoseconds of the reference clock, four cycles at the full clock (15 R347). Each step has free
choices of its own. -/
def State.tick (s : State) (dt : Nat) : State :=
  { s with fresh := s.fresh + 1, now := s.now + dt, timebase := s.timebase + BitVec.ofNat 64 ((s.ref + dt) / 4 - s.ref / 4) }

/-- The reference clock gains n quarters of a nanosecond on an arithmetic clock that the power limit slows (15 R347, 17 R385). -/
def State.slow (s : State) (n : Nat) : State :=
  { s with lag := s.lag + n, timebase := s.timebase + BitVec.ofNat 64 ((s.ref + n) / 4 - s.ref / 4) }

/-- The translations of an instruction's parcels may stay in the TLB (17 R379), and its pages are used (17 R380). -/
def State.fetched (s : State) (n : Nat) : State :=
  let s1 := s.touchTlb s.hid s.h.sup .fetch s.h.pc n
  match s.accessBytes s.hid s.h.sup .fetch s.h.pc n with
  | .ok l => s1.touchPages ((allLocal l).getD []) false
  | .error _ => s1

/-- Sequential flow stands at the end of a loop body whose counter register an earlier instruction has still to bring: its pass is
counted once that has come (04 R121, 05 R129). -/
def State.flowOn (s : State) : State :=
  match s.h.levels.reverse.find? fun l => l.passed s.h.pc s.h.pc && l.isLoopn && s.h.sPending l.reg with
  | some l => s.stall [l.reg]
  | none => s.onH fun h => { h with waiting := false, blocked := none }.flowTo h.pc [] h.loops.reverse

/-- The selected hart fetches, decodes and executes at its pc (03 R70, R72, R87, R88); a waking bank delays its fetch (01 R54). -/
def State.execAt (s : State) : Out :=
  if s.fetchDelayed s.h.pc then .next s.pause
  else
  match s.fetchFault s.h.pc, s.fetchBytes s.h.pc with
  | some (conv, t), _ => .next (s.trapWith conv none t)
  | none, .error t => .next (s.trap t)
  | none, .ok bs =>
    match decodeBytes bs with
    | .ok (i, _) => exec i (s.fetched bs.length)
    | .error _ => .next (s.trapWith (leValue bs % 128 == 0x19) none ⟨1, BitVec.ofNat 64 (leValue bs), 0⟩)

/-- The selected hart issues: the next members of a convoy it is inside, the count of a loop's pass, or the instruction at its pc. -/
def State.issue (s : State) : Out :=
  match s.h.inConvoy with
  | some c => .next (s.goOn c)
  | none => if s.h.flowDue then .next s.flowOn else s.execAt

/-- May the selected hart issue: it runs, and is not stopped to be saved, unless it is inside a convoy or a publish it has made
(13 R311, 05 R150), or in its trap handler (18 R414). -/
def State.issues (s : State) : Bool :=
  s.h.run == .running && (s.h.leaving.isNone || s.h.sup || s.h.inConvoy.isSome || s.h.publishing.any (·.2))

/-- A hart that waits for an event which has come no longer counts as blocked: would it still wait at its instruction (13 R313, R315). -/
def State.blockedYet (s : State) (n : Nat) : State :=
  if (s.hart n).blocked.isNone then s
  else
    match (s.select n).issue with
    | .next t => if t.h.blocked.isSome then s else s.setHart n { s.hart n with blocked := none }
    | _ => s

/-- The controllers sample every kernel (13 R315). -/
def State.sample (s : State) : State :=
  let s1 := (s.kernels.flatMap fun k => s.kernelHarts k.token).foldl State.blockedYet s
  s1.kernels.foldl (fun (t : State) k => t.progress k) s1

/-- The samples of n multiples of 1,024 cycles from the m-th on. -/
def State.samples (s : State) (m : Nat) : Nat → State
  | 0 => s
  | n + 1 => (State.sample { s with now := 1024 * m }).samples (m + 1) n

/-- The buckets of a group whose registration is withdrawn end (14 R339, 18 R408). -/
def State.endBuckets (s : State) : State :=
  if s.buckets.isEmpty then s else { s with buckets := s.buckets.filter fun b => (s.group? b.part b.group).isSome }

/-- Cycles pass; at every multiple of 1,024 that the counter passes the sample of that cycle is made (13 R315). -/
def State.advance (s : State) (dt : Nat) : State :=
  let s1 := s.endBuckets.noteWaits.tick dt
  if s.kernels.isEmpty then s1
  else { s1.samples (s.now / 1024 + 1) (s1.now / 1024 - s.now / 1024) with now := s1.now }

/-- An engine executes its next instruction; an index past its schedule, or a word that is none, is its fault (15 R366). -/
def State.engineTurn (s : State) (e : Nat) : Out :=
  let g := s.engine e
  if 16 ≤ e ∨ !g.busy then .next s
  else
    match g.fetch with
    | none => .next (s.engineFault e 2 g.pc)
    | some w =>
      match decodeDungen w.toNat with
      | none => .next (s.engineFault e 1 g.pc)
      | some i => exec i { s with eng := e }

/-- The next state without the element at which an issue was to stop. -/
def unbound : Out → Out
  | .next s => .next { s with bound := none }
  | x => x

/-- The harts whose blocked time a row of a move looks at, as they stand now (13 R313, R315). -/
def State.lookedAt (s : State) (i : Instr) : State :=
  match i with
  | .progressFault token => (s.kernelHarts token).foldl State.blockedYet s
  | _ => s

/-- A move is made: the row of a move, not an instruction, may stand in the agenda. A hart takes a waiting event before it issues (18 R399).
An issue cannot stop at an element that its instruction has behind it (01 R14). -/
def State.move (s : State) (m : Move) : Out :=
  match m with
  | .issue => if s.eventReady then .next s.takeEvent else if s.issues then s.issue else .next s
  | .part hi => if s.eventReady then .next s.takeEvent else if s.issues && (decide (s.h.eidx < hi)) then unbound (State.issue { s with bound := some hi }) else .next s
  | .run i => if i.form = .move then exec i (s.lookedAt i) else .next s
  | .select n => if n < 2048 then .next (s.select n) else .fault .noSuchHart
  | .evict core i =>
    let c := SMap.get {} s.cores core
    .next { s with cores := SMap.put {} s.cores core { c with tlb := c.tlb.eraseIdx i } }
  | .engine e => s.engineTurn e
  | .save n => .next (if n < 2048 then s.saveMove n else s)
  | .slow n => .next (s.slow n)
  | .firmwareRead pa n => .next (s.firmwareRead pa n)
  | .firmwareWrite pa d => .next (s.firmwareWrite pa d)

/-- The oldest access of the selected hart that may perform. -/
def State.nextAccess (s : State) : Option Access := s.h.sq.find? fun a => s.mayPerform s.hid a.strm == some a

/-- The oldest SC access of the selected hart that may draw a ticket (05 R140). -/
def State.nextTicket (s : State) : Option Access :=
  s.h.sq.find? fun a => a.sc && a.ticket.isNone && s.h.head a.strm == some a && s.guardsMet s.hid (s.refreshed s.hid a)

/-- The oldest delivery that may be made, as write and cluster (05 R133). -/
def State.nextDelivery (s : State) : Option (Nat × Nat) :=
  s.log.findSome? fun w => ((List.range 64).find? fun g => s.mayDeliver w.id g).map (w.id, ·)

/-- The oldest binding of the selected hart with a read that may be made early (05 R137). -/
def State.nextBind (s : State) : Option Binding :=
  s.h.binds.find? fun b => b.open_ && s.prefetchOpen b && (s.needsRemote b b.preNext).isNone

/-- The next move without an agenda (log 4): the selected hart takes an event, performs or draws for its oldest access, waits for
a delivery or a binding's read, goes on with its save, and otherwise issues. -/
def State.turn (s : State) : Out :=
  if s.h.run ≠ .running then .next s
  else if s.eventReady then .next s.takeEvent
  else
    match s.nextAccess with
    | some a => .next ((s.performHead s.hid a.strm a).lateWork s.hid)
    | none =>
      match s.nextTicket with
      | some a => execTicket s.hid a.strm s
      | none =>
        match (if s.h.waiting then s.nextDelivery else none), (if s.h.waiting then s.nextBind else none) with
        | some (id, g), _ => .next (s.deliverTo id g)
        | none, some b => .next (s.prefetch b)
        | none, none => if s.issues then s.issue else .next (s.saveMove s.hid)

/-- Where a hart's instruction is placed to run next (log 5): the page that holds it, reached by an identity leaf of 1 GiB that
either mode may read, write and execute. -/
def placePc : Nat := 0x1000

/-- The selected hart runs at placePc and issues next, with the bytes there and the page table that leads to them: entry 0 of the table
at 0x100000 points to the one at 0x200000, whose entry 0 is the leaf. -/
def State.placeHart (s : State) (bs : List Byte) : State :=
  let root : List Byte := leBytes 8 (0x200000 + 1)
  let leaf : List Byte := leBytes 8 0x7F
  { (s.setPart s.myPart { s.part s.myPart with ptbase := 0x100000 }) with
    h := { s.h with pc := BitVec.ofNat 64 placePc, run := .running }
    mem := memPutList (memPutList (memPutList s.mem 0x100000 root) 0x200000 leaf) placePc bs
    agenda := [(0, .issue)] }

/-- Engine 0 runs a schedule of one word, and its turn is next. -/
def State.placeEngine (s : State) (w : Nat) : State :=
  { (s.setEngine 0 { s.engine 0 with state := .running, pc := 0, sched := [(0, some (BitVec.ofNat 32 w))] }) with
    agenda := [(0, .engine 0)] }

end Sys2Proof.Machine
end

