-- ==== Sys2Proof/Machine/Step.lean ====
section
/-! DEFINITION. Sys2Proof/Machine/Step.lean: one step of the machine: the move at the head of the agenda, or without one the move of Turn.lean. -/

namespace Sys2Proof.Machine

/-- One step. A move of the agenda takes the cycles given with it, any other move one cycle. -/
def step (s : State) : Host.Outcome State Fault Refusal :=
  match s.agenda with
  | (dt, m) :: l => ({ s with agenda := l }.advance dt).move m
  | [] => (s.advance 1).turn

/-- The state with an instruction placed where step runs it next: a hart's at the selected hart's pc, a Dungen word in the
schedule of engine 0 (log 5). -/
def State.withFetchWord (s : State) (nbits w : Nat) : State :=
  let x := w % 2 ^ nbits
  match decodeBytes (leBytes 8 x) with
  | .ok _ => s.placeHart (leBytes 8 x)
  | .error _ => if (decodeDungen (x % 2 ^ 32)).isSome then s.placeEngine (x % 2 ^ 32) else s.placeHart (leBytes 8 x)

end Sys2Proof.Machine
end

