-- ==== Sys2Proof/Safety.lean ====
section
/-! DEFINITION. Sys2Proof/Safety.lean: what a safe run is, in the terms the claims use, and what claims say of a next state: completion, and what it leaves unchanged. -/

namespace Sys2Proof.Machine

/-- Does a move name only a hart the device has (01 R16). -/
def Move.exists_ : Move → Prop
  | .select n => n < 2048
  | _ => True

/-- Every move of the agenda names only harts the device has. -/
def State.agendaOk (s : State) : Prop := ∀ x ∈ s.agenda, x.2.exists_

/-- The machine's memory is in canonical form: base memory, and the belfry's SRAM. -/
def State.memOk (s : State) : Prop := Memory.wf s.mem ∧ Memory.wf s.bsram

/-- A run of k steps is safe when it meets no fault and no refusal. -/
def State.safeFor (s : State) (k : Nat) : Prop := ∃ t, Host.Core.run Sys2Proof.core k s = .next t

/-- The instruction answers a next state, and that state meets p. -/
def Completes (i : Instr) (s : State) (p : State → Prop) : Prop := ∃ t, exec i s = .next t ∧ p t

/-- The outcome of an instruction whose whole effect is v in scalar register d, retired in sequence (04 R101). -/
def State.wrote (s : State) (d : SReg) (v : Word) : Out := .next ((s.ws d v).retire 4)

/-- Is a register the counter of an active LOOPN level, which a pass writes (04 R121). -/
def Hart.counts (h : Hart) (r : SReg) : Bool := h.levels.any fun l => l.isLoopn && l.reg == r

/-- The instruction retires: it answers a next state in which it counts in program order, no trap is taken, nothing waits and the
hart runs on as it did (05 R136, 18 R396). -/
def Retires (i : Instr) (s : State) : Prop :=
  Completes i s fun t => t.h.nextSeq = s.h.nextSeq + 1 ∧ t.h.th = s.h.th ∧ t.h.run = s.h.run ∧ t.h.waiting = false ∧ t.h.blocked = none

/-- t is s but for the fields of the selected hart that f takes from t. -/
def State.sameBut (f : Hart → Hart → Hart) (s t : State) : Prop := t = { s with h := f s.h t.h }

/-- Position, loop stack and waiting marks of a hart, and its scalar registers, taken from g: what the retirement of any
instruction may change. -/
def Hart.flowOf (h g : Hart) : Hart :=
  { h with
    s := g.s, pc := g.pc, loops := g.loops, nextSeq := g.nextSeq, eidx := g.eidx, blocked := g.blocked, waiting := g.waiting
    waitAt := g.waitAt, got := g.got, gotBad := g.gotBad, reuse := g.reuse, lent := g.lent, gen := g.gen
    publishing := g.publishing }

/-- Scalar registers other than some named ones and the counters of active LOOPN levels are unchanged. -/
def State.sameScalars (s t : State) (but : List SReg) : Prop := ∀ r, r ∉ but → s.h.counts r = false → t.rs r = s.rs r

/-- Nothing but the flow of the selected hart and the named scalar registers changes. -/
def State.onlyFlow (s t : State) (but : List SReg) : Prop := s.sameBut Hart.flowOf t ∧ s.sameScalars t but

/-- Every byte of memory reads as before: the last write in coherence order, and every cluster's view. -/
def State.sameMemory (s t : State) : Prop := (∀ a, t.lastByte a = s.lastByte a) ∧ ∀ g a, t.viewByte g a = s.viewByte g a

/-- The hart after an instruction that rounds by r drew its sequence number, if r takes one, and raised flags of the value
plane (04 R109, R110, 08 R223). -/
def State.drawn (s : State) (r : Option Rm) (fl : Nat) : State :=
  { s with h := Hart.raise (match r with | some r => (s.h.drawFor r).2 | none => s.h) 0 fl }

/-- The sequence number it drew. -/
def State.drewSeq (s : State) (r : Option Rm) : Option Word :=
  match r with
  | some r => (s.h.drawFor r).1
  | none => none

/-- What a scalar floating-point instruction with result bits x and flags fl does (04 R110): with none of the flags enabled
in FCTL[9:5], the flags are ORed into FFLAGS, x is in sd and the instruction retires; otherwise the flags are set and cause
10 is raised with sd unchanged. -/
def FloatResult (i : Instr) (s : State) (d : SReg) (r : Option Rm) (x fl : Nat) : Prop :=
  (bitsOf s.h.fctl.toNat 5 5 &&& fl = 0 → exec i s = .next (((s.drawn r fl).ws d (.ofNat 64 x)).retire 4)) ∧
  (bitsOf s.h.fctl.toNat 5 5 &&& fl ≠ 0 →
    exec i s = .next ((s.drawn r fl).trapWith false (s.drewSeq r) ⟨10, .ofNat 64 (fl % 32), 0⟩))

/-- The value of a finite exact value. -/
def Ex.toRat : Ex → Rat
  | .fin neg n d => mkRat (if neg then -(n : Int) else n) d
  | _ => 0

/-- A finite value whose denominator is not 0. -/
def Ex.finite : Ex → Prop
  | .fin _ _ d => d ≠ 0
  | _ => False

/-- The state after accesses entered the selected hart's queues, and the fences of the instruction: what a scalar access
changes before it performs, beside the flow and cached translations. -/
def Hart.issueOf (h g : Hart) : Hart := { h.flowOf g with sq := g.sq, fences := g.fences }

/-- Nothing but the flow, the queues and fences of the selected hart, and cached translations, changes; scalar registers
but the named ones keep their values. -/
def State.onlyIssue (s t : State) (but : List SReg) : Prop :=
  t = { s with h := s.h.issueOf t.h, cores := t.cores } ∧ s.sameScalars t but

/-- Registers, offset, bytes and sign extension of a scalar load (06 R157). -/
def loadForm : Instr → Option (SReg × SReg × BitVec 12 × Nat × Bool)
  | .lb d a o => some (d, a, o, 1, true)
  | .lh d a o => some (d, a, o, 2, true)
  | .lw d a o => some (d, a, o, 4, true)
  | .ld d a o => some (d, a, o, 8, true)
  | .lbn d a o => some (d, a, o, 1, false)
  | .lhn d a o => some (d, a, o, 2, false)
  | .lwn d a o => some (d, a, o, 4, false)
  | _ => none

/-- Source, base, offset and bytes of a scalar store (06 R157). -/
def storeForm : Instr → Option (SReg × SReg × BitVec 12 × Nat)
  | .sb b a o => some (b, a, o, 1)
  | .sh b a o => some (b, a, o, 2)
  | .sw b a o => some (b, a, o, 4)
  | .sd b a o => some (b, a, o, 8)
  | _ => none

/-- Operation, scope, order and registers of a read-modify-write of the AMO major (06 R161, R162). -/
def amoForm : Instr → Option (AmoOp × Scope × Order × SReg × SReg × SReg)
  | .amoswp sc o d a b => some (.swp, sc, o, d, a, b)
  | .amoadd sc o d a b => some (.add, sc, o, d, a, b)
  | .amoand sc o d a b => some (.and, sc, o, d, a, b)
  | .amoor sc o d a b => some (.or, sc, o, d, a, b)
  | .amoxor sc o d a b => some (.xor, sc, o, d, a, b)
  | .amomin sc o d a b => some (.min, sc, o, d, a, b)
  | .amomax sc o d a b => some (.max, sc, o, d, a, b)
  | .amominu sc o d a b => some (.minu, sc, o, d, a, b)
  | .amomaxu sc o d a b => some (.maxu, sc, o, d, a, b)
  | .amocas sc o d a b => some (.cas, sc, o, d, a, b)
  | .amofadd sc o d a b => some (.fadd, sc, o, d, a, b)
  | _ => none

/-- No poisoned word lies among some physical addresses (18 R406). -/
def State.clean (s : State) (pas : List Nat) : Prop := ∀ pa ∈ pas, pa / 8 ∉ s.poison

/-- The bits of a control and status register that hold what is written (03 R78, 18 R395, 08 R215 to R221): none for a
register that no CSR instruction writes. -/
def csrKeeps : Csr → Option Nat
  | .fctl => some 0x7FEF
  | .fflags => some 0x7F1F
  | .srseed | .srseq | .tseedv | .tbase | .tpc | .tval | .rwin | .capbase => some 0xFFFFFFFFFFFFFFFF
  | .cdens => some 0x7F
  | .cgroup | .ctag | .teidx => some 0xFFFF
  | .cops => some 0xFF
  | .cstride | .tshort => some 0xFFFFFF
  | .tcause => some 0x800000000000003F
  | .tvec => some 0xFFFFFFFFFFFFFFFC
  | .twin => some 0xFFFFFFFF
  | .ptbase => some 0xFFFFFF00000
  | _ => none

/-- Position, mode, saved registers and waiting marks of a hart taken from g, with the queues of convoy pops: what trap entry
may change. -/
def Hart.trapOf (h g : Hart) : Hart :=
  { h with
    pc := g.pc, eidx := g.eidx, sup := g.sup, cause := g.cause, casync := g.casync, tpc := g.tpc, teidx := g.teidx
    tval := g.tval, pp := g.pp, ie := g.ie, pie := g.pie, th := g.th, conv := g.conv, loops := g.loops
    loopsSaved := g.loopsSaved, srseqSaved := g.srseqSaved, seqSaved := g.seqSaved, reuse := g.reuse, stop := g.stop
    blocked := g.blocked, waiting := g.waiting, waitAt := g.waitAt, got := g.got, gotBad := g.gotBad, q := g.q, sq := g.sq
    genSaved := g.genSaved, gen := g.gen, lent := g.lent, puts := g.puts, inConvoy := g.inConvoy, publishing := g.publishing
    nextSeq := g.nextSeq, chainSaved := g.chainSaved, began := g.began }


/-- The strip of the instruction is at hand: a source is not bound, or its binding gives what the instruction reads and every
read behind the elements below VL has been made (06 R179, R180). sc is the block length of a scale operand. -/
def State.stripHeld (s : State) (sc : Option Nat) (v : VReg) : Prop :=
  ∀ b, s.h.bound v = some b → b.accepts s.h.fmt sc = true ∧ s.h.binds.find? (·.slot == b.slot) = some b ∧
    ∀ e, e < s.h.vl → ∀ x ∈ b.stripReads sc.isSome e, (b.held x.1 x.2).isSome = true

/-- A vector instruction with these sources and destinations passes its checks and is held by nothing (09 R231 to R237): the
configuration is legal, no access or fence of the hart is outstanding, nothing is poisoned, the registers exist and are neither leased
nor pinned, no destination is bound, every strip is at hand, and no move stops it at an element. -/
def State.vReady (s : State) (srcs dsts : List VReg) : Prop :=
  s.h.vill = false ∧ fmtHasContainer s.h.fmt = true ∧ s.h.vl ≤ 65536 ∧ s.h.sq = [] ∧ s.h.fences = [] ∧ s.h.poison = [] ∧
  s.bound = none ∧ s.h.puts = [] ∧
  (∀ v ∈ srcs ++ dsts, v.val < s.h.nreg ∧ s.h.leased v = false ∧ s.h.pinned v = false) ∧ (∀ v ∈ dsts, s.h.bound v = none) ∧
  ∀ v ∈ srcs, s.stripHeld none v

/-- It can run to its end: it is ready, and no flag traps (08 R217). -/
def State.vRuns (s : State) (srcs dsts : List VReg) : Prop := s.vReady srcs dsts ∧ bitsOf s.h.fctl.toNat 5 10 = 0

/-- What a vector instruction may change of its hart, taken from g: the flow, vector registers, flags, SRSEQ and bindings. -/
def Hart.vecOf (h g : Hart) : Hart := { h.flowOf g with v := g.v, fflags := g.fflags, srseq := g.srseq, binds := g.binds }

/-- The same for one that writes a mask register. -/
def Hart.maskOf (h g : Hart) : Hart := { h.flowOf g with k := g.k, fflags := g.fflags, srseq := g.srseq, binds := g.binds }

/-- Nothing but the flow, vector registers, flags and SRSEQ of the selected hart changes, with the bindings of sources that are
bound; scalar registers but the named ones keep their values. -/
def State.onlyVec (s t : State) (srcs : List VReg) (but : List SReg) : Prop :=
  s.sameBut Hart.vecOf t ∧ s.sameScalars t but ∧ ((∀ v ∈ srcs, s.h.bound v = none) → t.h.binds = s.h.binds)

/-- The flags that element e raises by plane (08 R215, R220): those of decoding its strips are added to the value plane's, and TKINK is
raised under propagate alone. -/
def State.raisedAt (s : State) (tm : Tm) (srcs : List VReg) (fls : Nat → List Nat) (e : Nat) : List (Nat × Nat) :=
  (fls e).zipIdx.map fun x => ((if x.2 = 0 then x.1 ||| s.h.stripFlags srcs e else x.1) % if tm = .prop then 128 else 64, x.2)

/-- The flags after a vector instruction has processed the elements from lo to hi (08 R215, R217): a flag is set if it was, or if some
active element of them raised it in some plane. -/
def State.flagsTo (s t : State) (lo hi : Nat) (k : KReg) (tm : Tm) (srcs : List VReg) (fls : Nat → List Nat) : Prop :=
  ∀ bit, bit < 64 → t.h.fflags.getLsbD bit = (s.h.fflags.getLsbD bit ||
    (List.range hi).any fun e => decide (lo ≤ e) && s.h.kBit k e && (s.raisedAt tm srcs fls e).any fun x => (flagBits x.2 x.1).testBit bit)

def State.flagsAfter (s t : State) (lo : Nat) (k : KReg) (tm : Tm) (srcs : List VReg) (fls : Nat → List Nat) : Prop :=
  s.flagsTo t lo s.h.vl k tm srcs fls

/-- A plane of an element as tm directs (01 R46, 09 R235): the computed one, zero, or as it was. -/
def tmPlane (tm : Tm) (p : Nat) (vals : List Nat) (old : Nat) : Nat :=
  if p = 0 then (vals[0]?).getD 0
  else match tm with
    | .prop => (vals[p]?).getD 0
    | .tstop => 0
    | .vonly => old

/-- t has in vd what an element-by-element instruction puts into elements lo to hi (01 R20, 09 R231, R237): those that are active take
their planes, cut to the container; inactive ones become zero under kz and are unchanged otherwise; every other element and every other
register is unchanged. -/
def State.elementsTo (s t : State) (vd : VReg) (lo hi : Nat) (c : Ctl) (tm : Tm) (vals : Nat → List Nat) : Prop :=
  ∀ v p e, p ≤ s.h.tangents → e < 65536 → t.h.getV v p e =
    if v = vd ∧ lo ≤ e ∧ e < hi then
      (if s.h.kBit c.k e then
        (if p ≠ 0 ∧ tm = .vonly then s.h.getV v p e else tmPlane tm p (vals e) 0 % 2 ^ keepBits s.h.fmt)
      else if c.kz then 0 else s.h.getV v p e)
    else s.h.getV v p e

/-- The same for an instruction that processes all elements from lo to VL. -/
def State.elementsAre (s t : State) (vd : VReg) (lo : Nat) (c : Ctl) (tm : Tm) (vals : Nat → List Nat) : Prop :=
  s.elementsTo t vd lo s.h.vl c tm vals

/-- Has a plane of an element raised a flag that FCTL enables (08 R216, R217). -/
def Hart.stops (h : Hart) (x : Nat × Nat) : Bool := (x.1 % 32 &&& bitsOf h.fctl.toNat (if x.2 = 0 then 5 else 10) 5) != 0

/-- A vector instruction takes the value or tangent trap of 08 R217 at its first active element e of which a plane raises an enabled
flag: every element below e is written, none of e is, and the flags of both are set; the trap is that of the lowest such plane. -/
def ValueTrap (i : Instr) (s : State) (srcs : List VReg) (vd : VReg) (c : Ctl) (tm : Tm) (f : Nat → List Nat × List Nat) : Prop :=
  let raised := s.raisedAt tm srcs fun e => (f e).2
  ∀ e fl p, s.h.th = false → s.h.eidx ≤ e → e < s.h.vl → s.h.kBit c.k e = true →
    (∀ d, s.h.eidx ≤ d → d < e → s.h.kBit c.k d = true → (raised d).any s.h.stops = false) →
    (raised e).find? s.h.stops = some (fl, p) →
    Completes i s fun t => t.h.th = true ∧ t.h.sup = true ∧ t.h.cause = (if p = 0 then 10 else 11) ∧
      t.h.tval = .ofNat 64 (fl % 32 + 256 * p + 65536 * e) ∧ t.h.teidx = .ofNat 64 e ∧ t.h.tpc = s.h.pc ∧
      t.h.pc = (s.part s.myPart).tvec ∧ s.elementsTo t vd s.h.eidx e c tm (fun d => (f d).1) ∧
      s.flagsTo t s.h.eidx (e + 1) c.k tm srcs (fun d => (f d).2) ∧ t.h.binds = s.h.binds ∧ s.sameMemory t

/-- A vector instruction answers the state its elements give: values and flags by plane of each element. -/
def Elementwise (i : Instr) (s : State) (srcs : List VReg) (vd : VReg) (c : Ctl) (tm : Tm) (f : Nat → List Nat × List Nat) : Prop :=
  Completes i s fun t => s.elementsAre t vd s.h.eidx c tm (fun e => (f e).1) ∧
    s.flagsAfter t s.h.eidx c.k tm srcs (fun e => (f e).2) ∧ s.onlyVec t srcs [] ∧ s.sameMemory t

/-- The same for a mask register (09 R243): processed active elements take their bit. -/
def Maskwise (i : Instr) (s : State) (srcs : List VReg) (kd : KReg) (c : Ctl) (f : Nat → Bool × Nat) : Prop :=
  Completes i s fun t =>
    (∀ k e, e < 65536 → t.h.kBit k e = if k = kd ∧ s.h.eidx ≤ e ∧ e < s.h.vl then
      (if s.h.kBit c.k e then (f e).1 else if c.kz then false else s.h.kBit k e) else s.h.kBit k e) ∧
    s.flagsAfter t s.h.eidx c.k .prop srcs (fun e => [(f e).2]) ∧
    s.sameBut Hart.maskOf t ∧ s.sameScalars t [] ∧ s.sameMemory t

/-- An exact value rounded to the element format for plane p of element e by mode r (08 R211, R222): bits and flags. -/
def State.roundAt (s : State) (r : Rm) (p e : Nat) (x : Ex × Nat) : Nat × Nat :=
  let y := roundTo s.h.fmt false r (s.h.uBits (s.h.drawFor r).1 p e) x.1
  (y.1, x.2 ||| y.2)

/-- The planes an instruction computes: all of them under propagate, else the value; of an integer the value alone (01 R46, R47). -/
def State.planesOf (s : State) (tm : Tm) : List Nat :=
  if tm = .prop ∧ fmtInt s.h.fmt = false then List.range (1 + s.h.tangents) else [0]

/-- Values and flags of the planes of an element. -/
def State.byPlane (s : State) (tm : Tm) (g : Nat → Nat × Nat) : List Nat × List Nat :=
  ((s.planesOf tm).map fun p => (g p).1, (s.planesOf tm).map fun p => (g p).2)

/-- t has in vd, for the active elements from lo to VL, what x gives by plane and element; inactive ones become zero under kz; all
else of the vector registers is unchanged (01 R20, 09 R237). -/
def State.planesAre (s t : State) (vd : VReg) (lo : Nat) (c : Ctl) (x : Nat → Nat → Nat) : Prop :=
  ∀ v p e, p ≤ s.h.tangents → e < 65536 → t.h.getV v p e =
    if v = vd ∧ lo ≤ e ∧ e < s.h.vl then (if s.h.kBit c.k e then x p e else if c.kz then 0 else s.h.getV v p e)
    else s.h.getV v p e

/-- Sums of containers in some order of their list, each with the highest element number it covers (08 R228). -/
inductive SumTree (add : Nat → Nat → Nat → Nat) : List (Nat × Nat) → Nat × Nat → Prop
  | leaf (x : Nat × Nat) : SumTree add [x] x
  | node {l m : List (Nat × Nat)} {x y : Nat × Nat} (hl : SumTree add l x) (hm : SumTree add m y) :
      SumTree add (l ++ m) (add (max x.2 y.2) x.1 y.1, max x.2 y.2)

/-- What VFMAX's and VFMIN's choice does along a chain: the value's bits, and the element whose tangents go with it, none for the
start (10 R279, 09 R240). -/
def Hart.pickNext (h : Hart) (max : Bool) (va : VReg) (acc : Nat × Option Nat) (e : Nat) : Nat × Option Nat :=
  let x := h.src va 0 e % 2 ^ keepBits h.fmt
  let a := decodeEx h.fmt acc.1
  let b := decodeEx h.fmt x
  let y := minmaxFirst max a b
  if a.isNan && b.isNan then (fmtNan h.fmt, acc.2) else (if y.1 then acc.1 else x, if !y.1 && !y.2 then some e else acc.2)

/-- What a vector access, a binding, a queue or a matrix instruction may change of its hart, taken from g: the flow, queues of
accesses and fences, vector registers, VL, flags, SRSEQ and bindings. -/
def Hart.wideOf (h g : Hart) : Hart :=
  { h.issueOf g with v := g.v, vl := g.vl, fflags := g.fflags, srseq := g.srseq, binds := g.binds }

/-- Nothing but that and cached translations changes. -/
def State.onlyWide (s t : State) : Prop := t = { s with h := s.h.wideOf t.h, cores := t.cores } ∧ s.sameScalars t []

/-- What an instruction of the matrix slice may change of its hart: the same, and tiles and accumulators. -/
def State.onlyMatrix (s t : State) : Prop :=
  t = { s with
    h := { s.h.wideOf t.h with tcfg := t.h.tcfg, tel := t.h.tel, tsc := t.h.tsc, acc := t.h.acc }
    cores := t.cores } ∧ s.sameScalars t []

/-- Every byte of a vector read is in this device's memory, at some addresses, and not poisoned (06 R159, R172). -/
def State.readsAt (s : State) (va : Word) (n : Nat) (pas : List Nat) : Prop :=
  s.readTargets va n = .ok (pas.map .loc) ∧ s.clean pas

/-- Tile element, tile scale and accumulator word of a hart (10 R271, R273). -/
def Hart.tileElem (h : Hart) (w i n : Nat) : Word := SMap.get 0 h.tel (telKey w i n)

/-- Planes of a bound or unbound source's element (01 R30). -/
def Hart.srcRow (h : Hart) (v : VReg) (plane n : Nat) : Nat := if n < h.vl then h.src v plane n else 0

/-- The elements a vector access processes: the active ones from EIDX to VL (09 R237). -/
def Hart.doing (h : Hart) (k : KReg) : List Nat := (List.range h.vl).filter fun e => decide (h.eidx ≤ e) && h.kBit k e

/-- The queue holds one access for each plane of each element, in that order, made by this instruction on stream V with the orders
o gives (06 R171, 05 R138 to R140): va and op are their addresses and operations, first is the instruction's first active element,
whose first access releases. rd: are they reads. -/
def State.queued (s t : State) (l : List (Nat × Nat)) (o : Order) (first : Option Nat) (rd unit : Bool) (va : Nat → Nat → Word)
    (op : Nat → Nat → AccOp) : Prop :=
  t.h.sq.length = l.length ∧ ∀ j e p, l[j]? = some (e, p) → ∃ y, t.h.sq[j]? = some y ∧ y.seq = s.h.nextSeq ∧ y.strm = 1 ∧
    y.elem = e ∧ y.va = va e p ∧ y.op = op e p ∧ y.acq = (if (o = .acq ∧ rd = true) ∨ o = .sc then some .dev else none) ∧
    y.rel = (if (o = .rel ∧ j = 0 ∧ first = some e) ∨ o = .sc then some .dev else none) ∧ y.sc = (o == .sc) ∧ y.streaming = unit

/-- Formats and planes a vector access accepts in a mode (06 R165, R168). -/
def State.accessOk (s : State) (fmt : Fmt) (plane : Nat) (unit : Bool) : Prop :=
  (fmtBits fmt = 4 → unit = true) ∧ (plane = 31 → unit = true) ∧ (plane ≠ 31 → plane ≤ s.h.tangents)

/-- Planes of an access, and the distance between the planes of .pall (06 R168). -/
def State.planesAt (s : State) (plane : Nat) : List Nat := if plane = 31 then List.range (1 + s.h.tangents) else [plane]

/-- The address of plane p of an element whose own address is a (06 R168). -/
def State.planeAt (s : State) (fmt : Fmt) (plane p : Nat) (a : Word) : Word :=
  if plane = 31 then a + .ofNat 64 (p * ((s.h.vl * fmtBits fmt + 7) / 8)) else a

/-- The vector instructions that work on registers alone and leave the configuration as it is. -/
def registerOnly : Instr → Bool
  | .vfadd .. | .vfsub .. | .vfmul .. | .vfdiv .. | .vfma .. | .vfms .. | .vfnma .. | .vfsqrt .. | .vfmin .. | .vfmax .. | .vfabs ..
  | .vfneg .. | .vfcps .. | .vadd .. | .vsub .. | .vmul .. | .vmulh .. | .vmulhu .. | .vand .. | .vor .. | .vxor .. | .vsll ..
  | .vsrl .. | .vsra .. | .vmin .. | .vmax .. | .vminu .. | .vmaxu .. | .vsadd .. | .vssub .. | .vfeq .. | .vflt .. | .vfle ..
  | .vfne .. | .vieq .. | .vilt .. | .viltu .. | .vile .. | .kand .. | .kor .. | .kxor .. | .kandn .. | .knot .. | .kpop ..
  | .kfirst .. | .vexp .. | .vlog .. | .vtanh .. | .vsigm .. | .vrcp .. | .vrsq .. | .vrelu .. | .vsilu .. | .vcvt .. | .vqblk ..
  | .vdqblk .. | .vcvti .. | .vmv .. | .vsplat .. | .vext .. | .vins .. | .viota .. | .vmerge .. | .vslup .. | .vsldn ..
  | .vrgath .. | .vcompr .. | .vfredo .. | .vfredu .. | .vfrmax .. | .vfrmin .. | .vireds .. | .vscan .. | .vscanf .. | .tseed ..
  | .tzero .. | .tget .. | .tput .. | .tregen .. | .tfga .. | .tscl .. => true
  | _ => false

/-- The instructions retire one after another from s, ending in t: none traps, none waits. -/
inductive RunsAll : List Instr → State → State → Prop
  | nil (s : State) : RunsAll [] s s
  | cons {i : Instr} {l : List Instr} {s t u : State} (h : exec i s = .next t) (th : t.h.th = false)
      (seq : t.h.nextSeq = s.h.nextSeq + 1) (r : RunsAll l t u) : RunsAll (i :: l) s u

/-- Vector loads and stores in the queue order of stream V. -/
def memoryMember : Instr → Bool
  | .vld .. | .vlds .. | .vldx .. | .vst .. | .vsts .. | .vstx .. => true
  | _ => false

/-- Members that work element by element, on registers or as a plain store of one plane, and may stop at any element (09 R236). -/
def elementwise : Instr → Bool
  | .vfadd .. | .vfsub .. | .vfmul .. | .vfdiv .. | .vfma .. | .vfms .. | .vfnma .. | .vfsqrt .. | .vfmin .. | .vfmax .. | .vfabs ..
  | .vfneg .. | .vfcps .. | .vadd .. | .vsub .. | .vmul .. | .vmulh .. | .vmulhu .. | .vand .. | .vor .. | .vxor .. | .vsll ..
  | .vsrl .. | .vsra .. | .vmin .. | .vmax .. | .vminu .. | .vmaxu .. | .vsadd .. | .vssub .. | .vfeq .. | .vflt .. | .vfle ..
  | .vfne .. | .vieq .. | .vilt .. | .viltu .. | .vile .. | .vexp .. | .vlog .. | .vtanh .. | .vsigm .. | .vrcp .. | .vrsq ..
  | .vrelu .. | .vsilu .. | .vcvt .. | .vcvti .. | .vmv .. | .vsplat .. | .viota .. | .vmerge .. => true
  | .vst _ p o .. | .vsts _ p o .. => o == .plain && p != 31
  | _ => false

/-- Members that stop only at element 0 (09 R236, 10 R262). -/
def stopsWhole : Instr → Bool
  | .vqblk .. | .vext .. | .vins .. | .vslup .. | .vsldn .. | .vrgath .. | .vcompr .. | .vfredo .. | .vfredu .. | .vfrmax .. | .vfrmin ..
  | .vireds .. | .vscan .. | .vscanf .. | .tput .. | .tget .. | .kpop .. | .kfirst .. => true
  | _ => false

/-- The hart with another VL, and with other flags. -/
def State.withVl (s : State) (n : Nat) : State := { s with h := { s.h with vl := n } }
def State.withFlags (s : State) (f : Word) : State := { s with h := { s.h with fflags := f } }

/-- No cask owes a copy of any page before a write (18 R410). -/
def State.cutFree (s : State) : Prop := ∀ p f, p < 8 → (s.part p).cask.owes f = false

/-- The engine whose turn it is has become x, and every other engine, the selected hart, the other harts and every byte of memory are
as in s. -/
def State.onlyEngine (s t : State) (x : Engine) : Prop :=
  t.engine s.eng = x ∧ (∀ m, m ≠ s.eng → t.engine m = s.engine m) ∧ t.h = s.h ∧ t.others = s.others ∧ s.sameMemory t

/-- An engine that goes on at an index of its schedule (14 R341). -/
def Engine.goesTo (x : Engine) (pc : Nat) : Engine := { x with pc := pc % 4096, waitAt := none, state := .running }

/-- The engine whose turn it is has faulted at its instruction with a code (15 R366). -/
def State.faultsEngine (s t : State) (code : Nat) : Prop :=
  s.onlyEngine t { s.engine s.eng with state := .faulted, fcode := code, waitAt := none }

/-- STEPNO after the engines of t (14 R342): the greater of what it was and the least counter of the engines that run or wait. -/
def State.stepnoOf (s t : State) : Prop :=
  s.stepno.toNat ≤ t.stepno.toNat ∧
  (∀ m, m < 16 → (t.engine m).busy = true → t.stepno.toNat ≤ max s.stepno.toNat (t.engine m).steps.toNat) ∧
  ((∃ m, m < 16 ∧ (t.engine m).busy = true) → ∃ m, m < 16 ∧ (t.engine m).busy = true ∧ (t.engine m).steps.toNat ≤ t.stepno.toNat) ∧
  (t.stepno = s.stepno ∨ ∃ m, m < 16 ∧ (t.engine m).busy = true ∧ t.stepno = (t.engine m).steps)

/-- Harts, partitions and every byte of memory are as in s: what a move of the fabric unit that writes no memory leaves. -/
def State.calm (s t : State) : Prop := t.h = s.h ∧ t.others = s.others ∧ t.parts = s.parts ∧ s.sameMemory t

/-- The slot of t at a handle is x, and every other slot is as in s. -/
def State.onlySlot (s t : State) (handle : Nat) (x : Slot) : Prop :=
  t.slot handle = x ∧ ∀ m, m ≠ handle → t.slot m = s.slot m


/-- The 32-bit words of formats S3, SI (also SB and SC, whose first register stands in [11:7]) and SL (also SJ), by their
fields (03 R73). -/
def wordS3 (maj : Nat) (d a b : SReg) (f : Nat) : Nat :=
  maj + 2 ^ 7 * d.val + 2 ^ 12 * a.val + 2 ^ 17 * b.val + 2 ^ 22 * f
def wordSI (maj : Nat) (d a : SReg) (f n : Nat) : Nat := maj + 2 ^ 7 * d.val + 2 ^ 12 * a.val + 2 ^ 17 * f + 2 ^ 20 * n
def wordSL (maj : Nat) (d : SReg) (n : Nat) : Nat := maj + 2 ^ 7 * d.val + 2 ^ 12 * n

/-- A word that encodes no instruction: the decoder refuses it, and a hart that issues at it raises cause 1 (03 R72, R88). -/
def Unencoded (w : Nat) : Prop :=
  decode32 w = none ∧ ∀ s : State, s.fetchDelayed s.h.pc = false → s.fetchFault s.h.pc = none → s.fetchBytes s.h.pc = .ok (leBytes 4 w) →
    s.execAt = .next (s.trap ⟨1, .ofNat 64 w, 0⟩)

/-- A run that goes on: each state is what a step answers at the one before. -/
def IsRun (σ : Nat → State) : Prop := ∀ k, step (σ k) = .next (σ (k + 1))

/-- Has a hart an instruction that issues now, if its turn comes (13 R294). -/
def State.issuable (s : State) (n : Nat) : Bool :=
  let t := s.select n
  t.issues && match t.issue with
    | .next u => !u.h.waiting
    | _ => false

/-- Number of instructions a hart has issued by move k of a run. -/
def issuedBy (σ : Nat → State) (n k : Nat) : Nat := ((σ k).hart n).nextSeq

/-- The state in which the next step makes its move: its cycles have passed. -/
def State.before (s : State) : State :=
  match s.agenda with
  | (dt, _) :: l => { s with agenda := l }.advance dt
  | [] => s.advance 1

/-- Does the next step do what a move does. -/
def State.makes (s : State) (m : Move) : Prop := step s = s.before.move m

/-- The rows that the machine owes, once they can be made: accesses, tickets, deliveries, injections, what follows on an arrival, the
timers, and the moves of the controllers, of the engines of cask and storage and of the fabric units (13 R294, R295). -/
def rowOwed : Instr → Bool
  | .performAccess .. | .ticket .. | .deliver .. | .copyComplete .. | .inject .. | .land .. | .count .. | .release .. | .contribution ..
  | .combine .. | .bucketRelease .. | .stripChunk .. | .stripDelivery .. | .publishMove .. | .dispatch .. | .transferResident ..
  | .kernelComplete .. | .progressFault .. | .lpartChange .. | .eventTaken .. | .cut .. | .caskDrain .. | .caskComplete ..
  | .pageMigration .. | .wakeUp .. | .attrep | .waitvTimeout .. | .dungenWaitTimeout .. | .ringRepeat .. | .holdEnd .. | .shortTimer ..
  | .earlyArrivalDrop .. | .dropRecordExpiry .. | .remoteReadResend .. | .tLate .. | .stripShortfall .. | .stripHoldEnd ..
  | .watchdogExpiry => true
  | _ => false

/-- The same of any move: an engine's next instruction and the save of a hart that leaves are owed too. -/
def Move.owed : Move → Bool
  | .run i => rowOwed i
  | .engine _ => true
  | .save _ => true
  | _ => false

/-- A fair run (13 R294, R295): what stays possible from some move on is made in the end, of accesses, of deliveries, of every other move
that the machine owes and of instructions; and while both harts of a core have an issuable instruction, neither issues two before the
other issues one. The model's schedule is data, so that a claim that something happens in the end has this as its premise (log 4). What
becomes of a packet that has left this device, and which packets other devices send it, lies outside one device (log 108). -/
structure Fair (σ : Nat → State) : Prop where
  performs : ∀ n strm a k, ∃ j, k ≤ j ∧ (σ j).mayPerform n strm ≠ some a
  delivers : ∀ w g k, ∃ j, k ≤ j ∧ (σ j).mayDeliver w g = false
  moves : ∀ m, m.owed = true → ∀ k, ∃ j, k ≤ j ∧ ((σ j).before.move m = .next (σ j).before ∨ (σ j).makes m)
  issues : ∀ n k, ∃ j, k ≤ j ∧ ((σ j).issuable n = false ∨ issuedBy σ n k < issuedBy σ n j)
  alternates : ∀ n i j, (∀ k, i ≤ k → k ≤ j → (σ k).issuable n = true ∧ (σ k).issuable (sibling n) = true) →
    issuedBy σ n i + 2 ≤ issuedBy σ n j → issuedBy σ (sibling n) i < issuedBy σ (sibling n) j

end Sys2Proof.Machine

namespace Sys2Proof

/-- Destination and registers of an integer register or immediate instruction (04 R103 to R105). -/
def Instr.intForm : Instr → Option (SReg × List SReg)
  | .add d a b | .sub d a b | .and d a b | .or d a b | .xor d a b | .sll d a b | .srl d a b | .sra d a b | .slt d a b
  | .sltu d a b | .mul d a b | .mulh d a b | .mulhu d a b | .div d a b | .divu d a b | .rem d a b | .remu d a b
  | .min d a b | .max d a b | .minu d a b | .maxu d a b | .andn d a b => some (d, [a, b, d])
  | .clz d a | .ctz d a | .popc d a | .addi d a _ | .andi d a _ | .ori d a _ | .xori d a _ | .slti d a _ | .sltiu d a _
  | .slli d a _ | .srli d a _ | .srai d a _ => some (d, [a, d])
  | .lui d _ | .auipc d _ => some (d, [d])
  | _ => none

end Sys2Proof
end

