-- ==== Sys2Proof/Certificates/Slice0/Obligations.lean ====
section
/-! DEFINITION. Sys2Proof/Certificates/Slice0/Obligations.lean: what the provers are asked: one definition for each statement. -/

open Sys2Proof Sys2Proof.Machine

/-- 04 R103: every ALU instruction whose registers are available puts the result of R103's table in sd and retires in
sequence; the results are written as integer arithmetic on the operands' values and as bits.
04 R103: CLZ counts the zeros above the highest one bit, CTZ those below the lowest, POPC the ones.
The encodings of R103 (R76): major 0x01, format S3; CLZ, CTZ and POPC need sb = 0. -/
def Obligations.IntegerRegisterResults : Prop :=
  (∀ (s : State) (d a b : SReg), s.ready [a, b, d] = true →
    let x := s.rs a
    let y := s.rs b
    let sh := y.toNat % 64
    exec (.add d a b) s = s.wrote d (.ofNat 64 (x.toNat + y.toNat)) ∧
    exec (.sub d a b) s = s.wrote d (.ofInt 64 (x.toInt - y.toInt)) ∧
    exec (.sll d a b) s = s.wrote d (.ofNat 64 (x.toNat * 2 ^ sh)) ∧
    exec (.srl d a b) s = s.wrote d (.ofNat 64 (x.toNat / 2 ^ sh)) ∧
    exec (.sra d a b) s = s.wrote d (.ofInt 64 (x.toInt / 2 ^ sh)) ∧
    exec (.slt d a b) s = s.wrote d (if x.toInt < y.toInt then 1 else 0) ∧
    exec (.sltu d a b) s = s.wrote d (if x.toNat < y.toNat then 1 else 0) ∧
    exec (.mul d a b) s = s.wrote d (.ofNat 64 (x.toNat * y.toNat)) ∧
    exec (.mulh d a b) s = s.wrote d (.ofInt 64 (x.toInt * y.toInt / 2 ^ 64)) ∧
    exec (.mulhu d a b) s = s.wrote d (.ofNat 64 (x.toNat * y.toNat / 2 ^ 64)) ∧
    exec (.div d a b) s = s.wrote d (if y = 0 then .ofInt 64 (-1) else .ofInt 64 (x.toInt.tdiv y.toInt)) ∧
    exec (.divu d a b) s = s.wrote d (if y = 0 then .ofNat 64 (2 ^ 64 - 1) else .ofNat 64 (x.toNat / y.toNat)) ∧
    exec (.rem d a b) s = s.wrote d (if y = 0 then x else .ofInt 64 (x.toInt - y.toInt * x.toInt.tdiv y.toInt)) ∧
    exec (.remu d a b) s = s.wrote d (if y = 0 then x else .ofNat 64 (x.toNat - y.toNat * (x.toNat / y.toNat))) ∧
    exec (.min d a b) s = s.wrote d (.ofInt 64 (min x.toInt y.toInt)) ∧
    exec (.max d a b) s = s.wrote d (.ofInt 64 (max x.toInt y.toInt)) ∧
    exec (.minu d a b) s = s.wrote d (.ofNat 64 (min x.toNat y.toNat)) ∧
    exec (.maxu d a b) s = s.wrote d (.ofNat 64 (max x.toNat y.toNat)) ∧
    (∃ v, exec (.and d a b) s = s.wrote d v ∧ ∀ i : Fin 64, v.getLsbD i = (x.getLsbD i && y.getLsbD i)) ∧
    (∃ v, exec (.or d a b) s = s.wrote d v ∧ ∀ i : Fin 64, v.getLsbD i = (x.getLsbD i || y.getLsbD i)) ∧
    (∃ v, exec (.xor d a b) s = s.wrote d v ∧ ∀ i : Fin 64, v.getLsbD i = (x.getLsbD i != y.getLsbD i)) ∧
    (∃ v, exec (.andn d a b) s = s.wrote d v ∧ ∀ i : Fin 64, v.getLsbD i = (x.getLsbD i && !y.getLsbD i))) ∧
  (∀ (s : State) (d a : SReg), s.ready [a, d] = true →
    let x := s.rs a
    (∃ n, n ≤ 64 ∧ exec (.clz d a) s = s.wrote d (.ofNat 64 n) ∧
      (∀ i, 64 - n ≤ i → i < 64 → x.getLsbD i = false) ∧ (n < 64 → x.getLsbD (63 - n) = true)) ∧
    (∃ n, n ≤ 64 ∧ exec (.ctz d a) s = s.wrote d (.ofNat 64 n) ∧
      (∀ i, i < n → x.getLsbD i = false) ∧ (n < 64 → x.getLsbD n = true)) ∧
    exec (.popc d a) s = s.wrote d (.ofNat 64 ((List.range 64).filter fun i => x.getLsbD i).length)) ∧
  (∀ d a b : SReg,
    (∀ p ∈ [(0, Instr.add d a b), (1, .sub d a b), (2, .and d a b), (3, .or d a b), (4, .xor d a b), (5, .sll d a b), (6, .srl d a b),
        (7, .sra d a b), (8, .slt d a b), (9, .sltu d a b), (10, .mul d a b), (11, .mulh d a b), (12, .mulhu d a b), (13, .div d a b),
        (14, .divu d a b), (15, .rem d a b), (16, .remu d a b), (17, .min d a b), (18, .max d a b), (19, .minu d a b),
        (20, .maxu d a b), (24, .andn d a b)], decode32 (wordS3 0x01 d a b p.1) = some p.2) ∧
    (∀ p ∈ [(21, Instr.clz d a), (22, .ctz d a), (23, .popc d a)], decode32 (wordS3 0x01 d a 0 p.1) = some p.2) ∧
    (b ≠ 0 → ∀ f ∈ [21, 22, 23], Unencoded (wordS3 0x01 d a b f)))

/-- 04 R104, R105: the immediate forms; an imm12 is sign-extended, LUI and AUIPC place imm20 at bit 12 and extend from
bit 31.
The encodings of R104 and R105: major 0x02 with f3, where f3 = 7, imm[11:10] = 11 of a shift and a nonzero imm[9:6] of one raise
cause 1; LUI major 0x04 and AUIPC 0x05. -/
def Obligations.ImmediateResults : Prop :=
  (∀ (s : State) (d a : SReg) (imm : BitVec 12) (sh : BitVec 6) (up : BitVec 20), s.ready [a, d] = true →
    let x := s.rs a
    let i := imm.toInt
    exec (.addi d a imm) s = s.wrote d (.ofInt 64 (x.toInt + i)) ∧
    exec (.slti d a imm) s = s.wrote d (if x.toInt < i then 1 else 0) ∧
    exec (.sltiu d a imm) s = s.wrote d (if x.toNat < (BitVec.ofInt 64 i).toNat then 1 else 0) ∧
    exec (.slli d a sh) s = s.wrote d (.ofNat 64 (x.toNat * 2 ^ sh.toNat)) ∧
    exec (.srli d a sh) s = s.wrote d (.ofNat 64 (x.toNat / 2 ^ sh.toNat)) ∧
    exec (.srai d a sh) s = s.wrote d (.ofInt 64 (x.toInt / 2 ^ sh.toNat)) ∧
    exec (.lui d up) s = s.wrote d (.ofInt 64 (up.toInt * 4096)) ∧
    exec (.auipc d up) s = s.wrote d (.ofInt 64 (s.h.pc.toInt + up.toInt * 4096)) ∧
    (∃ v, exec (.andi d a imm) s = s.wrote d v ∧ ∀ j : Fin 64, v.getLsbD j = (x.getLsbD j && imm.getLsbD (min j 11))) ∧
    (∃ v, exec (.ori d a imm) s = s.wrote d v ∧ ∀ j : Fin 64, v.getLsbD j = (x.getLsbD j || imm.getLsbD (min j 11))) ∧
    (∃ v, exec (.xori d a imm) s = s.wrote d v ∧ ∀ j : Fin 64, v.getLsbD j = (x.getLsbD j != imm.getLsbD (min j 11)))) ∧
  (∀ (d a : SReg) (imm : BitVec 12) (sh : BitVec 6) (up : BitVec 20) (n : Nat),
    (∀ p ∈ [(0, Instr.addi d a imm), (1, .andi d a imm), (2, .ori d a imm), (3, .xori d a imm), (4, .slti d a imm), (5, .sltiu d a imm)],
      decode32 (wordSI 0x02 d a p.1 imm.toNat) = some p.2) ∧
    (∀ p ∈ [(0, Instr.slli d a sh), (1, .srli d a sh), (2, .srai d a sh)],
      decode32 (wordSI 0x02 d a 6 (1024 * p.1 + sh.toNat)) = some p.2) ∧
    (n < 4096 → n / 1024 = 3 ∨ n / 64 % 16 ≠ 0 → Unencoded (wordSI 0x02 d a 6 n)) ∧
    (n < 4096 → Unencoded (wordSI 0x02 d a 7 n)) ∧
    decode32 (wordSL 0x04 d up.toNat) = some (.lui d up) ∧ decode32 (wordSL 0x05 d up.toNat) = some (.auipc d up))

/-- 04 R101, R102, 05 R129: an integer instruction runs when its registers await no access, and then changes its
destination, the counters of active LOOPN levels and the flow of its hart alone; otherwise it waits where it stands.
01 R18, 04 R101: a write of a scalar register is what it reads next, but s0 reads 0 whatever was written; every other
register, and everything else of the state, is unchanged. -/
def Obligations.IntegerFrame : Prop :=
  (∀ (i : Instr) (d : SReg) (rs : List SReg) (s : State), i.intForm = some (d, rs) →
    (s.ready rs = true → Completes i s fun t => s.onlyFlow t [d] ∧ s.sameMemory t ∧ t.h.nextSeq = s.h.nextSeq + 1) ∧
    (s.ready rs = false → exec i s = .next (s.stall rs))) ∧
  (∀ (s : State) (d r : SReg) (v : Word),
    (s.ws d v).rs r = (if r = 0 then 0 else if r = d then v else s.rs r) ∧
    s.ws d v = { s with h := { s.h with s := (s.ws d v).h.s } })

/-- 04 R121, R123, R124: where sequential flow goes. Without active levels, or when it does not go past the last parcel of the
innermost active body, it is the next parcel. When it does, a LOOP level with passes left, and a LOOPN level whose counter is more
than 1, starts its body again with one pass less; otherwise the level is no longer active, and the next active level outward is
asked. A counter that a load has still to bring is waited for. What the fields of a level that has ended read is the model's choice
(log 96); a count of 0, which only a supervisor can write, wraps (log 71).
04 R121 to R124, 03 R91: LOOP and LOOPN push a level for a body of len + 1 parcels, skip it when the count is zero, and
trap where R122 says, with cause 3 and their own encoding, or with the fault of a body parcel.
Where the rules leave room, the statement follows the model's readings of logs 71, 72 and 96. -/
def Obligations.SequentialFlow : Prop :=
  (∀ (s : State) (n : Nat) (outer inner : List LoopLevel) (l : LoopLevel),
    let pc := s.h.pc
    let next := pc + BitVec.ofNat 64 n
    let stop := l.start + BitVec.ofNat 64 (4 * l.len)
    let past := l.due = true ∨ stop = next ∨ (0 < (stop - pc).toNat ∧ (stop - pc).toNat < (next - pc).toNat)
    let t := s.retire n
    let with_ (x : LoopLevel) : List LoopLevel := outer ++ x :: inner
    let popped (c : Nat) : State := { s with h := { s.h with loops := with_ { l with valid := false, due := false, count := c } } }
    (s.h.levels = [] → t.h.pc = next ∧ t.h.loops = s.h.loops ∧ ∀ r, t.rs r = s.rs r) ∧
    (s.h.loops = with_ l → l.valid = true → inner.any (·.valid) = false →
      (¬ past → t.h.pc = next ∧ t.h.loops = s.h.loops ∧ ∀ r, t.rs r = s.rs r) ∧
      (past → l.isLoopn = false → l.count ≠ 1 → l.count < 2 ^ 64 →
        t.h.pc = l.start ∧ (∀ r, t.rs r = s.rs r) ∧
        t.h.loops = with_ { l with due := false, count := if l.count = 0 then 2 ^ 64 - 1 else l.count - 1 }) ∧
      (past → l.isLoopn = false → l.count = 1 → t = (popped 0).retire n) ∧
      (past → l.isLoopn = true → s.h.sPending l.reg = true →
        t.h.pc = next ∧ t.h.loops = with_ { l with due := true } ∧ t.h.flowDue = true ∧ ∀ r, t.rs r = s.rs r) ∧
      (past → l.isLoopn = true → s.h.sPending l.reg = false → 1 < (s.rs l.reg).toNat →
        t.h.pc = l.start ∧ t.h.loops = with_ { l with due := false } ∧ t.rs l.reg = s.rs l.reg - 1 ∧ ∀ r, r ≠ l.reg → t.rs r = s.rs r) ∧
      (past → l.isLoopn = true → s.h.sPending l.reg = false → (s.rs l.reg).toNat ≤ 1 →
        t = ((popped l.count).ws l.reg 0).retire n)) ∧
    t.h.eidx = 0 ∧ t.h.nextSeq = s.h.nextSeq + 1) ∧
  (∀ (s : State) (a : SReg) (len : BitVec 6), s.ready [a] = true →
    let n := len.toNat + 1
    let c := (s.rs a).toNat
    let push (i : Instr) (l : LoopLevel) : Prop := ∃ ls : List LoopLevel, ls.filter (·.valid) = s.h.levels ++ [l] ∧
      exec i s = .next (({ s with h := { s.h with loops := ls } } : State).retire 4)
    let past (l : LoopLevel) : Prop := l.start.toNat ≤ s.h.pc.toNat ∧ s.h.pc.toNat < l.start.toNat + 4 * l.len ∧
      l.start.toNat + 4 * l.len < s.h.pc.toNat + 4 + 4 * n
    (∀ t, s.loopFault (.loop a len) n = some t → exec (.loop a len) s = .next (s.trap t)) ∧
    (∀ t, s.loopFault (.loopn a len) n = some t → exec (.loopn a len) s = .next (s.trap t)) ∧
    (s.loopFault (.loop a len) n = none →
      (c = 0 → exec (.loop a len) s = .next (s.retire (4 * (n + 1)))) ∧
      (c ≠ 0 → push (.loop a len) { start := s.h.pc + 4, len := n, isLoopn := false, reg := 0, count := c })) ∧
    (s.loopFault (.loopn a len) n = none →
      (c = 0 → exec (.loopn a len) s = .next (s.retire (4 * (n + 1)))) ∧
      (c ≠ 0 → push (.loopn a len) { start := s.h.pc + 4, len := n, isLoopn := true, reg := a, count := 0 })) ∧
    (∀ t, s.fetchParcels (s.h.pc + 4) n = .error t → ∀ i, s.loopFault i n = some t) ∧
    (∀ ps, s.fetchParcels (s.h.pc + 4) n = .ok ps → ∀ i,
      (4 ≤ s.h.levels.length ∨ (∃ l ∈ s.h.levels, past l) ∨ endsWhole ps 0 = false → s.loopFault i n = some ⟨3, encodeWord i, 0⟩) ∧
      (s.h.levels.length < 4 → (∀ l ∈ s.h.levels, ¬ past l) → endsWhole ps 0 = true → s.loopFault i n = none)) ∧
    (∀ p ps k, endsWhole [] k = (k == 0) ∧ endsWhole (p :: ps) (k + 1) = endsWhole ps k ∧ endsWhole (p :: ps) 0 = endsWhole ps
      (if p.toNat % 4 = 3 then 1 else if p.toNat % 128 = 0x19 then 2 * (p.toNat / 128 % 8 + 2) else 0)))

/-- 04 R111: a branch whose condition holds goes to PC + 4 × off12, and otherwise on in sequence.
04 R112: BSUBNZ and BSUBGT subtract, write sa, and test what sa then reads: s0 never branches.
04 R113, R123: JAL and JALR link PC + 4 and jump; a JALR target that is no parcel address raises cause 4 with the target
and writes nothing; a jump ends every loop level whose body does not hold its target, with the levels inside it.
The encodings of R111, R112 and R113, with cause 1 for f3 6 and 7 of BRANCH and 2 to 7 of BSUB; a JALR that traps leaves its registers. -/
def Obligations.BranchesAndJumps : Prop :=
  (∀ (s : State) (a b : SReg) (off : BitVec 12), s.ready [a, b] = true →
    let x := s.rs a
    let y := s.rs b
    let go (c : Prop) [Decidable c] : Out :=
      if c then .next (s.retireTo (.ofInt 64 (s.h.pc.toInt + 4 * off.toInt))) else .next (s.retire 4)
    exec (.beq a b off) s = go (x = y) ∧
    exec (.bne a b off) s = go (x ≠ y) ∧
    exec (.blt a b off) s = go (x.toInt < y.toInt) ∧
    exec (.bge a b off) s = go (y.toInt ≤ x.toInt) ∧
    exec (.bltu a b off) s = go (x.toNat < y.toNat) ∧
    exec (.bgeu a b off) s = go (y.toNat ≤ x.toNat)) ∧
  (∀ (s : State) (a b : SReg) (off : BitVec 12), s.ready [a, b] = true →
    let v : Word := .ofInt 64 ((s.rs a).toInt - (s.rs b).toInt)
    let t := s.ws a v
    let target : Word := .ofInt 64 (s.h.pc.toInt + 4 * off.toInt)
    exec (.bsubnz a b off) s = (if a ≠ 0 ∧ v ≠ 0 then .next (t.retireTo target) else .next (t.retire 4)) ∧
    exec (.bsubgt a b off) s = (if a ≠ 0 ∧ 0 < v.toInt then .next (t.retireTo target) else .next (t.retire 4))) ∧
  (∀ (s : State) (d a : SReg) (off : BitVec 20) (imm : BitVec 12),
    let t : Word := .ofInt 64 ((s.rs a).toInt + imm.toInt)
    (s.ready [d] = true → exec (.jal d off) s =
      .next ((s.ws d (s.h.pc + 4)).retireTo (.ofInt 64 (s.h.pc.toInt + 4 * off.toInt)))) ∧
    (s.ready [a, d] = true → exec (.jalr d a imm) s =
      if t.toNat % 4 = 0 then .next ((s.ws d (s.h.pc + 4)).retireTo t) else .next (s.trap ⟨4, t, 0⟩)) ∧
    (s.retireTo t).h.pc = t ∧ (∀ r, (s.retireTo t).rs r = s.rs r) ∧
    (s.retireTo t).h.levels = s.h.levels.takeWhile (·.holds t) ∧ s.onlyFlow (s.retireTo t) []) ∧
  (∀ (d a b : SReg) (off imm : BitVec 12) (far : BitVec 20),
    (∀ p ∈ [(0, Instr.beq a b off), (1, .bne a b off), (2, .blt a b off), (3, .bge a b off), (4, .bltu a b off), (5, .bgeu a b off)],
      decode32 (wordSI 0x08 a b p.1 off.toNat) = some p.2) ∧
    (∀ f ∈ [6, 7], Unencoded (wordSI 0x08 a b f off.toNat)) ∧
    decode32 (wordSI 0x09 a b 0 off.toNat) = some (.bsubnz a b off) ∧ decode32 (wordSI 0x09 a b 1 off.toNat) = some (.bsubgt a b off) ∧
    (∀ f ∈ [2, 3, 4, 5, 6, 7], Unencoded (wordSI 0x09 a b f off.toNat)) ∧
    decode32 (wordSL 0x0A d far.toNat) = some (.jal d far) ∧ decode32 (wordSI 0x0C d a 0 imm.toNat) = some (.jalr d a imm) ∧
    (∀ (s : State) (t : Word), s.h.th = false →
      let u := s.trap ⟨4, t, 0⟩
      u.h.cause = 4 ∧ u.h.tval = t ∧ ∀ r, u.rs r = s.rs r))

/-- 04 R107, R108, R109: the fourteen FALU operations. Where the mode resolves, each gives its exact value rounded once to its
precision, with the flags of the operation and of the rounding; with no flag enabled every one of them retires.
Where the rules leave room, the statement follows the model's readings of log 10. -/
def Obligations.FloatScalarResults : Prop :=
  ∀ (s : State) (dp : Bool) (rm r : Rm) (d a b : SReg), s.ready [d, a, b] = true → s.h.resolveRm rm = some r →
    let p := precFmt dp
    let x := precEx dp (s.rs a)
    let y := precEx dp (s.rs b)
    let z := precEx dp (s.rs d)
    let u := s.h.uBits (s.h.drawFor r).1 0 0
    let rounds (i : Instr) (v : Ex × Nat) : Prop :=
      FloatResult i s d (some r) (roundFloat p false r u v.1).1 (v.2 ||| (roundFloat p false r u v.1).2)
    rounds (.fadd dp rm d a b) (exAdd r x y) ∧
    rounds (.fsub dp rm d a b) (exAdd r x y.neg) ∧
    rounds (.fmul dp rm d a b) (exMul x y) ∧
    rounds (.fdiv dp rm d a b) (exDiv x y) ∧
    rounds (.fsqrt dp rm d a) (exSqrt x) ∧
    rounds (.fmadd dp rm d a b) ((exAdd r (exMul x y).1 z).1, (exMul x y).2 ||| (exAdd r (exMul x y).1 z).2) ∧
    rounds (.fcvtif dp rm d a) (.ofInt (s.rs a).toInt, 0) ∧
    rounds (.fcvtff dp rm d a) (precEx (!dp) (s.rs a), if (precEx (!dp) (s.rs a)).isSnan then 16 else 0) ∧
    FloatResult (.fcvtfi dp rm d a) s d (some r) (roundInt .i64 r u x).1 (roundInt .i64 r u x).2 ∧
    (bitsOf s.h.fctl.toNat 5 5 = 0 → ∀ i ∈ [Instr.fadd dp rm d a b, .fsub dp rm d a b, .fmul dp rm d a b, .fdiv dp rm d a b,
      .fsqrt dp rm d a, .fmadd dp rm d a b, .fcvtfi dp rm d a, .fcvtif dp rm d a, .fcvtff dp rm d a], Retires i s)

/-- 04 R107, R108: minimum, maximum and the compares. They do not round; a NaN never compares; NV is raised for a signalling
operand, and by the ordered compares for any NaN; one NaN operand of FMIN and FMAX gives the other operand; with no flag enabled every one
of them retires.
04 R109, R107: an FALU instruction that resolves DYN against FCTL[2:0] = 111 raises cause 1 with its encoding and changes
nothing else; any other mode resolves to itself, and DYN to FCTL[2:0].
08 R211, R212, R213, R222: what each mode does with a significand t, a rest r of a divisor b and stochastic bits u: the
nearest integer with ties to even or away, the integer below, the next one in the direction of the sign, the odd neighbour of
an inexact value, or t plus the carry of the rest into u / 2^32. -/
def Obligations.FloatScalarChoices : Prop :=
  (∀ (s : State) (dp : Bool) (d a b : SReg), s.ready [d, a, b] = true →
    let x := precEx dp (s.rs a)
    let y := precEx dp (s.rs b)
    let width := if dp then 64 else 32
    let nv := if x.isSnan || y.isSnan then 16 else 0
    let res (i : Instr) (v : Nat) (fl : Nat) : Prop := FloatResult i s d none v fl
    ((x.isNan || y.isNan) = true →
      res (.feq dp d a b) 0 nv ∧ res (.flt dp d a b) 0 16 ∧ res (.fle dp d a b) 0 16) ∧
    ((x.isNan || y.isNan) = false →
      res (.feq dp d a b) (if exCmp x y = .eq then 1 else 0) 0 ∧ res (.flt dp d a b) (if exCmp x y = .lt then 1 else 0) 0 ∧
      res (.fle dp d a b) (if exCmp x y = .gt then 0 else 1) 0) ∧
    ((x.isNan && y.isNan) = true → let c := if dp then 0x7FF8000000000000 else 0x7FC00000
      res (.fmin dp d a b) c nv ∧ res (.fmax dp d a b) c nv) ∧
    (x.isNan = true → y.isNan = false → res (.fmin dp d a b) ((s.rs b).toNat % 2 ^ width) nv ∧
      res (.fmax dp d a b) ((s.rs b).toNat % 2 ^ width) nv) ∧
    (x.isNan = false → y.isNan = true → res (.fmin dp d a b) ((s.rs a).toNat % 2 ^ width) nv ∧
      res (.fmax dp d a b) ((s.rs a).toNat % 2 ^ width) nv) ∧
    (x.isNan = false → y.isNan = false →
      let first : Bool := match exCmp x y with
        | .lt => true
        | .gt => false
        | .eq => x.isNeg || !y.isNeg
      let last : Bool := match exCmp x y with
        | .lt => false
        | .gt => true
        | .eq => !x.isNeg || y.isNeg
      (exCmp x y = .eq → x.isZero = false → res (.fmin dp d a b) ((s.rs a).toNat % 2 ^ width) 0 ∧
        res (.fmax dp d a b) ((s.rs a).toNat % 2 ^ width) 0) ∧
      (exCmp x y ≠ .eq ∨ x.isZero = true →
        res (.fmin dp d a b) ((if first then s.rs a else s.rs b).toNat % 2 ^ width) 0 ∧
        res (.fmax dp d a b) ((if last then s.rs a else s.rs b).toNat % 2 ^ width) 0)) ∧
    (bitsOf s.h.fctl.toNat 5 5 = 0 → ∀ i ∈ [Instr.fmin dp d a b, .fmax dp d a b, .feq dp d a b, .flt dp d a b, .fle dp d a b], Retires i s)) ∧
  (∀ (s : State) (dp : Bool) (rm : Rm) (d a b : SReg), s.ready [d, a, b] = true →
    (s.h.resolveRm rm = none ↔ rm = .dyn ∧ bitsOf s.h.fctl.toNat 0 3 = 7) ∧
    (rm ≠ .dyn → s.h.resolveRm rm = some rm) ∧
    (s.h.resolveRm rm = none → ∀ i ∈ [Instr.fadd dp rm d a b, .fsub dp rm d a b, .fmul dp rm d a b, .fdiv dp rm d a b,
        .fsqrt dp rm d a, .fmadd dp rm d a b, .fcvtfi dp rm d a, .fcvtif dp rm d a, .fcvtff dp rm d a],
      exec i s = .next (s.trap ⟨1, encodeWord i, 0⟩))) ∧
  (∀ (u t r b : Nat) (neg : Bool), r < b → u < 2 ^ 32 →
    let y (rm : Rm) : Nat := roundPick rm u neg t r b
    (2 * r < b → y .rne = t ∧ y .rna = t) ∧
    (b < 2 * r → y .rne = t + 1 ∧ y .rna = t + 1) ∧
    (2 * r = b → y .rna = t + 1 ∧ (y .rne = t ∨ y .rne = t + 1) ∧ y .rne % 2 = 0) ∧
    y .rtz = t ∧
    y .rup = (if r = 0 ∨ neg = true then t else t + 1) ∧
    y .rdn = (if r = 0 ∨ neg = false then t else t + 1) ∧
    (r = 0 → y .rod = t ∧ y .rsr = t) ∧
    (r ≠ 0 → y .rod % 2 = 1 ∧ (y .rod = t ∨ y .rod = t + 1)) ∧
    (y .rsr = t ∨ y .rsr = t + 1) ∧ (y .rsr = t + 1 ↔ b * 2 ^ 32 ≤ r * 2 ^ 32 + u * b))

/-- 08 R205, R211, R214: sums, products and quotients of finite values are exact, and a value of a floating format that is
finite rounds to its own bits in every mode with no flag: rounding is the identity on what the format holds. -/
def Obligations.ExactArithmetic : Prop :=
  (∀ (rm : Rm) (a b : Ex), a.finite → b.finite →
    (exAdd rm a b).2 = 0 ∧ (exAdd rm a b).1.finite ∧ (exAdd rm a b).1.toRat = a.toRat + b.toRat ∧
    (exMul a b).2 = 0 ∧ (exMul a b).1.finite ∧ (exMul a b).1.toRat = a.toRat * b.toRat ∧
    (b.isZero = false → (exDiv a b).2 = 0 ∧ (exDiv a b).1.finite ∧ (exDiv a b).1.toRat = a.toRat / b.toRat)) ∧
  (∀ (f : Fmt) (sat : Bool) (rm : Rm) (u bits : Nat), fmtFloat f = true → bits < 2 ^ keepBits f → u < 2 ^ 32 →
    (decodeEx f bits).finite → roundFloat f sat rm u (decodeEx f bits) = (bits, 0))

/-- 06 R157 to R159, R376, 18 R406: a scalar load whose bytes are all on this device, may be read and hold no poison issues:
one access of its naturally aligned bytes, or one access for each byte in ascending order, enters stream S; nothing else
changes, and each of the seven loads retires. A byte that may not be read is the trap of the lowest such byte.
06 R157 to R160: a scalar store writes no byte when it issues: one access of its naturally aligned bytes, or one for each
byte in ascending order, enters stream S with the low bytes of its source, lowest first, and each of the four stores retires. A byte that may not be written, or
that lies on another device (cause 8), is the trap of the lowest such byte, and nothing is issued.
Where the rules leave room, the statement follows the model's readings of logs 11, 16, 23 and 68. -/
def Obligations.ScalarAccessIssue : Prop :=
  (∀ (i : Instr) (s : State) (d a : SReg) (off : BitVec 12) (n : Nat) (sg : Bool) (pas : List Nat),
    loadForm i = some (d, a, off, n, sg) → s.ready [a, d] = true → s.h.waitAt = none →
    let va : Word := .ofInt 64 ((s.rs a).toInt + off.toInt)
    (s.readTargets va n = .ok (pas.map .loc) → s.clean pas → Completes i s fun t =>
      s.onlyIssue t [] ∧ s.sameMemory t ∧ t.h.fences = s.h.fences ∧
      t.h.sq = s.h.sq ++ (if va.toNat % n = 0 then [s.access 0 va (.read (.sreg d n sg) pas)]
        else (List.range n).map fun k => s.access 0 (va + .ofNat 64 k) (.read (.part d k n sg) [pas[k]?.getD 0]))) ∧
    (∀ t, s.readTargets va n = .error t → s.walkHeld 0 t.cause = false → t.cause ≠ 19 → exec i s = .next (s.trap t)) ∧
    (∀ t, s.readTargets va n = .error t → ∃ k, k < n ∧ t.eidx = 0 ∧
      (if (canonical (va + .ofNat 64 k) && (s.inWindow s.myPart (va + .ofNat 64 k)).isSome) = true
        then t = ⟨8, va + .ofNat 64 k, 0⟩
        else s.accessByte s.hid s.h.sup .read (va + .ofNat 64 k) = .error t) ∧
      ∀ j, j < k → ∃ x, s.accessByte s.hid s.h.sup .read (va + .ofNat 64 j) = .ok x) ∧
    ∀ x ∈ [(Instr.lb d a off, 1), (.lh d a off, 2), (.lw d a off, 4), (.ld d a off, 8), (.lbn d a off, 1), (.lhn d a off, 2), (.lwn d a off, 4)],
      s.readTargets va x.2 = .ok (pas.map .loc) → s.clean pas → Retires x.1 s) ∧
  (∀ (i : Instr) (s : State) (b a : SReg) (off : BitVec 12) (n : Nat) (pas : List Nat),
    storeForm i = some (b, a, off, n) → s.ready [a, b] = true →
    let va : Word := .ofInt 64 ((s.rs a).toInt + off.toInt)
    let byte (k : Nat) : Byte := .ofNat 8 ((s.rs b).toNat / 256 ^ k)
    (s.writeTargets va n = .ok pas → pas.length = n ∧ Completes i s fun t =>
      s.onlyIssue t [] ∧ s.sameMemory t ∧ t.h.fences = s.h.fences ∧
      t.h.sq = s.h.sq ++ (if va.toNat % n = 0 then [s.access 0 va (.write pas ((List.range n).map byte))]
        else (List.range n).map fun k => s.access 0 (va + .ofNat 64 k) (.write [pas[k]?.getD 0] [byte k]))) ∧
    (∀ t, s.writeTargets va n = .error t → s.walkHeld 0 t.cause = false → t.cause ≠ 19 → exec i s = .next (s.trap t)) ∧
    (∀ dev pa, s.accessByte s.hid s.h.sup .write va = .ok (.remote dev pa) → exec i s = .next (s.trap ⟨8, va, 0⟩)) ∧
    ∀ x ∈ [(Instr.sb b a off, 1), (.sh b a off, 2), (.sw b a off, 4), (.sd b a off, 8)], s.writeTargets va x.2 = .ok pas → Retires x.1 s)

/-- 05 R130 to R132, R140: a write of consecutive bytes of memory that performs, on pages of which no cask owes a copy (18 R410), is the last write in coherence order at each
of its bytes, is read at once by its own cluster (by every cluster when it is SC), changes no other byte and no other view,
and leaves its queue. An access whose check fails as it performs changes no memory, leaves its queue and, but for a read that its
instruction still waits for, becomes an event of its hart (log 73).
05 R131, R132, 06 R157, 18 R406, R407: a scalar read of memory that performs puts the bytes its cluster's view holds in its
register, little-endian and extended as the load says, and changes no memory and no other register. A word that has come to hold
poison since the issue changes no register: it is logged and becomes an event of cause 19 (log 73).
Where the rules leave room, the statement follows the model's readings of logs 73 and 105. -/
def Obligations.PerformAccess : Prop :=
  (∀ (s : State) (n strm pa : Nat) (a : Access) (data : List Byte), n < 2048 → strm < 16 →
    s.mayPerform n strm = some a → (s.hart n).lates = [] →
    (∀ f, s.freshOp n a = .error f → f.cause ≠ 19 → (match a.op with
        | .read (.sreg ..) _ | .read (.velem ..) _ | .read (.tile ..) _ => True
        | .read .. | .readRemote .. => False
        | _ => True) → (s.hart n).run = .running → (s.hart n).events.length < 8 →
      Completes (.performAccess n strm) s fun t => s.sameMemory t ∧ (t.hart n).sq = dropHead strm (s.hart n).sq ∧
        (t.hart n).events = (s.hart n).events ++ [⟨f.cause, f.tval⟩] ∧ ∀ m, m ≠ n → t.hart m = s.hart m) ∧
    (s.freshOp n a = .ok (.write (List.range' pa data.length) data) → a.shadows = [] → data ≠ [] →
    (∀ f ∈ pagesOf pa data.length, ∀ p, p < 8 → (s.part p).cask.owes f = false) → pa + data.length ≤ 0x10020000000 → Completes (.performAccess n strm) s fun t =>
      (∀ x, t.lastByte x = if pa ≤ x then (data[x - pa]?).getD (s.lastByte x) else s.lastByte x) ∧
      (∀ g x, g < 64 → t.viewByte g x =
        if (g = hartCluster n ∨ a.sc = true) ∧ pa ≤ x then (data[x - pa]?).getD (s.viewByte g x) else s.viewByte g x) ∧
      (t.hart n).sq = dropHead strm (s.hart n).sq ∧ (t.hart n).s = (s.hart n).s ∧ (t.hart n).v = (s.hart n).v ∧
      ∀ m, m ≠ n → t.hart m = s.hart m)) ∧
  (∀ (s : State) (n strm k : Nat) (a : Access) (d r : SReg) (sg : Bool) (pas : List Nat), n < 2048 → strm < 16 →
    s.mayPerform n strm = some a → (s.hart n).lates = [] → s.freshOp n a = .ok (.read (.sreg d k sg) pas) → (∀ pa ∈ pas, pa < 0x10020000000) →
    (∀ w, s.poisonWord pas = some w → (s.hart n).run = .running → (s.hart n).events.length < 8 →
      Completes (.performAccess n strm) s fun t => (t.hart n).s = (s.hart n).s ∧ s.sameMemory t ∧
        (t.hart n).events = (s.hart n).events ++ [⟨19, .ofNat 64 (8 * w)⟩] ∧ (t.hart n).sq = dropHead strm (s.hart n).sq ∧
        SMap.get none t.errs s.errhead = some ⟨3, hartDie n, s.hartPart n, .ofNat 64 (8 * w), s.timebase, .ofNat 64 n⟩) ∧
    (s.clean pas → Completes (.performAccess n strm) s fun t =>
      let x := leValue (pas.map (s.viewByte (hartCluster n)))
      let bits := 8 * pas.length
      (t.hart n).getS r = (if r = 0 then 0 else if r = d then
        (if sg = true ∧ 2 ^ bits ≤ 2 * x then .ofInt 64 ((x : Int) - (2 ^ bits : Nat)) else .ofNat 64 x)
        else (s.hart n).getS r) ∧
      (t.hart n).sq = dropHead strm (s.hart n).sq ∧ (t.hart n).v = (s.hart n).v ∧ s.sameMemory t ∧
      ∀ m, m ≠ n → t.hart m = s.hart m))

/-- 06 R161 to R163: an AMO on a doubleword of this device that may be read and written and holds no poison issues one access,
with the order and scope of its bits and, for an acquire, the fence that holds later accesses; a misaligned address and
another device raise cause 8, and AMOFADD raises cause 12 under FCTL.DET; otherwise each of the eleven retires.
06 R161 to R163: LDO and STO on a doubleword of this device issue one access of eight bytes; LDO with order 10 adds a
release fence, STO with order 01 an acquire fence after its write, and any other order is in the access.
Where the rules leave room, the statement follows the model's readings of logs 16 and 37. -/
def Obligations.AtomicAndOrderedIssue : Prop :=
  (∀ (i : Instr) (s : State) (op : AmoOp) (sc : Scope) (o : Order) (d a b : SReg) (pa : Nat),
    amoForm i = some (op, sc, o, d, a, b) → s.ready [a, b, d] = true →
    let va := s.rs a
    let x : Access := { s.access 0 va (.amo op d pa (s.rs b) (s.rs d)) with
      acq := match o with | .plain => none | .acq => some sc | .rel => none | .sc => some .dev
      rel := match o with | .plain => none | .acq => none | .rel => some sc | .sc => some .dev
      sc := o == .sc }
    (op = .fadd → s.h.fctl.getLsbD 3 = true → exec i s = .next (s.trap ⟨12, encodeWord i, 0⟩)) ∧
    (¬ (op = .fadd ∧ s.h.fctl.getLsbD 3 = true) →
      (va.toNat % 8 ≠ 0 → exec i s = .next (s.trap ⟨8, va, 0⟩)) ∧
      (∀ t, s.amoTarget va true true = .error t → t.cause = 9 → exec i s = .next (s.trap ⟨8, va, 0⟩)) ∧
      (∀ dev p, s.amoTarget va true true = .ok (.remote dev p) → exec i s = .next (s.trap ⟨8, va, 0⟩)) ∧
      (s.amoTarget va true true = .ok (.loc pa) → (isAlias pa || s.imageShut pa) = true →
        exec i s = .next (s.trap ⟨8, va, 0⟩)) ∧
      (s.amoTarget va true true = .ok (.loc pa) → (isAlias pa || s.imageShut pa) = false → s.clean [pa] →
        Completes i s fun t => s.onlyIssue t [] ∧ s.sameMemory t ∧ t.h.sq = s.h.sq ++ [x] ∧
          t.h.fences = s.h.fences ++ (match x.acq with | some l => [⟨s.h.nextSeq, .acquire l⟩] | none => []))) ∧
    (s.amoTarget va true true = .ok (.loc pa) → (isAlias pa || s.imageShut pa) = false → s.clean [pa] →
      (∀ j ∈ [Instr.amoswp sc o d a b, .amoadd sc o d a b, .amoand sc o d a b, .amoor sc o d a b, .amoxor sc o d a b, .amomin sc o d a b,
        .amomax sc o d a b, .amominu sc o d a b, .amomaxu sc o d a b, .amocas sc o d a b], Retires j s) ∧
      (s.h.fctl.getLsbD 3 = false → Retires (.amofadd sc o d a b) s))) ∧
  (∀ (s : State) (sc : Scope) (o : Order) (d a b : SReg) (pa : Nat), s.ready [a, b, d] = true → s.h.waitAt = none →
    let va := s.rs a
    let acq := match o with | .acq => some sc | .sc => some Scope.dev | _ => none
    let rel := match o with | .rel => some sc | .sc => some Scope.dev | _ => none
    let pas := List.range' pa 8
    (s.amoTarget va true false = .ok (.loc pa) → s.clean [pa] → Completes (.ldo sc o d a) s fun t =>
      s.onlyIssue t [] ∧ s.sameMemory t ∧
      t.h.sq = s.h.sq ++ [{ s.access 0 va (.read (.sreg d 8 false) pas) with acq := acq, rel := rel, sc := o == .sc }] ∧
      t.h.fences = s.h.fences ++ (match acq with | some l => [⟨s.h.nextSeq, .acquire l⟩] | none => []) ++
        (if o = .rel then [⟨s.h.nextSeq, .full sc false true⟩] else [])) ∧
    (s.amoTarget va false true = .ok (.loc pa) → s.imageShut pa = false → Completes (.sto sc o a b) s fun t =>
      s.onlyIssue t [] ∧ s.sameMemory t ∧
      t.h.sq = s.h.sq ++ [{ s.access 0 va (.write pas (leBytes 8 (s.rs b).toNat)) with
        acq := if o = .sc then some .dev else none, rel := rel, sc := o == .sc }] ∧
      t.h.fences = s.h.fences ++ (if o = .sc then [⟨s.h.nextSeq, .acquire .dev⟩] else []) ++
        (if o = .acq then [⟨s.h.nextSeq, .afterStore sc⟩] else [])) ∧
    (s.amoTarget va true false = .ok (.loc pa) → s.clean [pa] → Retires (.ldo sc o d a) s) ∧
    (s.amoTarget va false true = .ok (.loc pa) → s.imageShut pa = false → Retires (.sto sc o a b) s) ∧
    (va.toNat % 8 ≠ 0 → exec (.ldo sc o d a) s = .next (s.trap ⟨8, va, 0⟩) ∧ exec (.sto sc o a b) s = .next (s.trap ⟨8, va, 0⟩)))

/-- 06 R162, 05 R132: an atomic operation on memory that performs, where the word is not poisoned and no cask owes a copy of its page,
reads the last writes in coherence order, puts the old
doubleword in sd and, but for a compare that fails, writes the new one over exactly its eight bytes. -/
def Obligations.PerformAtomic : Prop :=
  ∀ (s : State) (n strm pa : Nat) (a : Access) (op : AmoOp) (d : SReg) (sb cmp : Word), n < 2048 → strm < 16 →
    s.mayPerform n strm = some a → (s.hart n).lates = [] → s.freshOp n a = .ok (.amo op d pa sb cmp) → pa + 8 ≤ 0x10020000000 → pa % 8 = 0 →
    s.clean [pa] → (∀ p, p < 8 → (s.part p).cask.owes (pa / 65536) = false) →
    let old : Word := .ofNat 64 (leValue ((List.range' pa 8).map s.lastByte))
    let new : Word := match op with
      | .swp => sb
      | .add => .ofNat 64 (old.toNat + sb.toNat)
      | .and => old &&& sb
      | .or => old ||| sb
      | .xor => old ^^^ sb
      | .min => .ofInt 64 (min old.toInt sb.toInt)
      | .max => .ofInt 64 (max old.toInt sb.toInt)
      | .minu => .ofNat 64 (min old.toNat sb.toNat)
      | .maxu => .ofNat 64 (max old.toNat sb.toNat)
      | .cas => if old = cmp then sb else old
      | .fadd => .ofNat 64 (roundFloat .f64 false .rne 0 (exAdd .rne (decodeEx .f64 old.toNat) (decodeEx .f64 sb.toNat)).1).1
    Completes (.performAccess n strm) s fun t =>
      (∀ x, t.lastByte x = if pa ≤ x ∧ x < pa + 8 then .ofNat 8 (new.toNat / 256 ^ (x - pa)) else s.lastByte x) ∧
      (∀ r, (t.hart n).getS r = if r = 0 then 0 else if r = d then old else (s.hart n).getS r) ∧
      (op ≠ .fadd → (t.hart n).fflags = (s.hart n).fflags) ∧ (t.hart n).v = (s.hart n).v ∧
      ∀ m, m ≠ n → t.hart m = s.hart m

/-- 05 R142, R144, R145: FENCE, FENCE.SV, FENCE.VS and SBAR leave a fence and retire at once; SBAR ignores streams 12 to 15 and,
with a mask of zero, does nothing.
05 R138, R143, R144, R145: which later accesses an incomplete fence holds: a FENCE with its acquire bit every access of
the pipe streams and without it the writes; FENCE.SV streams 1 to 11 and FENCE.VS stream 0; SBAR the pipe streams of its
mask; an acquire every pipe access. A held access does not perform, and draws no ticket.
The encodings of R142: major 0x11; a scope of 5 to 7, neither bit, a field not named that is not zero, and f3 4 to 7 raise cause 1. -/
def Obligations.Fences : Prop :=
  (∀ (s : State) (sc : Scope) (acq rel : Bool) (a : SReg),
    let left (k : FenceKind) : Out := .next (({ s with h := { s.h with fences := s.h.fences ++ [⟨s.h.nextSeq, k⟩] } } : State).retire 4)
    let m : BitVec 32 := (s.rs a).setWidth 32
    exec (.fence sc acq rel) s = left (.full sc acq rel) ∧ exec .fenceSv s = left .sv ∧ exec .fenceVs s = left .vs ∧
    (s.ready [a] = true → exec (.sbar a) s = if m = 0 then .next (s.retire 4) else left (.sbar m))) ∧
  (∀ (s : State) (n strm : Nat) (f : Fence) (a : Access), n < 2048 → strm < 12 → (s.hart n).head strm = some a →
    f ∈ (s.hart n).fences → f.seq < a.seq → s.fenceDone n f = false → a.strm = strm →
    (match f.kind with
      | .full _ acq _ => acq = true ∨ a.op.isWrite = true
      | .sv => 1 ≤ strm
      | .vs => strm = 0
      | .sbar m => m.getLsbD strm = true
      | _ => True) →
    exec (.ticket n strm) s = .next s ∧ s.mayPerform n strm = none) ∧
  (∀ (d a : SReg) (acq rel : Bool) (n f : Nat), n < 4096 →
    (∀ p ∈ [(0, Scope.core), (1, .clu), (2, .die), (3, .dev), (4, .dom)], acq = true ∨ rel = true →
      decode32 (wordSI 0x11 0 0 0 (p.1 + 8 * acq.toNat + 16 * rel.toNat)) = some (.fence p.2 acq rel)) ∧
    (5 ≤ n % 8 ∨ n / 8 % 4 = 0 ∨ 32 ≤ n ∨ d ≠ 0 ∨ a ≠ 0 → Unencoded (wordSI 0x11 d a 0 n)) ∧
    decode32 (wordSI 0x11 0 0 1 0) = some .fenceSv ∧ decode32 (wordSI 0x11 0 0 2 0) = some .fenceVs ∧
    decode32 (wordSI 0x11 0 a 3 0) = some (.sbar a) ∧
    (n ≠ 0 ∨ d ≠ 0 ∨ a ≠ 0 → Unencoded (wordSI 0x11 d a 1 n) ∧ Unencoded (wordSI 0x11 d a 2 n)) ∧
    (n ≠ 0 ∨ d ≠ 0 → Unencoded (wordSI 0x11 d a 3 n)) ∧ (4 ≤ f → f < 8 → Unencoded (wordSI 0x11 d a f n)))

/-- 06 R164: WAITV answers 1 in sd when the word it has read meets its condition, and 0 when its timeout, at most 2^32 - 1
cycles from its issue, has passed first; until then it waits at the instruction and reads again. A word of another device is
cause 8 (06 R161). -/
def Obligations.WaitOnValue : Prop :=
  (∀ (s : State) (c : Cond) (d a b : SReg) (dev pa : Nat), s.ready [a, b, d] = true → s.h.got = [] → s.h.gotBad = [] →
    s.h.sq.any s.h.isWordRead = false → s.amoTarget (s.rs a) true false = .ok (.remote dev pa) →
    exec (.waitv c d a b) s = .next (s.trap ⟨8, s.rs a, 0⟩)) ∧
  ∀ (s : State) (c : Cond) (d a b : SReg) (v : Word) (began : Nat), s.ready [a, b, d] = true →
    s.h.waitAt = some began → s.h.got.find? (·.1 == 0) = some (0, v) →
    let y := s.rs b
    let meets : Prop := match c with
      | .eq => v = y
      | .ne => v ≠ y
      | .lt => v.toInt < y.toInt
      | .ge => y.toInt ≤ v.toInt
      | .ltu => v.toNat < y.toNat
      | .geu => y.toNat ≤ v.toNat
    let limit := min (s.rs d).toNat (2 ^ 32 - 1)
    (meets → exec (.waitv c d a b) s = s.wrote d 1) ∧
    (¬ meets → limit ≤ s.now - began → exec (.waitv c d a b) s = s.wrote d 0) ∧
    (meets ∨ limit ≤ s.now - began → Retires (.waitv c d a b) s) ∧
    (¬ meets → s.now - began < limit → s.h.sq.any s.h.isWordRead = true →
      exec (.waitv c d a b) s = .next { s with h := { s.h with waiting := true, blocked := some (s.h.blocked.getD s.now) } })

/-- 03 R78, R80, 04 R115: CSRR reads a register into sd; CSRW, and CSRS and CSRC with a source other than s0, also write it:
the source, or its old value with the source's bits set or cleared. A privileged register in program mode raises cause 8.
00 R9, 03 R78, 18 R395, 08 R229: what a CSR write leaves in each register: the bits the register implements, read back; a
change of SCALE counts EPOCH up; a read-only register keeps its value and the write changes nothing.
The encodings of R115: major 0x14 with the operation in f3 and csr12 in [31:20]; an unassigned number, and a CSRR whose sa is not
s0, raise cause 1. -/
def Obligations.CsrInstructions : Prop :=
  (∀ (s : State) (c : Csr) (d a : SReg), s.ready [d, a] = true → s.csrReady c true = true → s.csrReady c false = true →
    let old := s.csrValue s.hid c
    let x := s.rs a
    let put (v : Word) : Out := .next (((s.writeCsr c v).ws d old).retire 4)
    ((csrPriv c = true ∧ s.h.sup = false) → ∀ i ∈ [Instr.csrr d c, .csrw d c a, .csrs d c a, .csrc d c a],
      exec i s = .next (s.trap ⟨8, encodeWord i, 0⟩)) ∧
    (¬ (csrPriv c = true ∧ s.h.sup = false) →
      exec (.csrr d c) s = s.wrote d old ∧ exec (.csrw d c a) s = put x ∧
      exec (.csrs d c a) s = (if a = 0 then s.wrote d old else put (.ofNat 64 (old.toNat ||| x.toNat))) ∧
      exec (.csrc d c a) s = (if a = 0 then s.wrote d old else put (old &&& ~~~x)))) ∧
  (∀ (s : State) (c : Csr) (x : Word), s.h.sup = true →
    (∀ m, csrKeeps c = some m → ((s.writeCsr c x).csrValue s.hid c).toNat = x.toNat &&& m) ∧
    (∀ (i : Fin 6), c ∈ [Csr.vl, .vtype, .vcfg, .eidx, .vlmax, .lidx i, .stepno, .partid] → s.writeCsr c x = s) ∧
    (s.writeCsr .lscale x).h.scale = x.setWidth 32 ∧
    (s.writeCsr .lscale x).h.epoch = (if x.setWidth 32 = s.h.scale then s.h.epoch else s.h.epoch + 1)) ∧
  (∀ (d a : SReg) (n : Nat), n < 4096 →
    (∀ c, csrOf n = some c →
      decode32 (wordSI 0x14 d 0 0 n) = some (.csrr d c) ∧ decode32 (wordSI 0x14 d a 1 n) = some (.csrw d c a) ∧
      decode32 (wordSI 0x14 d a 2 n) = some (.csrs d c a) ∧ decode32 (wordSI 0x14 d a 3 n) = some (.csrc d c a) ∧
      (a ≠ 0 → Unencoded (wordSI 0x14 d a 0 n))) ∧
    (csrOf n = none → ∀ f, f < 8 → Unencoded (wordSI 0x14 d a f n)))

/-- 18 R396, R400: a synchronous trap outside a handler saves position, mode, interrupt enable, loop stack and SRSEQ, says why
in TCAUSE, TVAL and TEIDX, and goes to TVEC in supervisor mode with IE clear, TH set and no loop; it changes nothing else.
Inside a handler it is a double fault: the hart stops where it stands and kind 4 is logged.
15 R344, 18 R396: the return of TRET undoes trap entry: position, element, mode, interrupt enable, loop stack and SRSEQ are
those of the trapped instruction, TH is clear, and the saved registers and everything else are as they were. -/
def Obligations.TrapEntryAndReturn : Prop :=
  (∀ (s : State) (t : Trp) (conv : Bool) (drew : Option Word),
    let u := s.trapWith conv drew t
    (s.h.th = false →
      u.h.cause = .ofNat 6 t.cause ∧ u.h.casync = false ∧ u.h.tval = t.tval ∧ u.h.teidx = .ofNat 64 t.eidx ∧
      u.h.tpc = s.h.pc ∧ u.h.conv = conv ∧ u.h.pp = s.h.sup ∧ u.h.pie = s.h.ie ∧ u.h.ie = false ∧ u.h.th = true ∧
      u.h.loopsSaved = s.h.loops ∧ u.h.loops = [] ∧ u.h.srseqSaved = s.h.srseq ∧ u.h.sup = true ∧ u.h.eidx = 0 ∧
      u.h.pc = (s.part (s.partOf (s.hid / 32))).tvec ∧ s.sameBut Hart.trapOf u ∧
      (s.h.got = [] → ∀ q, u.h.queue q = s.h.queue q)) ∧
    (s.h.th = true →
      u.h.run = .stopped ∧ u.h.dfault = true ∧ u.h.stop = t.cause ∧ u.h.eidx = t.eidx ∧ u.h.pc = s.h.pc ∧ u.h.sup = s.h.sup ∧
      u.h.tpc = s.h.tpc ∧ u.h.cause = s.h.cause ∧ (∀ r, u.rs r = s.rs r) ∧ u.h.v = s.h.v ∧ s.sameMemory u ∧
      ∃ e : LogEntry, SMap.get none u.errs s.errhead = some e ∧ e.kind = 4 ∧ u.errhead = (s.errhead + 1) % 256)) ∧
  (∀ (s : State) (t : Trp) (conv : Bool), s.h.th = false → t.eidx < 65536 →
    let u := (s.trapWith conv none t).trapReturn
    u.h.pc = s.h.pc ∧ u.h.eidx = t.eidx ∧ u.h.sup = s.h.sup ∧ u.h.ie = s.h.ie ∧ u.h.loops = s.h.loops ∧
    u.h.srseq = s.h.srseq ∧ u.h.th = false ∧ (∀ r, u.rs r = s.rs r) ∧ u.h.k = s.h.k ∧ u.h.v = s.h.v ∧ u.h.acc = s.h.acc ∧
    u.h.tpc = s.h.pc ∧ u.h.tval = t.tval ∧ s.sameMemory u ∧ u.parts = s.parts ∧ u.others = s.others)

/-- 15 R344, 04 R125, 15 R345: the SYS members. ECALL and EBREAK trap; TRET returns, or is cause 4 when TPC is no parcel
address; EXIT ends the instance once older instructions and copies are done, and is blocked while a receive it posted has not
delivered; YIELD with nothing older outstanding but deliveries into leased registers stops the
hart to be saved where a candidate waits and the context pool has room, and has no effect otherwise.
Where the rules leave room, the statement follows the model's readings of logs 31 and 38. -/
def Obligations.SystemInstructions : Prop :=
  ∀ s : State,
    exec .ecall s = .next (s.trap ⟨if s.h.sup then 14 else 13, 0, 0⟩) ∧
    exec .ebreak s = .next (s.trap ⟨15, 0, 0⟩) ∧
    (s.h.sup = true → s.h.tpc.toNat % 4 = 0 → exec .tret s = .next s.trapReturn) ∧
    (s.h.sup = true → s.h.tpc.toNat % 4 ≠ 0 → exec .tret s = .next (s.trap ⟨4, s.h.tpc, 0⟩)) ∧
    (s.h.chanFaults = [] → s.h.sq = [] → s.olderDone = true → s.copiesDone s.hid = true → Completes .exit s fun t =>
      t.h.run = .idle ∧ t.h.inst = none ∧ t.h.pins = 0 ∧ t.h.deliveries = [] ∧ t.h.copies = [] ∧ t.h.binds = [] ∧
      t.h.loops = [] ∧ t.parts = s.parts ∧ (s.h.pins = 0 → s.sameMemory t) ∧
      (∀ x, x < 0x10100000000 → t.lastByte x = s.lastByte x ∧ ∀ g, t.viewByte g x = s.viewByte g x) ∧
      t.kernels = match s.h.inst with
        | none => s.kernels
        | some i => s.kernels.map fun k =>
            if k.token = i.token then { k with done := k.done + 1, harts := k.harts ++ [(s.hid, s.h.nextSeq + 1)] } else k) ∧
    (s.h.chanFaults = [] → s.h.sq = [] → s.olderDone = false → s.olderButLeases = true → s.h.postsDone s.h.nextSeq = false →
      exec .exit s = .next { s with h := { s.h with blocked := some (s.h.blocked.getD s.now), waiting := true } }) ∧
    (s.h.sq = [] → s.olderButLeases = true → (∀ k, s.kernelOf s.hid = some k →
      s.poolRoom s.myPart 1 = false ∨ (s.retire 4).yieldsTo s.hid k = none) → exec .yield s = .next (s.retire 4)) ∧
    (s.h.sq = [] → s.olderButLeases = true → ∀ k, s.kernelOf s.hid = some k → s.poolRoom s.myPart 1 = true →
      (s.retire 4).yieldsTo s.hid k ≠ none → Completes .yield s fun t =>
        t.h = { (s.retire 4).h with leaving := some { since := s.now, byYield := true } } ∧ t.others = s.others ∧ s.sameMemory t)

/-- 03 R80, 17 R373: in program mode every privileged instruction raises cause 8 with its encoding, before anything else. -/
def Obligations.PrivilegedInProgramMode : Prop :=
  ∀ (s : State) (i : Instr) (d a : SReg) (e : Fin 4) (c : Csr), s.h.sup = false → csrPriv c = true →
    i ∈ [Instr.tret, .tsync d a, .cask a, .pgpin a, .dgload e a, .dgstop e, .csrr d c, .csrw d c a, .csrs d c a, .csrc d c a] →
    exec i s = .next (s.trap ⟨8, encodeWord i, 0⟩) ∧
    (s.h.th = false → (s.trap ⟨8, encodeWord i, 0⟩).timebase = s.timebase ∧ (s.trap ⟨8, encodeWord i, 0⟩).tiers = s.tiers ∧
      (s.trap ⟨8, encodeWord i, 0⟩).engines = s.engines ∧ (s.trap ⟨8, encodeWord i, 0⟩).parts = s.parts)

/-- 04 R117, R118, R119, 01 R31, R37: VCONF with another register count, and VSETVL and VSETVLX with a geometry that changes in
lanes, segments, registers, tangents or container, zero the vector registers and end the bindings, and a pinned register forbids it
with cause 8; where only the format changes and its container stays, registers and bindings stay; the vector length is the least of the
request, the cap and VLMAX, whose formula is R31's; an illegal request, one whose VLMAX is less than the lanes too, sets VILL and zero
lengths. -/
def Obligations.VectorConfiguration : Prop :=
  ∀ (s : State) (nrc : BitVec 3) (sreq : BitVec 5) (d a b x : SReg) (vt : BitVec 9),
    (nrc = s.h.nrc → exec (.vconf nrc sreq) s = .next (({ s with h := { s.h with sreq := sreq.toNat } } : State).retire 4)) ∧
    (nrc ≠ s.h.nrc → ∀ v, s.h.lowestPin = some v → exec (.vconf nrc sreq) s = .next (s.trap ⟨8, .ofNat 64 v, 0⟩)) ∧
    (nrc ≠ s.h.nrc → s.h.lowestPin = none → s.h.vectorsDone = true → Completes (.vconf nrc sreq) s fun t =>
      t.h.v = [] ∧ t.h.binds = [] ∧ t.h.vill = true ∧ t.h.vl = 0 ∧ t.h.vlmax = 0 ∧ t.h.nrc = nrc ∧ t.h.sreq = sreq.toNat ∧
      t.h.k = s.h.k ∧ t.h.acc = s.h.acc ∧ s.sameMemory t) ∧
    (s.ready [d, a, b, x] = true → s.h.vectorsDone = true → s.h.loops = [] →
      let set (i : Instr) (vt : Nat) : Prop :=
        let newS := if vt.testBit 8 then s.h.sreq else s.h.sreg
        let tb := vt / 32 % 8
        let lanes := s.lanesOf s.hid
        let bundleOf (tb : Nat) : Nat := match tb with | 1 => 1 | 2 => 2 | 3 => 4 | 4 => 8 | 5 => 16 | _ => 0
        let vlmax (f : Fmt) : Nat := min 65536 (lanes * (newS * 8192 / (4 * 2 ^ s.h.nrc.toNat * (1 + bundleOf tb) * fmtBits f)))
        let cap (n : Nat) : Nat := if b = 0 then n else min (s.rs b).toNat n
        let holds (f : Fmt) : Prop := fmtOfCode (vt % 32) = some f ∧ f ≠ .f64 ∧ tb ≤ 5
        (∀ f, holds f → 0 < lanes → lanes ≤ vlmax f →
          let changes : Prop := s.h.vill = true ∨ newS ≠ s.h.sreg ∨ bundleOf tb ≠ bundleOf s.h.tb.toNat ∨
            fmtBits f ≠ s.h.ebits
          (∀ v, changes → s.h.lowestPin = some v → exec i s = .next (s.trap ⟨8, .ofNat 64 v, 0⟩)) ∧
          (¬ changes ∨ s.h.lowestPin = none → Completes i s fun t =>
            t.h.vill = false ∧ t.h.vlmax = vlmax f ∧ t.h.vl = min (s.rs a).toNat (cap (vlmax f)) ∧ t.h.sreg = newS ∧
            t.h.efmt.toNat = vt % 32 ∧ t.h.tb.toNat = tb ∧ t.rs d = (if d = 0 then 0 else .ofNat 64 t.h.vl) ∧
            s.sameScalars t [d] ∧ t.h.k = s.h.k ∧ s.sameMemory t ∧
            (¬ changes → t.h.v = s.h.v ∧ t.h.binds = s.h.binds) ∧ (changes → t.h.v = [] ∧ t.h.binds = []))) ∧
        (((∀ f, ¬ holds f) ∨ lanes = 0 ∨ ∃ f, holds f ∧ vlmax f < lanes) →
          (∀ v, s.h.vill = false ∨ newS ≠ s.h.sreg → s.h.lowestPin = some v → exec i s = .next (s.trap ⟨8, .ofNat 64 v, 0⟩)) ∧
          ((s.h.vill = true ∧ newS = s.h.sreg) ∨ s.h.lowestPin = none → Completes i s fun t =>
            t.h.vill = true ∧ t.h.vl = 0 ∧ t.h.vlmax = 0 ∧ t.h.sreg = newS ∧ t.rs d = 0 ∧ s.sameScalars t [d] ∧ t.h.k = s.h.k ∧
            s.sameMemory t ∧ (s.h.vill = false → t.h.v = [] ∧ t.h.binds = []) ∧ (s.h.vill = true → t.h.v = s.h.v ∧ t.h.binds = s.h.binds)))
      set (.vsetvl d a b vt) vt.toNat ∧ set (.vsetvlx d a b x) ((s.rs x).toNat % 512)) ∧
    (s.ready [d, a, b, x] = true → s.h.vectorsDone = true → s.h.lowestPin = none →
      Retires (.vsetvl d a b vt) s ∧ Retires (.vsetvlx d a b x) s)

/-- 13 R297, R301 to R304, 15 R346: LAUNCH of a record that is in order puts one kernel on the scoreboard with a new token, which
sd takes, and starts the listed transfers; a record address that is not a multiple of 64, and a record broken in layout,
raise cause 8 with the address.
Where the rules leave room, the statement follows the model's readings of logs 36, 86 and 100. -/
def Obligations.LaunchKernel : Prop :=
  ∀ (s : State) (d a : SReg) (l : List Nat) (xs : List (List Nat)), s.hid < 2048 → s.ready [d, a] = true → s.launchReady = true →
    let va := s.rs a
    let levels := recLevels l
    let seqn := (s.ctl s.myDie).nextSeqn % 2 ^ 40
    let moves (w : List Nat) : Bool := recBits w 128 32 != 0 &&
      !(s.targets s.myPart (recBits w 160 16) (recBits l 96 16) (s.spreadDies s.myDie levels).2).isEmpty
    (va.toNat % 64 ≠ 0 → exec (.launch d a) s = .next (s.trap ⟨8, va, 0⟩)) ∧
    (va.toNat % 64 = 0 → s.dieDelayed va 16 = false → s.dieWords va 0 16 = .ok l → recBad l = true → exec (.launch d a) s = .next (s.trap ⟨8, va, 0⟩)) ∧
    (va.toNat % 64 = 0 → s.dieDelayed va 16 = false → s.dieWords va 0 16 = .ok l → recBad l = false →
      s.dieDelayed (.ofNat 64 (recBits l 128 64)) (4 * recBits l 72 8) = false →
      s.listWords (.ofNat 64 (recBits l 128 64)) (recBits l 72 8) = .ok xs → (∀ e, e < 4 → (s.freeEntry e).isSome = true) →
      (∀ x, (s.ctl s.myDie).launched = some x → x.1 = s.now → x.2 ≤ s.hid) →
      (∀ e y, s.freeEntry s.myDie = some e → y ∈ s.kernels → y.token ≠ .ofNat 64 (e + 256 * s.myDie + 1024 * seqn)) →
      s.h.loops = [] → Completes (.launch d a) s fun t =>
        ∃ (k : Kernel) (e : Nat), s.freeEntry s.myDie = some e ∧ k ∈ t.kernels ∧ (∀ y ∈ t.kernels, y = k ∨ y ∈ s.kernels) ∧
          (∀ y ∈ s.kernels, y.state ≠ .complete → (y.state = .failed → y.seen = false) → y ∈ t.kernels) ∧ k.seen = false ∧ k.token = .ofNat 64 (e + 256 * s.myDie + 1024 * seqn) ∧ k.part = s.myPart ∧ k.entry = .ofNat 64 (recBits l 0 64) ∧
          k.prio = recBits l 64 2 ∧ k.toCome = recBits l 80 8 ∧ k.notResident = (xs.filter moves).length ∧ k.done = 0 ∧
          k.total = ((levels.filter fun x => x.1 != 0).map (·.2)).foldl (· * ·) 1 ∧
          k.state = (if recBits l 80 8 = 0 ∧ xs.filter moves = [] then .issuable else .waiting) ∧
          t.transfers.length = s.transfers.length + (xs.filter moves).length ∧ (t.ctl s.myDie).nextSeqn = (seqn + 1) % 2 ^ 40 ∧
          t.rs d = (if d = 0 then 0 else k.token) ∧ s.sameScalars t [d] ∧ t.h.v = s.h.v ∧ s.sameMemory t)

/-- 13 R302, R304, R305, 15 R346: KSEND starts a transfer for a kernel with transfers still to come; KWAIT goes on when the
kernel is COMPLETE or FAILED or the token stale; KSTAT reads the state at once; a failure so observed frees the kernel's entries, and
its token reads FAILED still. A token with bits [63:50] set is cause 8.
Where the rules leave room, the statement follows the model's readings of logs 36, 86, 100 and 101. -/
def Obligations.KernelTransfersAndStatus : Prop :=
  ∀ (s : State) (d a : SReg) (l : List Nat) (k : Kernel), s.ready [d, a] = true →
    let x := s.rs a
    let token : Word := .ofNat 64 (recBits l 192 64)
    (2 ^ 50 ≤ x.toNat → exec (.kwait a) s = .next (s.trap ⟨8, x, 0⟩) ∧ exec (.kstat d a) s = .next (s.trap ⟨8, x, 0⟩)) ∧
    (x.toNat < 2 ^ 50 → s.kernel? s.myPart x = none → exec (.kstat d a) s = s.wrote d 0 ∧
      exec (.kwait a) s = .next (({ s with h := { s.h with fences := s.h.fences ++ [⟨s.h.nextSeq, .acquire .dev⟩] } } : State).retire 4)) ∧
    (x.toNat < 2 ^ 50 → s.kernel? s.myPart x = some k →
      let seen : State := if k.state = .failed then
        { s with kernels := s.kernels.map fun y => if y.token = k.token then { y with seen := true } else y } else s
      exec (.kstat d a) s = .next ((seen.ws d (s.statusWord k)).retire 4) ∧
      (k.state = .complete ∨ k.state = .failed → exec (.kwait a) s =
        .next (({ seen with h := { s.h with fences := s.h.fences ++ [⟨s.h.nextSeq, .acquire .dev⟩] } } : State).retire 4)) ∧
      (k.state ≠ .complete → k.state ≠ .failed →
        exec (.kwait a) s = .next { s with h := { s.h with blocked := some (s.h.blocked.getD s.now), waiting := true } })) ∧
    let moves (k : Kernel) : Bool := recBits l 128 32 != 0 && !(s.targets s.myPart (recBits l 160 16) k.cmask k.liveDies).isEmpty
    (s.launchReady = true → x.toNat % 32 = 0 → s.dieDelayed x 4 = false → s.dieWords x 0 4 = .ok l → descriptorBad l false = false → token.toNat < 2 ^ 50 →
      (s.kernel? s.myPart token = none → exec (.ksend a) s = .next (s.trap ⟨8, token, 0⟩)) ∧
      (s.kernel? s.myPart token = some k →
        (k.state = .failed → exec (.ksend a) s = .next (s.retire 4)) ∧
        (k.state ≠ .failed → k.toCome = 0 → exec (.ksend a) s = .next (s.trap ⟨8, token, 0⟩)) ∧
        (∀ e, k.state ≠ .failed → k.toCome ≠ 0 → s.freeEntry s.myDie = some e → Completes (.ksend a) s fun t =>
          (moves k = true → t.kernels = s.kernels.map (fun y => if y.token = token then
              { y with toCome := y.toCome - 1, notResident := y.notResident + 1 } else y) ∧
            ∃ z : Transfer, t.transfers = s.transfers ++ [z] ∧ z.token = token ∧ z.src = .ofNat 64 (recBits l 0 64) ∧
              z.len = recBits l 128 32 ∧ z.viaKsend = some e) ∧
          (moves k = false → t.transfers = s.transfers ∧ t.kernels = s.kernels.map (fun y => if y.token = token then
              ({ y with toCome := y.toCome - 1 } : Kernel).ready s.now else y)) ∧
          s.sameMemory t ∧ s.sameScalars t [])))

/-- 06 R188, R189, R196: CPY issues a copy of VL elements of the element format from the source to the destination, or to the
queue its channel feeds; it takes no element and no wait of its own but for 512 copies in flight. CDRAIN retires when every
copy of its channel is complete, and reports the channel's fault.
06 R190 to R192: CNEST, once the words of its descriptor have been read, issues the nested copy they describe, or raises
cause 8 with the descriptor's address when they break its layout; a misaligned descriptor is cause 8.
Where the rules leave room, the statement follows the model's readings of logs 28, 36 and 90. -/
def Obligations.Copies : Prop :=
  (∀ (s : State) (ch : Fin 16) (d a : SReg), s.ready [d, a] = true →
    let n := if s.h.vill then 0 else s.h.vl
    let esize := if s.h.ebits = 4 then 0 else s.h.ebits / 8
    (d = 0 → s.h.fedQueue ch = none → exec (.cpy ch d a) s = .next (s.trap ⟨8, .ofNat 64 ch, 0⟩)) ∧
    ((d = 0 → (s.h.fedQueue ch).isSome = true) → n ≠ 0 → s.copiesInFlight s.hid < 512 →
      (d ≠ 0 → s.remoteByte (s.rs d).toNat ((s.rs d).toNat + spanBytes esize n - 1) = none) →
      Completes (.cpy ch d a) s fun t => ∃ c : Copy, t.h.copies = s.h.copies ++ [c] ∧ c.chan = ch.val ∧ c.seq = s.h.nextSeq ∧ c.src = s.rs a ∧
        c.dst = s.rs d ∧ c.zsrc = (a == 0) ∧ c.dest = (if d = 0 then .queue else .mem) ∧ c.total = n ∧ c.pos = 0 ∧ c.esize = esize ∧
        c.dims = [⟨n, esize, esize⟩] ∧ c.sup = s.h.sup ∧ t.h.v = s.h.v ∧ t.h.sq = s.h.sq ∧ s.sameMemory t ∧ s.sameScalars t []) ∧
    (∀ f, s.h.chanFault ch = some f → exec (.cdrain ch) s = .next (s.chanTrap ch 0 f)) ∧
    (s.h.chanFault ch = none → (∀ c ∈ s.h.copies, c.chan = ch.val → s.copyDone s.hid c = true) → Completes (.cdrain ch) s fun t =>
      (∀ c, c ∈ t.h.copies ↔ c ∈ s.h.copies ∧ c.chan ≠ ch.val) ∧ t.h.v = s.h.v ∧ s.sameMemory t ∧ s.sameScalars t []) ∧
    (s.h.chanFault ch = none → (∃ c ∈ s.h.copies, c.chan = ch.val ∧ s.copyDone s.hid c = false) →
      exec (.cdrain ch) s = .next { s with h := { s.h with blocked := some (s.h.blocked.getD s.now), waiting := true } })) ∧
  (∀ (s : State) (ch : Fin 16) (a : SReg), s.ready [a] = true →
    let va := s.rs a
    let c := s.descCopy ch s.h.word
    (va.toNat % 8 ≠ 0 → exec (.cnest ch a) s = .next (s.trap ⟨8, va, 0⟩)) ∧
    (va.toNat % 8 = 0 → s.h.waitAt.isSome = true → s.h.sq.any s.h.isWordRead = false → s.h.wordFault = none →
      (s.descBad s.h.word = true → exec (.cnest ch a) s = .next (s.trap ⟨8, va, 0⟩)) ∧
      (s.descBad s.h.word = false → (c.dest = .queue → (s.h.fedQueue ch).isSome = true) → c.total ≠ 0 →
        s.copiesInFlight s.hid < 512 → Completes (.cnest ch a) s fun t =>
          t.h.copies = s.h.copies ++ [c] ∧ t.h.v = s.h.v ∧ t.h.sq = s.h.sq ∧ s.sameMemory t ∧ s.sameScalars t [])) ∧
    c.chan = ch.val ∧ c.src = s.h.word 1 ∧ c.total = ((descDims s.h.word).map (·.ext)).foldl (· * ·) 1 ∧ c.seq = s.h.nextSeq)

/-- 05 R149, R150, 06 R197, R198: SHADOW opens the shadow of a registered handle with no page yet, of one closed before too; PUBLISH and
the publish move make its shadow pages live, leave every other page where it was, advance the generation and close it; an unregistered
handle, and one already open or not open, is cause 8 with the handle; a PUBLISH whose write an empty pool holds is blocked.
06 R183 to R185: queues. QPUSH and QPOP issue one access to the queue's home stream; a push that performs appends and a pop
takes the oldest entry; a queue a channel feeds takes no push; QBIND names the home stream or the feeding channel, and a
channel that feeds another queue is cause 8.
Where the rules leave room, the statement follows the model's readings of logs 29, 36, 74, 75, 76, 77 and 104. -/
def Obligations.ShadowsAndQueues : Prop :=
  (∀ (s : State) (a : SReg) (base : Word) (pages : Nat) (b c : Buf), s.ready [a] = true → s.h.publishing = none →
    let x := s.rs a
    let p := s.myPart
    let found : Option Buf := s.bufs.find? fun y => y.part == p && y.handle == x.toNat
    let blocked : Out := .next { s with h := { s.h with blocked := some (s.h.blocked.getD s.now), waiting := true } }
    let swaps (t : State) : Prop :=
      (∀ y ∈ t.bufs, y.part = p → y.handle = x.toNat → y.shadow = none ∧ y.gen = b.gen + 1) ∧
      ((∀ y ∈ s.bufs, y.part = p → y.handle = x.toNat → y = b) → (∀ y ∈ b.shadow.getD [], (s.liveFrame b y.1).isSome = true) →
        ∀ va pa y i, s.bufferAt p va = some (y, i) → t.liveAddr p va pa =
          match (if y = b then (b.shadow.getD []).find? (·.1 == i) else none) with
          | some f => 65536 * f.2 + pa % 65536
          | none => s.liveAddr p va pa) ∧
      s.sameMemory t ∧ t.h.v = s.h.v ∧ ∀ r, t.rs r = s.rs r
    (65536 ≤ x.toNat ∨ s.handleEntry p x.toNat = none → exec (.shadow a) s = .next (s.trap ⟨8, x, 0⟩) ∧
      exec (.publish a) s = .next (s.trap ⟨8, x, 0⟩)) ∧
    (x.toNat < 65536 → s.handleEntry p x.toNat = some (base, pages) →
      (s.openBuf p x.toNat = none → exec (.publish a) s = .next (s.trap ⟨8, x, 0⟩)) ∧
      (found = none → Completes (.shadow a) s fun t => t.bufs = s.bufs ++ [⟨p, x.toNat, base, pages, 0, [], some []⟩] ∧
        s.sameMemory t ∧ s.sameScalars t [] ∧ t.h.v = s.h.v) ∧
      (found = some c → c.shadow.isSome = true → exec (.shadow a) s = .next (s.trap ⟨8, x, 0⟩)) ∧
      (found = some c → c.shadow = none → Completes (.shadow a) s fun t =>
        t.bufs = s.bufs.map (fun y => if y.part = p ∧ y.handle = x.toNat then { c with base := base, pages := pages, shadow := some [] } else y) ∧
        s.sameMemory t ∧ s.sameScalars t [] ∧ t.h.v = s.h.v)) ∧
    (x.toNat < 65536 → s.handleEntry p x.toNat = some (base, pages) → s.openBuf p x.toNat = some b →
      (∀ c f, s.h.shadowFault b = some (c, f) → exec (.publish a) s = .next (s.chanTrap c 0 f)) ∧
      (s.h.shadowFault b = none → s.shadowDone b = false →
        exec (.publish a) s = if s.poolStalls b then blocked else .next s.pause) ∧
      (s.h.shadowFault b = none → s.shadowDone b = true →
        (s.publishOpen b = true → s.h.loops = [] → Completes (.publish a) s fun t => swaps t ∧ t.h.nextSeq = s.h.nextSeq + 1) ∧
        (s.publishOpen b = false → exec (.publish a) s =
          .next ({ s with h := { s.h with publishing := some (x.toNat, false) } } : State).pause))) ∧
    (∀ asked : State, asked = { s with h := { s.h with publishing := some (x.toNat, false) } } → asked.openBuf p x.toNat = some b →
      asked.shadowDone b = true → asked.publishOpen b = true → Completes (.publishMove p x.toNat) asked fun t =>
        t.h.publishing = some (x.toNat, true) ∧ exec (.publish a) t = .next (t.retire 4) ∧ swaps t)) ∧
  (∀ (s : State) (q : Fin 8) (a d : SReg) (t : QTarget) (n strm : Nat) (x : Access) (v : Word), s.ready [a, d] = true →
    let y := s.h.queue q
    (y.chan = none → Completes (.qpush q a) s fun u => s.onlyIssue u [] ∧ s.sameMemory u ∧
      u.h.sq = s.h.sq ++ [s.access y.home 0 (.push q (s.rs a))]) ∧
    (y.chan ≠ none → exec (.qpush q a) s = .next (s.trap ⟨8, .ofNat 64 q, 0⟩)) ∧
    (s.h.popIssueFault q 1 = none → s.h.poison = [] → Completes (.qpop d q) s fun u => s.onlyIssue u [] ∧ s.sameMemory u ∧
      u.h.sq = s.h.sq ++ [s.access y.home 0 (.popS q d)]) ∧
    (n < 2048 → strm < 16 → (s.hart n).lates = [] → s.mayPerform n strm = some x →
      (x.op = .push q v → Completes (.performAccess n strm) s fun u =>
        ((u.hart n).queue q).entries = ((s.hart n).queue q).entries ++ [v] ∧ s.sameMemory u) ∧
      (x.op = .popS q d → ∀ e rest, ((s.hart n).queue q).entries = e :: rest → Completes (.performAccess n strm) s fun u =>
        ((u.hart n).queue q).entries = rest ∧ (d ≠ 0 → (u.hart n).getS d = e) ∧ s.sameMemory u)) ∧
    (∀ c, t = .chan c → (∃ r : Nat, r < 8 ∧ r ≠ q ∧ (s.h.queue r).chan = some c.val) →
      exec (.qbind q t) s = .next (s.trap ⟨8, .ofNat 64 q, 0⟩)) ∧
    ((∀ c r, t = .chan c → r < 8 → r ≠ q.val → (s.h.queue r).chan ≠ some c.val) → (s.h.sq.any fun z => z.op.onQueue q) = false →
      (∀ c ∈ s.h.copies, y.chan = some c.chan → s.copyDone s.hid c = true) → Completes (.qbind q t) s fun u =>
        u.h.queue q = (match t with
          | .stream m => { y with home := m, chan := none }
          | .chan c => { y with home := 0, chan := some c.val }
          | .none => {}) ∧ (∀ r, r ≠ q.val → u.h.queue r = s.h.queue r) ∧ s.sameMemory u ∧ s.sameScalars u []))

/-- 15 R347 to R349: in supervisor mode TSYNC reads TIMEBASE and adds its operand to it, CASK with a step that has passed or
while a cask runs is cause 8 with the step number, and PGPIN pins or unpins the page that holds its address.
Where the rules leave room, the statement follows the model's readings of logs 22 and 48. -/
def Obligations.PrivilegedGroup : Prop :=
  ∀ (s : State) (d a : SReg) (w : List Nat) (ranges : List (Nat × Nat)) (leaf level : Nat), s.h.sup = true → s.ready [d, a] = true →
    let x := s.rs a
    let p := s.part s.myPart
    exec (.tsync d a) s = ({ s with timebase := if a = 0 then s.timebase else .ofNat 64 (s.timebase.toNat + x.toNat) } : State).wrote d s.timebase ∧
    (x.toNat ≤ s.stepno.toNat ∨ (∃ q, q < 8 ∧ ((s.part q).cask.state = 1 ∨ (s.part q).cask.state = 2)) → exec (.cask a) s = .next (s.trap ⟨8, s.stepno, 0⟩)) ∧
    (s.stepno.toNat < x.toNat → (∀ q, q < 8 → (s.part q).cask.state ≠ 1 ∧ (s.part q).cask.state ≠ 2) → p.caskd ≠ 0 →
      s.dieDelayed p.caskd 8 = false → s.dieWords p.caskd 0 8 = .ok w → s.caskBad s.myPart w = false →
      s.dieDelayed (.ofNat 64 (recBits w 128 64)) (2 * recBits w 96 32) = false →
      s.caskRanges ⟨8, p.caskd, 0⟩ (.ofNat 64 (recBits w 128 64)) (recBits w 96 32) = .ok ranges →
      (ranges.map (·.2)).foldl (· + ·) 0 ≤ 2 ^ 24 → s.rangesMapped s.myPart ranges = true → s.myPart < 8 →
      Completes (.cask a) s fun t =>
        (t.part s.myPart).cask.state = 1 ∧ (t.part s.myPart).cask.step = x.toNat ∧ (t.part s.myPart).cask.ranges = ranges ∧
        (t.part s.myPart).cask.buf = recBits w 192 44 / 65536 ∧ (t.part s.myPart).cask.nbuf = recBits w 256 32 ∧
        (∀ q, q ≠ s.myPart → t.part q = s.part q) ∧ s.sameMemory t ∧ s.sameScalars t []) ∧
    (x.toNat / 2 % 2 ^ 15 ≠ 0 → exec (.pgpin a) s = .next (s.trap ⟨8, x, 0⟩)) ∧
    (x.toNat / 2 % 2 ^ 15 = 0 → canonical x = true →
      s.leafOf (some (hartCore s.hid)) s.myPart (x.toNat % 2 ^ 56) true .read = .ok (leaf, level) →
      let pa := s.liveAddr s.myPart (x.toNat % 2 ^ 56) (bitsOf leaf 16 28 * 65536 + x.toNat % 2 ^ 56 % levelSize level)
      let tier := s.tier (pa / 65536 % 4)
      leafShut leaf = false → pteRmt leaf = false → pa < 2 ^ 40 → s.physOk s.myPart pa = true → tier.en = true →
      tier.pins.length < min tier.quota 98304 → Completes (.pgpin a) s fun t =>
        (∀ g, g ∈ (t.tier (pa / 65536 % 4)).pins ↔ (g = pa / 65536 ∧ x.getLsbD 0 = false) ∨ (g ∈ tier.pins ∧ ¬ (g = pa / 65536 ∧ x.getLsbD 0 = true))) ∧
        (∀ e, e ≠ pa / 65536 % 4 → t.tier e = s.tier e) ∧ s.sameMemory t ∧ s.sameScalars t [])

/-- 14 R319, R321, 15 R350 to R354: BELLA allocates the lowest FREE slot of its partition's range on its die and answers its handle,
or all ones with no slot free; BELLF frees a slot; BELLRING queues a ring for another device; BELLQ reads a slot's state.
Where the rules leave room, the statement follows the model's readings of logs 19 and 36. -/
def Obligations.BellInstructions : Prop :=
  ∀ (s : State) (a b d : SReg) (n : Nat), s.hid < 2048 → s.ready [a, b, d] = true → s.h.loops = [] →
    let x := s.rs a
    let y := s.rs b
    (x.toNat / 2 ^ 13 % 8 ≠ 0 ∨ 2 ^ 32 ≤ x.toNat → exec (.bella d a) s = .next (s.trap ⟨8, x, 0⟩)) ∧
    let free (m : Nat) : Prop := m / 4096 = s.myDie ∧ (s.part s.myPart).belllo ≤ m ∧ m ≤ (s.part s.myPart).bellhi ∧ (s.slot m).state = 0
    (x.toNat / 2 ^ 13 % 8 = 0 → x.toNat < 2 ^ 32 → (∀ m, ¬ free m) →
      exec (.bella d a) s = s.wrote d (.ofNat 64 (2 ^ 64 - 1))) ∧
    (x.toNat / 2 ^ 13 % 8 = 0 → x.toNat < 2 ^ 32 → free n → (∀ m, m < n → ¬ free m) →
      s.dropsOf s.myDie = [] → s.earlyOf s.myDie = [] → Completes (.bella d a) s fun t =>
        t.rs d = (if d = 0 then 0 else .ofNat 64 n) ∧
        (t.slot n).state = 1 ∧ (t.slot n).sender = x.toNat % 2 ^ 13 ∧ (t.slot n).tag = x.toNat / 65536 ∧ (t.slot n).owner = s.hid ∧
        (t.slot n).count = 0 ∧ (t.slot n).phase = 0 ∧ (t.slot n).rings = [] ∧ (∀ m, m ≠ n → t.slot m = s.slot m) ∧ s.sameMemory t) ∧
    (s.handleBad s.myPart x = true → exec (.bellf a) s = .next (s.trap ⟨8, x, 0⟩) ∧ exec (.bellq d a) s = .next (s.trap ⟨8, x, 0⟩)) ∧
    (s.handleBad s.myPart x = false →
      exec (.bellq d a) s = s.wrote d (slotWord (s.slot x.toNat) 0) ∧
      Completes (.bellf a) s fun t => (t.slot x.toNat).state = 0 ∧ (∀ m, m ≠ x.toNat → t.slot m = s.slot m) ∧
        s.sameMemory t ∧ s.sameScalars t []) ∧
    (2 ^ 14 ≤ x.toNat → exec (.bellring a b d) s = .next (s.trap ⟨8, x, 0⟩)) ∧
    (x.toNat < 2 ^ 14 → y.toNat % 8 ≠ 0 ∨ s.destBad s.myPart y = true → exec (.bellring a b d) s = .next (s.trap ⟨8, y, 0⟩)) ∧
    (x.toNat < 2 ^ 14 → y.toNat % 8 = 0 → s.destBad s.myPart y = false → Completes (.bellring a b d) s fun t =>
      t.rings = s.rings ++ [⟨.hart s.hid, s.hid, s.h.nextSeq, y.toNat / 2 ^ 44 % 2 ^ 13, x.toNat, y.toNat % 2 ^ 44, s.rs d,
        s.myPart, none⟩] ∧ s.sameMemory t ∧ s.sameScalars t [])

/-- 15 R359 to R362: a hart's control of an engine of its die. DGLOAD puts a schedule into a stopped engine and loads it; DGSTART
starts a LOADED or HALTED one at the index of its record with its chunk registers; DGSTOP halts a waiting one at once; DGSTAT
reads the engine's word. An engine of another partition is cause 8 with its number.
Where the rules leave room, the statement follows the model's readings of logs 36, 49 and 86. -/
def Obligations.EngineControl : Prop :=
  ∀ (s : State) (d a : SReg) (e : Fin 4) (l : List (BitVec 32)), s.ready [d, a] = true →
    let va := s.rs a
    let n := 4 * s.myDie + e.val
    let g := s.engine n
    let w := s.h.word
    let read : Prop := s.h.waitAt.isSome = true ∧ s.h.sq.any s.h.isWordRead = false ∧ s.h.wordFault = none
    (g.part ≠ s.myPart → exec (.dgstat d e) s = .next (s.trap ⟨8, .ofNat 64 e, 0⟩) ∧
      exec (.dgstart e a) s = .next (s.trap ⟨8, .ofNat 64 e, 0⟩)) ∧
    (g.part = s.myPart → exec (.dgstat d e) s = s.wrote d (engineWord g)) ∧
    (s.h.sup = true → va.toNat % 16 = 0 → read → (w 0).toNat % 4 = 0 → (w 1).toNat / 2 ^ 25 = 0 →
      0 < bitsOf (w 1).toNat 12 13 → bitsOf (w 1).toNat 0 12 + bitsOf (w 1).toNat 12 13 ≤ 4096 → g.busy = false →
      ((s.h.got.any (·.1 == 2) = true ∧ l = (List.range (bitsOf (w 1).toNat 12 13)).map fun i => .ofNat 32 (w (2 + i)).toNat) ∨
        (s.h.got.any (·.1 == 2) = false ∧ ∃ xs, s.imageReads (s.h.waitAt.getD s.now) (w 0) 2 (bitsOf (w 1).toNat 12 13) = .ok xs ∧
          s.imageWords xs = some l ∧ s.readsDelayed xs = false)) → Completes (.dgload e a) s fun t =>
        (t.engine n).state = .loaded ∧ (t.engine n).part = s.myPart ∧ l.length = bitsOf (w 1).toNat 12 13 ∧
        (∀ i, i < 4096 → SMap.get none (t.engine n).sched i = if bitsOf (w 1).toNat 0 12 ≤ i ∧ i < bitsOf (w 1).toNat 0 12 + l.length
          then l[i - bitsOf (w 1).toNat 0 12]? else SMap.get none g.sched i) ∧
        (∀ m, m ≠ n → t.engine m = s.engine m) ∧ s.sameMemory t ∧ s.sameScalars t []) ∧
    (g.part = s.myPart → va.toNat % 8 = 0 → read → g.state = .loaded ∨ g.state = .halted → (w 0).toNat < 4096 →
      s.launchReady = true → (∀ p, p < 8 → (s.part p).cask.state ≠ 1) → Completes (.dgstart e a) s fun t =>
        (t.engine n).state = .running ∧ (t.engine n).pc = (w 0).toNat ∧ (t.engine n).starter = s.hid ∧
        (∀ i : Fin 16, SMap.get 0 (t.engine n).c i.val = w (i.val + 1)) ∧ (∀ m, m ≠ n → t.engine m = s.engine m) ∧
        s.sameMemory t ∧ s.sameScalars t []) ∧
    (s.h.sup = true → g.state = .waiting → (∀ p, p < 8 → (s.part p).cask.state ≠ 1) → Completes (.dgstop e) s fun t =>
      (t.engine n).state = .halted ∧ (∀ m, m ≠ n → t.engine m = s.engine m) ∧ s.sameMemory t ∧ s.sameScalars t []) ∧
    (s.h.sup = true → g.state ≠ .waiting → g.state ≠ .running → exec (.dgstop e) s = .next (s.retire 4))

/-- 09 R238, R239, 08 R219, R220: the rounding members of VFP. With the operands' exact values a, b, c, the value q is the
exact result rounded once, and under propagate each tangent is the exact tangent of the rule rounded once; VFSQRT at zero has
infinite tangents and raises TDZ and TKINK.
08 R217, 18 R396: the value and tangent traps of 08 R217, for VFADD, VFMUL and VSADD: at the first active element of which a plane
raises an enabled flag the instruction traps with cause 10 for the value plane and 11 for a tangent plane, with that plane's flags, its
number and the element; every element below is written and none from it on, and the flags of all of them are set.
Where the rules leave room, the statement follows the model's readings of logs 10 and 56. -/
def Obligations.VectorFloatArithmetic : Prop :=
  (∀ (s : State) (vd va : VReg) (vb : VB) (vc : VReg) (rm r : Rm) (tm : Tm) (c : Ctl),
    s.vRuns (va :: vc :: vbVregs vb) [vd] → isF8 s.h.fmt = true → s.h.resolveRm rm = some r →
    let A (p e : Nat) : Ex × Nat := (decodeEx s.h.fmt (s.h.src va p e), 0)
    let B (p e : Nat) : Ex × Nat := (decodeEx s.h.fmt (s.h.vbAt vb p e), 0)
    let C (p e : Nat) : Ex × Nat := (decodeEx s.h.fmt (s.h.src vc p e), 0)
    let is (i : Instr) (srcs : List VReg) (val : Nat → Ex × Nat) (tan : Nat → Ex × Nat → Nat → Ex × Nat) : Prop :=
      Elementwise i s srcs vd c tm fun e =>
        let q := s.roundAt r 0 e (val e)
        s.byPlane tm fun p => if p = 0 then q else s.roundAt r p e (tan e (decodeEx s.h.fmt q.1, 0) p)
    let prodTan (e p : Nat) : Ex × Nat := addF r (mulF (A p e) (B 0 e)) (mulF (A 0 e) (B p e))
    is (.vfadd vd va vb rm tm c) (va :: vbVregs vb) (fun e => addF r (A 0 e) (B 0 e)) (fun e _ p => addF r (A p e) (B p e)) ∧
    is (.vfsub vd va vb rm tm c) (va :: vbVregs vb) (fun e => addF r (A 0 e) (negF (B 0 e)))
      (fun e _ p => addF r (A p e) (negF (B p e))) ∧
    is (.vfmul vd va vb rm tm c) (va :: vbVregs vb) (fun e => mulF (A 0 e) (B 0 e)) (fun e _ p => prodTan e p) ∧
    is (.vfdiv vd va vb rm tm c) (va :: vbVregs vb) (fun e => divF (A 0 e) (B 0 e))
      (fun e q p => divF (addF r (A p e) (negF (mulF q (B p e)))) (B 0 e)) ∧
    is (.vfma vd va vb vc rm tm c) (va :: (vbVregs vb ++ [vc])) (fun e => addF r (mulF (A 0 e) (B 0 e)) (C 0 e))
      (fun e _ p => addF r (prodTan e p) (C p e)) ∧
    is (.vfms vd va vb vc rm tm c) (va :: (vbVregs vb ++ [vc])) (fun e => addF r (mulF (A 0 e) (B 0 e)) (negF (C 0 e)))
      (fun e _ p => addF r (prodTan e p) (negF (C p e))) ∧
    is (.vfnma vd va vb vc rm tm c) (va :: (vbVregs vb ++ [vc])) (fun e => addF r (C 0 e) (negF (mulF (A 0 e) (B 0 e))))
      (fun e _ p => addF r (addF r (C p e) (negF (mulF (A p e) (B 0 e)))) (negF (mulF (A 0 e) (B p e)))) ∧
    is (.vfsqrt vd va rm tm c) [va]
      (fun e => let x := exSqrt (A 0 e).1; (x.1, if (A 0 e).1.isZero then x.2 ||| 64 else x.2))
      (fun e q p => if (A 0 e).1.isZero then (.inf false, 8) else divF (A p e) (mulF (.fin false 2 1, 0) q)) ∧
    (∀ i ∈ [Instr.vfadd vd va vb rm tm c, .vfsub vd va vb rm tm c, .vfmul vd va vb rm tm c, .vfdiv vd va vb rm tm c,
      .vfma vd va vb vc rm tm c, .vfms vd va vb vc rm tm c, .vfnma vd va vb vc rm tm c, .vfsqrt vd va rm tm c], Retires i s)) ∧
  (∀ (s : State) (vd va : VReg) (vb : VB) (rm r : Rm) (tm : Tm) (c : Ctl), s.vReady (va :: vbVregs vb) [vd] →
    let f := s.h.fmt
    let A (p e : Nat) : Ex × Nat := (decodeEx f (s.h.src va p e), 0)
    let B (p e : Nat) : Ex × Nat := (decodeEx f (s.h.vbAt vb p e), 0)
    let traps (i : Instr) (g : Nat → List Nat × List Nat) : Prop := ValueTrap i s (va :: vbVregs vb) vd c tm g
    let num (x : Nat) : Int := if fmtSigned f then (BitVec.ofNat (fmtBits f) x).toInt else x
    let lo : Int := if fmtSigned f then -((2 ^ (fmtBits f - 1) : Nat) : Int) else 0
    let hi : Int := if fmtSigned f then ((2 ^ (fmtBits f - 1) : Nat) : Int) - 1 else ((2 ^ fmtBits f : Nat) : Int) - 1
    let sum (e : Nat) : Int := num (s.h.src va 0 e % 2 ^ keepBits f) + num (s.h.vbAt vb 0 e % 2 ^ keepBits f)
    (isF8 f = true → s.h.resolveRm rm = some r →
      traps (.vfadd vd va vb rm tm c) (fun e => s.byPlane tm fun p => s.roundAt r p e (addF r (A p e) (B p e))) ∧
      traps (.vfmul vd va vb rm tm c) (fun e => s.byPlane tm fun p => s.roundAt r p e
        (if p = 0 then mulF (A 0 e) (B 0 e) else addF r (mulF (A p e) (B 0 e)) (mulF (A 0 e) (B p e))))) ∧
    (fmtInt f = true → traps (.vsadd vd va vb tm c) fun e =>
      ([(BitVec.ofInt (fmtBits f) (max lo (min hi (sum e)))).toNat], [if sum e < lo ∨ hi < sum e then 32 else 0])))

/-- 09 R240, 08 R220: the members of VFP that choose. The result's bits are an operand's, with its sign changed where the member
says so; the tangents go with the operand chosen; equal operands of VFMIN and VFMAX, and a zero of VFABS, raise TKINK.
03 R87, 09 R232, R234, R237, 01 R44: the checks that every vector instruction makes at its issue, for the two-operand members of VFP
and VINT: a register at or above NREG, VILL, a format outside the class and a reserved rounding mode are cause 1 with the encoding; then
a leased register is cause 9 with its number, a bound destination cause 20, and a bound source whose binding does not accept the format
cause 20, both with the element the instruction stands at. None of them changes anything but by the trap.
Where the rules leave room, the statement follows the model's readings of log 56. -/
def Obligations.VectorFloatChoice : Prop :=
  (∀ (s : State) (vd va : VReg) (vb : VB) (tm : Tm) (c : Ctl), s.vRuns (va :: vbVregs vb) [vd] → isF8 s.h.fmt = true →
    let f := s.h.fmt
    let sign := 2 ^ (keepBits f - 1)
    let x (p e : Nat) : Nat := s.h.src va p e % 2 ^ keepBits f
    let y (p e : Nat) : Nat := s.h.vbAt vb p e % 2 ^ keepBits f
    let a (e : Nat) := decodeEx f (x 0 e)
    let b (e : Nat) := decodeEx f (y 0 e)
    let snan (z : Ex) : Nat := if z.isSnan then 16 else 0
    let flip (neg : Bool) (z : Nat) : Nat := if neg then (z + sign) % (2 * sign) else z
    let is (i : Instr) (srcs : List VReg) (v : Nat → Nat × Nat) (tan : Nat → Nat → Nat) : Prop :=
      Elementwise i s srcs vd c tm fun e => s.byPlane tm fun p => if p = 0 then v e else (tan e p, 0)
    let less (max : Bool) (e : Nat) : Bool := (minmaxFirst max (a e) (b e)).1
    let pick (max : Bool) (e : Nat) : Nat × Nat :=
      if (a e).isNan && (b e).isNan then (fmtNan f, snan (a e) ||| snan (b e))
      else (if less max e then x 0 e else y 0 e, snan (a e) ||| snan (b e) ||| if !(a e).isNan && !(b e).isNan && exCmp (a e) (b e) == .eq then 64 else 0)
    let pickTan (max : Bool) (e p : Nat) : Nat :=
      if (a e).isNan && (b e).isNan || less max e || (!(a e).isNan && !(b e).isNan && exCmp (a e) (b e) == .eq)
      then x p e else y p e
    is (.vfmin vd va vb tm c) (va :: vbVregs vb) (pick false) (pickTan false) ∧
    is (.vfmax vd va vb tm c) (va :: vbVregs vb) (pick true) (pickTan true) ∧
    is (.vfabs vd va tm c) [va]
      (fun e => if (a e).isNan then (fmtNan f, snan (a e)) else (x 0 e % sign, if (a e).isZero then 64 else 0))
      (fun e p => flip (!(a e).isNan && (x 0 e).testBit (keepBits f - 1) && !(a e).isZero) (x p e)) ∧
    is (.vfneg vd va tm c) [va] (fun e => (if (a e).isNan then fmtNan f else flip true (x 0 e), snan (a e)))
      (fun e p => flip true (x p e)) ∧
    (let v (e : Nat) : Nat := if (a e).isNan then fmtNan f else x 0 e % sign + (if (y 0 e).testBit (keepBits f - 1) then sign else 0)
    is (.vfcps vd va vb tm c) (va :: vbVregs vb) (fun e => (v e, snan (a e)))
      (fun e p => flip ((v e).testBit (keepBits f - 1) != (x 0 e).testBit (keepBits f - 1)) (x p e))) ∧
    (∀ i ∈ [Instr.vfmin vd va vb tm c, .vfmax vd va vb tm c, .vfabs vd va tm c, .vfneg vd va tm c, .vfcps vd va vb tm c], Retires i s)) ∧
  (∀ (s : State) (vd va : VReg) (vb : VB) (rm : Rm) (tm : Tm) (c : Ctl), s.h.sq = [] →
    let f := s.h.fmt
    let srcs := va :: vbVregs vb
    let all := srcs ++ [vd]
    let rounding : List Instr := [.vfadd vd va vb rm tm c, .vfsub vd va vb rm tm c, .vfmul vd va vb rm tm c, .vfdiv vd va vb rm tm c]
    let choosing : List Instr := [.vfmin vd va vb tm c, .vfmax vd va vb tm c, .vfcps vd va vb tm c]
    let sums : List Instr := [.vadd vd va vb tm c, .vsub vd va vb tm c, .vmul vd va vb tm c, .vmulh vd va vb tm c, .vmulhu vd va vb tm c,
      .vmin vd va vb tm c, .vmax vd va vb tm c, .vminu vd va vb tm c, .vmaxu vd va vb tm c, .vsadd vd va vb tm c, .vssub vd va vb tm c]
    let bits : List Instr := [.vand vd va vb tm c, .vor vd va vb tm c, .vxor vd va vb tm c, .vsll vd va vb tm c, .vsrl vd va vb tm c,
      .vsra vd va vb tm c]
    let illegal (l : List Instr) : Prop := ∀ i ∈ l, exec i s = .next (s.trap ⟨1, encodeWord i, 0⟩)
    let later (l : List Instr) : Prop := s.h.vill = false → (∀ v ∈ all, v.val < s.h.nreg) → ∀ i ∈ l,
      ((∃ v ∈ all, s.h.leased v = true) → ∃ v ∈ all, s.h.leased v = true ∧ exec i s = .next (s.trap ⟨9, .ofNat 64 v, 0⟩)) ∧
      ((∀ v ∈ all, s.h.leased v = false) →
        (s.h.bound vd ≠ none → exec i s = .next (s.trap ⟨20, .ofNat 64 vd, s.h.eidx⟩)) ∧
        (s.h.bound vd = none → (∃ v ∈ srcs, ∃ b, s.h.bound v = some b ∧ b.accepts f none = false) →
          ∃ v ∈ srcs, ∃ b, s.h.bound v = some b ∧ b.accepts f none = false ∧ exec i s = .next (s.trap ⟨20, .ofNat 64 v, s.h.eidx⟩)))
    ((∃ v ∈ all, s.h.nreg ≤ v.val) ∨ s.h.vill = true → illegal (rounding ++ choosing ++ sums ++ bits)) ∧
    (isF8 f = false → illegal (rounding ++ choosing)) ∧ (fmtInt f = false → illegal sums) ∧ (fmtHasContainer f = false → illegal bits) ∧
    (s.h.resolveRm rm = none → illegal rounding) ∧
    (isF8 f = true → (∀ r, s.h.resolveRm rm = some r → later rounding) ∧ later choosing) ∧ (fmtInt f = true → later sums) ∧
    (fmtHasContainer f = true → later bits))

/-- 09 R241, R242, 08 R207: the members of VINT, on containers x and y of w bits and their signed values; saturating sums are
clamped to the range of the format and raise SAT; tangents are zero. -/
def Obligations.VectorInteger : Prop :=
  ∀ (s : State) (vd va : VReg) (vb : VB) (tm : Tm) (c : Ctl), s.vRuns (va :: vbVregs vb) [vd] →
    let f := s.h.fmt
    let w := fmtBits f
    let x (e : Nat) : Nat := s.h.src va 0 e % 2 ^ keepBits f
    let y (e : Nat) : Nat := s.h.vbAt vb 0 e % 2 ^ keepBits f
    let sx (e : Nat) : Int := (BitVec.ofNat w (x e)).toInt
    let sy (e : Nat) : Int := (BitVec.ofNat w (y e)).toInt
    let wrap (z : Int) : Nat := (BitVec.ofInt w z).toNat
    let is (i : Instr) (v : Nat → Nat) : Prop := Elementwise i s (va :: vbVregs vb) vd c tm fun e => ([v e], [0])
    let lo : Int := if fmtSigned f then -((2 ^ (w - 1) : Nat) : Int) else 0
    let hi : Int := if fmtSigned f then ((2 ^ (w - 1) : Nat) : Int) - 1 else ((2 ^ w : Nat) : Int) - 1
    let num (signed : Int) (plain : Nat) : Int := if fmtSigned f then signed else plain
    let sat (i : Instr) (z : Nat → Int) : Prop := Elementwise i s (va :: vbVregs vb) vd c tm fun e =>
      ([wrap (max lo (min hi (z e)))], [if z e < lo ∨ hi < z e then 32 else 0])
    (fmtInt f = true →
      is (.vadd vd va vb tm c) (fun e => (x e + y e) % 2 ^ w) ∧ is (.vsub vd va vb tm c) (fun e => (2 ^ w + x e - y e) % 2 ^ w) ∧
      is (.vmul vd va vb tm c) (fun e => x e * y e % 2 ^ w) ∧
      is (.vmulh vd va vb tm c) (fun e => wrap (sx e * sy e / 2 ^ w)) ∧
      is (.vmulhu vd va vb tm c) (fun e => x e * y e / 2 ^ w) ∧
      is (.vmin vd va vb tm c) (fun e => wrap (min (sx e) (sy e))) ∧ is (.vmax vd va vb tm c) (fun e => wrap (max (sx e) (sy e))) ∧
      is (.vminu vd va vb tm c) (fun e => min (x e) (y e)) ∧ is (.vmaxu vd va vb tm c) (fun e => max (x e) (y e)) ∧
      sat (.vsadd vd va vb tm c) (fun e => num (sx e) (x e) + num (sy e) (y e)) ∧
      sat (.vssub vd va vb tm c) (fun e => num (sx e) (x e) - num (sy e) (y e)) ∧
      (∀ i ∈ [Instr.vadd vd va vb tm c, .vsub vd va vb tm c, .vmul vd va vb tm c, .vmulh vd va vb tm c, .vmulhu vd va vb tm c,
        .vmin vd va vb tm c, .vmax vd va vb tm c, .vminu vd va vb tm c, .vmaxu vd va vb tm c, .vsadd vd va vb tm c,
        .vssub vd va vb tm c], Retires i s)) ∧
    (fmtHasContainer f = true →
      is (.vand vd va vb tm c) (fun e => x e &&& y e) ∧ is (.vor vd va vb tm c) (fun e => x e ||| y e) ∧
      is (.vxor vd va vb tm c) (fun e => x e ^^^ y e) ∧ is (.vsll vd va vb tm c) (fun e => x e * 2 ^ (y e % w) % 2 ^ w) ∧
      is (.vsrl vd va vb tm c) (fun e => x e / 2 ^ (y e % w)) ∧
      is (.vsra vd va vb tm c) (fun e => wrap (sx e / (2 ^ (y e % w) : Nat))) ∧
      (∀ i ∈ [Instr.vand vd va vb tm c, .vor vd va vb tm c, .vxor vd va vb tm c, .vsll vd va vb tm c, .vsrl vd va vb tm c,
        .vsra vd va vb tm c], Retires i s))

/-- 09 R243, R244: compares write one bit of kd for each active element, and mask logic combines two mask registers bit by bit;
a compare or logic that names k0 as its destination is cause 1.
09 R245: KPOP counts the active elements whose bit of ka is set, and KFIRST gives the lowest of them, or all ones. -/
def Obligations.VectorMasks : Prop :=
  (∀ (s : State) (kd ka kb : KReg) (va : VReg) (vb : VB) (c : Ctl), kd ≠ 0 →
    let f := s.h.fmt
    let x (e : Nat) : Nat := s.h.src va 0 e % 2 ^ keepBits f
    let y (e : Nat) : Nat := s.h.vbAt vb 0 e % 2 ^ keepBits f
    let a (e : Nat) := decodeEx f (x e)
    let b (e : Nat) := decodeEx f (y e)
    let signed (z : Nat) : Int := (BitVec.ofNat (fmtBits f) z).toInt
    let is (i : Instr) (v : Nat → Bool × Nat) : Prop := Maskwise i s (va :: vbVregs vb) kd c v
    let nan (e : Nat) : Bool := (a e).isNan || (b e).isNan
    let quiet (e : Nat) : Nat := if (a e).isSnan || (b e).isSnan then 16 else 0
    let log (i : Instr) (v : Bool → Bool → Bool) : Prop := Maskwise i s [] kd c fun e => (v (s.h.kBit ka e) (s.h.kBit kb e), 0)
    (s.vRuns (va :: vbVregs vb) [] → isF8 f = true →
      is (.vfeq kd va vb c) (fun e => (!nan e && exCmp (a e) (b e) == .eq, quiet e)) ∧
      is (.vfne kd va vb c) (fun e => (nan e || exCmp (a e) (b e) != .eq, quiet e)) ∧
      is (.vflt kd va vb c) (fun e => (!nan e && exCmp (a e) (b e) == .lt, if nan e then 16 else 0)) ∧
      is (.vfle kd va vb c) (fun e => (!nan e && exCmp (a e) (b e) != .gt, if nan e then 16 else 0)) ∧
      (∀ i ∈ [Instr.vfeq kd va vb c, .vfne kd va vb c, .vflt kd va vb c, .vfle kd va vb c], Retires i s)) ∧
    (s.vRuns (va :: vbVregs vb) [] → fmtHasContainer f = true →
      is (.vieq kd va vb c) (fun e => (decide (x e = y e), 0)) ∧
      is (.vilt kd va vb c) (fun e => (decide (signed (x e) < signed (y e)), 0)) ∧
      is (.viltu kd va vb c) (fun e => (decide (x e < y e), 0)) ∧
      is (.vile kd va vb c) (fun e => (decide (signed (x e) ≤ signed (y e)), 0)) ∧
      (∀ i ∈ [Instr.vieq kd va vb c, .vilt kd va vb c, .viltu kd va vb c, .vile kd va vb c], Retires i s)) ∧
    (s.vRuns [] [] →
      log (.kand kd ka kb c) (fun p q => p && q) ∧ log (.kor kd ka kb c) (fun p q => p || q) ∧
      log (.kxor kd ka kb c) (fun p q => p != q) ∧ log (.kandn kd ka kb c) (fun p q => p && !q) ∧
      (Maskwise (.knot kd ka c) s [] kd c fun e => (!s.h.kBit ka e, 0)) ∧
      (∀ i ∈ [Instr.kand kd ka kb c, .kor kd ka kb c, .kxor kd ka kb c, .kandn kd ka kb c, .knot kd ka c], Retires i s)) ∧
    (s.h.sq = [] → ∀ i ∈ [Instr.vfeq 0 va vb c, .vfne 0 va vb c, .vflt 0 va vb c, .vfle 0 va vb c, .vieq 0 va vb c, .vilt 0 va vb c,
        .viltu 0 va vb c, .vile 0 va vb c, .kand 0 ka kb c, .kor 0 ka kb c, .kxor 0 ka kb c, .kandn 0 ka kb c, .knot 0 ka c],
      exec i s = .next (s.trap ⟨1, encodeWord i, 0⟩))) ∧
  (∀ (s : State) (sd : SReg) (ka : KReg) (c : Ctl), s.vRuns [] [] →
    let hit (e : Nat) : Bool := s.h.kBit c.k e && s.h.kBit ka e
    exec (.kpop sd ka c) s = .next ((s.ws sd (.ofNat 64 ((List.range s.h.vl).filter hit).length)).retire 8) ∧
    (∀ e, e < s.h.vl → hit e = true → (∀ d, d < e → hit d = false) →
      exec (.kfirst sd ka c) s = .next ((s.ws sd (.ofNat 64 e)).retire 8)) ∧
    ((∀ e, e < s.h.vl → hit e = false) → exec (.kfirst sd ka c) s = .next ((s.ws sd (.ofNat 64 (2 ^ 64 - 1))).retire 8)))

/-- 09 R246, R247, 08 R219, R220: the special functions. The value is the function of the operand rounded once and the tangent
its derivative's rule in the rounded value q, rounded once; VRELU takes the operand above zero and +0 below, with TKINK at
zero.
Where the rules leave room, the statement follows the model's readings of logs 10 and 56. -/
def Obligations.VectorSpecialFunctions : Prop :=
  ∀ (s : State) (vd va : VReg) (rm r : Rm) (tm : Tm) (c : Ctl),
    s.vRuns [va] [vd] → isF3 s.h.fmt = true → s.h.resolveRm rm = some r →
    let A (p e : Nat) : Ex × Nat := (decodeEx s.h.fmt (s.h.src va p e), 0)
    let one : Ex × Nat := (.fin false 1 1, 0)
    let from1 (x : Ex × Nat) : Ex × Nat := addF r one (negF x)
    let is (i : Instr) (val : Ex → Ex × Nat) (tan : Ex × Nat → Ex × Nat → Ex × Nat → Ex × Nat) : Prop :=
      Elementwise i s [va] vd c tm fun e =>
        let q := s.roundAt r 0 e (val (A 0 e).1)
        s.byPlane tm fun p => if p = 0 then q else s.roundAt r p e (tan (A 0 e) (decodeEx s.h.fmt q.1, 0) (A p e))
    is (.vexp vd va rm tm c) exExp (fun _ q t => mulF q t) ∧
    is (.vlog vd va rm tm c) exLog (fun a _ t => divF t a) ∧
    is (.vtanh vd va rm tm c) exTanh (fun _ q t => mulF (from1 (mulF q q)) t) ∧
    is (.vsigm vd va rm tm c) exSigm (fun _ q t => mulF (mulF q (from1 q)) t) ∧
    is (.vrcp vd va rm tm c) exRcp (fun _ q t => mulF (negF (mulF q q)) t) ∧
    is (.vrsq vd va rm tm c) exRsq (fun _ q t => mulF (mulF (negF (mulF (mulF q q) q)) t) (.fin false 1 2, 0)) ∧
    is (.vsilu vd va rm tm c) exSilu (fun a q t =>
      let g : Ex × Nat := (decodeEx .f32 (roundFloat .f32 false .rne 0 (exSigm a.1).1).1, 0)
      mulF (addF r g (mulF q (from1 g))) t) ∧
    (Elementwise (.vrelu vd va rm tm c) s [va] vd c tm fun e =>
      let a := (A 0 e).1
      let above : Bool := !a.isNan && !a.isNeg && !a.isZero
      s.byPlane tm fun p =>
        if p = 0 then
          (if a.isNan then fmtNan s.h.fmt else if above then s.h.src va 0 e else 0,
            if a.isNan then (if a.isSnan then 16 else 0) else if a.isZero then 64 else 0)
        else if a.isNan || above then s.roundAt r p e ((A p e).1, if (A p e).1.isSnan then 16 else 0) else (0, 0)) ∧
    (∀ i ∈ [Instr.vexp vd va rm tm c, .vlog vd va rm tm c, .vtanh vd va rm tm c, .vsigm vd va rm tm c, .vrcp vd va rm tm c,
      .vrsq vd va rm tm c, .vrelu vd va rm tm c, .vsilu vd va rm tm c], Retires i s)

/-- 09 R248 to R250, R252, 08 R213: conversions. VCVT rounds every plane into the element format; VCVTI gives an integer, from a
floating source by RoundInt and from an integer one clamped with SAT; VDQBLK multiplies each code by its block's scale, 0xFF
giving the NaN.
09 R251: VQBLK. For each block of 16 or 32 elements the scale is the power of two that brings the largest active magnitude to
the format's block exponent, 127 with no active nonzero element and 0xFF with a NaN or infinity; active elements take their
code of x times 2^(127 - scale), and the scales are in vb whatever the mask.
Where the rules leave room, the statement follows the model's readings of log 56. -/
def Obligations.VectorConversions : Prop :=
  (∀ (s : State) (src : Fmt) (sat b32 : Bool) (vd va vb : VReg) (rm r : Rm) (tm : Tm) (c : Ctl), s.h.resolveRm rm = some r →
    let f := s.h.fmt
    let low (p e : Nat) : Nat := s.h.src va p e % 2 ^ fmtBits src
    let u (p e : Nat) : Nat := s.h.uBits (s.h.drawFor r).1 p e
    let b := if b32 then 32 else 16
    let snan (z : Ex) : Nat := if z.isSnan then 16 else 0
    (s.vRuns [va] [vd] → fmtHasContainer src = true → fmtBits src ≤ s.h.ebits →
      (isF8 f = true → (sat = true → f = .e4m3) → Elementwise (.vcvt src sat vd va rm tm c) s [va] vd c tm fun e =>
        s.byPlane tm fun p =>
          let x := roundTo f sat r (u p e) (decodeEx src (low p e))
          (x.1, snan (decodeEx src (low p e)) ||| x.2)) ∧
      (fmtInt f = true → Elementwise (.vcvti src vd va rm tm c) s [va] vd c tm fun e =>
        let v := intOf src (low 0 e)
        let z := max (intRange f).1 (min (intRange f).2 v)
        if fmtInt src then ([(BitVec.ofInt (fmtBits f) z).toNat], [if v = z then 0 else 32])
        else ([(roundInt f r (u 0 e) (decodeEx src (low 0 e))).1], [(roundInt f r (u 0 e) (decodeEx src (low 0 e))).2])) ∧
      (isF8 f = true → (sat = true → f = .e4m3) → Retires (.vcvt src sat vd va rm tm c) s) ∧
      (fmtInt f = true → Retires (.vcvti src vd va rm tm c) s)) ∧
    (s.vRuns [] [vd] → vb ≠ vd → (∀ v ∈ [va, vb], v.val < s.h.nreg ∧ s.h.leased v = false ∧ s.h.pinned v = false) →
      s.stripHeld none va → s.stripHeld (some b) vb →
      isF3 f = true → dequantFmt src = true →
      Retires (.vdqblk src b32 vd va vb rm tm c) s ∧ Elementwise (.vdqblk src b32 vd va vb rm tm c) s [va, vb] vd c tm fun e =>
        let scale := s.h.scaleAt vb b e
        let a := decodeEx src (low 0 e)
        let x := roundTo f false r (u 0 e) (exMul a (if scale < 127 then .fin false 1 (2 ^ (127 - scale)) else .fin false (2 ^ (scale - 127)) 1)).1
        if scale = 255 then ([fmtNan f], [0]) else ([x.1], [snan a ||| x.2]))) ∧
  (∀ (s : State) (fmt : Fmt) (sat b32 : Bool) (vd va vb : VReg) (rm r : Rm) (tm : Tm) (c : Ctl) (emax : Nat),
    s.vRuns [va] [vd, vb] → isF3 s.h.fmt = true → emaxOf fmt = some emax → (sat = true → fmt = .e4m3) → vb ≠ vd → vb ≠ va →
    s.h.resolveRm rm = some r →
    let b := if b32 then 32 else 16
    let x (e : Nat) : Ex := decodeEx s.h.fmt (s.h.src va 0 e)
    let act (e : Nat) : Bool := decide (e < s.h.vl) && s.h.kBit c.k e
    let special (e : Nat) : Bool := match x e with | .fin .. => false | _ => true
    Completes (.vqblk fmt sat b32 vd va vb rm tm c) s fun t =>
      (∀ j, j * b < s.h.vl →
        let mine := (List.range b).filter fun i => act (j * b + i)
        let scale := t.h.getV vb 0 j
        ((∃ i ∈ mine, special (j * b + i) = true) → scale = 255) ∧
        ((∀ i ∈ mine, (x (j * b + i)).isZero = true) → scale = 127) ∧
        ((∀ i ∈ mine, special (j * b + i) = false) → ∀ i ∈ mine, ∀ k : Int, (x (j * b + i)).exponent = some k →
          (∀ i' ∈ mine, ∀ k' : Int, (x (j * b + i')).exponent = some k' → k' ≤ k) → (scale : Int) = max 0 (k - emax + 127)) ∧
        (∀ i ∈ mine, t.h.getV vd 0 (j * b + i) = (if scale = 255 then 0 else
          (quantCode fmt sat r (s.h.uBits (s.h.drawFor r).1 0 (j * b + i)) (exMul (x (j * b + i)) (.pow2 false 1 (127 - (scale : Int)))).1).1)) ∧
        ∀ p, 0 < p → p ≤ s.h.tangents → t.h.getV vb p j = 0 ∧
          ∀ i ∈ mine, t.h.getV vd p (j * b + i) = if tm = .vonly then s.h.getV vd p (j * b + i) else 0) ∧
      (∀ p e, p ≤ s.h.tangents → e < s.h.vl → s.h.kBit c.k e = false →
        t.h.getV vd p e = if c.kz then 0 else s.h.getV vd p e) ∧
      (∀ v p e, e < 65536 → p ≤ s.h.tangents → v ≠ vd ∨ s.h.vl ≤ e → v ≠ vb ∨ s.h.vl ≤ e * b → t.h.getV v p e = s.h.getV v p e) ∧
      (∀ bit, bit < 64 → bit ∉ [0, 1, 2, 4, 14] → t.h.fflags.getLsbD bit = s.h.fflags.getLsbD bit) ∧
      s.onlyVec t [va] [] ∧ s.sameMemory t)

/-- 09 R253, R256, R257: VMV copies the planes tm names, VSPLAT and VIOTA give a scalar register's low bits and the element number
with zero tangents, and VMERGE takes each element of va where the mask is set and of vb, or zero under kz, where it is not.
09 R254, R255, R258 to R260, 01 R42 to R44: VEXT reads one active element into a scalar register, VINS writes one; VPIN pins a
register, at most eight of them, VUNPIN unpins one, and LWAIT ends the leases of a register once its deliveries are done.
Where the rules leave room, the statement follows the model's readings of logs 13 and 94. -/
def Obligations.VectorMoves : Prop :=
  (∀ (s : State) (vd va : VReg) (vb : VB) (ss : SReg) (tm : Tm) (c : Ctl),
    (s.vRuns [va] [vd] → Retires (.vmv vd va tm c) s ∧ Elementwise (.vmv vd va tm c) s [va] vd c tm fun e => ((s.planesOf tm).map fun p => s.h.src va p e, [0])) ∧
    (s.vRuns [] [vd] → Retires (.vsplat vd ss tm c) s ∧ Elementwise (.vsplat vd ss tm c) s [] vd c tm fun _ => ([(s.rs ss).toNat % 2 ^ keepBits s.h.fmt], [0])) ∧
    (s.vRuns [] [vd] → Retires (.viota vd c) s ∧ Elementwise (.viota vd c) s [] vd c .prop fun e =>
      if isF8 s.h.fmt then ([(roundFloat s.h.fmt false .rne 0 (.fin false e 1)).1], [(roundFloat s.h.fmt false .rne 0 (.fin false e 1)).2])
      else ([e % 2 ^ fmtBits s.h.fmt], [0])) ∧
    (s.vRuns (va :: vbVregs vb) [vd] →
      Completes (.vmerge vd va vb tm c) s fun t =>
        (∀ v p e, p ≤ s.h.tangents → e < 65536 → t.h.getV v p e =
          if v = vd ∧ s.h.eidx ≤ e ∧ e < s.h.vl then
            (if p ≠ 0 ∧ tm = .vonly then s.h.getV v p e
            else if s.h.kBit c.k e = false ∧ c.kz = true then 0
            else if p ≠ 0 ∧ (tm = .tstop ∨ fmtInt s.h.fmt = true) then 0
            else (if s.h.kBit c.k e then s.h.src va p e else s.h.vbAt vb p e) % 2 ^ keepBits s.h.fmt)
          else s.h.getV v p e) ∧
          ((∀ v ∈ va :: vbVregs vb, s.h.bound v = none) → t.h.fflags = s.h.fflags) ∧ s.onlyVec t (va :: vbVregs vb) [] ∧ s.sameMemory t)) ∧
  (∀ (s : State) (vd va : VReg) (sd ss si : SReg) (tm : Tm) (c : Ctl),
    let i := (s.rs si).toNat
    let x := s.h.src va 0 i % 2 ^ keepBits s.h.fmt
    let pins := ((List.range 64).filter fun j => s.h.pins.getLsbD j).length
    (s.vRuns [va] [] →
      let y : Word := if i < s.h.vl ∧ s.h.kBit c.k i = true then
        (if fmtSigned s.h.fmt then .ofInt 64 (BitVec.ofNat (fmtBits s.h.fmt) x).toInt else .ofNat 64 x) else 0
      (s.h.bound va = none → exec (.vext sd va si c) s = .next ((s.ws sd y).retire 8)) ∧
      Completes (.vext sd va si c) s fun t => (s.h.counts sd = false → t.rs sd = if sd = 0 then 0 else y) ∧
        s.onlyVec t [va] [sd] ∧ t.h.v = s.h.v ∧ s.sameMemory t) ∧
    (s.vRuns [] [vd] → Completes (.vins vd ss si tm c) s fun t =>
      (∀ v p e, p ≤ s.h.tangents → e < 65536 → t.h.getV v p e =
        if v = vd ∧ e = i ∧ e < s.h.vl then
          (if s.h.kBit c.k e then (if p = 0 then (s.rs ss).toNat % 2 ^ keepBits s.h.fmt
            else if tm = .vonly then s.h.getV v p e else 0)
          else if c.kz then 0 else s.h.getV v p e)
        else s.h.getV v p e) ∧ t.h.fflags = s.h.fflags ∧ s.onlyVec t [] [] ∧ s.sameMemory t) ∧
    (s.vRuns [] [] → vd.val < s.h.nreg →
      (s.h.bound vd = none → (s.h.pinned vd = true ∨ pins < 8) → Completes (.vpin vd c) s fun t =>
        (∀ v, t.h.pinned v = (s.h.pinned v || v == vd)) ∧ (∀ v p e, v ≠ vd → t.h.getV v p e = s.h.getV v p e) ∧ s.sameScalars t [] ∧
        (Memory.wf s.mem → s.h.aliasBytes ≤ 0x20000 → ∀ a, inAlias s.hid vd a = false → t.lastByte a = s.lastByte a) ∧
        (s.h.pinned vd = true → t.h.v = s.h.v) ∧
        (s.h.pinned vd = false → Memory.wf s.mem → s.aliasAddrs s.hid vd = [] → s.h.aliasBytes ≤ 0x20000 → ∀ o, o < s.h.aliasBytes →
          t.lastByte (aliasAddr s.hid vd o) = s.h.aliasByte vd o)) ∧
      (s.h.bound vd ≠ none ∨ (s.h.pinned vd = false ∧ 8 ≤ pins) → exec (.vpin vd c) s = .next (s.trap ⟨8, .ofNat 64 vd, 0⟩)) ∧
      (s.h.leased vd = true → exec (.vunpin vd c) s = .next (s.trap ⟨9, .ofNat 64 vd, 0⟩)) ∧
      (s.h.leased vd = false → s.bindsAlias vd = false → Completes (.vunpin vd c) s fun t =>
        (∀ v, t.h.pinned v = (s.h.pinned v && v != vd)) ∧ (∀ v p e, v ≠ vd → t.h.getV v p e = s.h.getV v p e) ∧ s.sameScalars t [] ∧
        (∀ a, inAlias s.hid vd a = false → t.lastByte a = s.lastByte a) ∧
        (s.h.pinned vd = false → t.h.v = s.h.v) ∧
        (s.h.pinned vd = true → fmtSix s.h.fmt = false → s.h.aliasBytes ≤ 0x20000 → (∀ p e, s.h.getV vd p e = 0) →
          ∀ o, o < s.h.aliasBytes → t.h.aliasByte vd o = s.viewByte s.myCluster (aliasAddr s.hid vd o))) ∧
      ((∀ d ∈ s.h.deliveries, d.reg = vd → d.done = true) → Completes (.lwait vd c) s fun t =>
        (∀ v, t.h.leased v = (s.h.leased v && v != vd)) ∧ t.h.v = s.h.v ∧ t.h.pins = s.h.pins ∧ s.sameMemory t)))

/-- 10 R277, R278: the permutations read all their sources before any write. A slide moves elements up or down by its amount and
fills the rest, VRGATH takes the element its index names, zero for one at or above VL, and VCOMPR packs the active elements of
va at the front; elements not written follow kz.
Where the rules leave room, the statement follows the model's readings of logs 56 and 94. -/
def Obligations.VectorPermutations : Prop :=
  ∀ (s : State) (vd va vb : VReg) (ss sf : SReg) (imm : BitVec 11) (tm : Tm) (c : Ctl),
    let m := if ss = 0 then imm.toNat else (s.rs ss).toNat
    let fill (p : Nat) : Nat := if p = 0 then (s.rs sf).toNat else 0
    let index (e : Nat) : Nat := s.h.src vb 0 e % 2 ^ keepBits s.h.fmt
    let picked := (List.range s.h.vl).filter fun e => s.h.kBit c.k e
    let is (i : Instr) (wrote : Nat → Bool) (x : Nat → Nat → Nat) : Prop := Completes i s fun t =>
      (∀ v p e, p ≤ s.h.tangents → e < 65536 → t.h.getV v p e =
        if v = vd ∧ e < s.h.vl then
          (if wrote e then (if p ≠ 0 ∧ tm = .vonly then s.h.getV v p e else if p ≠ 0 ∧ (tm = .tstop ∨ fmtInt s.h.fmt = true) then 0
            else x p e % 2 ^ keepBits s.h.fmt)
          else if c.kz then 0 else s.h.getV v p e)
        else s.h.getV v p e) ∧ ((∀ v ∈ [va, vb], s.h.bound v = none) → t.h.fflags = s.h.fflags) ∧ s.onlyVec t [va, vb] [] ∧ s.sameMemory t
    s.vRuns [va] [vd] →
    (∀ i ∈ [Instr.vslup vd va ss imm sf tm c, .vsldn vd va ss imm sf tm c, .vcompr vd va tm c], Retires i s) ∧
    (s.vRuns [vb] [vd] → Retires (.vrgath vd va vb tm c) s) ∧
    is (.vslup vd va ss imm sf tm c) (s.h.kBit c.k) (fun p e => if m ≤ e then s.h.src va p (e - m) else fill p) ∧
    is (.vsldn vd va ss imm sf tm c) (s.h.kBit c.k) (fun p e => if e + m < s.h.vl then s.h.src va p (e + m) else fill p) ∧
    is (.vcompr vd va tm c) (fun e => decide (e < picked.length)) (fun p e => s.h.src va p (picked[e]?.getD 0)) ∧
    (s.vRuns [vb] [vd] →
      is (.vrgath vd va vb tm c) (s.h.kBit c.k) (fun p e => if index e < s.h.vl then s.h.src va p (index e) else 0))

/-- 10 R279, R280, 08 R227, R228: reductions and scans. VFREDO adds the active elements in element order, each sum rounded, VFREDU in
some parenthesisation, VFRMAX and VFRMIN choose by the value, VIREDS adds modulo 2^w; the result is in element 0, whatever the mask.
VSCAN gives at each active element the sum of those up to it, VSCANF some parenthesisation of them. Under DET VFREDU and VSCANF
raise cause 12.
Where the rules leave room, the statement follows the model's readings of log 8. -/
def Obligations.VectorReductions : Prop :=
  ∀ (s : State) (vd va vb : VReg) (rm r : Rm) (tm : Tm) (c : Ctl),
    s.vRuns [va, vb] [vd] → 0 < s.h.vl → s.h.resolveRm rm = some r →
    let f := s.h.fmt
    let cut := 2 ^ keepBits f
    let es := (List.range s.h.vl).filter fun e => s.h.kBit c.k e
    let add (p e x y : Nat) : Nat := (s.roundAt r p e (exAdd r (decodeEx f x) (decodeEx f y))).1
    let frame (t : State) (srcs : List VReg) : Prop := s.onlyVec { t with fresh := s.fresh } srcs [] ∧ s.sameMemory t
    let red (i : Instr) (ok : Nat → Nat → Prop) : Prop := Completes i s fun t =>
      frame t [va, vb] ∧ (∀ v p e, p ≤ s.h.tangents → e < 65536 → v ≠ vd ∨ e ≠ 0 → t.h.getV v p e = s.h.getV v p e) ∧
      ∀ p, p ≤ s.h.tangents → if p ∈ s.planesOf tm then ∃ y, ok p y ∧ t.h.getV vd p 0 = y % cut
        else t.h.getV vd p 0 = if tm = .vonly then s.h.getV vd p 0 else 0
    let scan (i : Instr) (ok : Nat → Nat → Nat → Prop) : Prop := Completes i s fun t =>
      frame t [va] ∧ ∃ y : Nat → Nat → Nat, (∀ p ∈ s.planesOf tm, ∀ e ∈ es, ok p e (y p e)) ∧
        s.planesAre t vd 0 c fun p e => if p ∈ s.planesOf tm then y p e % cut else if tm = .vonly then s.h.getV vd p e else 0
    let upTo (e : Nat) : List Nat := es.filter (· ≤ e)
    let pick (max : Bool) : Nat × Option Nat := es.foldl (s.h.pickNext max va) (s.h.src vb 0 0 % cut, none)
    let picked (max : Bool) (p y : Nat) : Prop :=
      y = if p = 0 then (pick max).1 else match (pick max).2 with
        | some e => s.h.src va p e
        | none => s.h.src vb p 0
    (isF8 f = true →
      red (.vfredo vd va vb rm tm c) (fun p y => y = es.foldl (fun acc e => add p e acc (s.h.src va p e)) (s.h.src vb p 0)) ∧
      red (.vfrmax vd va vb rm tm c) (picked true) ∧ red (.vfrmin vd va vb rm tm c) (picked false) ∧
      scan (.vscan vd va rm tm c) (fun p e y => y = match upTo e with
        | [] => 0
        | d :: l => l.foldl (fun acc d => add p d acc (s.h.src va p d)) (s.h.src va p d)) ∧
      (∀ i ∈ ([.vfredo vd va vb rm tm c, .vfrmax vd va vb rm tm c, .vfrmin vd va vb rm tm c, .vscan vd va rm tm c] : List Instr), Retires i s) ∧
      (s.h.det = false → Retires (.vfredu vd va vb rm tm c) s ∧ Retires (.vscanf vd va rm tm c) s ∧
        red (.vfredu vd va vb rm tm c) (fun p y => ∃ j, SumTree (add p) ((s.h.src vb p 0, 0) :: es.map fun e => (s.h.src va p e, e)) (y, j)) ∧
        scan (.vscanf vd va rm tm c) (fun p e y => ∃ j, SumTree (add p) ((upTo e).map fun d => (s.h.src va p d, d)) (y, j)))) ∧
    (fmtInt f = true → Retires (.vireds vd va vb rm tm c) s ∧ Completes (.vireds vd va vb rm tm c) s fun t =>
      frame t [va, vb] ∧ ∀ v p e, p ≤ s.h.tangents → e < 65536 → t.h.getV v p e =
        if v = vd ∧ e = 0 then (if p = 0 then (es.foldl (fun a e => a + s.h.src va 0 e) (s.h.src vb 0 0)) % 2 ^ fmtBits f
          else if tm = .vonly then s.h.getV v p e else 0)
        else s.h.getV v p e) ∧
    (isF8 f = true → s.h.det = true → exec (.vfredu vd va vb rm tm c) s = .next (s.trap ⟨12, encodeWord (.vfredu vd va vb rm tm c), 0⟩) ∧
      exec (.vscanf vd va rm tm c) s = .next (s.trap ⟨12, encodeWord (.vscanf vd va rm tm c), 0⟩))

/-- 10 R264 to R268, R283: the tangent group. TSEED, TREGEN and TFGA take the components TGen gives for SEED, BASE + e and the direction,
rounded by RNE; SEED and BASE are those the instruction captured where it was stopped. TZERO clears the tangents, TSCL scales them, TGET
and TPUT move the tangents of element 0 to and from the first elements, and TFGA adds to the value the mean of the directions
weighted by va's first T values, rounded once.
08 R222, 10 R265: the generators. Mix64 is the function of 08 R222; the stochastic bits of element e are the low 32 bits of the mixed
seed, sequence number and block of 32 elements, rotated right by e mod 32; plane p takes those of e + 65,536 × p; TGen's components are
a sign for RAD, and for the other the sum of twelve 16-bit integers less 393,210, over 65,536.
Where the rules leave room, the statement follows the model's readings of logs 58 and 98. -/
def Obligations.TangentInstructions : Prop :=
  (∀ (s : State) (dist : Dist) (vd va : VReg) (ss : SReg) (rm r : Rm) (c : Ctl),
    s.vRuns [va, vd] [vd] → isF3 s.h.fmt = true → s.h.resolveRm rm = some r →
    let f := s.h.fmt
    let T := s.h.tangents
    let g (k e : Nat) : Ex := tGen s.h.genNow.1 k (s.h.genNow.2 + BitVec.ofNat 64 e) dist
    let seeded (k e : Nat) : Nat := (roundFloat f false .rne 0 (g k e)).1 % 2 ^ keepBits f
    let is (i : Instr) (lo : Nat) (x : Nat → Nat → Nat) : Prop := Completes i s fun t =>
      s.planesAre t vd lo c x ∧ s.onlyVec t [va] [] ∧ s.sameMemory t
    let old (p e : Nat) : Nat := s.h.getV vd p e
    let first (k : Nat) : Nat := if (s.h.bound va).isSome ∧ s.h.vl ≤ k then 0 else s.h.src va 0 k
    let cut (x : Nat) : Nat := x % 2 ^ keepBits f
    is (.tseed dist vd c) s.h.eidx (fun p e => if p = 0 then old p e else seeded p e) ∧
    is (.tregen dist vd c) s.h.eidx (fun p e => if p = 0 then 0 else seeded p e) ∧
    is (.tzero vd c) s.h.eidx (fun p e => if p = 0 then old p e else 0) ∧
    is (.tscl vd ss rm c) s.h.eidx (fun p e => if p = 0 then old p e else
      cut (s.roundAt r p e (exMul (decodeEx f (old p e)) (decodeEx f ((s.rs ss).toNat % 2 ^ keepBits f)))).1) ∧
    (vd ≠ va → 0 < T → is (.tfga dist vd va rm c) s.h.eidx (fun p e => if p ≠ 0 then old p e else
      cut (s.roundAt r 0 e (addF r (decodeEx f (old 0 e), 0) (mulF (sumTerms r ((List.range T).map fun k =>
        mulF (decodeEx f (first k), 0) (g (k + 1) e, 0))) (.fin false 1 T, 0)))).1)) ∧
    (∀ i ∈ ([.tseed dist vd c, .tregen dist vd c, .tzero vd c, .tscl vd ss rm c, .tget vd va c, .tput vd va c] : List Instr),
      Retires i s) ∧
    (vd ≠ va → 0 < T → Retires (.tfga dist vd va rm c) s) ∧
    (Completes (.tget vd va c) s fun t => s.onlyVec t [va] [] ∧ s.sameMemory t ∧
      ∀ v p e, p ≤ T → e < 65536 → t.h.getV v p e =
        if v = vd ∧ e < min T s.h.vl then
          (if s.h.kBit c.k e then (if p = 0 then cut (s.h.src va (e + 1) 0) else 0) else if c.kz then 0 else s.h.getV v p e)
        else s.h.getV v p e) ∧
    (Completes (.tput vd va c) s fun t => s.onlyVec t [va] [] ∧ s.sameMemory t ∧
      ∀ v p e, p ≤ T → e < 65536 → t.h.getV v p e =
        if v = vd ∧ e = 0 ∧ 0 < s.h.vl ∧ 0 < T then
          (if s.h.kBit c.k 0 then (if p = 0 then s.h.getV v p e else cut (first (p - 1))) else if c.kz then 0 else s.h.getV v p e)
        else s.h.getV v p e)) ∧
  (∀ (h : Hart) (seed seq i : Word) (e k p : Nat),
    let mix (x : Word) : Word :=
      let shr (x : Word) (n : Nat) : Word := .ofNat 64 (x.toNat / 2 ^ n)
      let x1 := (x ^^^ shr x 32) * 0x5C1D37B4E2A90F63
      let x2 := (x1 ^^^ shr x1 29) * 0x8B3E52C719D4A6F1
      x2 ^^^ shr x2 32
    let w := mix (seed ^^^ .ofNat 64 (seq.toNat * 2 ^ 24) ^^^ .ofNat 64 (e / 32))
    let b := mix (seed ^^^ .ofNat 64 k) ^^^ i
    let quarters (x : Word) : Nat := x.toNat % 65536 + x.toNat / 2 ^ 16 % 65536 + x.toNat / 2 ^ 32 % 65536 + x.toNat / 2 ^ 48
    srBits seed seq e < 2 ^ 32 ∧ (∀ j, j < 32 → (srBits seed seq e).testBit j = w.getLsbD ((j + e % 32) % 64)) ∧
    h.uBits (some seq) p e = srBits h.srseed seq (e + 65536 * p) ∧ h.uBits none p e = 0 ∧
    (tGen seed k i .rad).toRat = (if (mix b).getLsbD 63 then -1 else 1) ∧
    (tGen seed k i .n12).toRat = ((quarters (mix b) + quarters (mix (b + 1)) + quarters (mix (b + 2)) : Nat) - 393210 : Rat) / 65536)

/-- 10 R270 to R273, R276: the set-up of a tile slot the hart owns. MCFG takes a configuration word that R270 allows and clears the
slot, and raises cause 8 with the word otherwise; MTSET writes one row of a tile, cut to the width of its format, and MTSCL one row of its scales; MACLR clears an
accumulator. -/
def Obligations.MatrixSetup : Prop :=
  ∀ (s : State) (w a : Fin 4) (sr : SReg) (row : Row) (va : VReg) (plane : BitVec 5),
    s.vRuns [] [] → w.val < s.slotsOf s.hid → a.val < s.slotsOf s.hid →
    let cfg := s.h.tileCfg w.val (s.columnsOf s.hid)
    let i := match row with | .imm i => i.val | .reg r => (s.rs r).toNat
    let x := s.rs sr
    (Retires (.maclr a) s) ∧
    (sr ≠ 0 → tileWordOk x.toNat s.h.nreg (s.columnsOf s.hid) = false → exec (.mcfg w sr) s = .next (s.trap ⟨8, x, 0⟩)) ∧
    (exec (.mcfg w 0) s = .next (s.trap ⟨1, encodeWord (.mcfg w 0), 0⟩)) ∧
    (sr ≠ 0 → tileWordOk x.toNat s.h.nreg (s.columnsOf s.hid) = true → Completes (.mcfg w sr) s fun t =>
      Retires (.mcfg w sr) s ∧ s.onlyMatrix t ∧ s.sameMemory t ∧ t.h.v = s.h.v ∧ t.h.acc = s.h.acc ∧
      t.h.tileCfg w.val (s.columnsOf s.hid) = x.toNat ∧
      ∀ u k n, k < 128 → n < 64 →
        t.h.tileElem u k n = (if u = w.val then 0 else s.h.tileElem u k n) ∧
        t.h.tileScale u k n = (if u = w.val then 127 else s.h.tileScale u k n) ∧
        (u ≠ w.val → SMap.get 0 t.h.tcfg u = SMap.get 0 s.h.tcfg u)) ∧
    (s.vRuns [va] [] → s.h.fmt = tileFmt cfg → i < tileK cfg → i < 128 → tileN cfg ≤ 64 → plane.toNat ≤ s.h.tangents →
      Retires (.mtset w row va plane) s ∧ Completes (.mtset w row va plane) s fun t =>
        s.onlyMatrix t ∧ s.sameMemory t ∧ t.h.v = s.h.v ∧ t.h.acc = s.h.acc ∧ t.h.tcfg = s.h.tcfg ∧ t.h.tsc = s.h.tsc ∧
        ∀ u k n, k < 128 → n < 64 → t.h.tileElem u k n =
          if u = w.val ∧ k = i ∧ n < tileN cfg then .ofNat 64 (s.h.srcRow va plane.toNat n % 2 ^ keepBits (tileFmt cfg)) else s.h.tileElem u k n) ∧
    (s.vRuns [va] [] → tileScaled cfg = true → i < (tileK cfg + tileBlen cfg - 1) / tileBlen cfg → i < 128 → tileN cfg ≤ 64 →
      Retires (.mtscl w row va) s ∧ Completes (.mtscl w row va) s fun t =>
        s.onlyMatrix t ∧ s.sameMemory t ∧ t.h.v = s.h.v ∧ t.h.acc = s.h.acc ∧ t.h.tcfg = s.h.tcfg ∧ t.h.tel = s.h.tel ∧
        ∀ u k n, k < 128 → n < 64 → t.h.tileScale u k n =
          if u = w.val ∧ k = i ∧ n < tileN cfg ∧ n < s.h.vl then s.h.src va 0 n % 256 else s.h.tileScale u k n) ∧
    (Completes (.maclr a) s fun t =>
      s.onlyMatrix t ∧ s.sameMemory t ∧ t.h.v = s.h.v ∧ t.h.tcfg = s.h.tcfg ∧ t.h.tel = s.h.tel ∧ t.h.tsc = s.h.tsc ∧
      ∀ u r n, r < 64 → n < 64 → t.h.accWord u r n = if u = a.val then 0 else s.h.accWord u r n)

/-- 10 R274 to R276, 08 R225, R226: MROW and MROWD accumulate the source's planes against the tile, MDRAIN and MDRAINT round a row
or a column of an accumulator into a vector register, or store it plane after plane from a base address. The terms of a row are the
source's elements below VL and zeros, the tile's elements of their row and column, and their scales. A column whose products are all
finite gathers each group of sixteen exactly, and each group's sum is rounded into the accumulator by RNE, group after group. MROW and MROWD never trap on a flag, whatever FCTL enables.
Where the rules leave room, the statement follows the model's readings of log 58. -/
def Obligations.MatrixProducts : Prop :=
  ∀ (s : State) (w a : Fin 4) (row : Row) (va vd : VReg) (sr : SReg) (plane : BitVec 5) (rm r : Rm) (q : RowTerms) (n acc : Nat),
    let cfg := s.h.tileCfg w.val (s.columnsOf s.hid)
    let asr : VReg := Fin.ofNat 64 (tileAsr cfg)
    let i := match row with | .imm i => i.val | .reg r => (s.rs r).toNat
    let t1 := 1 + s.h.tangents
    let srcs := va :: if tileAsc cfg then [asr] else []
    let rows (x : Instr) (planes : List (Nat × Nat)) : Prop := Retires x s ∧ Completes x s fun t =>
      s.onlyMatrix t ∧ s.sameMemory t ∧ t.h.v = s.h.v ∧ t.h.tcfg = s.h.tcfg ∧ t.h.tel = s.h.tel ∧ t.h.tsc = s.h.tsc ∧
      ∀ u k n, k < 64 → n < 64 → t.h.accWord u k n =
        if u = a.val ∧ n < tileN cfg ∧ (planes.any fun p => k == i * t1 + p.2) = true then
          (((s.h.rowTerms w.val cfg va asr (if planes.length = 1 ∧ (planes.headD (0, 0)).2 ≠ 0 then 0 else k - i * t1)).column n
            (s.h.accWord u k n)).1) % 2 ^ 32
        else s.h.accWord u k n
    let drained (word : Nat → Nat → Option (Nat × Nat)) (e p : Nat) : Nat :=
      (s.roundAt r p e (match word e p with
        | some (k, n) => (decodeEx .f32 (s.h.accWord a.val k n), 0)
        | none => (.zero false, 0))).1
    let drain (x : MDest → Instr) (word : Nat → Nat → Option (Nat × Nat)) : Prop :=
      (s.vRuns [] [vd] → Retires (x (.vec vd)) s ∧ Completes (x (.vec vd)) s fun t => s.onlyVec t [] [] ∧ s.sameMemory t ∧
        ∀ v p e, p ≤ s.h.tangents → e < 65536 → t.h.getV v p e =
          if v = vd ∧ e < s.h.vl then drained word e p % 2 ^ keepBits s.h.fmt else s.h.getV v p e) ∧
      (∀ pas, s.vRuns [] [] → s.h.ebits ≠ 4 → s.storeTargets false (s.rs sr) (t1 * s.h.vl * (s.h.ebits / 8)) = .ok pas →
        Retires (x (.mem sr)) s ∧ Completes (x (.mem sr)) s fun t => s.onlyWide t ∧ s.sameMemory t ∧ t.h.v = s.h.v ∧
          t.h.sq.length = t1 * s.h.vl ∧ ∀ p e, p < t1 → e < s.h.vl → ∃ y, t.h.sq[p * s.h.vl + e]? = some y ∧ y.strm = 10 ∧
            y.seq = s.h.nextSeq ∧ y.va = s.rs sr + .ofNat 64 (s.h.ebits / 8 * (p * s.h.vl + e)) ∧
            y.shadows = s.openShadows s.myPart ∧ y.op = .write ((pas.drop ((p * s.h.vl + e) * (s.h.ebits / 8))).take (s.h.ebits / 8))
              (leBytes (s.h.ebits / 8) (drained word e p)))
    (s.vReady [] [] → (∀ v ∈ srcs, v.val < s.h.nreg ∧ s.h.leased v = false ∧ s.h.pinned v = false) → s.stripHeld none va →
      (tileAsc cfg = true → s.stripHeld (some (tileBlen cfg)) asr) →
      w.val < s.slotsOf s.hid → a.val < s.slotsOf s.hid → tileN cfg ≤ 64 →
      (tileClass s.h.fmt).map (·.1) = (tileClass (tileFmt cfg)).map (·.1) → i < 64 / t1 →
      (tileAsc cfg = true → scaledFmt s.h.fmt = true) →
      rows (.mrow a row w va) ((List.range t1).map fun p => (p, p)) ∧
      (plane.toNat ≠ 0 → plane.toNat ≤ s.h.tangents → rows (.mrowd a row w va plane) [(0, plane.toNat)])) ∧
    (a.val < s.slotsOf s.hid → isF8 s.h.fmt = true → s.h.resolveRm rm = some r →
      (i < 64 / t1 → drain (fun d => .mdrain d a row rm) fun e p => if e < s.columnsOf s.hid then some (i * t1 + p, e) else none) ∧
      (i < s.columnsOf s.hid → drain (fun d => .mdraint d a row rm) fun e p => if e < 64 / t1 then some (e * t1 + p, i) else none)) ∧
    (∀ p j m, let t := s.h.rowTerms w.val cfg va asr p
      let blen := tileBlen cfg
      let exp (x : Nat) : Option Int := if x = 255 then none else some ((x : Int) - 127)
      t.k = tileK cfg ∧ t.x j = (if j < s.h.vl then decodeEx s.h.fmt (s.h.src va p j) else .zero false) ∧
      t.b j m = decodeEx (tileFmt cfg) (s.h.tileElem w.val j m).toNat ∧
      t.sa j = (if tileAsc cfg = true ∧ j / blen * blen < s.h.vl then exp (s.h.scaleAt asr blen (j / blen * blen)) else some 0) ∧
      t.sb j m = (if tileScaled cfg = true then exp (s.h.tileScale w.val (j / blen) m) else some 0)) ∧
    (∀ u v : Nat → Int, (∀ j, j < q.k → (q.x j).finite ∧ (q.b j n).finite ∧ q.sa j = some (u j) ∧ q.sb j n = some (v j)) →
      ∃ A : Nat → Nat, A 0 = acc ∧ (q.column n acc).1 = A ((q.k + 15) / 16) ∧ ∀ g, 16 * g < q.k → (decodeEx .f32 (A g)).finite →
        ∃ z : Ex, z.finite ∧ A (g + 1) = (roundFloat .f32 false .rne 0 z).1 ∧ z.toRat = (decodeEx .f32 (A g)).toRat +
          (((List.range (min 16 (q.k - 16 * g))).map (16 * g + ·)).map fun j =>
            (q.x j).toRat * (q.b j n).toRat * (2 : Rat) ^ (u j + v j)).sum)

/-- 06 R165, R166, R168, R169, R171, R175, R176: vector loads whose elements lie in this device's memory. VLD, VLDS and VLDX issue one
read for each plane of each active element; a read that fails at an element above 0 sets VL to it, at element 0 it traps. VSLR
moves a plane down by one element and reads its top; MTLD reads a whole tile, row by row, and sets its format.
Where the rules leave room, the statement follows the model's readings of logs 11, 14, 23 and 27. -/
def Obligations.VectorLoads : Prop :=
  ∀ (s : State) (fmt : Fmt) (plane : BitVec 5) (o : Order) (vd vi : VReg) (sb ss : SReg) (off : BitVec 10) (c : Ctl) (w : Fin 4)
    (pas : Nat → Nat → List Nat),
    let n := fmtSize fmt
    let base : Word := .ofInt 64 ((s.rs sb).toInt + off.toInt * n)
    let planes := s.planesAt plane.toNat
    let es := s.h.doing c.k
    let first := (List.range s.h.vl).find? (s.h.kBit c.k ·)
    let nib (e : Nat) : Option Bool := if fmtBits fmt = 4 then some (e % 2 == 1) else none
    let fence : List Fence := if o = .acq ∨ o = .sc then [⟨s.h.nextSeq, .acquire .dev⟩] else []
    let row (e : Nat) : Word := base + .ofNat 64 (e * fmtBits fmt / 8)
    let good (va : Nat → Word) (e : Nat) : Prop := ∀ p ∈ planes, s.readsAt (s.planeAt fmt plane.toNat p (va e)) n (pas p e)
    let load (i : Instr) (unit : Bool) (srcs : List VReg) (va : Nat → Word) : Prop :=
      s.vRuns srcs [vd] → loadPair fmt s.h.fmt = true → s.accessOk fmt plane.toNat unit →
      ((∀ e ∈ es, good va e) → Retires i s ∧ Completes i s fun t =>
        s.onlyWide t ∧ s.sameMemory t ∧ t.h.vl = s.h.vl ∧ t.h.fences = fence ∧
        s.queued t (es.flatMap fun e => planes.map (e, ·)) o first true unit (fun e p => s.planeAt fmt plane.toNat p (va e))
          (fun e p => .read (.velem vd p e fmt s.h.fmt (nib e)) (pas p e)) ∧
        ∀ v p e, p ≤ s.h.tangents → e < 65536 → t.h.getV v p e =
          if v = vd ∧ s.h.eidx ≤ e ∧ e < s.h.vl ∧ s.h.kBit c.k e = false ∧ c.kz = true then 0 else s.h.getV v p e) ∧
      ∀ l ∈ es, ∀ t0 : Trp, t0.cause ≠ 19 → (∀ e ∈ es, e < l → good va e) →
        s.readTargets (s.planeAt fmt plane.toNat (planes.headD 0) (va l)) n = .error t0 →
        (l ≠ 0 → Retires i s ∧ Completes i s fun t => s.onlyWide t ∧ s.sameMemory t ∧ t.h.vl = l ∧
          t.h.sq.length = planes.length * (es.filter (· < l)).length) ∧
        (l = 0 → exec i s = .next (s.trap { t0 with eidx := 0 }))
    load (.vld fmt plane o vd sb off c) true [] row ∧
    load (.vlds fmt plane o vd sb ss off c) false [] (fun e => base + .ofNat 64 e * s.rs ss) ∧
    load (.vldx fmt plane o vd sb off vi c) false [vi]
      (fun e => base + .ofNat 64 (s.h.src vi 0 e % 2 ^ keepBits s.h.fmt * n)) ∧
    (s.vRuns [] [vd] → loadPair fmt s.h.fmt = true → plane ≠ 31 → plane.toNat ≤ s.h.tangents → (fmtBits fmt = 4 → ss = 0) →
      0 < s.h.vl →
      let top := s.h.vl - 1
      s.readsAt (if ss = 0 then row top else base + .ofNat 64 top * s.rs ss) n (pas plane.toNat top) →
      Retires (.vslr fmt plane o vd sb ss off c) s ∧ Completes (.vslr fmt plane o vd sb ss off c) s fun t =>
        s.onlyWide t ∧ s.sameMemory t ∧ t.h.vl = s.h.vl ∧ t.h.fences = fence ∧
        (∃ rt, s.queued t [(top, plane.toNat)] o (some top) true (ss == 0)
          (fun _ _ => if ss = 0 then row top else base + .ofNat 64 top * s.rs ss) (fun _ _ => .read rt (pas plane.toNat top)) ∧
          (s.h.kBit c.k top = true → rt = .velem vd plane.toNat top fmt s.h.fmt (nib top)) ∧
          (s.h.kBit c.k top = false → rt.vdest = none ∧ rt.sdest = none)) ∧
        ∀ v p e, p ≤ s.h.tangents → e < 65536 → t.h.getV v p e =
          if v = vd ∧ e < s.h.vl then
            (if s.h.kBit c.k e = false then (if c.kz then 0 else s.h.getV v p e)
            else if p = plane.toNat ∧ e < top then s.h.getV v p (e + 1) % 2 ^ keepBits s.h.fmt else s.h.getV v p e)
          else s.h.getV v p e) ∧
    (let cfg := s.h.tileCfg w.val (s.columnsOf s.hid)
    let pitch : Word := if ss = 0 then .ofNat 64 (tileN cfg * fmtBits fmt / 8) else s.rs ss
    s.vRuns [] [] → w.val < s.slotsOf s.hid → (∃ x, tileClass fmt = some x ∧ tileK cfg ≤ x.2) →
      (tileScaled cfg = true → scaledFmt fmt = true) → tileN cfg ≤ 64 →
      (∀ i k, i < tileK cfg → k < tileN cfg →
        s.readsAt (base + .ofNat 64 i * pitch + .ofNat 64 (k * fmtBits fmt / 8)) n (pas i k)) →
      Retires (.mtld fmt w sb ss off c) s ∧ Completes (.mtld fmt w sb ss off c) s fun t =>
        s.onlyMatrix t ∧ s.sameMemory t ∧ t.h.v = s.h.v ∧ t.h.acc = s.h.acc ∧ t.h.tel = s.h.tel ∧ t.h.tsc = s.h.tsc ∧
        SMap.get 0 t.h.tcfg w.val = .ofNat 64 (cfg / 32 * 32 + fmtCode fmt) ∧ t.h.sq.length = tileK cfg * tileN cfg ∧
        ∀ i k, i < tileK cfg → k < tileN cfg → ∃ y, t.h.sq[i * tileN cfg + k]? = some y ∧ y.strm = 10 ∧ y.seq = s.h.nextSeq ∧
          y.va = base + .ofNat 64 i * pitch + .ofNat 64 (k * fmtBits fmt / 8) ∧ y.op = .read (.tile w.val i k (nib k)) (pas i k))

/-- 06 R165, R167, R168, R170, R171, R174, 08 R222: vector stores to this device's memory. VST, VSTS and VSTX issue one write for each
plane of each active element, with its value converted to the memory format; an element whose address fails traps precisely, with
the elements below it issued. VSTXA issues one atomic addition for each active element, and under DET raises cause 12.
06 R173, 14 R337: a vector store whose first active element lies in the reducing window. A plane other than 0 or an order, an
unregistered group, an operation or a format that COPS does not give, another format than the store's, an invalid chunk, a tag past the
group's buckets, a bucket that is no multiple of its chunks and an element outside the bucket are cause 8 at element 0; an element
outside the window is cause 8 at itself, with the elements below it sent. Otherwise every active element becomes a contribution on stream
V to the owner of its chunk, with what the store captures, and nothing is written.
Where the rules leave room, the statement follows the model's readings of logs 11, 23, 27 and 58. -/
def Obligations.VectorStores : Prop :=
  (∀ (s : State) (fmt : Fmt) (plane : BitVec 5) (o : Order) (sat : Bool) (vs vi : VReg) (sb ss : SReg) (off : BitVec 10) (k : KReg)
    (r : Rm) (pas : Nat → Nat → List Nat),
    let f := s.h.fmt
    let n := fmtSize fmt
    let base : Word := .ofInt 64 ((s.rs sb).toInt + off.toInt * n)
    let planes := s.planesAt plane.toNat
    let es := s.h.doing k
    let first := (List.range s.h.vl).find? (s.h.kBit k ·)
    let index (e : Nat) : Word := base + .ofNat 64 (s.h.src vi 0 e % 2 ^ keepBits f * n)
    let x (p e : Nat) : Nat := s.h.src vs p e % 2 ^ keepBits f
    let u (p e : Nat) : Nat := s.h.uBits (s.h.drawFor r).1 p e
    let stored (p e : Nat) : Nat :=
      if fmt = f then x p e
      else if fmtInt f then (BitVec.ofInt (fmtBits fmt) (max (intRange fmt).1 (min (intRange fmt).2 (intOf f (x p e))))).toNat
      else (roundTo fmt sat r (u p e) (decodeEx f (x p e))).1
    let op (e p : Nat) : AccOp :=
      if fmtBits fmt = 4 then .writeNib ((pas p e).headD 0) (e % 2 == 1) (stored p e) else .write (pas p e) (leBytes n (stored p e))
    let store (i : Instr) (unit : Bool) (srcs : List VReg) (va : Nat → Word) : Prop :=
      s.vRuns srcs [] → storePair f fmt = true → s.accessOk fmt plane.toNat unit → (storeRounds f fmt = true → s.h.resolveRm .dyn = some r) →
      (∀ e, e < s.h.vl → s.h.kBit k e = true → (∀ d, d < e → s.h.kBit k d = false) →
        s.inWindow s.myPart (s.planeAt fmt plane.toNat (planes.headD 0) (va e)) = none) →
      let good (e : Nat) : Prop := ∀ p ∈ planes, s.storeTargets true (s.planeAt fmt plane.toNat p (va e)) n = .ok (pas p e)
      let at_ (e p : Nat) : Word := s.planeAt fmt plane.toNat p (va e)
      ((∀ e ∈ es, good e) → Retires i s ∧ Completes i s fun t =>
        s.onlyWide t ∧ s.sameMemory t ∧ t.h.v = s.h.v ∧ t.h.vl = s.h.vl ∧
        s.queued t (es.flatMap fun e => planes.map (e, ·)) o first false unit at_ op ∧
        t.h.fences = (if o = .acq then [⟨s.h.nextSeq, .ownWrites⟩] else if o = .sc then [⟨s.h.nextSeq, .acquire .dev⟩] else [])) ∧
      ∀ e0 ∈ es, ∀ t0 : Trp, t0.cause ≠ 19 → o = .plain → (∀ e ∈ es, e < e0 → good e) →
        s.storeTargets true (s.planeAt fmt plane.toNat (planes.headD 0) (va e0)) n = .error t0 →
        ∃ t : State, exec i s = .next (t.trapWith false (if storeRounds f fmt then (s.h.drawFor r).1 else none) { t0 with eidx := e0 }) ∧
          s.sameMemory t ∧ t.h.v = s.h.v ∧ s.queued t ((es.filter (· < e0)).flatMap fun e => planes.map (e, ·)) o first false unit at_ op
    store (.vst fmt plane o sat vs sb off k) true [vs] (fun e => base + .ofNat 64 (e * fmtBits fmt / 8)) ∧
    store (.vsts fmt plane o sat vs sb ss off k) false [vs] (fun e => base + .ofNat 64 e * s.rs ss) ∧
    store (.vstx fmt plane o sat vs sb off vi k) false [vs, vi] index ∧
    (s.vRuns [vs, vi] [] →
      (fmt ≠ f ∨ addFmt fmt = false ∨ plane ≠ 0 → exec (.vstxa fmt plane sat vs sb off vi k) s =
        .next (s.trap ⟨1, encodeWord (.vstxa fmt plane sat vs sb off vi k), 0⟩)) ∧
      (s.h.det = true → fmt = f → addFmt fmt = true → plane = 0 → (isF3 fmt = true → s.h.resolveRm .dyn = some r) →
        exec (.vstxa fmt plane sat vs sb off vi k) s =
        .next (s.trap ⟨12, encodeWord (.vstxa fmt plane sat vs sb off vi k), 0⟩)) ∧
      (s.h.det = false → fmt = f → addFmt fmt = true → plane = 0 → (isF3 fmt = true → s.h.resolveRm .dyn = some r) →
        (∀ e ∈ es, (index e).toNat % n = 0 ∧ s.storeTargets false (index e) n = .ok (pas 0 e)) →
        Retires (.vstxa fmt plane sat vs sb off vi k) s ∧ Completes (.vstxa fmt plane sat vs sb off vi k) s fun t =>
          s.onlyWide t ∧ s.sameMemory t ∧ t.h.v = s.h.v ∧ t.h.fences = [] ∧ s.queued t (es.map (·, 0)) .plain first false false (fun e _ => index e) fun e _ =>
            if isF3 fmt then .vadd fmt ((pas 0 e).headD 0) (x 0 e) r (u 0 e) else .vadd fmt ((pas 0 e).headD 0) (x 0 e) .rne 0))) ∧
  (∀ (s : State) (fmt : Fmt) (plane : BitVec 5) (o : Order) (sat : Bool) (vs vi : VReg) (sb ss : SReg) (off : BitVec 10) (k : KReg)
    (r : Rm) (e1 : Nat),
    let f := s.h.fmt
    let n := fmtSize fmt
    let base : Word := .ofInt 64 ((s.rs sb).toInt + off.toInt * n)
    let es := s.h.doing k
    let all := (List.range s.h.vl).filter (s.h.kBit k ·)
    let ops := s.h.cops.toNat % 256
    let tag := s.h.ctag.toNat % 65536
    let group := s.h.cgroup.toNat % 65536
    let chunk := s.h.cstride.toNat % 2 ^ 24
    let x (e : Nat) : Nat := s.h.src vs 0 e % 2 ^ keepBits f
    let drew : Option Word := if storeRounds f fmt then (s.h.drawFor r).1 else none
    let stored (e : Nat) : Nat :=
      if fmt = f then x e
      else if fmtInt f then (BitVec.ofInt (fmtBits fmt) (max (intRange fmt).1 (min (intRange fmt).2 (intOf f (x e))))).toNat
      else (roundTo fmt sat r (s.h.uBits drew 0 e) (decodeEx f (x e))).1
    let store (i : Instr) (unit : Bool) (srcs : List VReg) (va : Nat → Word) : Prop :=
      s.vRuns srcs [] → storePair f fmt = true → s.accessOk fmt plane.toNat unit → (storeRounds f fmt = true → s.h.resolveRm .dyn = some r) →
      e1 < s.h.vl → s.h.kBit k e1 = true → (∀ d, d < e1 → s.h.kBit k d = false) →
      let va0 := s.planeAt fmt plane.toNat ((s.planesAt plane.toNat).headD 0) (va e1)
      (s.inWindow s.myPart va0).isSome = true → canonical va0 = true →
      let offs := all.filterMap fun e => s.windowElem (va e) n
      let refused (tr : Trp) (l : List Nat) (op : Nat → Nat → AccOp) : Prop := ∃ t : State, exec i s = .next (t.trapWith false drew tr) ∧
        s.sameMemory t ∧ t.h.v = s.h.v ∧ s.queued t (l.map (·, 0)) .plain (some e1) false false (fun e _ => va e) op
      let none_ : Nat → Nat → AccOp := fun _ _ => .await none 0
      let bad (g : Grp) : Prop := let b := s.bktEnt s.myPart g tag
        (copsOp ops).isNone = true ∨ copsFmt ops ≠ some fmt ∨ chunkOk chunk = false ∨ g.nbkt ≤ tag ∨ b.boff % chunk ≠ 0 ∨
          b.blen % chunk ≠ 0 ∨ ∃ a ∈ offs, a < b.boff ∨ b.boff + b.blen < a + n
      let owner (g : Grp) (a : Nat) : Nat := (s.rankDev s.myPart g (a / chunk % g.nr)).1
      let op (g : Grp) (e _p : Nat) : AccOp :=
        let a : Nat := (s.windowElem (va e) n).getD 0
        let p : Packet := {
          dst := owner g a, src := s.devId, kind := .contribution, slot := g.slotbase + g.me, addr := a, data := leBytes n (stored e)
          group := group, tag := tag, rank := g.me, epoch := s.h.epoch.toNat, ops := ops, chunk := chunk }
        .contrib p s.myPart
      (plane ≠ 0 ∨ o ≠ .plain → refused ⟨8, va0, 0⟩ [] none_) ∧
      (plane = 0 → o = .plain →
        (s.group? s.myPart group = none → refused ⟨8, va0, 0⟩ [] none_) ∧
        ∀ g, s.group? s.myPart group = some g →
          (bad g → refused ⟨8, va0, 0⟩ [] none_) ∧
          (¬ bad g → (∀ a ∈ offs, owner g a = s.devId ∨ s.allowed s.myPart (owner g a) = true) → g.slotbase + g.me < 16384 →
            ((∀ e ∈ es, (s.windowElem (va e) n).isSome = true) → Retires i s ∧ Completes i s fun t =>
              s.onlyWide t ∧ s.sameMemory t ∧ t.h.v = s.h.v ∧ t.h.fences = [] ∧
              s.queued t (es.map (·, 0)) .plain (some e1) false false (fun e _ => va e) (op g)) ∧
            ∀ e0 ∈ es, s.windowElem (va e0) n = none → (∀ e ∈ es, e < e0 → (s.windowElem (va e) n).isSome = true) →
              refused ⟨8, va e0, e0⟩ (es.filter (· < e0)) (op g)))
    store (.vst fmt plane o sat vs sb off k) true [vs] (fun e => base + .ofNat 64 (e * fmtBits fmt / 8)) ∧
    store (.vsts fmt plane o sat vs sb ss off k) false [vs] (fun e => base + .ofNat 64 e * s.rs ss) ∧
    store (.vstx fmt plane o sat vs sb off vi k) false [vs, vi]
      (fun e => base + .ofNat 64 (s.h.src vi 0 e % 2 ^ keepBits f * n)))

/-- 06 R177, R178, R181, R183, R187: VBIND binds a register to the record its four words give, in the lowest free slot, or raises
cause 20; VUNBIND ends a binding and zeroes the register, VBSKIP moves a binding on; VQPUSH and VQPOP issue one push or pop for
each active element on the queue's stream, V for a queue at home on S.
Where the rules leave room, the statement follows the model's readings of logs 26, 65, 89 and 103. -/
def Obligations.BindingsAndVectorQueues : Prop :=
  ∀ (s : State) (vd va : VReg) (ss : SReg) (q : Fin 8) (tm : Tm) (c : Ctl) (l : List Access), s.vRuns [] [] → vd.val < s.h.nreg →
    let a := s.rs ss
    let w (i : Nat) : Nat := (s.h.word i).toNat
    let free (m : Nat) : Prop := m < 8 ∧ ∀ b ∈ s.h.binds, b.slot = m → b.reg = vd
    let home := (s.h.queue q).home
    let strm := if home = 0 then 1 else home
    let kept (t : State) (but : VReg → Nat → Nat → Option Nat) : Prop := ∀ v p e, p ≤ s.h.tangents → e < 65536 →
      t.h.getV v p e = (but v p e).getD (s.h.getV v p e)
    (a.toNat % 32 ≠ 0 → exec (.vbind vd ss c) s = .next (s.trap ⟨20, a, 0⟩)) ∧
    (a.toNat % 32 = 0 → s.h.pinned vd = true → exec (.vbind vd ss c) s = .next (s.trap ⟨8, .ofNat 64 vd, 0⟩)) ∧
    (a.toNat % 32 = 0 → s.h.pinned vd = false →
      (s.h.waitAt = none → s.h.got = [] → s.h.gotBad = [] → s.wordReads s.now a 0 4 = .ok l → Completes (.vbind vd ss c) s fun t =>
        t.h.sq = l ∧ t.h.pc = s.h.pc ∧ t.h.waiting = true ∧ t.h.waitAt = some s.now ∧ t.h.binds = s.h.binds ∧ s.sameMemory t) ∧
      (s.h.gotBad = [] → (∀ i, i < 4 → (s.h.got.any (·.1 == i)) = true) →
        (recordFmt s.h.word = none → exec (.vbind vd ss c) s = .next (s.trap ⟨20, a, 0⟩)) ∧
        (∀ f m, recordFmt s.h.word = some f → free m → (∀ j, j < m → ¬ free j) → Retires (.vbind vd ss c) s ∧ Completes (.vbind vd ss c) s fun t =>
          s.onlyWide t ∧ s.sameMemory t ∧ t.h.v = s.h.v ∧ ∃ b, t.h.binds = (s.h.binds.filter fun (x : Binding) => x.reg != vd) ++ [b] ∧
            b.slot = m ∧ b.reg = vd ∧ b.fmt = f ∧ b.base = s.h.word 0 ∧ b.estride = (BitVec.ofNat 32 (w 1)).toInt ∧
            b.sbase = s.h.word 2 ∧ b.sstride = (BitVec.ofNat 32 (w 3)).toInt ∧ b.tlen = w 3 / 2 ^ 32 ∧
            b.scaled = (w 1).testBit 48 ∧ b.scalereg = (w 1).testBit 49 ∧ b.pos = 0 ∧ b.seq = s.h.nextSeq ∧
            b.blen = if (w 1).testBit 48 || (w 1).testBit 49 then w 1 / 2 ^ 40 % 256 else 0))) ∧
    (s.h.bound vd = none → exec (.vunbind vd c) s = .next (s.trap ⟨20, .ofNat 64 vd, 0⟩) ∧
      exec (.vbskip vd ss c) s = .next (s.trap ⟨20, .ofNat 64 vd, 0⟩)) ∧
    (s.h.bound vd ≠ none →
      (Retires (.vunbind vd c) s ∧ Retires (.vbskip vd ss c) s ∧ Completes (.vunbind vd c) s fun t => s.onlyWide t ∧ s.sameMemory t ∧
        t.h.binds = (s.h.binds.filter fun (x : Binding) => x.reg != vd) ∧ kept t fun v _ _ => if v = vd then some 0 else none) ∧
      (Completes (.vbskip vd ss c) s fun t => s.onlyWide t ∧ s.sameMemory t ∧ t.h.v = s.h.v ∧ ∀ v,
        ((t.h.bound v).map fun b => (b.slot, b.pos)) =
          (s.h.bound v).map fun b => (b.slot, if v = vd then min (b.pos + a.toNat) b.tlen else b.pos))) ∧
    (s.vRuns [va] [] →
      ((s.h.queue q).chan ≠ none → exec (.vqpush q va c) s = .next (s.trap ⟨8, .ofNat 64 q, s.h.eidx⟩)) ∧
      ((s.h.queue q).chan = none → Retires (.vqpush q va c) s ∧ Completes (.vqpush q va c) s fun t => s.onlyWide t ∧ s.sameMemory t ∧ t.h.v = s.h.v ∧
        t.h.q = s.h.q ∧ t.h.sq = (s.h.doing c.k).map fun e =>
          { s.access strm 0 (.push q (.ofNat 64 (s.h.src va 0 e % 2 ^ keepBits s.h.fmt))) with elem := e, vec := true })) ∧
    (s.vRuns [] [vd] → s.h.popIssueFault q (s.h.doing c.k).length = none → Retires (.vqpop vd q tm c) s ∧ Completes (.vqpop vd q tm c) s fun t =>
      s.onlyWide t ∧ s.sameMemory t ∧ t.h.q = s.h.q ∧
      t.h.sq = (s.h.doing c.k).map (fun e => { s.access strm 0 (.popV q vd e (keepBits s.h.fmt)) with elem := e, vec := true }) ∧
      kept t fun v p e => if v = vd ∧ s.h.eidx ≤ e ∧ e < s.h.vl then
        (if s.h.kBit c.k e then (if p ≠ 0 ∧ tm ≠ .vonly then some 0 else none) else if c.kz then some 0 else none) else none)

/-- 15 R355 to R357, 17 R384: the fabric streams. VCSEND hands the strip to the fabric unit in chunks on stream F, VCRECV posts a receive
into a pinned register and leases it, VCRED combines its strip with va in rank order. An unregistered group, a format of COPS other than
the element format, an invalid chunk, a FAILED register, one open with other values and receives outstanding, OP 3 of VCRED, and a
neighbour that may not be reached, are cause 8 with Cat(CGROUP, CTAG).
Where the rules leave room, the statement follows the model's readings of logs 45 and 94. -/
def Obligations.FabricStreams : Prop :=
  ∀ (s : State) (f : Fin 4) (va vd : VReg) (rm r : Rm) (tm : Tm) (c : Ctl) (g : Grp),
    let n := fmtBits s.h.fmt / 8
    let cut := 2 ^ keepBits s.h.fmt
    let opened := (s.h.openStream f).freg f
    let fail : Trp := ⟨8, .ofNat 64 (65536 * (s.h.cgroup.toNat % 65536) + s.h.ctag.toNat % 65536), 0⟩
    let frame (t : State) : Prop := s.sameMemory t ∧ t.h.k = s.h.k ∧ s.sameScalars t []
    let q := s.h.freg f
    let ops := s.h.cops.toNat % 128
    let chunk := s.h.cstride.toNat % 2 ^ 24
    let group := s.group? s.myPart (s.h.cgroup.toNat % 65536)
    let stale : Prop := q.state = 1 ∧ q.pseq ≠ q.dseq ∧
      ¬ (q.group = s.h.cgroup.toNat % 65536 ∧ q.tag = s.h.ctag.toNat % 65536 ∧ q.opfmt = ops ∧ q.chunk = chunk)
    let fails : Prop := group = none ∨ copsFmt ops ≠ some s.h.fmt ∨ chunkOk chunk = false ∨ q.state = 2 ∨ stale
    let shut (g : Grp) : Prop := s.rankAfter s.myPart g ≠ s.devId ∧ s.allowed s.myPart (s.rankAfter s.myPart g) = false
    (s.vRuns [va] [] → fails ∨ (∃ g, group = some g ∧ shut g) → exec (.vcsend f va c) s = .next (s.trap fail)) ∧
    (s.vRuns [] [] → vd.val < s.h.nreg → fails → exec (.vcrecv vd f tm c) s = .next (s.trap fail)) ∧
    (s.vRuns [va] [vd] → s.h.resolveRm rm = some r → fails ∨ copsOp ops = none → exec (.vcred vd va f rm tm c) s = .next (s.trap fail)) ∧
    (s.vRuns [va] [] → ¬ fails → group = some g → ¬ shut g → Retires (.vcsend f va c) s ∧ Completes (.vcsend f va c) s fun t => ∃ x : SentStrip,
      (t.sentStrips = ((s.openStream f).sentStrips.filter fun y => !(y.hart == x.hart && y.f == x.f && y.group == x.group &&
        y.tag == x.tag && y.seqn == x.seqn)) ++ [x]) ∧ x.hart = s.hid ∧ x.f = f.val ∧ x.dest = s.rankAfter s.myPart g ∧ x.elems = s.h.vl ∧
      x.seqn = opened.sseq ∧ x.group = opened.group ∧ x.tag = opened.tag ∧ x.chunk = opened.chunk ∧ x.data.length = s.h.vl * n ∧
      (∀ e, e < s.h.vl → (x.data.drop (e * n)).take n = leBytes n (if s.h.kBit c.k e then s.h.src va 0 e else 0)) ∧
      t.h.freg f = { opened with sseq := (opened.sseq + 1) % 2 ^ 32 } ∧
      (t.h.sq = (x.packets s.devId).map fun p => s.access 11 0 (.contrib p s.myPart)) ∧
      t.h.v = s.h.v ∧ frame t) ∧
    (s.vRuns [] [] → vd.val < s.h.nreg → ¬ fails → s.early = [] →
      (s.h.pinned vd = false → exec (.vcrecv vd f tm c) s = .next (s.trap ⟨8, .ofNat 64 vd, 0⟩)) ∧
      (s.h.pinned vd = true → Retires (.vcrecv vd f tm c) s ∧ Completes (.vcrecv vd f tm c) s fun t =>
        t.h.deliveries = s.h.deliveries ++ [{ reg := vd, src := .strip f opened.pseq, seq := s.h.nextSeq }] ∧ t.h.leased vd = true ∧
        t.h.freg f = { opened with pseq := (opened.pseq + 1) % 2 ^ 32 } ∧
        (∃ x ∈ t.h.posts, x.f = f.val ∧ x.seqn = opened.pseq ∧ x.vd = some vd ∧ x.vl = s.h.vl ∧ x.mask = s.h.getK c.k ∧ x.kz = c.kz ∧
          x.vonly = (tm == .vonly)) ∧ t.h.v = s.h.v ∧ frame t)) ∧
    (∀ (x : RecvPost) (t0 : InStrip) (d : List Byte) (op : RedOp), s.vRuns [va] [vd] → s.h.resolveRm rm = some r →
      ¬ fails → group = some g → copsOp ops = some op → s.readyStrip s.hid f = some (x, t0, d) → x.vd = none →
      let before : Bool := decide ((g.me + g.nr - 1) % g.nr < g.me)
      let got (p e : Nat) : Nat := if p = 0 then stripElem d n e else 0
      let a (p e : Nat) : Nat := if before then got p e else s.h.src va p e
      let b (p e : Nat) : Nat := if before then s.h.src va p e else got p e
      let ka (e : Nat) : Nat := a 0 e % cut
      let kb (e : Nat) : Nat := b 0 e % cut
      let signed (z : Nat) : Int := (BitVec.ofNat (fmtBits s.h.fmt) z).toInt
      let max : Bool := op == .max
      let first (e : Nat) : Bool × Bool := minmaxFirst max (decodeEx s.h.fmt (ka e)) (decodeEx s.h.fmt (kb e))
      let nans (e : Nat) : Bool := (decodeEx s.h.fmt (ka e)).isNan && (decodeEx s.h.fmt (kb e)).isNan
      let y (p e : Nat) : Nat :=
        if op = .sum then
          (if p ≠ 0 then s.h.src va p e else if fmtInt s.h.fmt then (ka e + kb e) % 2 ^ fmtBits s.h.fmt
          else (s.roundAt r 0 e (exAdd r (decodeEx s.h.fmt (ka e)) (decodeEx s.h.fmt (kb e)))).1)
        else if fmtInt s.h.fmt then
          (if (if max then signed (ka e) < signed (kb e) else signed (kb e) < signed (ka e)) then b p e else a p e)
        else if p = 0 then (if nans e then fmtNan s.h.fmt else if (first e).1 then ka e else kb e)
        else if nans e || (first e).1 || (first e).2 then a p e else b p e
      Retires (.vcred vd va f rm tm c) s ∧ Completes (.vcred vd va f rm tm c) s fun t =>
        s.planesAre t vd 0 c (fun p e =>
          if p ∈ s.planesOf tm then y p e % cut else if tm = .vonly then s.h.getV vd p e else 0) ∧
        t.h.freg f = { s.h.freg f with dseq := ((s.h.freg f).dseq + 1) % 2 ^ 32 } ∧ (∀ z ∈ t.h.posts, z ≠ x) ∧
        (∀ z ∈ t.inStrips, z ≠ t0) ∧ frame t)

/-- 10 R281, R282: VCPK passes a dense strip through an empty compaction buffer unchanged; otherwise the active values join the
buffer, and a full strip of VL values leaves it into vd with zero tangents and a full mask, while without one the mask is cleared.
VCPKF takes what is left. The buffer lies in the hart's place of CBAREA, oldest entry first.
Where the rules leave room, the statement follows the model's readings of logs 32, 85 and 87. -/
def Obligations.Compaction : Prop :=
  ∀ (s : State) (vd va : VReg) (c : Ctl), s.vRuns [va] [vd] → packFmt s.h.fmt = true → s.h.mayPack = true →
    let cut := 2 ^ keepBits s.h.fmt
    let es := (List.range s.h.vl).filter fun e => s.h.kBit c.k e
    let n := s.h.cbCount
    let dense : Prop := n = 0 ∧ min 100 (s.h.cdens.toNat % 128) * s.h.vl ≤ 100 * es.length
    let held : List Nat := (List.range n).map s.packed
    let all : List Nat := held ++ es.map fun e => s.h.src va 0 e % cut
    let frame (t : State) : Prop := s.sameScalars t [] ∧ ∀ a, (∀ i, i < es.length → ∀ j, j < 8 → a ≠ s.packAddr (n + i) + j) →
      t.lastByte a = s.lastByte a ∧ ∀ g, t.viewByte g a = s.viewByte g a
    let popped (t : State) (l : List Nat) (m : Nat) : Prop :=
      (t.h.cbCount = l.length - m ∧ ∀ i, i < l.length - m → t.packed i = l[m + i]?.getD 0) ∧
      (∀ v p e, p ≤ s.h.tangents → e < 65536 → t.h.getV v p e =
        if v = vd ∧ e < m then (if p = 0 then (l[e]?.getD 0) % cut else 0) else s.h.getV v p e) ∧
      ∀ k e, e < 65536 → t.h.kBit k e = if k = c.k ∧ e < s.h.vl then decide (e < m) else s.h.kBit k e
    (c.k = 0 → exec (.vcpk vd va c) s = .next (s.trap ⟨1, encodeWord (.vcpk vd va c), 0⟩) ∧
      exec (.vcpkf vd c) s = .next (s.trap ⟨1, encodeWord (.vcpkf vd c), 0⟩)) ∧
    (c.k ≠ 0 → n + es.length ≤ 131072 → s.packTrap 0 (n + es.length) = none → s.packDelayed (n + es.length) = false → s.cutFree →
      Retires (.vcpk vd va c) s ∧ Retires (.vcpkf vd c) s ∧
      (dense → Completes (.vcpk vd va c) s fun t =>
        t.h.cbCount = 0 ∧ t.h.v = s.h.v ∧ t.h.k = s.h.k ∧ s.sameMemory t ∧ s.sameScalars t []) ∧
      (¬ dense → s.h.vl ≤ all.length → 1 ≤ s.h.vl → Completes (.vcpk vd va c) s fun t => popped t all s.h.vl ∧ frame t) ∧
      (¬ dense → all.length < s.h.vl ∨ s.h.vl = 0 → Completes (.vcpk vd va c) s fun t => popped t all 0 ∧ frame t) ∧
      Completes (.vcpkf vd c) s fun t => popped t held (min n s.h.vl) ∧ s.sameMemory t ∧ s.sameScalars t [])

/-- 02 R59, 03 R82, R89 to R91, 18 R401, R402: a convoy of two to six members is its members one after another, loads and stores among
them, of which each counts as one instruction. A header with a count above 4, or a malformed convoy, is cause 2 with the header, and a
member that is no vector instruction cause 1 with its 64 bits. Where member m of members that work element by element raises the convoy's
first cause, at element e, every member keeps what it does with VL = e, none does anything at e or above, m's flags are set, and the
trap is at the header with TEIDX = e and CONV. Where a convoy holds a member that stops only at element 0, a cause that any member raises
leaves every register, mask, binding and accumulator as it stood, with TEIDX 0.
Where the rules leave room, the statement follows the model's readings of logs 24, 25, 26, 72, 73 and 99. -/
def Obligations.Convoys : Prop :=
  ∀ (s t : State) (count : BitVec 3) (units : BitVec 18) (ps : List (BitVec 32)) (l : List Instr),
    let ws := wordsOfParcels ps
    let bad : Trp := ⟨2, encodeWord (.convoy count units), 0⟩
    let begins : Prop := s.h.sq = [] ∧ s.h.fences = [] ∧ s.h.binds = [] ∧ s.h.levels = [] ∧ s.h.eidx = 0 ∧ s.h.reuse = none ∧
      s.h.th = false ∧ s.bound = none ∧ s.h.pins = 0 ∧ s.h.vl ≤ 65536 ∧ s.h.got = [] ∧ s.h.gotBad = [] ∧ s.h.lent = [] ∧ s.h.puts = [] ∧
      s.h.lates = [] ∧ s.h.gen = none ∧ s.h.inConvoy = none
    let atHeader (u : State) : Prop := u.h.th = true ∧ u.h.conv = true ∧ u.h.tpc = s.h.pc ∧ u.h.pc = (s.part s.myPart).tvec ∧ s.sameMemory u
    (4 < count.toNat → exec (.convoy count units) s = .next (s.trapWith true none bad)) ∧
    (count.toNat ≤ 4 → s.fetchParcels (s.h.pc + 4) (2 * (count.toNat + 2)) = .ok ps →
      (malformed units ws = true → exec (.convoy count units) s = .next (s.trapWith true none bad)) ∧
      (malformed units ws = false → ∀ a w b, ws = a ++ w :: b → (∀ x ∈ a, ((decode64 x).bind memberOp).isSome = true) →
        (decode64 w).bind memberOp = none → exec (.convoy count units) s = .next (s.trapWith true none ⟨1, .ofNat 64 w, 0⟩)) ∧
      (malformed units ws = false → ws.map decode64 = l.map some → begins →
        ((∀ i ∈ l, registerOnly i = true ∨ memoryMember i = true) → RunsAll l s t → Completes (.convoy count units) s fun u =>
          u.h.v = t.h.v ∧ u.h.k = t.h.k ∧ u.h.s = t.h.s ∧ u.h.vl = t.h.vl ∧ u.h.fflags = t.h.fflags ∧ u.h.srseq = t.h.srseq ∧
          u.fresh = t.fresh ∧ u.h.sq = t.h.sq ∧
          u.h.pc = s.h.pc + .ofNat 64 (4 + 8 * l.length) ∧ u.h.nextSeq = s.h.nextSeq + l.length ∧ s.sameMemory u) ∧
        (∀ (a b : List Instr) (i : Instr) (e : Nat) (t1 x : State), l = a ++ i :: b → (∀ j ∈ l, elementwise j = true) → e < s.h.vl →
          (∀ va, s.inWindow s.myPart va = none) → RunsAll l (s.withVl e) t → RunsAll a (s.withVl (e + 1)) t1 →
          exec i (t1.withFlags 0) = .next x → x.h.th = true → Completes (.convoy count units) s fun u =>
            u.h.v = t.h.v ∧ u.h.k = t.h.k ∧ u.h.s = s.h.s ∧ u.h.fflags = t.h.fflags ||| x.h.fflags ∧ u.h.sq = t.h.sq ∧
            u.h.cause = x.h.cause ∧ u.h.tval = x.h.tval ∧ u.h.teidx = .ofNat 64 e ∧ atHeader u) ∧
        (∀ (a b : List Instr) (i : Instr) (t1 x : State), l = a ++ i :: b → (∀ j ∈ l, registerOnly j = true) →
          (∃ j ∈ l, stopsWhole j = true) → RunsAll a s t1 → exec i t1 = .next x → x.h.th = true →
          Completes (.convoy count units) s fun u => u.h.v = s.h.v ∧ u.h.k = s.h.k ∧ u.h.s = s.h.s ∧ u.h.acc = s.h.acc ∧
            u.h.tel = s.h.tel ∧ u.h.tsc = s.h.tsc ∧ u.h.binds = [] ∧ u.h.sq = [] ∧ u.h.teidx = 0 ∧ atHeader u)))

/-- 15 R363, 14 R341, R342: the Dungen instructions of an engine that is RUNNING or WAITING. NOP, SETC, ADDC, LOOP and BR act on chunk
registers and the index; FENCE, FLAG and STEP wait until the engine's transfers have ended and its writes are at device level; SEND,
RECV, REDUCE and COPY of a length other than zero start a transfer; WAIT, RING, ALLOC and FREE act as their rows say; HALT stops the
engine where it is. A bad handle, device or bell operand is FCODE 7, a length, address or format that is not taken FCODE 8, no free
slot FCODE 5. What an alignment breach is to FCODE 8 is the model's choice (log 55).
Where the rules leave room, the statement follows the model's readings of logs 17, 49 and 55. -/
def Obligations.DungenInstructions : Prop :=
  ∀ (s : State) (a b c d : CReg) (imm : BitVec 23) (k : BitVec 11) (u : BitVec 12) (q : BrCond) (cond : Cond) (tm : BitVec 8)
    (op : RedOp) (fc : BitVec 5) (pas : List Nat),
    let g := s.engine s.eng
    let r (x : CReg) : Word := SMap.get 0 g.c x.val
    let put (x : CReg) (v : Word) : Engine := { g with c := SMap.put 0 g.c x.val v }
    let goes (i : Instr) (x : Engine) (pc : Nat) : Prop := Completes i s fun t => s.onlyEngine t (x.goesTo pc)
    let waits (i : Instr) : Prop := Completes i s fun t => s.onlyEngine t { g with waitAt := some (g.waitAt.getD s.now) }
    let faults (i : Instr) (code : Nat) : Prop := Completes i s fun t => s.faultsEngine t code
    let holds (k : Cond) (x y : Word) : Prop := match k with
      | .eq => x = y
      | .ne => x ≠ y
      | .lt => x.toInt < y.toInt
      | .ge => y.toInt ≤ x.toInt
      | .ltu => x.toNat < y.toNat
      | .geu => y.toNat ≤ x.toNat
    let taken : Prop := match q with
      | .always => True
      | .cmp k => holds k (r a) (r b)
    let starts (i : Instr) (kind : XferKind) (x y : Word) : Prop :=
      let z : Xfer := ⟨kind, g.pc, x, y, (r d).toNat, 0, none, s.openShadows g.part⟩
      goes i { g with xfers := g.xfers ++ [z] } (g.pc + 1)
    let long (n : Nat) (l : List CReg) : Prop := (r d).toNat % n ≠ 0 ∨ 2 ^ 32 ≤ (r d).toNat ∨ ∃ x ∈ l, (r x).toNat % n ≠ 0
    let free (m : Nat) : Prop := m / 4096 = engineDie s.eng ∧ (s.part g.part).belllo ≤ m ∧ m ≤ (s.part g.part).bellhi ∧ (s.slot m).state = 0
    let dev (x : CReg) : Nat := (r x).toNat / 2 ^ 44 % 2 ^ 13
    (g.busy = false → exec (.setc a imm) s = .next s ∧ exec .step s = .next s ∧ exec (.send a b c d) s = .next s) ∧
    (g.busy = true → g.stopReq = false →
      (∀ i ∈ ([.nop, .setc a imm, .addc a b c k, .dungenLoop a u, .br q a b u, .dungenFence, .step, .halt] : List Instr),
        Completes i s fun t => t.h = s.h) ∧
      goes .nop g (g.pc + 1) ∧
      goes (.setc a imm) (put a (.ofInt 64 imm.toInt)) (g.pc + 1) ∧
      goes (.addc a b c k) (put a (r b + r c + .ofInt 64 k.toInt)) (g.pc + 1) ∧
      (r a = 1 → goes (.dungenLoop a u) (put a 0) (g.pc + 1)) ∧
      (r a ≠ 1 → goes (.dungenLoop a u) (put a (r a - 1)) (g.base + u.toNat)) ∧
      (taken → goes (.br q a b u) g (g.base + u.toNat)) ∧ (¬ taken → goes (.br q a b u) g (g.pc + 1)) ∧
      (s.dgSettled = true → goes .dungenFence g (g.pc + 1) ∧
        Completes .step s fun t => s.onlyEngine t (({ g with steps := g.steps + 1 }).goesTo (g.pc + 1)) ∧ (s.eng < 16 → s.stepnoOf t)) ∧
      (s.dgSettled = false → waits .dungenFence ∧ waits .step) ∧
      (Completes .halt s fun t => s.onlyEngine t { g with state := .halted, waitAt := none } ∧ s.stepnoOf t) ∧
      (∀ i ∈ [Instr.send a b c d, .recv a b d, .reduce op fc a b c d, .copy a b d], r d = 0 → goes i g (g.pc + 1)) ∧
      (r d ≠ 0 →
        (2 ^ 14 ≤ (r c).toNat ∨ s.destBad g.part (r b) = true → faults (.send a b c d) 7) ∧
        ((r c).toNat < 2 ^ 14 → s.destBad g.part (r b) = false → long 4 [a, b] → faults (.send a b c d) 8) ∧
        ((r c).toNat < 2 ^ 14 → s.destBad g.part (r b) = false → ¬ long 4 [a, b] → starts (.send a b c d) (.send (r c).toNat) (r a) (r b)) ∧
        ((r a).toNat / 2 ^ 57 ≠ 0 ∨ (s.isOwn (dev a) || s.allowed g.part (dev a)) = false → faults (.recv a b d) 7) ∧
        ((r a).toNat / 2 ^ 57 = 0 → (s.isOwn (dev a) || s.allowed g.part (dev a)) = true →
          (long 4 [a, b] → faults (.recv a b d) 8) ∧ (¬ long 4 [a, b] → starts (.recv a b d) .recv (r a) (r b))) ∧
        (long 4 [a, b] → faults (.copy a b d) 8) ∧ (¬ long 4 [a, b] → starts (.copy a b d) .copy (r a) (r b)) ∧
        (∀ f : Fmt, fmtOfCode fc.toNat = some f → f ∈ [Fmt.f32, .bf16, .f16, .i32, .i64] →
          (long (fmtBits f / 8) [a, b, c] → faults (.reduce op fc a b c d) 8) ∧
          (¬ long (fmtBits f / 8) [a, b, c] → starts (.reduce op fc a b c d) (.reduce op f (r b)) (r a) (r c))) ∧
        ((∀ f ∈ [Fmt.f32, .bf16, .f16, .i32, .i64], fmtOfCode fc.toNat ≠ some f) → faults (.reduce op fc a b c d) 8)) ∧
      ((r a).toNat % 8 ≠ 0 → faults (.wait cond a b tm) 8 ∧ faults (.flag a b) 8) ∧
      ((r a).toNat % 8 = 0 → s.engineBytes g.part .read (r a) 8 = .ok pas → s.bankDelays pas = false →
        let v : Word := .ofNat 64 (leValue ((s.engineRead s.eng pas).map (·.1)))
        (holds cond v (r b) → s.log = [] → goes (.wait cond a b tm) g (g.pc + 1)) ∧
        (¬ holds cond v (r b) → tm = 0 ∨ s.now - g.waitAt.getD s.now < 65536 * tm.toNat → Completes (.wait cond a b tm) s fun t =>
          s.onlyEngine t { g with state := .waiting, waitAt := some (g.waitAt.getD s.now) }) ∧
        (¬ holds cond v (r b) → tm ≠ 0 → 65536 * tm.toNat ≤ s.now - g.waitAt.getD s.now → faults (.wait cond a b tm) 6)) ∧
      (∀ code : Nat, (r a).toNat % 8 = 0 → s.engineBytes g.part .read (r a) 8 = .error code → faults (.wait cond a b tm) code) ∧
      (∀ pa : Nat, (r a).toNat % 8 = 0 → s.engineBytes g.part .write (r a) 8 = .ok (List.range' pa 8) → s.writeDelays (List.range' pa 8) = false →
        pa + 8 ≤ 0x10020000000 → s.cutFree → (s.dgSettled = false → waits (.flag a b)) ∧
        (s.dgSettled = true → Completes (.flag a b) s fun t => t.engine s.eng = g.goesTo (g.pc + 1) ∧ t.h = s.h ∧
          ∀ x : Nat, t.lastByte x = if pa ≤ x ∧ x < pa + 8 then .ofNat 8 ((r b).toNat / 256 ^ (x - pa)) else s.lastByte x)) ∧
      (2 ^ 14 ≤ (r a).toNat ∨ s.destBad g.part (r b) = true → faults (.ring a b c) 7) ∧
      ((r a).toNat < 2 ^ 14 → s.destBad g.part (r b) = false → (r b).toNat % 8 ≠ 0 → faults (.ring a b c) 8) ∧
      ((r a).toNat < 2 ^ 14 → s.destBad g.part (r b) = false → (r b).toNat % 8 = 0 →
        g.sending (dev b) (r a).toNat = true → waits (.ring a b c)) ∧
      ((r a).toNat < 2 ^ 14 → s.destBad g.part (r b) = false → (r b).toNat % 8 = 0 →
        g.sending (dev b) (r a).toNat = false → ∀ x : SendRec, s.sendRec g.part (dev b) (r a).toNat = some x →
        Completes (.ring a b c) s fun t => s.onlyEngine t (g.goesTo (g.pc + 1)) ∧ ∃ p : Packet, t.outbox = s.outbox ++ [p] ∧ p.kind = .ring ∧
          p.dst = dev b ∧ p.slot = (r a).toNat ∧ p.gen = x.gen ∧ p.phase = x.phase ∧ p.expect = x.sent ∧
          p.addr = (r b).toNat % 2 ^ 44 ∧ p.flagVal = r c) ∧
      (((r b).toNat / 2 ^ 13 % 8 ≠ 0 ∨ 2 ^ 32 ≤ (r b).toNat) → faults (.alloc a b) 7) ∧
      ((r b).toNat / 2 ^ 13 % 8 = 0 → (r b).toNat < 2 ^ 32 →
        ((∀ m, ¬ free m) → faults (.alloc a b) 5) ∧
        (∀ h : Nat, free h → (∀ m, m < h → ¬ free m) → s.earlyOf (slotDie h) = [] → s.dropsOf (slotDie h) = [] →
          Completes (.alloc a b) s fun t => s.onlyEngine t ((put a (.ofNat 64 h)).goesTo (g.pc + 1)) ∧ (t.slot h).state = 1 ∧
            (t.slot h).count = 0 ∧ (t.slot h).gen = false ∧ (t.slot h).phase = 0 ∧ (t.slot h).sender = (r b).toNat % 2 ^ 13 ∧
            (t.slot h).tag = (r b).toNat / 2 ^ 16 % 2 ^ 16 ∧ (t.slot h).owner = g.starter ∧ ∀ m, m ≠ h → t.slot m = s.slot m)) ∧
      (s.handleBad g.part (r a) = true → faults (.free a) 7) ∧
      (s.handleBad g.part (r a) = false → Completes (.free a) s fun t => s.onlyEngine t (g.goesTo (g.pc + 1)) ∧
        (t.slot (r a).toNat).state = 0 ∧ ∀ m, m ≠ (r a).toNat → t.slot m = s.slot m))

/-- 00 R9, 17 R373, R377, R381, R382, R384, R391, R392, 08 R229, 01 R23 to R25, 13 R309, 18 R399, R409: writes of registers with
behaviour, by the hart, by a supervisor and by firmware. Each leaves what its map says and changes nothing else; a write by the wrong
agent, by a supervisor without a cluster of the die, of a locked register or of LPART code 3 changes nothing at all. That any writer
clears WDCAUSE and ATTDONE, which R391 makes RW1C without naming a writer, is the model's reading (log 34).
Where the rules leave room, the statement follows the model's readings of logs 15, 18, 34, 35 and 84. -/
def Obligations.RegisterMoves : Prop :=
  ∀ (s : State) (p q d core n off : Nat) (v : Word) (who : Writer), p < 8 → d < 4 → core < 1024 → n < 2048 → q ≠ p →
    let sup : Writer := .supervisor p
    let x := s.part p
    let m := v.toNat % 4
    let own (i : Instr) (y : Part) : Prop := Completes i s fun t => t.part p = y ∧ (∀ r, r ≠ p → t.part r = s.part r) ∧
      t.h = s.h ∧ t.others = s.others ∧ s.sameMemory t
    exec (.lscaleWrite v) s = .next { s with h := { s.h with
      scale := v.setWidth 32, epoch := if v.setWidth 32 = s.h.scale then s.h.epoch else s.h.epoch + 1 } } ∧
    (m = 3 → exec (.lpartWrite core v) s = .next s) ∧
    (m ≠ 3 → s.coreIdle core = false → Completes (.lpartWrite core v) s fun t =>
      SMap.get {} t.cores core = { SMap.get {} s.cores core with pend := true, next := m } ∧ t = { s with cores := t.cores }) ∧
    (m ≠ 3 → s.coreIdle core = true → Completes (.lpartWrite core v) s fun t =>
      SMap.get {} t.cores core = { SMap.get {} s.cores core with mode := m, pend := false, next := 0 } ∧
      (∀ c, c ≠ core → SMap.get {} t.cores c = SMap.get {} s.cores c) ∧ (∀ g, g / 2 ≠ core → t.hart g = s.hart g) ∧ s.sameMemory t ∧
      ∀ g, g / 2 = core → if m = (SMap.get {} s.cores core).mode then t.hart g = s.hart g
        else (t.hart g).vill = true ∧ (t.hart g).vl = 0 ∧ (t.hart g).v = [] ∧ (t.hart g).binds = [] ∧ (t.hart g).acc = [] ∧
          (t.hart g).s = (s.hart g).s ∧ (t.hart g).k = (s.hart g).k) ∧
    (s.h.sup = true → s.releaseMet s.hid s.h.nextSeq .dev = true → Completes (.ptbaseWrite v) s fun t =>
      t.part s.myPart = { s.part s.myPart with ptbase := v &&& 0xFFFFFF00000, ptgen := (s.part s.myPart).ptgen + 1 } ∧
      (∀ c, SMap.get {} t.cores c = if s.partOf (c / 16) = s.myPart then { SMap.get {} s.cores c with tlb := [] } else SMap.get {} s.cores c) ∧
      t.h = s.h ∧ s.sameMemory t) ∧
    (s.h.sup = false → exec (.ptbaseWrite v) s = .next s) ∧
    (s.onDie p d = false → exec (.registerWrite sup (.scctl d) v) s = .next s ∧ exec (.registerWrite sup (.cbarea d) v) s = .next s) ∧
    (s.onDie p d = true → Completes (.registerWrite sup (.scctl d) v) s fun t => t.ctl d = { s.ctl d with scctl := v &&& 0x7FFF01 } ∧ t = { s with ctls := t.ctls }) ∧
    (s.onDie p d = true → Completes (.registerWrite sup (.cbarea d) v) s fun t =>
      t.ctl d = { s.ctl d with cbarea := v &&& 0xFFFFFF00000 } ∧ t = { s with ctls := t.ctls }) ∧
    (∀ r ∈ [WinReg.scctl d, .cbarea d, .gtab p, .htab p, .shpool p, .ctxpool p], exec (.registerWrite .firmware r v) s = .next s) ∧
    (∀ r ∈ [WinReg.gtab q, .htab q, .shpool q, .ctxpool q, .pwrlim, .clus p, .belllo p, .egress p, .own p d],
      exec (.registerWrite sup r v) s = .next s) ∧
    own (.registerWrite sup (.gtab p) v) { x with gtab := v } ∧ own (.registerWrite sup (.htab p) v) { x with htab := v } ∧
    own (.registerWrite sup (.shpool p) v) { x with shpool := v &&& 0xFFFFFFFFFFFF0000 } ∧
    own (.registerWrite sup (.ctxpool p) v) { x with ctxpool := v &&& 0xFFFFFFFFFFF00000 } ∧
    own (.registerWrite .firmware (.belllo p) v) { x with belllo := v.toNat % 2 ^ 14, bellhi := v.toNat / 2 ^ 16 % 2 ^ 14 } ∧
    (x.egressLocked = false → own (.registerWrite .firmware (.egress p) v) { x with egress := v.toNat % 2 ^ 12, egressLocked := true }) ∧
    (x.egressLocked = true → exec (.registerWrite .firmware (.egress p) v) s = .next s) ∧
    exec (.registerWrite .firmware .pwrlim v) s = .next { s with pwrlim := v.toNat % 4096 } ∧
    exec (.registerWrite who .wdcause v) s = .next { s with wdcause := s.wdcause && !v.getLsbD 0 } ∧
    exec (.registerWrite who .attdone v) s = .next { s with attdone := s.attdone && !v.getLsbD 0 } ∧
    (Completes (.registerWrite .firmware (.clus p) v) s fun t => ∀ g, g < 64 →
      (t.part p).clus.getLsbD g = (x.clus.getLsbD g || (v.getLsbD g && !s.clusterBusy g)) ∧
      (t.part q).clus.getLsbD g = ((s.part q).clus.getLsbD g && !(t.part p).clus.getLsbD g)) ∧
    (∀ i, i < 16 → Completes (.registerWrite .firmware (.own p i) v) s fun t => ∀ g, g < 1024 → (t.part p).own.getLsbD g =
      if g / 64 = i then v.getLsbD (g % 64) && (match s.sealedTo g with | some r => r == p | none => true) else x.own.getLsbD g) ∧
    own (.intsrc p v) { x with
      intsrc := x.intsrc &&& ~~~(v.setWidth 3), undelivered := x.undelivered.filter fun u => !v.getLsbD u.1 } ∧
    own (.caskd p v) { x with caskd := v, cask := { x.cask with clean := [] } } ∧
    (Completes (.tierctl d v) s fun t => t = { s with tiers := t.tiers } ∧ (∀ e, e ≠ d → t.tier e = s.tier e) ∧
      t.tier d = { s.tier d with
        en := v.getLsbD 0, useonce := v.getLsbD 1, quota := v.toNat / 2 ^ 16 % 2 ^ 17
        pages := if v.getLsbD 0 then (s.tier d).pages else [], pins := if v.getLsbD 0 then (s.tier d).pins else [] }) ∧
    (x.locked = true → exec (.allow p v) s = .next s) ∧
    (x.locked = false → Completes (.allow p v) s fun t =>
      t.part p = { x with allow := v &&& 0xFFFFFFFFFFF, allowMap := (t.part p).allowMap, locked := true, egressLocked := true } ∧
      (∀ e, e < 8192 → t.allowed p e = (s.firmwareDev (v.toNat % 2 ^ 44 + e / 8)).getLsbD (e % 8)) ∧ s.sameMemory t) ∧
    ((s.hart n).run = .running → (s.hart n).sup = false → exec (.contextWrite sup n off v) s = .next s) ∧
    (s.hartPart n ≠ p → exec (.contextWrite sup n off v) s = .next s) ∧
    (∀ r : SReg, r ≠ 0 → (s.hart n).run ≠ .running → s.hartPart n = p → Completes (.contextWrite sup n (8 * r.val) v) s fun t =>
      (t.hart n).getS r = v ∧ (∀ y, y ≠ r → (t.hart n).getS y = (s.hart n).getS y) ∧ (t.hart n).v = (s.hart n).v ∧
      (∀ g, g ≠ n → t.hart g = s.hart g) ∧ s.sameMemory t) ∧
    ((s.hart n).run ≠ .running → s.hartPart n = p → m ≠ 3 → s.coreIdle (n / 2) = true →
      Completes (.contextWrite sup n 0x160 v) s fun t => (SMap.get {} t.cores (n / 2)).mode = m ∧ s.sameMemory t)

/-- 17 R385 to R388, R382: the belfry. WDKICK restarts the watchdog's period, whose end resets the belfry alone and is reported to the
host; the mask ROM starts
firmware from an image that passes every step, with the seals of its header and MEAS0, and halts at the first step that fails;
MEAS-EXTEND hashes a digest into MEAS1 to MEAS7; ATTREQ and ATTREP make the report. Sealed memory reads as zero to firmware and takes
none of its writes. An image that does not fit the belfry's SRAM stops at step 8 (log 88). RESET puts the device in its reset state. The
number of the device, the counter of free values and the moves chosen outside stay: the model's choice (log 21). The signature is the
abstract function of log 6, the layout of BOOTSTAT log 7.
Where the rules leave room, the statement follows the model's readings of logs 7, 50, 54, 88 and 95. -/
def Obligations.BelfryMoves : Prop :=
  ∀ (s : State) (v : Word) (img : BootImage) (n step : Nat) (d nonce : BitVec 256) (e : Nat),
    let field (o k : Nat) : Nat := leValue (sliceOf img.header o k)
    let body := sliceOf img.body 0 (field 8 4)
    let table (i : Nat) : Word := .ofNat 64 (field (64 + 8 * i) 8)
    let digest (i : Nat) : BitVec 256 := SMap.get 0 s.meas i
    let sealed (q g : Nat) : Prop := ∃ i, i < 8 ∧ (table i).toNat / 2 ^ 21 % 8 ≠ q ∧ (table i).toNat % 1024 ≤ g ∧
      g < (table i).toNat % 1024 + (table i).toNat / 1024 % 2048
    exec (.wdkick v) s = .next { s with wdkick := s.ref } ∧
    (s.ref - s.wdkick < 8000000000 → exec .watchdogExpiry s = .next s) ∧
    (8000000000 ≤ s.ref - s.wdkick →
      exec .watchdogExpiry s = .next { s with belfry := .rom, measOpen := true, wdcause := true, wdkick := s.ref, hostSaid := s.hostSaid ++ [.watchdog] }) ∧
    (∀ (pa : Nat) (data : List Byte), pa < 2 ^ 40 → data ≠ [] → (s.sealedTo (pa / 2 ^ 30)).isSome = true →
      s.firmwareWrite pa data = s ∧ s.firmwareByte pa = 0) ∧
    exec .reset s = .next { State.reset with devId := s.devId, fresh := s.fresh, agenda := s.agenda } ∧
    (s.belfry ≠ .rom → exec (.maskRomBoot img) s = .next s) ∧
    (s.belfry = .rom → bootFails img = some step → Completes (.maskRomBoot img) s fun t =>
      t.belfry = .halted ∧ t.bootstat.toNat % 256 = step ∧ t = { s with belfry := t.belfry, bootstat := t.bootstat }) ∧
    (s.belfry = .rom → bootFails img = none → 0x800000 < field 12 4 + body.length → Completes (.maskRomBoot img) s fun t =>
      t.belfry = .halted ∧ t.bootstat.toNat % 256 = 8 ∧ t.bsram = s.bsram) ∧
    (s.belfry = .rom → bootFails img = none → field 12 4 + body.length ≤ 0x800000 → s.cutFree → Completes (.maskRomBoot img) s fun t =>
      t.belfry = .firmware (field 12 4 + field 16 4) ∧ t.seals = (List.range 8).map table ∧ t.measOpen = false ∧
      (s.measOpen = true → SMap.get 0 t.meas 0 = digestOf (sha256 (List.replicate 32 0 ++ sha256 (sliceOf img.header 0 336 ++ body)))) ∧
      (s.measOpen = false → t.meas = s.meas) ∧ (∀ i, 0 < i → SMap.get 0 t.meas i = digest i) ∧
      (∀ i, i < body.length → memByte t.bsram (field 12 4 + i) = (body[i]?).getD 0) ∧
      (∀ a, a < 2 ^ 40 →
        (∃ i, i < 8 ∧ (table i).toNat % 1024 ≤ a / 2 ^ 30 ∧ a / 2 ^ 30 < (table i).toNat % 1024 + (table i).toNat / 1024 % 2048) →
        t.lastByte a = 0) ∧
      (∀ a, (∀ i, i < 8 → a / 2 ^ 30 < (table i).toNat % 1024 ∨ (table i).toNat % 1024 + (table i).toNat / 1024 % 2048 ≤ a / 2 ^ 30) →
        t.lastByte a = s.lastByte a) ∧
      t.h = s.h ∧ t.others = s.others ∧ ∀ q, t.part q = { s.part q with own := (t.part q).own, cask := (t.part q).cask } ∧
        ∀ g, g < 1024 → ((t.part q).own.getLsbD g = true ↔ (s.part q).own.getLsbD g = true ∧ ¬ sealed q g)) ∧
    (1 ≤ n → n ≤ 7 → Completes (.measExtend n d) s fun t =>
      SMap.get 0 t.meas n = digestOf (sha256 (leBytes 32 (digest n).toNat ++ leBytes 32 d.toNat)) ∧
      (∀ i, i ≠ n → SMap.get 0 t.meas i = digest i) ∧ t = { s with meas := t.meas }) ∧
    (n = 0 ∨ 7 < n → exec (.measExtend n d) s = .next s) ∧
    exec (.attreq nonce) s = .next { s with attreq := some nonce } ∧
    (s.attreq = some nonce → s.belfry = .firmware e → s.seals.length = 8 → Completes .attrep s fun t =>
      t.attreq = none ∧ t.attdone = true ∧ t.attrep.length = 8448 ∧ t.attrep.take 592 = s.report nonce ∧
      t.attrep.drop 592 = sliceOf (Config.slhSign Config.idSeed (s.report nonce)) 0 7856 ∧
      (∀ i, i < 8 → (t.attrep.drop (56 + 32 * i)).take 32 = leBytes 32 (digest i).toNat) ∧
      t = { s with attreq := none, attdone := true, attrep := t.attrep }) ∧
    (s.attreq = none → exec .attrep s = .next s)

/-- 18 R406, R407, R410 to R412, 17 R380, R384, 01 R54, 13 R307: the moves of the device's own units. A due cut marks the pages and
takes their contents as last at device level; the drain sends the lowest marked page of a die in packets of 512 bytes, then the cut
record, and a write to a marked page not yet sent puts its cut value into a pool page first, from which it is sent; the migration engine brings a page that an access missed in, in place of its victim when the tier is full; a single-bit error is
corrected and counted, a double one poisons its word, and both are logged; the rate and traffic counts renew with each window of 1,024 cycles, a packet larger
than a window's budget being charged to those that follow (log 80); gated storage wakes zeroed.
Where the rules leave room, the statement follows the model's readings of logs 30, 51, 60, 63, 80 and 106. -/
def Obligations.DeviceMoves : Prop :=
  ∀ (s : State) (p die page pa c b : Nat) (g : Gated), p < 8 → die < 4 →
    let x := s.part p
    let k := x.cask
    let tier := s.tier die
    let w := pa / 8
    let same (t : State) : Prop := t.h = s.h ∧ t.others = s.others ∧ s.sameMemory t
    (s.cutDue p = false → exec (.cut p) s = .next s) ∧
    (s.cutDue p = true → s.memOk → Completes (.cut p) s fun t =>
      let y := (t.part p).cask
      y.state = 2 ∧ y.pages = 0 ∧ y.recordSent = false ∧ y.nmarked = y.marked.length ∧
      y.marked = ((s.caskPages p).filter fun z => !k.incr || !k.clean.contains z.2) ∧
      (∀ z ∈ y.marked, z.2 ∈ y.clean ∧ ∀ o, o < 65536 → memByte y.image (65536 * z.1 + o) = s.devByte (65536 * z.2 + o)) ∧
      (∀ f ∈ k.clean, f ∈ y.clean) ∧ (∀ q, q ≠ p → t.part q = s.part q) ∧ same t) ∧
    (k.state ≠ 2 ∨ k.recordSent = true → exec (.caskDrain p die) s = .next s) ∧
    (∀ (z : Nat × Nat) (r : SendRec), k.state = 2 → k.recordSent = false → k.marked.find? (fun y => y.2 % 4 == die) = some z → s.egressOpen p 512 = true →
      s.sendRec p (k.dest / 2 ^ 44 % 2 ^ 13) k.slot = some r → k.dest < 2 ^ 57 →
      let n := SMap.get 0 k.drainPos die
      Completes (.caskDrain p die) s fun t => same t ∧
        (∃ (y : Packet) (ring : List Packet), t.outbox = s.outbox ++ y :: ring ∧ y.kind = .write ∧ y.dst = k.dest / 2 ^ 44 % 2 ^ 13 ∧ y.slot = k.slot ∧
          y.addr = k.dest % 2 ^ 44 + 65536 * z.1 + 512 * n ∧ y.gen = r.gen ∧ y.phase = r.phase ∧ y.data.length = 512 ∧
          (k.copies.find? (·.1 == z.2) = none → ∀ i, i < 512 → y.data[i]? = some (memByte k.image (65536 * z.1 + 512 * n + i))) ∧
          (∀ f g : Nat, k.copies.find? (·.1 == z.2) = some (f, g) →
            ∀ i, i < 512 → y.data[i]? = some (s.viewByte (s.dieView die (65536 * g)) (65536 * g + 512 * n + i))) ∧ (n < 127 → ring = []) ∧
          (127 ≤ n → ∃ q : Packet, ring = [q] ∧ q.kind = .ring ∧ q.addr = 0 ∧ q.expect = r.sent + 1)) ∧
        (n < 127 → SMap.get 0 (t.part p).cask.drainPos die = n + 1 ∧ (t.part p).cask.marked = k.marked) ∧
        (127 ≤ n → SMap.get 0 (t.part p).cask.drainPos die = 0 ∧ (t.part p).cask.pages = k.pages + 1 ∧
          ((t.part p).cask.marked = k.marked.filter fun y => y.1 != z.1) ∧
          ∀ y ∈ (t.part p).cask.copies, y ∈ k.copies ∧ ∃ m ∈ k.marked, m.1 ≠ z.1 ∧ m.2 = y.1)) ∧
    (∀ (n strm f g j at_ : Nat) (a : Access) (data : List Byte), n < 2048 → strm < 16 → s.mayPerform n strm = some a →
      (s.hart n).lates = [] → s.freshOp n a = .ok (.write (List.range' at_ data.length) data) → a.shadows = [] → data ≠ [] →
      at_ + data.length ≤ 0x10020000000 → pagesOf at_ data.length = [f] → k.owes f = true → (∀ q, q < 8 → q ≠ p → (s.part q).cask.owes f = false) →
      k.pool.head? = some g → k.marked.find? (·.2 == f) = some (j, f) → g ≠ f → Completes (.performAccess n strm) s fun t =>
        (t.part p).cask.copies = k.copies ++ [(f, g)] ∧ (t.part p).cask.owes f = false ∧
        (∀ o, o < 65536 → t.lastByte (65536 * g + o) = memByte k.image (65536 * j + o)) ∧
        ∀ i, i < data.length → t.lastByte (at_ + i) = (data[i]?).getD 0) ∧
    (∀ r : SendRec, k.state = 2 → k.recordSent = false → k.marked = [] → s.egressOpen p 64 = true →
      s.sendRec p (k.dest / 2 ^ 44 % 2 ^ 13) k.slot = some r → k.dest < 2 ^ 57 → Completes (.caskDrain p die) s fun t => same t ∧
        (t.part p).cask.recordSent = true ∧ ∃ y q : Packet, t.outbox = s.outbox ++ [y, q] ∧ y.kind = .write ∧ q.kind = .ring ∧
          y.addr = k.dest % 2 ^ 44 + 2 ^ 40 ∧ y.data.length = 64 ∧ q.expect = r.sent + 1 ∧ q.flagVal = .ofNat 64 k.step) ∧
    (Completes (.caskComplete p) s fun t =>
      if k.state = 2 ∧ k.recordSent = true ∧ (s.sends.all fun r => r.held.all fun h => h.maker != .cask p) = true
      then (t.part p).cask = { k with state := 0, lasts := k.step % 2 ^ 32, image := [], poison := [] } ∧ same t else t = s) ∧
    ((page % 4 ≠ die ∨ tier.en = false ∨ tier.pages.any (·.page == page) = true ∨
      (tier.missed.find? (·.1 == page) = none ∧ page ∉ tier.pins)) → exec (.pageMigration die page) s = .next s) ∧
    (page % 4 = die → page < 2 ^ 24 → tier.en = true → tier.pages.any (·.page == page) = false →
      (tier.missed.find? (·.1 == page) ≠ none ∨ page ∈ tier.pins) →
      let once : Bool := match tier.missed.find? (·.1 == page) with | some z => z.2 | none => true
      let new : TierPage := ⟨page, tier.pins.contains page, once, s.now, s.now⟩
      let left := tier.missed.filter (·.1 != page)
      (tier.pages.length < 98304 → Completes (.pageMigration die page) s fun t =>
        t.tier die = { tier with pages := tier.pages ++ [new], missed := left } ∧ (∀ e, e ≠ die → t.tier e = s.tier e) ∧ same t) ∧
      (98304 ≤ tier.pages.length → (∃ y ∈ tier.pages, y.pinned = false) → Completes (.pageMigration die page) s fun t =>
        ∃ v ∈ tier.pages, v.pinned = false ∧
          (t.tier die).pages = (tier.pages.filter fun y => y.page != v.page) ++ [new] ∧ same t ∧
          (if tier.useonce = true ∧ ∃ y ∈ tier.pages, y.pinned = false ∧ y.useOnce = true
            then v.useOnce = true ∧ ∀ y ∈ tier.pages, y.pinned = false → y.useOnce = true → v.entered ≤ y.entered
            else ∀ y ∈ tier.pages, y.pinned = false → v.lastUse ≤ y.lastUse))) ∧
    (Completes (.softError pa false) s fun t => t.errcorr = (s.errcorr + 1) % 2 ^ 32 ∧ t.errhead = (s.errhead + 1) % 256 ∧ same t ∧
      (∃ e : LogEntry, SMap.get none t.errs s.errhead = some e ∧ e.kind = 1 ∧ (pa < 0xF0000000000 → e.addr = .ofNat 64 (8 * w))) ∧ t.poison = s.poison ∧ w ∈ t.corrected) ∧
    (∀ (d n o : Nat) (double : Bool), d < 4 → n < 512 → o < 2 ^ 24 → pa = 0xF0000000000 + 2 ^ 34 * d + 2 ^ 24 * n + o →
      Completes (.softError pa double) s fun t => ∃ e : LogEntry, SMap.get none t.errs s.errhead = some e ∧
        e.kind = (if double then 2 else 1) ∧ e.addr = .ofNat 64 (2 ^ 63 + o / 8 * 8) ∧ e.detail = .ofNat 64 (512 * d + n)) ∧
    (pa < 0x10020000000 → Completes (.softError pa true) s fun t => w ∈ t.poison ∧ (∀ y : Nat, y ≠ w → (y ∈ t.poison ↔ y ∈ s.poison)) ∧ same t ∧
      (∃ e : LogEntry, SMap.get none t.errs s.errhead = some e ∧ e.kind = 2 ∧ e.addr = .ofNat 64 (8 * w)) ∧ t.errcorr = s.errcorr) ∧
    (Completes (.egressWindow p) s fun t => same t ∧ t.part p = { x with
      egressUsed := x.egressUsed - 256 * (if x.egress = 0 then 4032 else min 4032 x.egress) * (s.now / 1024 - x.egressWin)
      egressWin := s.now / 1024 }) ∧
    (Completes (.trafficWindow die) s fun t => same t ∧ t.ctl die = if (s.ctl die).window = s.now / 1024 then s.ctl die else { s.ctl die with
      window := s.now / 1024, busy := decide ((s.ctl die).window + 1 = s.now / 1024 ∧ 5120000 < (s.ctl die).bytes), bytes := 0 }) ∧
    (s.mayGate g = false → exec (.powerGating g true) s = .next s) ∧
    (s.mayGate g = true → Completes (.powerGating g true) s fun t => g ∈ t.gated ∧ g ∉ t.waking ∨ g ∈ s.gated ∧ t = s) ∧
    (g ∉ s.gated → exec (.powerGating g false) s = .next s) ∧
    (Gated.bank c b ∈ s.gated → c < 64 → b < 64 → Completes (.powerGating (.bank c b) false) s fun t =>
      Gated.bank c b ∉ t.gated ∧ Gated.bank c b ∈ t.waking ∧ ∀ a v : Nat, t.lastByte a = (if inBank c b a then 0 else s.lastByte a) ∧
        t.viewByte v a = (if inBank c b a then 0 else s.viewByte v a)) ∧
    (Completes (.wakeUp g) s fun t => g ∉ t.waking ∧ t = { s with waking := t.waking })

/-- 13 R300, R303 to R311, R315, 01 R24, R55 to R57, 18 R405: the stream controllers. DISPATCH puts the instance chosen on a free hart in
the state R57 gives, with one value of memory in every view, the choice on a free core being a candidate of the greatest effective
priority; PREEMPTION stops a victim, which is saved once it is in program mode and nothing of it is under way, its image written, leaving its hart
idle; DISPATCH of a resumable instance restores it with pc and registers as its image has them and waits for nothing; transfers that are resident
make their kernel ISSUABLE; a kernel whose instances have ended is COMPLETE; harts of a kernel that have all been blocked for its window take cause 16; a pending LPART mode takes effect on an idle core.
Where the rules leave room, the statement follows the model's readings of logs 31, 32, 33, 38, 85 and 102. -/
def Obligations.SchedulerMoves : Prop :=
  ∀ (s : State) (core hart die id n : Nat) (token : Word) (k : Kernel) (o : Offer) (x : Transfer), core < 1024 → hart < 2 → die < 4 →
    let h := 2 * core + hart
    (s.choose h = none → exec (.dispatch core hart) s = .next s) ∧
    (s.choose h = some (k, .fresh n) → Completes (.dispatch core hart) s fun t =>
      let g := t.hart h
      g.run = .running ∧ g.pc = k.entry ∧ g.sup = false ∧ (∀ r, g.getS r = if r = 1 then k.record else 0) ∧ g.k = [] ∧ g.v = [] ∧
      g.vill = true ∧ g.vl = 0 ∧ g.acc = [] ∧ g.q = [] ∧ g.loops = [] ∧ g.binds = [] ∧ g.fflags = 0 ∧ g.srseq = 0 ∧
      (∀ i, SMap.get 0 g.lidx i = .ofNat 64 (((k.indices n)[i]?).getD 0)) ∧ (∃ i, g.inst = some i ∧ i.token = k.token ∧ i.number = n) ∧
      (∀ m, m / 2 ≠ core → t.hart m = s.hart m) ∧ (∀ a, t.lastByte a = s.lastByte a ∧ ∀ v, v < 64 → t.viewByte v a = s.lastByte a) ∧
      ∀ j ∈ t.kernels, j.token = k.token → j.state = .running ∧ SMap.get 0 j.cursor (h / 512) = n + 1) ∧
    (∀ (i : Nat) (y : Saved), s.choose h = some (k, .saved i) → k.resumable[i]? = some y → y.ctx.pins = 0 →
      let at_ (o : Nat) : Word := s.savedDword (h / 512) (s.poolBase y.part y.poolEntry) o
      at_ 0x3A8 = 0 → Completes (.dispatch core hart) s fun t =>
        let g := t.hart h
        g.run = .running ∧ g.inst = y.ctx.inst ∧ g.since = s.now ∧ g.leaving = y.ctx.leaving ∧ g.waiting = false ∧ g.blocked = none ∧
        g.pc = at_ 0x380 ∧ (∀ r, g.getS r = if r = 0 then 0 else at_ (8 * r.val)) ∧
        (∀ m, m / 2 ≠ core → t.hart m = s.hart m) ∧ (t.part y.part).ctxUsed = ((s.part y.part).ctxUsed.filter (· != y.poolEntry)) ∧
        (∀ j ∈ t.kernels, j.token = k.token → ∃ j0 ∈ s.kernels, j = { j0 with resumable := dropAt j0.resumable i }) ∧ s.sameMemory t) ∧
    (s.coreFree core = true → s.choose (2 * core) = some (k, o) → k.part = s.partOf (core / 16) ∧ s.offer (2 * core) k = some o ∧
      ∀ j ∈ s.kernels, j.part = k.part → j.state = .issuable ∨ j.state = .running → (s.offer (2 * core) j).isSome = true →
        j.isHome (core / 16) = true ∨ k.isHome (core / 16) = false → s.effPrio j ≤ s.effPrio k) ∧
    ((s.ctl die).preen = false ∨ s.now < (s.ctl die).lastPreempt + (s.ctl die).slice ∨ s.preemptor die = none →
      exec (.preemption die) s = .next s) ∧
    ((s.ctl die).preen = true → (s.ctl die).lastPreempt + (s.ctl die).slice ≤ s.now → s.preemptor die = some k →
      s.victimSet die k = [n] → Completes (.preemption die) s fun t =>
        t.hart n = { s.hart n with leaving := some { since := s.now, byYield := false } } ∧ (t.ctl die).lastPreempt = s.now ∧
          (∀ m, m ≠ n → t.hart m = s.hart m) ∧ t.kernels = s.kernels ∧ s.sameMemory t) ∧
    (∀ (l : Leave) (c : Nat) (i : Inst) (e : Nat), (s.hart n).leaving = some l → l.byYield = false → l.copiesFrom = some c →
      (s.hart n).sup = false → s.saveDelayed (s.hartPart n) = false → s.cutFree →
      (s.hart n).inst = some i → s.poolFree (s.hartPart n) = some e → (s.hart n).pins = 0 →
      (s.hart n).copies.all (fun y => decide (y.total ≤ y.pos) || y.suspended) = true →
      (s.quiet n = false → s.saveMove n = s) ∧
      (s.quiet n = true →
        let t := s.saveMove n
        (t.hart n).run = .idle ∧ (t.hart n).inst = none ∧ (t.hart n).sq = [] ∧ e ∈ (t.part (s.hartPart n)).ctxUsed ∧
          (∀ m, m ≠ n → t.hart m = s.hart m) ∧
          (∀ a, a < s.poolBase (s.hartPart n) e ∨ s.poolBase (s.hartPart n) e + 0x900000 ≤ a → t.lastByte a = s.lastByte a) ∧
          (∀ r : SReg, leValue (bytesFrom t.lastByte (s.poolBase (s.hartPart n) e + 8 * r.val) 8) = ((s.hart n).getS r).toNat) ∧
          leValue (bytesFrom t.lastByte (s.poolBase (s.hartPart n) e + 0x380) 8) = (s.hart n).pc.toNat ∧
          ∀ j ∈ t.kernels, j.token = i.token → ∃ y ∈ j.resumable, y.number = i.number ∧ y.poolEntry = e ∧ y.ctx.pc = (s.hart n).pc ∧
            y.ctx.s = (s.hart n).s ∧ y.ctx.v = (s.hart n).v ∧ y.ctx.k = (s.hart n).k ∧ y.ctx.eidx = (s.hart n).eidx ∧
            ((s.hart n).got = [] → (∀ q ∈ (s.hart n).sq, match q.op with | .popW .. => False | _ => True) → y.ctx.sq = (s.hart n).sq))) ∧
    (s.transfers.find? (fun y => y.id == id && y.die == die) = some x →
      (s.transferDone x = false → exec (.transferResident die id) s = .next s) ∧
      (s.transferDone x = true → Completes (.transferResident die id) s fun t =>
        t = { s with transfers := t.transfers, kernels := t.kernels } ∧ t.transfers = (s.transfers.filter fun y => y.id != id) ∧
        t.kernels = s.kernels.map fun j => if j.token ≠ x.token then j
          else if j.state = .waiting ∧ j.toCome = 0 ∧ j.notResident ≤ 1
            then { j with notResident := 0, state := .issuable, agedFrom := s.now, issuableAt := s.now }
          else { j with notResident := j.notResident - 1 })) ∧
    (s.kernels.find? (fun j => j.token == token) = some k →
      let ended : Prop := (k.state = .issuable ∨ k.state = .running) ∧ k.done = k.total ∧
        ∀ w ∈ s.log, (∃ z ∈ k.harts, z.1 = w.agent ∧ w.seq < z.2) → w.atDevice = true
      (ended → exec (.kernelComplete token) s = .next { s with
        kernels := s.kernels.map fun j => if j.token = token then { j with state := .complete, harts := [] } else j }) ∧
      (¬ ended → exec (.kernelComplete token) s = .next s) ∧
      let stuck (m : Nat) : Prop := ∃ b, (s.hart m).blocked = some b ∧ 1024 * max 1 k.win < s.now - b
      let mine (m : Nat) : Prop := m < 2048 ∧ (s.hart m).run = .running ∧ (s.hart m).sup = false ∧ (s.hart m).leaving = none ∧
        ∃ i, (s.hart m).inst = some i ∧ i.token = token
      (s.now % 1024 ≠ 0 ∨ (∃ m, mine m ∧ ¬ stuck m) → exec (.progressFault token) s = .next s) ∧
      (s.now % 1024 = 0 → (∀ m, mine m → stuck m ∧ (s.hart m).th = false) → Completes (.progressFault token) s fun t =>
        t.hid = s.hid ∧ s.sameMemory t ∧ ∀ m, (mine m → (t.hart m).cause = 16 ∧ (t.hart m).casync = false ∧ (t.hart m).tval = token ∧
          (t.hart m).tpc = (s.hart m).pc ∧ (t.hart m).teidx = .ofNat 64 (s.hart m).eidx ∧ (t.hart m).sup = true ∧
          (t.hart m).pc = (s.part (s.hartPart m)).tvec ∧ (t.hart m).s = (s.hart m).s) ∧ (¬ mine m → t.hart m = s.hart m))) ∧
    ((SMap.get {} s.cores core).pend = false ∨ s.coreIdle core = false → exec (.lpartChange core) s = .next s) ∧
    ((SMap.get {} s.cores core).pend = true → s.coreIdle core = true → Completes (.lpartChange core) s fun t =>
      SMap.get {} t.cores core = { SMap.get {} s.cores core with mode := (SMap.get {} s.cores core).next, pend := false, next := 0 } ∧
      (∀ m, m / 2 ≠ core → t.hart m = s.hart m) ∧ s.sameMemory t)

/-- 18 R396, R399, 06 R164, R189, 05 R133, R140, 15 R366, 03 R71, R72, R87: the moves of a hart and an engine that are no instruction of
their program. An event is taken as its queue holds it, an interrupt as cause 22; a WAITV whose time has passed answers 0 and a Dungen
WAIT faults with FCODE 6; a ticket is the next number; a delivery changes the view of one cluster; a complete copy ends its lease; a
pattern that is no instruction is cause 1, a parcel that cannot be fetched cause 5, and a schedule word that is none FCODE 1 or 2.
Where the rules leave room, the statement follows the model's readings of logs 52, 59 and 73. -/
def Obligations.HartMoves : Prop :=
  ∀ (s : State) (n strm id wid g e part src : Nat) (ev : Event) (rest : List Event) (bits tpc tval : Word) (a : Access) (y : Copy)
    (w : WriteRec), n < 2048 → strm < 32 →
    let h := s.hart n
    let engine := s.engine e
    let idle (t : State) : Prop := t.hid = s.hid ∧ s.sameMemory t ∧ ∀ m, m ≠ n → t.hart m = s.hart m
    let open_ : Prop := h.leaving = none ∧ h.inConvoy = none ∧ h.publishing = none
    (h.run ≠ .running ∨ (h.sup = true ∧ h.ie = false) ∨ (h.sup = false ∧ h.leaving ≠ none) ∨ h.inConvoy ≠ none → exec (.eventTaken n) s = .next s) ∧
    (open_ → h.run = .running → h.sup = false ∨ h.ie = true → h.events = ev :: rest → Completes (.eventTaken n) s fun t =>
      let u := t.hart n
      u.cause = .ofNat 6 ev.cause ∧ u.casync = true ∧ u.tval = ev.tval ∧ u.events = rest ∧ u.tpc = h.pc ∧ u.pp = h.sup ∧ u.pie = h.ie ∧
      u.ie = false ∧ u.th = true ∧ u.sup = true ∧ u.pc = (s.part (s.hartPart n)).tvec ∧ u.teidx = .ofNat 64 h.eidx ∧ u.eidx = 0 ∧
      u.loopsSaved = h.loops ∧ u.loops = [] ∧ u.s = h.s ∧ u.v = h.v ∧ idle t) ∧
    (open_ → n = s.hid → h.run = .running → h.sup = false ∨ h.ie = true → h.events = [] → s.mySources ≠ [] → Completes (.eventTaken n) s fun t =>
      t.h.cause = 22 ∧ t.h.casync = true ∧ t.h.tval = .ofNat 64 (s.part s.myPart).intsrc.toNat ∧ t.h.tpc = s.h.pc ∧ t.h.sup = true ∧
      (∀ z ∈ (t.part s.myPart).undelivered, z.2 ≠ s.myDie) ∧ idle t) ∧
    (part < 8 → src < 3 → Completes (.interrupt part src) s fun t =>
      (t.part part).intsrc = (s.part part).intsrc ||| .ofNat 3 (2 ^ src) ∧
      (∀ d, d < 4 → (src, d) ∈ (t.part part).undelivered) ∧ (∀ z ∈ (s.part part).undelivered, z ∈ (t.part part).undelivered) ∧
      (∀ m, m ≠ part → t.part m = s.part m) ∧ t.h = s.h ∧ t.others = s.others ∧ s.sameMemory t) ∧
    (∀ (c : Cond) (d r b : SReg) (v : Word) (since : Nat), n = s.hid → s.h.run = .running → s.atInstr = some (.waitv c d r b) →
      s.h.got.find? (·.1 == 0) = some (0, v) → s.h.waitAt = some since →
      (condHolds c v (s.rs b) = true ∨ s.now - since < min (s.rs d).toNat (2 ^ 32 - 1) → exec (.waitvTimeout n) s = .next s) ∧
      (condHolds c v (s.rs b) = false → min (s.rs d).toNat (2 ^ 32 - 1) ≤ s.now - since → exec (.waitvTimeout n) s = s.wrote d 0)) ∧
    (∀ (c : Cond) (r b : CReg) (k : BitVec 8) (z : BitVec 32) (since : Nat), e < 16 → engine.fetch = some z →
      decodeDungen z.toNat = some (.wait c r b k) → engine.state = .waiting → engine.waitAt = some since →
      (k = 0 ∨ s.now - since < 65536 * k.toNat → exec (.dungenWaitTimeout e) s = .next s) ∧
      (k ≠ 0 → 65536 * k.toNat ≤ s.now - since → Completes (.dungenWaitTimeout e) s fun t =>
        t.engine e = { engine with state := .faulted, fcode := 6, waitAt := none } ∧ t.h = s.h ∧ s.sameMemory t)) ∧
    (e < 16 → engine.busy = true → ∀ code, engine.fetch = none ∧ code = 2 ∨
        (∃ z, engine.fetch = some z ∧ decodeDungen z.toNat = none) ∧ code = 1 → Completes (.reservedOpcode e) s fun t =>
      t.engine e = { engine with state := .faulted, fcode := code, waitAt := none } ∧ t.h = s.h ∧ s.sameMemory t) ∧
    (engine.busy = false → exec (.reservedOpcode e) s = .next s) ∧
    (h.head strm = some a → a.sc = true → a.ticket = none → s.guardsMet n (s.refreshed n a) = true → Completes (.ticket n strm) s fun t =>
      t.tickets = s.tickets + 1 ∧ (t.hart n).head strm = some { a with ticket := some s.tickets } ∧
      (∀ r, (t.hart n).getS r = h.getS r) ∧ (t.hart n).v = h.v ∧ idle t) ∧
    (h.head strm = none ∨ s.guardsMet n (s.refreshed n a) = false ∧ h.head strm = some a → exec (.ticket n strm) s = .next s) ∧
    (s.mayDeliver wid g = false → exec (.deliver wid g) s = .next s) ∧
    (g < 64 → s.mayDeliver wid g = true → Completes (.deliver wid g) s fun t =>
      (∀ x, t.lastByte x = s.lastByte x) ∧ (∀ m x, m < 64 → m ≠ g → t.viewByte m x = s.viewByte m x) ∧
      (s.log.find? (·.id == wid) = some w → (s.log.filter fun z => z.id == wid) = [w] →
        ∀ x, t.viewByte g x = s.viewByte g x ∨ (w.byteAt x).isSome = true ∧ t.viewByte g x = (w.byteAt x).getD 0) ∧
      t.h = s.h ∧ t.others = s.others) ∧
    (h.copies.find? (fun z => z.id == id) = some y →
      (s.copyDone n y = false → exec (.copyComplete n id) s = .next s) ∧
      (s.copyDone n y = true → Completes (.copyComplete n id) s fun t =>
        (t.hart n).copies = (h.copies.filter fun z => z.id != id) ∧
        (t.hart n).deliveries = (h.deliveries.map fun d => if d.src = .copy y.chan y.id then { d with done := true } else d) ∧
        (t.hart n).s = h.s ∧ (t.hart n).v = h.v ∧ idle t)) ∧
    (s.illegalAt = some bits → exec (.illegalInstruction bits) s = .next (s.trapWith (bits.toNat % 128 == 0x19) none ⟨1, bits, 0⟩)) ∧
    (s.illegalAt ≠ some bits → exec (.illegalInstruction bits) s = .next s) ∧
    (∀ conv, s.h.pc = tpc → s.fetchFault tpc = some (conv, ⟨5, tval, 0⟩) →
      exec (.fetchFault tpc tval) s = .next (s.trapWith conv none ⟨5, tval, 0⟩)) ∧
    (s.fetchFault tpc = none ∨ s.h.pc ≠ tpc → exec (.fetchFault tpc tval) s = .next s)

/-- 14 R318, R322 to R324, R332, 05 R152, R153, R155, 15 R352: packets leave and reach a fabric unit. A ring carries SENT and advances the
record's phase; a SEND leaves in packets of at most 512 bytes; a remote read is served from the last writes at device level, answered,
sent again and failed after three sends. A packet that arrives is discarded unless its slot accepts it, waits early while its slot is
FREE, and lands as a write of its bytes; a landed packet is counted; a lost one does nothing.
Where the rules leave room, the statement follows the model's readings of logs 19, 46, 73 and 80. -/
def Obligations.FabricPackets : Prop :=
  ∀ (s : State) (i e : Nat) (p : Packet) (r : PendRing) (x : SendRec) (q : InPacket) (z : RemoteRd) (f : Xfer) (rest : List Xfer)
    (pas : List Nat),
    let slot := s.slot p.slot
    let die := p.slot / 4096 % 4
    let dist (y : Slot) : Nat := (p.phase + 4 - y.phase) % 4
    let sent (a : List Packet) (t : State) : Prop := t.outbox = s.outbox ++ a
    -- rings and SEND packets leave
    (s.rings[i]? = some r → s.writesOut r.agent r.dest r.slot r.seq = false ∨ s.ringWaits r.agent r.dest r.slot r.seq = true ∨
      s.storing r = true → exec (.inject (.ring i)) s = .next s) ∧
    (s.rings[i]? = some r → s.writesOut r.agent r.dest r.slot r.seq = true → s.ringWaits r.agent r.dest r.slot r.seq = false →
      s.storing r = false → s.sendRec r.part r.dest r.slot = some x → Completes (.inject (.ring i)) s fun t => s.calm t ∧ t.rings = dropAt s.rings i ∧
        (∃ k : Packet, sent [k] t ∧ k.kind = .ring ∧ k.dst = r.dest ∧ k.slot = r.slot ∧ k.expect = x.sent ∧ k.phase = x.phase ∧ k.gen = x.gen ∧
          k.addr = r.faddr % 2 ^ 44 ∧ k.flagVal = r.fval) ∧
        ∃ y : SendRec, t.findSend r.dest r.slot = some y ∧ y.sent = 0 ∧ y.phase = (x.phase + 1) % 4 ∧ y.gen = x.gen ∧
          y.held.length = x.held.length + 1 ∧ y.openWrites = []) ∧
    (e < 16 → (s.engine e).xfers = f :: rest → (∃ h : Nat, f.kind = .send h ∧ s.sendRec (s.engine e).part (f.c.toNat / 2 ^ 44 % 2 ^ 13) h = some x ∧
        s.engineBytes (s.engine e).part .read (f.a + .ofNat 64 f.pos) (min 512 (f.len - f.pos)) = .ok pas) →
      s.egressOpen (s.engine e).part (min 512 (f.len - f.pos)) = true → s.bankDelays pas = false → x.sent + 1 < 2 ^ 22 →
      Completes (.inject (.engine e)) s fun t => ∃ k : Packet, sent [k] t ∧ k.kind = .write ∧ k.dst = f.c.toNat / 2 ^ 44 % 2 ^ 13 ∧
        k.addr = f.c.toNat % 2 ^ 44 + f.pos ∧ k.gen = x.gen ∧ k.phase = x.phase ∧
        k.data = pas.map (fun pa => s.readByte (s.engine e).part (s.dieView (e / 4) (pa / 8 * 8)) pa) ∧
        (t.engine e).xfers = (if f.len ≤ f.pos + min 512 (f.len - f.pos) then rest
          else { f with pos := f.pos + min 512 (f.len - f.pos) } :: rest) ∧ t.h = s.h ∧ s.sameMemory t) ∧
    -- packets arrive
    (Completes (.arrive p true) s fun t => t = s) ∧
    (p.kind = .write → s.accepts p = false → Completes (.arrive p false) s fun t => s.calm t ∧ t.inbox = s.inbox ∧
      SMap.get 0 t.discards die = SMap.get 0 s.discards die + 1 ∧ s.onlySlot t p.slot slot) ∧
    (p.kind = .write → s.accepts p = true → slot.state ≠ 0 → Completes (.arrive p false) s fun t =>
      s.calm t ∧ t.inbox = s.inbox ++ [⟨p, die, none, s.ref⟩] ∧ s.onlySlot t p.slot slot) ∧
    (p.kind = .write ∨ p.kind = .ring → s.accepts p = true → slot.state = 0 →
      ((s.earlyOf die).map fun y => packetSize y.p).foldl (· + ·) 0 + (64 + p.data.length) ≤ 262144 →
      (∀ y ∈ s.earlyOf die, s.ref - y.at_ < s.earlyShort y.p) →
      Completes (.arrive p false) s fun t => s.calm t ∧ t.earlyOf die = s.earlyOf die ++ [⟨p, s.ref⟩] ∧ t.inbox = s.inbox) ∧
    (p.kind = .ring → s.accepts p = true → slot.state ≠ 0 → slot.state ≠ 4 → p.gen = slot.gen →
      let held := slot.rings.any (·.phase == p.phase)
      (held = false → dist slot = 0 → Completes (.ringArrival p) s fun t => s.calm t ∧ s.onlySlot t p.slot { slot with
        rings := slot.rings ++ [⟨p.phase, p.expect, p.addr, p.flagVal⟩], flag := some (p.addr, p.flagVal), state := 2, since := s.ref }) ∧
      (held = false → dist slot = 1 → Completes (.ringArrival p) s fun t => s.calm t ∧ s.onlySlot t p.slot { slot with
        rings := slot.rings ++ [⟨p.phase, p.expect, p.addr, p.flagVal⟩], flag := some (p.addr, p.flagVal) }) ∧
      (dist slot = 3 ∨ held = true ∧ dist slot ≠ 2 → exec (.ringArrival p) s = .next s)) ∧
    (p.kind = .ring → s.accepts p = true → slot.state ≠ 0 → p.gen ≠ slot.gen → exec (.ringArrival p) s = .next s) ∧
    (p.kind ≠ .ring → exec (.ringArrival p) s = .next s) ∧
    -- packets land and are counted
    (s.inbox[i]? = some q → q.wids = none → q.p = p → p.kind = .write → slot.state ≠ 0 →
      (p.gen = slot.gen → dist slot < 2 → s.writeDelays ((List.range p.data.length).map (p.addr + ·)) = false → s.cutFree →
        s.reaches ((s.partOfHandle p.slot).getD 8) p.addr p.data.length = true → p.data ≠ [] → p.addr + p.data.length ≤ 0x10020000000 →
        Completes (.land i) s fun t => (∀ a : Nat, t.lastByte a = if p.addr ≤ a then (p.data[a - p.addr]?).getD (s.lastByte a) else s.lastByte a) ∧
          t.inbox = modAt (fun y => { y with wids := some [s.nextWid] }) s.inbox i ∧ s.onlySlot t p.slot slot ∧ t.h = s.h) ∧
      (p.gen ≠ slot.gen ∨ dist slot = 3 → exec (.land i) s = .next { s with inbox := dropAt s.inbox i })) ∧
    (∀ l : List Nat, s.inbox[i]? = some q → q.p = p → q.wids = some l →
      ((l.all fun w => s.widReached w .dev) = false → exec (.count i) s = .next s) ∧
      ((l.all fun w => s.widReached w .dev) = true → slot.state ≠ 0 → slot.state ≠ 4 → p.gen = slot.gen → Completes (.count i) s fun t =>
        t.inbox = dropAt s.inbox i ∧ s.calm t ∧ s.onlySlot t p.slot { slot with
          count := if dist slot = 0 then (slot.count + 1) % 2 ^ 24 else slot.count
          next := if dist slot = 1 then (slot.next + 1) % 2 ^ 24 else slot.next })) ∧
    -- remote reads
    (p.kind = .readReq → p.dst = s.devId → 0 < p.expect → p.expect ≤ 512 → (∃ k, k < 8 ∧ s.reaches k p.addr p.expect = true) →
      s.bankDelays ((List.range p.expect).map (p.addr + ·)) = false → p.addr + p.expect ≤ 0x10020000000 → Completes (.remoteRead p) s fun t => s.calm t ∧
        ∃ k : Packet, sent [k] t ∧ k.kind = .readResp ∧ k.dst = p.src ∧ k.seqn = p.seqn ∧ k.data.length = p.expect ∧
          ∀ j, j < p.expect → k.data[j]? = some (s.devByte (p.addr + j))) ∧
    (p.kind = .readReq → p.dst ≠ s.devId ∨ p.expect = 0 ∨ 512 < p.expect → Completes (.remoteRead p) s fun t =>
      s.calm t ∧ sent [] t ∧ SMap.get 0 t.discards 0 = SMap.get 0 s.discards 0 + 1) ∧
    (s.rreads.find? (fun y => y.id == p.seqn && y.dev == p.src) = some z → p.kind = .readResp → p.dst = s.devId → p.data.length = z.n →
      (∀ k : Nat, z.agent = 2048 + k → (s.engine k).xfers = f :: rest → Completes (.readResponse p) s fun t =>
        (t.engine k).xfers = { f with buf := some (p.data, p.poison) } :: rest ∧ (∀ y ∈ t.rreads, y.id ≠ z.id) ∧ s.calm t) ∧
      (∀ (a : Access) (d r : SReg) (m dev pa : Nat) (va : Word), z.agent < 2048 → (s.hart z.agent).head z.strm = some a →
        a.op = .readRemote (.sreg d m false) dev pa m va → p.poison = 0 → Completes (.readResponse p) s fun t =>
          (∀ y ∈ t.rreads, y.id ≠ z.id) ∧ (t.hart z.agent).sq = dropHead z.strm (s.hart z.agent).sq ∧ s.sameMemory t ∧
          (t.hart z.agent).getS r = if r = 0 then 0 else if r = d then .ofNat 64 (leValue p.data) else (s.hart z.agent).getS r)) ∧
    (p.dst = s.devId → s.rreads.find? (fun y => y.id == p.seqn && y.dev == p.src) = none → exec (.readResponse p) s = .next s) ∧
    (p.kind = .readResp → p.dst ≠ s.devId → Completes (.readResponse p) s fun t =>
      s.calm t ∧ t.rreads = s.rreads ∧ SMap.get 0 t.discards 0 = SMap.get 0 s.discards 0 + 1) ∧
    (s.rreads[i]? = some z → z.agent < 2048 →
      (s.ref - z.sentAt < s.tShort (s.hartPart z.agent) → exec (.remoteReadResend i) s = .next s) ∧
      (s.tShort (s.hartPart z.agent) ≤ s.ref - z.sentAt → z.sends < 3 → Completes (.remoteReadResend i) s fun t => s.calm t ∧
        t.rreads = modAt (fun y => { y with sends := y.sends + 1, sentAt := s.ref }) s.rreads i ∧
        ∃ k : Packet, sent [k] t ∧ k.kind = .readReq ∧ k.dst = z.dev ∧ k.addr = z.pa ∧ k.expect = z.n ∧ k.seqn = z.id) ∧
      (s.tShort (s.hartPart z.agent) ≤ s.ref - z.sentAt → 3 ≤ z.sends → Completes (.remoteReadResend i) s fun t =>
        t.rreads = dropAt s.rreads i ∧ sent [] t ∧ s.sameMemory t ∧ ∀ (a : Access) (d : SReg) (m k dev pa tk j : Nat) (sg : Bool) (va : Word),
          (s.hart z.agent).head z.strm = some a →
          (a.op = .readRemote (.sreg d m sg) dev pa k va → (s.hart z.agent).run ≠ .idle → (s.hart z.agent).events.length < 8 →
            (t.hart z.agent).events = (s.hart z.agent).events ++ [⟨8, va⟩] ∧ (t.hart z.agent).sq = dropHead z.strm (s.hart z.agent).sq) ∧
          (a.op = .readRemote (.word tk j) dev pa k va → (s.hart z.agent).waitAt = some tk →
            (t.hart z.agent).gotBad = (s.hart z.agent).gotBad ++ [(j, 8, va)] ∧ (t.hart z.agent).sq = dropHead z.strm (s.hart z.agent).sq)))

/-- 14 R325, R328 to R331, R333, 05 R153: the timers and notices of bells. A slot whose count is its ring's releases it, writes the flag and
takes the next phase; a held group is rung again at T_short and 2 T_short and dropped at T_hold; a slot not released within T_short
starts a new generation and sends a notice, and fails after RETRY 3; a notice makes the sender re-send; a fail notice ends the slot or
the record, an open group too, whose maker is told; an early packet is dropped T_short after its arrival, and drop records expire.
Where the rules leave room, the statement follows the model's readings of logs 39, 40, 43 and 81. -/
def Obligations.SlotTimers : Prop :=
  ∀ (s : State) (n dest h die i : Nat) (p : Packet) (r : RingRec) (x : SendRec) (g : Group) (y : EarlyPacket) (z : DropRec),
    let slot := s.slot n
    let short := s.slotShort n
    let tellsSender (t : State) (k : PKind) (gen : Bool) : Prop := ∃ q : Packet, t.outbox = s.outbox ++ [q] ∧ q.kind = k ∧ q.dst = slot.sender ∧
      q.slot = n ∧ q.gen = gen ∧ q.phase = slot.phase ∧ q.index = 1
    (s.releasable n = none → exec (.release n) s = .next s) ∧
    (slot.state = 2 → slot.rings = [r] → r.phase = slot.phase → r.expect % 2 ^ 24 = slot.count → s.earlyOf (slotDie n) = [] →
      s.writeDelays ((List.range 8).map (r.faddr + ·)) = false → s.cutFree → (r.faddr = 0 ∨ s.reaches ((s.partOfHandle n).getD 8) r.faddr 8 = true) →
      r.faddr + 8 ≤ 0x10020000000 → Completes (.release n) s fun t =>
        s.onlySlot t n { slot with
          count := slot.next, next := 0, phase := (slot.phase + 1) % 4, retry := 0, rings := [], state := 1, since := s.ref } ∧
        (∀ a : Nat, t.lastByte a = if r.faddr ≠ 0 ∧ r.faddr ≤ a ∧ a < r.faddr + 8 then .ofNat 8 (r.fval.toNat / 256 ^ (a - r.faddr))
          else s.lastByte a) ∧ t.h = s.h) ∧
    (s.findSend dest h = some x → x.held = [g] → x.dest = dest → x.slot = h →
      let short := s.tShort x.part
      (g.repeats < 2 → (g.repeats + 1) * short ≤ s.ref - g.rungAt → Completes (.ringRepeat dest h g.phase) s fun t => s.calm t ∧
        t.findSend dest h = some { x with held := [{ g with repeats := g.repeats + 1 }] } ∧
        ∃ q : Packet, t.outbox = s.outbox ++ [q] ∧ q.kind = .ring ∧ q.expect = g.expect ∧ q.phase = g.phase ∧ q.gen = x.gen ∧ q.flagVal = g.fval) ∧
      (2 ≤ g.repeats ∨ s.ref - g.rungAt < (g.repeats + 1) * short → exec (.ringRepeat dest h g.phase) s = .next s) ∧
      (s.ref - g.rungAt < 4 * short → exec (.holdEnd dest h) s = .next s) ∧
      (4 * short ≤ s.ref - g.rungAt → Completes (.holdEnd dest h) s fun t => s.calm t ∧ t.outbox = s.outbox ∧
        t.findSend dest h = (if x.sent = 0 then none else some { x with held := [] }))) ∧
    (slot.state ≠ 2 ∧ slot.state ≠ 3 ∨ s.ref - slot.since < short → exec (.shortTimer n) s = .next s) ∧
    (slot.state = 2 → short ≤ s.ref - slot.since → slot.retry ≠ 3 → Completes (.shortTimer n) s fun t => s.calm t ∧
      s.onlySlot t n { slot with
        gen := !slot.gen, count := 0, next := 0, rings := [], retry := slot.retry + 1, state := 3, since := s.ref } ∧
      tellsSender t .shortfall (!slot.gen)) ∧
    (slot.state = 3 → short ≤ s.ref - slot.since → slot.retry ≠ 3 → Completes (.shortTimer n) s fun t => s.calm t ∧
      s.onlySlot t n { slot with retry := slot.retry + 1, since := s.ref } ∧ tellsSender t .shortfall slot.gen) ∧
    (slot.state = 2 ∨ slot.state = 3 → short ≤ s.ref - slot.since → slot.retry = 3 → slot.flag = none →
      (s.hart slot.owner).run ≠ .idle → (s.hart slot.owner).events.length < 8 → Completes (.shortTimer n) s fun t =>
        s.onlySlot t n { slot with state := 4 } ∧ tellsSender t .fail slot.gen ∧ s.sameMemory t ∧
        (t.hart slot.owner).events = (s.hart slot.owner).events ++ [⟨17, .ofNat 64 n⟩]) ∧
    (p.kind = .shortfall → p.dst = s.devId → p.freg = 0 → s.findSend p.src p.slot = some x → x.dest = p.src → x.slot = p.slot →
      x.held = [g] → x.openWrites = [] →
      (g.phase = p.phase → Completes (.shortfallNotice p) s fun t => s.calm t ∧
        t.findSend p.src p.slot = some { x with gen := p.gen, held := [{ g with rungAt := s.ref, repeats := 0 }] } ∧
        ∃ q : Packet, t.outbox = s.outbox ++ (g.writes.map fun w => { w.p with gen := p.gen }) ++ [q] ∧ q.kind = .ring ∧ q.gen = p.gen ∧
          q.phase = g.phase ∧ q.expect = g.expect) ∧
      (g.phase ≠ p.phase → ∀ m : Nat, s.makerOf p.src p.slot p.phase = some (.hart m) → (s.hart m).run ≠ .idle →
        (s.hart m).events.length < 8 → Completes (.shortfallNotice p) s fun t => t.findSend p.src p.slot = none ∧ s.sameMemory t ∧
        (t.hart m).events = (s.hart m).events ++ [⟨17, .ofNat 64 p.slot⟩] ∧
        ∃ q : Packet, t.outbox = s.outbox ++ [q] ∧ q.kind = .fail ∧ q.dst = p.src ∧ q.slot = p.slot ∧ q.index = 0)) ∧
    (s.findSend p.src p.slot = some x → x.phase = p.phase → s.makerOf p.src p.slot p.phase = x.openMaker) ∧
    (p.kind ≠ .shortfall → exec (.shortfallNotice p) s = .next s) ∧
    (p.kind = .fail → p.dst = s.devId → p.freg = 0 →
      let y := s.slot p.slot
      (p.index = 0 → (s.partOfHandle p.slot).isSome = true → y.sender = p.src → y.state ≠ 0 → y.state ≠ 4 → y.flag = none → (s.hart y.owner).run ≠ .idle →
        (s.hart y.owner).events.length < 8 → Completes (.failNotice p) s fun t => s.onlySlot t p.slot { y with state := 4 } ∧
          t.outbox = s.outbox ∧ s.sameMemory t ∧ (t.hart y.owner).events = (s.hart y.owner).events ++ [⟨17, .ofNat 64 p.slot⟩]) ∧
      (∀ m : Nat, p.index ≠ 0 → s.makerOf p.src p.slot p.phase = some (.hart m) → (s.hart m).run ≠ .idle → (s.hart m).events.length < 8 → Completes (.failNotice p) s fun t =>
          t.findSend p.src p.slot = none ∧ (t.hart m).events = (s.hart m).events ++ [⟨17, .ofNat 64 p.slot⟩] ∧ s.sameMemory t)) ∧
    ((s.earlyOf die)[i]? = some y →
      (s.ref - y.at_ < s.earlyShort y.p → exec (.earlyArrivalDrop die i) s = .next s) ∧
      (s.earlyShort y.p ≤ s.ref - y.at_ → y.p.kind = .write ∨ y.p.kind = .ring → (s.slot y.p.slot).state = 0 →
        Completes (.earlyArrivalDrop die i) s fun t => s.calm t ∧ t.earlyOf die = dropAt (s.earlyOf die) i ∧
          ∃ d ∈ t.dropsOf die, d.slot = y.p.slot ∧ d.src = y.p.src ∧ d.gen = y.p.gen ∧ d.expires = y.at_ + s.earlyShort y.p + 4 * s.slotShort y.p.slot)) ∧
    ((s.dropsOf die)[i]? = some z →
      (s.ref < z.expires → exec (.dropRecordExpiry die i) s = .next s) ∧
      (z.expires ≤ s.ref → Completes (.dropRecordExpiry die i) s fun t => s.calm t ∧ t.dropsOf die = dropAt (s.dropsOf die) i))

/-- 14 R337 to R340: the owner of a bucket and its members. A contribution is staged as the partial of its chunk, rank and device; an
epoch other than the bucket's raises cause 18 on NOTIFY; with every rank's partial complete the owner combines the chunk in rank order,
a SUM rounded by RNE at each step, MAX and MIN by R240's choice, integers signed and wrapping; it writes the chunk at its result area and, in
MODE 0, sends it to every other rank's slot with a silent ring after it; a member whose due results are at device level writes its flag; a rank that is late raises cause 23.
Where the rules leave room, the statement follows the model's readings of logs 44, 78 and 82. -/
def Obligations.GroupMoves : Prop :=
  ∀ (s : State) (p : Packet) (g : Grp) (b : Bucket) (i part group tag c rank base : Nat) (q : Partial),
    let e := s.bktEnt part g tag
    let notified (t : State) (cause : Nat) : Prop := (t.hart g.notify).events = (s.hart g.notify).events ++ [⟨cause, .ofNat 64 (65536 * group + tag)⟩]
    let listens : Prop := (s.hart g.notify).run ≠ .idle ∧ (s.hart g.notify).events.length < 8
    s.group? part group = some g →
    (p.kind = .contribution → p.freg = 0 → p.group = group → p.tag = tag → s.packetPart p = part → s.inboxPlace p = some i → p.chunk ≠ 0 →
      let x := s.slot p.slot
      let arrives : Prop := p.src = s.devId ∨ x.state ≠ 0 ∧ p.gen = x.gen ∧ (p.phase + 4 - x.phase) % 4 < 2
      (arrives → s.bucket? part group tag = none → Completes (.contribution p) s fun t =>
        (∃ y : Bucket, t.bucket? part group tag = some y ∧ y.epoch = some p.epoch ∧ y.ops = p.ops ∧ y.chunk = p.chunk ∧ ∃ z : Partial, y.partials = [z] ∧
          z.chunk = p.addr / p.chunk ∧ z.rank = p.rank ∧ z.dev = p.src ∧ z.firstAt = s.ref ∧
          ∀ o : Nat, SMap.get none z.bytes o = if p.addr ≤ o then p.data[o - p.addr]? else none) ∧
        t.inbox = (if p.src = s.devId then dropAt s.inbox i else modAt (fun y => { y with wids := some [] }) s.inbox i) ∧
        t.h = s.h ∧ s.sameMemory t) ∧
      (arrives → s.bucket? part group tag = some b → b.stopped = false → b.chunk ≠ 0 → b.epoch.isSome = true → b.epoch ≠ some p.epoch →
        b.past p = false → listens → Completes (.contribution p) s fun t =>
          t.bucket? part group tag = some { b with stopped := true } ∧ notified t 18 ∧ s.sameMemory t)) ∧
    (s.bucket? part group tag = some b → b.part = part → b.group = group → b.tag = tag → b.stopped = false → b.chunk ≠ 0 →
      -- combination of a chunk of at most one packet: each element in rank order, a sum rounded at each step
      (∀ r z, b.used c r = some z → z ∈ b.partials ∧ z.chunk = c ∧ z.rank = r ∧ z.late = false ∧
        ∀ o, c * b.chunk ≤ o → o < c * b.chunk + b.chunk → (SMap.get none z.bytes o).isSome = true) ∧
      (∀ (op : RedOp) (fm : Fmt), copsOp b.ops = some op → copsFmt b.ops = some fm → b.chunk % 64 = 0 → b.chunk ≤ 512 → c % g.nr = g.me →
        0 < g.nr → (∀ r, r < g.nr → (b.used c r).isSome = true) → b.results = [] → s.bufs = [] →
        (∀ j, j < b.chunk → s.translate none part true .write (e.res + .ofInt 64 (((c * b.chunk : Nat) : Int) - e.boff) + .ofNat 64 j) =
          .ok (.loc (base + j)) ∧ s.reaches part (base + j) 1 = true) → base + b.chunk ≤ 0x10020000000 →
        s.writeDelays ((List.range b.chunk).map (base + ·)) = false → s.cutFree →
        let w := fmtBits fm / 8
        let signed (x : Nat) : Int := (BitVec.ofNat (8 * w) x).toInt
        let x (r k : Nat) : Nat := match b.used c r with
          | some z => leValue ((List.range w).map fun j => (SMap.get none z.bytes (c * b.chunk + w * k + j)).getD 0)
          | none => 0
        let both (y z : Nat) : Bool := (decodeEx fm y).isNan && (decodeEx fm z).isNan
        let step (y z : Nat) : Nat :=
          if op = .sum then
            (if fmtInt fm then (y + z) % 2 ^ (8 * w) else (roundTo fm false .rne 0 (exAdd .rne (decodeEx fm y) (decodeEx fm z)).1).1)
          else if fmtInt fm then (if (if op = .max then signed y < signed z else signed z < signed y) then z else y)
          else if both y z then fmtNan fm else if (minmaxFirst (op == .max) (decodeEx fm y) (decodeEx fm z)).1 then y else z
        let result (k : Nat) : Nat := ((List.range (g.nr - 1)).map fun r => x (r + 1) k).foldl step (x 0 k)
        let sends (r : Nat) (l : List (Nat × Packet)) : Prop := ∃ u v : Packet, l = [(part, u), (part, v)] ∧ u.kind = .result ∧ v.kind = .ring ∧
          u.dst = (s.rankDev part g r).1 ∧ v.dst = u.dst ∧ u.slot = g.slotbase + g.nr + g.me ∧ v.slot = u.slot ∧ u.group = group ∧ u.tag = tag ∧
          u.addr = c * b.chunk ∧ u.data.length = b.chunk ∧ ∀ k, k < b.chunk / w → leValue ((u.data.drop (w * k)).take w) = result k
        Completes (.combine part group tag c) s fun t =>
          (∀ k, k < b.chunk / w → leValue ((List.range w).map fun j => t.lastByte (base + w * k + j)) = result k) ∧
          (∀ a, a < base ∨ base + b.chunk ≤ a → t.lastByte a = s.lastByte a) ∧
          (∃ y : Bucket, t.bucket? part group tag = some y ∧ y.results.map (·.1) = [c * b.chunk] ∧ ∀ z ∈ y.partials, z.chunk = c → z.late = true) ∧
          (copsScatter b.ops = true → t.unitOut = s.unitOut) ∧
          (copsScatter b.ops = false → g.slotbase + g.nr + g.me < 2 ^ 14 → (∀ r, r < g.nr → s.allowed part (s.rankDev part g r).1 = true) →
            ∃ l : Nat → List (Nat × Packet), (∀ r, r < g.nr → r ≠ g.me → sends r (l r)) ∧
              t.unitOut = s.unitOut ++ ((List.range g.nr).filter (· != g.me)).flatMap l) ∧
          t.outbox = s.outbox ∧ t.h = s.h) ∧
      (c % g.nr ≠ g.me ∨ (∃ r, r < g.nr ∧ b.used c r = none) → exec (.combine part group tag c) s = .next s) ∧
      -- the release of the bucket
      (let got (o : Nat) : Bool := b.results.any fun x => x.1 == o && x.2.all fun w => s.widReached w .dev
        let due : Bool := (dueChunks g e b).all fun c => (resultOffsets c b.resChunk).all got
        (due = false → exec (.bucketRelease part group tag) s = .next s) ∧
        (due = true → b.resChunk ≠ 0 → (∀ j, j < 8 → s.translate none part true .write (e.faddr + .ofNat 64 j) = .ok (.loc (base + j)) ∧
            s.reaches part (base + j) 1 = true) → base + 8 ≤ 0x10020000000 →
            s.writeDelays ((List.range 8).map (base + ·)) = false → s.cutFree → Completes (.bucketRelease part group tag) s fun t =>
          (∀ a : Nat, t.lastByte a = if base ≤ a ∧ a < base + 8 then .ofNat 8 (e.fval.toNat / 256 ^ (a - base)) else s.lastByte a) ∧
          (∀ y : Bucket, t.bucket? part group tag = some y → y.results = []) ∧ t.h = s.h)) ∧
      -- a late rank
      (b.partials = [q] → q.chunk = c → q.late = false → rank < g.nr → b.used c rank = none →
        (s.ref - q.firstAt < g.late → exec (.tLate part group tag c rank) s = .next s) ∧
        (g.late ≤ s.ref - q.firstAt → listens → Completes (.tLate part group tag c rank) s fun t =>
          t.bucket? part group tag = some { b with stopped := true } ∧ notified t 23 ∧ s.sameMemory t)))

/-- 15 R355 to R358: strips of the fabric streams. A chunk joins the strip whose receive is posted, waits early for one that is not, and of
a strip already delivered is discarded; a whole strip is delivered into the pinned register of its receive, an element at each move, as
stream-F writes at the register's alias; a receive not complete within T_short sends a notice; a notice makes the sender send the named
chunks again, a fourth one, one after the hold, or a fail reply fails the stream with cause 17; a strip's data goes T_hold after it was
sent. Times are of the reference clock; T_short of a strip that waits early is log 79's.
Where the rules leave room, the statement follows the model's readings of logs 45 and 79. -/
def Obligations.StripMoves : Prop :=
  ∀ (s : State) (p : Packet) (part n f seqn : Nat) (x : RecvPost) (t0 : InStrip) (d : List Byte) (v : VReg) (g : Grp) (y : SentStrip),
    n < 2048 → f < 4 →
    let h := s.hart n
    let r := h.freg f
    let strip (z : RecvPost) : Option InStrip := s.inStrip (s.hartPart n) f r.group r.tag z.seqn
    let short (z : RecvPost) : Bool := z.f == f && decide (s.tShort (s.hartPart n) ≤ s.ref - z.since) && ((strip z).bind fun y => y.whole r.esize).isNone
    let cause17 (t : State) (m group tag : Nat) : Prop :=
      (t.hart m).events = (s.hart m).events ++ [⟨17, .ofNat 64 (65536 * group + tag)⟩] ∧
      (((s.hart m).freg f).group = group → ((s.hart m).freg f).tag = tag → ((t.hart m).freg f).state = 2 ∧ ∀ z ∈ (t.hart m).posts, z.f ≠ f) ∧
      (((s.hart m).freg f).group ≠ group ∨ ((s.hart m).freg f).tag ≠ tag → (t.hart m).freg f = (s.hart m).freg f ∧ (t.hart m).posts = (s.hart m).posts)
    let listens (m : Nat) : Prop := (s.hart m).run ≠ .idle ∧ (s.hart m).events.length < 8
    (p.kind = .contribution → p.freg = f + 1 → p.dst = s.devId → p.src ≠ s.devId → p.data.length ≤ 512 → s.inboxPlace p = none → s.groupPart p.group = some part →
      s.stripHart part f p.group p.tag = some n → r.opfmt = p.ops →
      (h.post f p.seqn = some x → s.inStrip part f p.group p.tag p.seqn = none → Completes (.stripChunk p) s fun t =>
        t.inStrips = s.inStrips ++ [⟨part, f, p.group, p.tag, p.seqn, p.elems, p.chunk, [(p.index, p.addr, p.data)], s.ref⟩] ∧
        (t.hart n).posts = (h.posts.map fun z => if z.f = f ∧ z.seqn = p.seqn then { z with since := s.ref } else z) ∧ (t.hart n).v = h.v ∧ (t.hart n).s = h.s ∧ s.sameMemory t) ∧
      (h.post f p.seqn = some x → s.inStrip part f p.group p.tag p.seqn = some t0 → t0.chunks.any (fun z => z.1 == p.index && z.2.1 == p.addr) = true →
        exec (.stripChunk p) s = .next s) ∧
      (h.post f p.seqn = none → 2 ^ 31 ≤ (p.seqn + 2 ^ 32 - r.pseq) % 2 ^ 32 → exec (.stripChunk p) s = .next s) ∧
      (h.post f p.seqn = none → (p.seqn + 2 ^ 32 - r.pseq) % 2 ^ 32 < 2 ^ 31 → (∀ z ∈ s.earlyOf 0, s.ref - z.at_ < s.earlyShort z.p) →
        ((s.earlyOf 0).map fun z => packetSize z.p).foldl (· + ·) 0 + (64 + p.data.length) ≤ 262144 → Completes (.stripChunk p) s fun t =>
          t.earlyOf 0 = s.earlyOf 0 ++ [⟨p, s.ref⟩] ∧ s.calm t)) ∧
    (s.readyStrip n f = none → exec (.stripDelivery n f) s = .next s) ∧
    (s.readyStrip n f = some (x, t0, d) → x.vd = some v → r.state = 1 → s.fenced n 11 x.seq true = false → h.postsDone x.seq = true → s.cutFree →
      (x.next < x.vl → x.next < h.vlmax → h.aliasNib 0 0 = none → h.aliasBytes ≤ 0x20000 → Completes (.stripDelivery n f) s fun t =>
        let place (q : Nat) : Nat := aliasAddr n v (h.aliasOff q x.next)
        let held (u : State) (q : Nat) : Nat := leValue ((List.range h.aliasSize).map fun j => u.lastByte (place q + j))
        (∀ q, q ≤ h.tangents → held t q =
          if x.mask.getLsbD x.next then (if q = 0 then stripElem d r.esize x.next % 2 ^ h.ebits else if x.vonly then held s q else 0)
          else if x.kz then 0 else held s q) ∧
        (∀ a, (∀ q, q ≤ h.tangents → a < place q ∨ place q + h.aliasSize ≤ a) → t.lastByte a = s.lastByte a) ∧
        (t.hart n).posts = (h.posts.map fun z => if z = x then { x with next := x.next + 1 } else z) ∧
        (∀ w ∈ t.log, w ∈ s.log ∨ w.agent = n ∧ w.strm = 11 ∧ w.seq = x.seq) ∧
        (t.hart n).freg f = r ∧ (t.hart n).k = h.k ∧ (t.hart n).s = h.s ∧ t.inStrips = s.inStrips ∧ ∀ m, m ≠ n → t.hart m = s.hart m) ∧
      (x.vl ≤ x.next → Completes (.stripDelivery n f) s fun t =>
        (t.hart n).freg f = { r with dseq := (r.dseq + 1) % 2 ^ 32 } ∧ (t.hart n).posts = h.posts.filter (· ≠ x) ∧
        t.inStrips = s.inStrips.filter (· ≠ t0) ∧
        (t.hart n).deliveries = (h.deliveries.map fun z => if z.src = .strip f x.seqn then { z with done := true } else z) ∧
        (t.hart n).v = h.v ∧ (t.hart n).k = h.k ∧ (t.hart n).s = h.s ∧ s.sameMemory t ∧ ∀ m, m ≠ n → t.hart m = s.hart m)) ∧
    (s.group? (s.hartPart n) r.group = some g →
      (h.posts.find? short = none → exec (.stripShortfall n f) s = .next s) ∧
      (h.posts.find? short = some x → Completes (.stripShortfall n f) s fun t =>
        (∃ q : Packet, t.outbox = s.outbox ++ [q] ∧ q.kind = .shortfall ∧ q.dst = s.rankBefore (s.hartPart n) g ∧ q.group = r.group ∧ q.tag = r.tag ∧
          q.freg = f + 1 ∧ q.seqn = x.seqn) ∧ (t.hart n).posts = (h.posts.map fun z => if z = x then { z with since := s.ref } else z) ∧
        s.sameMemory t)) ∧
    (p.kind = .shortfall → p.freg = f + 1 → p.dst = s.devId →
      let sent := s.sentStrips.filter fun z => z.dest == p.src && z.f == f && z.group == p.group && z.tag == p.tag && z.seqn == p.seqn
      let failed : Prop := Completes (.stripNotice p) s fun t => cause17 t y.hart p.group p.tag ∧ s.sameMemory t ∧
        t.sentStrips = (s.sentStrips.map fun z => if z = y then { z with ended := true, data := [] } else z) ∧
        ∃ z : Packet, t.outbox = s.outbox ++ [z] ∧ z.kind = .fail ∧ z.dst = p.src ∧ z.freg = p.freg ∧ z.seqn = p.seqn
      (sent.find? (fun z => !z.ended) = some y →
        (s.stripQueued y = true → exec (.stripNotice p) s = .next s) ∧
        (s.stripQueued y = false → y.notices ≠ 3 → Completes (.stripNotice p) s fun t =>
          t.outbox = s.outbox ++ ((y.packets s.devId).filter fun q => p.expect == 0 || (leValue p.data).testBit q.index) ∧ s.calm t ∧
          t.sentStrips = s.sentStrips.map fun z => if z = y then { z with notices := z.notices + 1 } else z) ∧
        (s.stripQueued y = false → y.notices = 3 → y.hart < 2048 → listens y.hart → failed)) ∧
      (sent.find? (fun z => !z.ended) = none → s.groupPart p.group = some part →
        (s.unsent part f p.group p.tag p.seqn = true → exec (.stripNotice p) s = .next s) ∧
        (s.unsent part f p.group p.tag p.seqn = false → sent.head? = some y → s.stripQueued y = false → y.hart < 2048 → listens y.hart → failed) ∧
        (sent = [] → exec (.stripNotice p) s = .next s))) ∧
    (p.kind = .fail → p.freg = f + 1 → p.dst = s.devId → s.groupPart p.group = some part → s.stripHart part f p.group p.tag = some n →
      (h.post f p.seqn = none → exec (.stripNotice p) s = .next s) ∧
      (h.post f p.seqn = some x → listens n → Completes (.stripNotice p) s fun t =>
        cause17 t n p.group p.tag ∧ s.sameMemory t)) ∧
    Completes (.stripHoldEnd n f seqn) s fun t =>
      t.sentStrips = (s.sentStrips.map fun z =>
        if z.hart = n ∧ z.f = f ∧ z.seqn = seqn ∧ s.stripQueued z = false ∧ s.tHold (s.hartPart n) ≤ s.ref - z.sentAt then
          { z with ended := true, data := [] } else z) ∧ t.outbox = s.outbox ∧ s.calm t

/-- 17 R382, R385, 01 R16 to R37, 03 R78, 08 R215, R229, 13 R309, 14 R327, 17 R381, R386, 18 R395: what reset leaves, where a rule gives
the value; its memory is in canonical form. -/
def Obligations.ResetState : Prop :=
  let s := State.reset
  (∀ n, (s.hart n).run = .idle ∧ (s.hart n).vill = true ∧ (s.hart n).vl = 0 ∧ (s.hart n).vlmax = 0 ∧ (s.hart n).eidx = 0 ∧
    (s.hart n).nreg = 32 ∧ (s.hart n).sreg = 12 ∧ (s.hart n).sreq = 12 ∧ (s.hart n).fctl = 0 ∧ (s.hart n).fflags = 0 ∧
    (s.hart n).scale = 0x3F800000 ∧ (s.hart n).epoch = 0 ∧ (s.hart n).cdens = 25 ∧ (s.hart n).twin = 0xF424 ∧ (s.hart n).pins = 0 ∧
    (s.hart n).sq = [] ∧ (s.hart n).events = [] ∧ (s.hart n).th = false) ∧
  (∀ g, g < 64 → s.partOf g = 0) ∧ (∀ p, 0 < p → p < 8 → (s.part p).clus = 0) ∧
  (∀ p, (s.part p).locked = false ∧ (s.part p).tshort = 50000 ∧ (s.part p).tvec = 0 ∧ (s.part p).ptbase = 0 ∧ (s.part p).cask.state = 0) ∧
  (∀ c, (SMap.get {} s.cores c).mode = 0 ∧ (SMap.get {} s.cores c).pend = false) ∧
  (∀ d, (s.ctl d).scctl = 0x101000 ∧ (s.tier d).en = true ∧ (s.tier d).useonce = true ∧ (s.tier d).quota = 8192) ∧
  (∀ h, (s.slot h).state = 0) ∧ (∀ e, (s.engine e).state = .idle) ∧ (∀ n, SMap.get 0 s.meas n = 0) ∧
  s.stepno = 0 ∧ s.timebase = 0 ∧ s.pwrlim = 3200 ∧ s.belfry = .rom ∧ s.errhead = 0 ∧ s.kernels = [] ∧ s.agenda = [] ∧ s.memOk

/-- 03 R70 to R76, R81, R83, R84, R86, 15 R363: words written out from the formats decode to the instructions they stand for, and patterns
that name none are refused. -/
def Obligations.DecodeWords : Prop :=
  decodeBytes (leBytes 4 0x000E6281) = .ok (.add 5 6 7, []) ∧ decodeBytes (leBytes 4 0x004E6281) = .ok (.sub 5 6 7, []) ∧
  decodeBytes (leBytes 4 0xFFF02082) = .ok (.addi 1 2 0xFFF, []) ∧ decodeBytes (leBytes 4 0x00224188) = .ok (.bne 3 4 2, []) ∧
  decodeBytes (leBytes 4 0xFFC4940D) = .ok (.lw 8 9 0xFFC, []) ∧ decodeBytes (leBytes 4 0x0106940E) = .ok (.sd 8 9 16, []) ∧
  decodeBytes (leBytes 4 0x78462090) = .ok (.amoadd .dev .sc 1 2 3, []) ∧ decodeBytes (leBytes 4 0x00724014) = .ok (.csrw 0 .srseed 4, []) ∧
  decodeBytes (leBytes 4 0x0000001C) = .ok (.ecall, []) ∧
  decodeBytes (leBytes 8 0x9A00308103) = .ok (.vfadd 1 2 (.reg 3) .rtz .tstop ⟨2, true⟩, []) ∧
  decodeBytes (leBytes 8 0x4000000001442B) = .ok (.vld .f32 0 .plain 4 5 1 ⟨0, false⟩, []) ∧
  decodeDungen 0x589187FF = some (.addc 1 2 3 0x7FF) ∧
  decodeBytes (leBytes 4 0) = .error .zeroParcel ∧ decodeBytes (leBytes 4 0x064E6281) = .error (.reserved32 0x064E6281) ∧
  decodeDungen 0x88000000 = none

/-- 03 R70, R87, 05 R127, 15 R366, 13 R315: a step whose turn is the selected hart's runs, on the state a fetch leaves, the instruction
that the bytes at its pc decode to; one whose turn is an engine's runs the instruction of its schedule word; a move runs as it stands. The
bytes are those the hart's cluster reads where its pc translates to. A pattern that is no instruction raises cause 1 with its bits, a fetch
that faults its trap, and a waking bank delays it. An event that is ready is taken first; a hart inside a convoy goes on with it, and a pass
of a loop that is due is counted. The time of the step passes before its move: at a multiple of 1,024 cycles the harts of a kernel that have
all been blocked for longer than its window take cause 16, one that would no longer wait counting as not blocked. The agenda is the model's
own (log 4).
Where the rules leave room, the statement follows the model's readings of logs 5, 53, 59 and 97. -/
def Obligations.StepRunsDecodedInstruction : Prop :=
  ∀ (s : State) (dt e base n : Nat) (l : List (Nat × Move)) (i : Instr) (bs rest : List Byte) (w : BitVec 32) (kn : Kernel) (token : Word),
    let u : State := { s with agenda := l }.advance dt
    let ref : Nat := s.now + s.lag
    let later : State := { s with
      agenda := l, fresh := s.fresh + 1, now := s.now + dt, timebase := s.timebase + .ofNat 64 ((ref + dt) / 4 - ref / 4)
      buckets := s.buckets.filter fun b => (s.group? b.part b.group).isSome, kernels := s.noteWaits.kernels }
    let v : State := { later with now := 1024 * ((s.now + dt) / 1024) }
    let mine (m : Nat) : Prop := m < 2048 ∧ (s.hart m).run = .running ∧ (s.hart m).sup = false ∧ (s.hart m).leaving = none ∧
      ∃ y, (s.hart m).inst = some y ∧ y.token = kn.token
    let stuck (m : Nat) : Prop := ∃ b, (s.hart m).blocked = some b ∧ 1024 * max 1 kn.win < v.now - b
    let byte (k : Nat) : Byte := u.viewByte (u.hid / 32) (base + k)
    -- time passes, and the kernels are sampled
    ((s.now + dt) / 1024 = s.now / 1024 ∨ s.kernels = [] → u = later) ∧
    (s.noteWaits.kernels.map fun (k : Kernel) => { k with waits := [] }) = (s.kernels.map fun (k : Kernel) => { k with waits := [] }) ∧
    ((s.now + dt) / 1024 = s.now / 1024 + 1 → s.kernels = [kn] → (∀ m, mine m → v.blockedYet m = v) →
      ((∃ m, mine m ∧ ¬ stuck m) → u = later) ∧
      ((∀ m, mine m → stuck m ∧ (s.hart m).th = false) → u.now = s.now + dt ∧ ∀ m,
        (mine m → (u.hart m).cause = 16 ∧ (u.hart m).casync = false ∧ (u.hart m).tval = kn.token ∧ (u.hart m).tpc = (s.hart m).pc ∧
          (u.hart m).teidx = .ofNat 64 (s.hart m).eidx ∧ (u.hart m).sup = true ∧ (u.hart m).blocked = none ∧
          (u.hart m).pc = (s.part (s.hartPart m)).tvec ∧ (u.hart m).s = (s.hart m).s) ∧ (¬ mine m → u.hart m = s.hart m))) ∧
    ((s.hart n).blocked = none → s.blockedYet n = s) ∧
    (∀ t, (s.hart n).blocked ≠ none → (s.select n).issue = .next t → s.blockedYet n =
      if t.h.blocked.isSome then s else s.setHart n { s.hart n with blocked := none }) ∧
    -- the move
    (s.agenda = (dt, .issue) :: l → u.h.run = .running → u.h.leaving = none →
      (u.eventReady = true → step s = .next u.takeEvent) ∧
      (u.eventReady = false →
        (u.h.inConvoy = none → u.h.flowDue = false →
          (u.fetchDelayed u.h.pc = true → step s = .next u.pause) ∧
          (u.fetchDelayed u.h.pc = false →
            (u.fetchFault u.h.pc = none → u.fetchBytes u.h.pc = .ok bs → decodeBytes bs = .ok (i, rest) → step s = exec i (u.fetched bs.length)) ∧
            (u.fetchFault u.h.pc = none → u.fetchBytes u.h.pc = .ok bs → (∀ r, decodeBytes bs ≠ .ok r) →
              step s = .next (u.trapWith (leValue bs % 128 == 0x19) none ⟨1, .ofNat 64 (leValue bs), 0⟩)) ∧
            (∀ conv t, u.fetchFault u.h.pc = some (conv, t) → step s = .next (u.trapWith conv none t)))) ∧
        (u.h.inConvoy = none → u.h.flowDue = true → step s = .next u.flowOn) ∧
        (∀ c, u.h.inConvoy = some c → step s = .next (u.goOn c)))) ∧
    (s.agenda = (dt, .engine e) :: l → e < 16 → (u.engine e).busy = true → (u.engine e).fetch = some w → decodeDungen w.toNat = some i →
      step s = exec i { u with eng := e }) ∧
    (s.agenda = (dt, .run i) :: l → i.form = .move → (∀ tk, i ≠ .progressFault tk) → step s = exec i u) ∧
    (s.agenda = (dt, .run (.progressFault token)) :: l →
      step s = exec (.progressFault token) ((u.kernelHarts token).foldl State.blockedYet u)) ∧
    (s.waking = [] → s.fetchDelayed s.h.pc = false) ∧
    ((∀ k, k < 8 → u.accessByte u.hid u.h.sup .fetch (u.h.pc + .ofNat 64 k) = .ok (.loc (base + k))) → base + 8 ≤ 0x10000000000 →
      u.fetchBytes u.h.pc = .ok ((List.range (if (byte 0).toNat % 4 = 3 then 8 else 4)).map byte))

/-- 03 R73 to R86, 15 R363: every well-formed instruction of a hart or an engine is what its encoding decodes to, with every operand at
every value the encoding admits, whatever bytes follow it. -/
def Obligations.EncodeDecodeRoundTrip : Prop :=
  ∀ (i : Instr) (rest : List Byte), i.wf = true →
    (i.form = .hart32 ∨ i.form = .hart64 → decodeBytes (encodeBytes i ++ rest) = .ok (i, rest)) ∧
    (i.form = .dungen → decodeDungen (encode i) = some i)

/-- The memory of the machine keeps its canonical form (the model's invariant): whatever the state and its agenda, a step that answers a
next state keeps it. -/
def Obligations.StepKeepsMemoryCanonical : Prop :=
  ∀ s t : State, s.memOk → step s = .next t → t.memOk

/-- 17 R373, R377, R383, R384: no instruction of a program, in program mode, changes what isolates a partition: its page table and handler,
its clusters and memory, its allowlist, its tables and pools. -/
def Obligations.ProgramsKeepIsolation : Prop :=
  ∀ (i : Instr) (s t : State) (p : Nat), i.form = .hart32 ∨ i.form = .hart64 → s.h.sup = false → exec i s = .next t →
    (t.part p).ptbase = (s.part p).ptbase ∧ (t.part p).tvec = (s.part p).tvec ∧ (t.part p).clus = (s.part p).clus ∧
    (t.part p).own = (s.part p).own ∧ (t.part p).allowMap = (s.part p).allowMap ∧ (t.part p).locked = (s.part p).locked ∧
    (t.part p).gtab = (s.part p).gtab ∧ (t.part p).htab = (s.part p).htab ∧ (t.part p).shpool = (s.part p).shpool ∧
    (t.part p).ctxpool = (s.part p).ctxpool ∧ (t.part p).belllo = (s.part p).belllo ∧ (t.part p).bellhi = (s.part p).bellhi
end

