-- ==== Sys2Proof/Laws/Map.lean ====
section
/-! SUPPORT. Sys2Proof/Laws/Map.lean: laws of sparse tables: a read after a write, and the canonical form that every operation keeps; the same for memory. -/

namespace Sys2Proof

theorem SMap.get_erase_same {β : Type} (d : β) (m : SMap β) (k : Nat) : SMap.get d (m.erase k) k = d := by
  induction m with
  | nil => rfl
  | cons x m ih =>
    obtain ⟨a, b⟩ := x
    by_cases h : a = k <;> simp [SMap.erase, SMap.get, h, ih]

theorem SMap.get_erase_other {β : Type} (d : β) (m : SMap β) {k j : Nat} (h : j ≠ k) :
    SMap.get d (m.erase k) j = SMap.get d m j := by
  induction m with
  | nil => rfl
  | cons x m ih =>
    obtain ⟨a, b⟩ := x
    by_cases hk : a = k
    · have : ¬ a = j := fun hj => h (hj ▸ hk)
      simp [SMap.erase, SMap.get, hk, ih, Ne.symm h]
    · by_cases hj : a = j <;> simp [SMap.erase, SMap.get, hk, hj, ih]
      subst hj
      simp [SMap.get, hk]

theorem SMap.get_insert_same {β : Type} (d : β) (m : SMap β) (k : Nat) (v : β) (h : SMap.get d m k = d)
    (hm : ∀ b, (k, b) ∉ m) : SMap.get d (m.insert k v) k = v := by
  induction m with
  | nil => simp [SMap.insert, SMap.get]
  | cons x m ih =>
    obtain ⟨a, b⟩ := x
    have ha : a ≠ k := fun e => hm b (by simp [e])
    by_cases hk : k < a
    · simp [SMap.insert, SMap.get, hk]
    · have hm' : ∀ b, (k, b) ∉ m := fun b' hb => hm b' (List.mem_cons_of_mem _ hb)
      simp only [SMap.get, ha, if_false] at h
      simp [SMap.insert, SMap.get, hk, ha, ih h hm']

theorem SMap.get_insert_other {β : Type} (d : β) (m : SMap β) {k j : Nat} (v : β) (h : j ≠ k) :
    SMap.get d (m.insert k v) j = SMap.get d m j := by
  induction m with
  | nil => simp [SMap.insert, SMap.get, Ne.symm h]
  | cons x m ih =>
    obtain ⟨a, b⟩ := x
    by_cases hk : k < a <;> simp [SMap.insert, SMap.get, hk, Ne.symm h, ih]

theorem SMap.not_mem_erase {β : Type} (m : SMap β) (k : Nat) (b : β) : (k, b) ∉ m.erase k := by
  induction m with
  | nil => simp [SMap.erase]
  | cons x m ih =>
    obtain ⟨a, c⟩ := x
    by_cases h : a = k
    · simpa [SMap.erase, h] using ih
    · simp [SMap.erase, h, ih, Ne.symm h]

/-- A read after a write to the same key gives the value written. -/
@[simp] theorem SMap.get_put_same {β : Type} [DecidableEq β] (d : β) (m : SMap β) (k : Nat) (v : β) :
    SMap.get d (m.put d k v) k = v := by
  by_cases hv : v = d
  · simp [SMap.put, hv, SMap.get_erase_same]
  · simp only [SMap.put, hv, if_false]
    exact SMap.get_insert_same d _ k v (SMap.get_erase_same d m k) (SMap.not_mem_erase m k)

/-- A write leaves every other key alone. -/
theorem SMap.get_put_other {β : Type} [DecidableEq β] (d : β) (m : SMap β) {k j : Nat} (v : β) (h : j ≠ k) :
    SMap.get d (m.put d k v) j = SMap.get d m j := by
  by_cases hv : v = d
  · simp [SMap.put, hv, SMap.get_erase_other d m h]
  · simp only [SMap.put, hv, if_false]
    rw [SMap.get_insert_other d _ v h, SMap.get_erase_other d m h]

theorem SMap.wfFrom_mono {β : Type} [DecidableEq β] (d : β) (m : SMap β) {lo lo' : Nat} (h : lo' ≤ lo)
    (w : SMap.wfFrom d lo m = true) : SMap.wfFrom d lo' m = true := by
  cases m with
  | nil => rfl
  | cons x m =>
    obtain ⟨a, b⟩ := x
    simp only [SMap.wfFrom, Bool.and_eq_true, decide_eq_true_eq] at *
    exact ⟨⟨by omega, w.1.2⟩, w.2⟩

theorem SMap.wfFrom_erase {β : Type} [DecidableEq β] (d : β) (m : SMap β) (k lo : Nat) (w : SMap.wfFrom d lo m = true) :
    SMap.wfFrom d lo (m.erase k) = true := by
  induction m generalizing lo with
  | nil => rfl
  | cons x m ih =>
    obtain ⟨a, b⟩ := x
    simp only [SMap.wfFrom, Bool.and_eq_true, decide_eq_true_eq] at w
    by_cases h : a = k
    · simp only [SMap.erase, h, if_true]
      exact SMap.wfFrom_mono d _ (by omega) (ih _ w.2)
    · simp only [SMap.erase, h, if_false, SMap.wfFrom, Bool.and_eq_true, decide_eq_true_eq]
      exact ⟨w.1, ih _ w.2⟩

theorem SMap.wfFrom_insert {β : Type} [DecidableEq β] (d : β) (m : SMap β) (k lo : Nat) (v : β) (hv : v ≠ d) (hk : lo ≤ k)
    (hm : ∀ b, (k, b) ∉ m) (w : SMap.wfFrom d lo m = true) : SMap.wfFrom d lo (m.insert k v) = true := by
  induction m generalizing lo with
  | nil => simp [SMap.insert, SMap.wfFrom, hv, hk]
  | cons x m ih =>
    obtain ⟨a, b⟩ := x
    have ha : a ≠ k := fun e => hm b (by simp [e])
    have hm' : ∀ b, (k, b) ∉ m := fun b' hb => hm b' (List.mem_cons_of_mem _ hb)
    simp only [SMap.wfFrom, Bool.and_eq_true, decide_eq_true_eq] at w
    by_cases h : k < a
    · simp only [SMap.insert, h, if_true, SMap.wfFrom, Bool.and_eq_true, decide_eq_true_eq]
      exact ⟨⟨hk, hv⟩, ⟨by omega, w.1.2⟩, w.2⟩
    · simp only [SMap.insert, h, if_false, SMap.wfFrom, Bool.and_eq_true, decide_eq_true_eq]
      exact ⟨w.1, ih _ (by omega) hm' w.2⟩

/-- A write keeps the canonical form. -/
theorem SMap.wf_put {β : Type} [DecidableEq β] (d : β) (m : SMap β) (k : Nat) (v : β) (w : SMap.wf d m = true) :
    SMap.wf d (m.put d k v) = true := by
  by_cases hv : v = d
  · simpa [SMap.put, hv, SMap.wf] using SMap.wfFrom_erase d m k 0 w
  · simp only [SMap.put, hv, if_false, SMap.wf]
    exact SMap.wfFrom_insert d _ k 0 v hv (Nat.zero_le _) (SMap.not_mem_erase m k) (SMap.wfFrom_erase d m k 0 w)

/-- A table from which entries are taken keeps the canonical form. -/
theorem SMap.wfFrom_filter {β : Type} [DecidableEq β] (d : β) (p : Nat × β → Bool) (m : SMap β) (lo : Nat)
    (w : SMap.wfFrom d lo m = true) : SMap.wfFrom d lo (m.filter p) = true := by
  induction m generalizing lo with
  | nil => rfl
  | cons x m ih =>
    obtain ⟨a, b⟩ := x
    simp only [SMap.wfFrom, Bool.and_eq_true, decide_eq_true_eq] at w
    by_cases h : p (a, b) = true
    · simp only [List.filter_cons, h, if_true, SMap.wfFrom, Bool.and_eq_true, decide_eq_true_eq]
      exact ⟨w.1, ih _ w.2⟩
    · simp only [List.filter_cons, h]
      exact SMap.wfFrom_mono d _ (by omega) (ih _ w.2)

theorem SMap.wf_filter {β : Type} [DecidableEq β] (d : β) (p : Nat × β → Bool) (m : SMap β) (w : SMap.wf d m = true) :
    SMap.wf d (m.filter p) = true := SMap.wfFrom_filter d p m 0 w

theorem SMap.wf_clear {β : Type} [DecidableEq β] (d : β) (m : SMap β) (lo hi : Nat) (w : SMap.wf d m = true) :
    SMap.wf d (m.clear lo hi) = true := SMap.wf_filter d _ m w

/-- Bits cut out of a number are below their bound. -/
theorem bitsOf_lt (x lo n : Nat) : bitsOf x lo n < 2 ^ n := Nat.mod_lt _ (Nat.two_pow_pos n)

/-- Little-endian bytes and their value. -/
@[simp] theorem leBytes_length (n x : Nat) : (leBytes n x).length = n := by
  induction n generalizing x with
  | zero => rfl
  | succ n ih => simp [leBytes, ih]

theorem leValue_leBytes (n x : Nat) : leValue (leBytes n x) = x % 256 ^ n := by
  induction n generalizing x with
  | zero => simp [leBytes, leValue, Nat.mod_one]
  | succ n ih =>
    simp only [leBytes, leValue, ih, BitVec.toNat_ofNat]
    have h : (256 : Nat) ^ (n + 1) = 256 * 256 ^ n := by rw [Nat.pow_succ, Nat.mul_comm]
    rw [h, Nat.mod_mul]

namespace Machine

/-- Memory operations keep the canonical form. -/
theorem memPut_wf {m : List Host.Cell} (a : Nat) (b : Byte) (w : Memory.wf m) : Memory.wf (memPut m a b) :=
  SMap.wf_put memDefault m a b w

theorem memPutList_wf {m : List Host.Cell} (a : Nat) (l : List Byte) (w : Memory.wf m) : Memory.wf (memPutList m a l) := by
  induction l generalizing m a with
  | nil => exact w
  | cons b l ih => exact ih (a + 1) (memPut_wf a b w)

theorem settleLog_wf {l : List WriteRec} {m : List Host.Cell} (w : Memory.wf m) : Memory.wf (settleLog l m).2 := by
  induction l generalizing m with
  | nil => exact w
  | cons x l ih =>
    unfold settleLog
    split
    · exact ih (memPutList_wf _ _ w)
    · exact w

/-- A read after a write of base memory. -/
@[simp] theorem memByte_memPut_same (m : List Host.Cell) (a : Nat) (b : Byte) : memByte (memPut m a b) a = b :=
  SMap.get_put_same memDefault m a b

theorem memByte_memPut_other (m : List Host.Cell) {a c : Nat} (b : Byte) (h : c ≠ a) : memByte (memPut m a b) c = memByte m c :=
  SMap.get_put_other memDefault m b h

/-- Bytes written from an address on, read back: those inside, and those outside. -/
theorem memByte_memPutList (m : List Host.Cell) (a c : Nat) (l : List Byte) :
    memByte (memPutList m a l) c = if a ≤ c then (l[c - a]?).getD (memByte m c) else memByte m c := by
  induction l generalizing m a with
  | nil => simp [memPutList]
  | cons b l ih =>
    rw [memPutList, ih]
    by_cases h1 : a ≤ c
    · by_cases h2 : c = a
      · subst h2
        have h3 : ¬ c + 1 ≤ c := by omega
        simp [h3]
      · have h3 : a + 1 ≤ c := by omega
        have h4 : c - a = c - (a + 1) + 1 := by omega
        simp [h1, h3, h4, memByte_memPut_other m b h2]
    · have h2 : ¬ a + 1 ≤ c := by omega
      simp [h1, h2, memByte_memPut_other m b (show c ≠ a by omega)]

end Machine

end Sys2Proof
end

