-- ==== Sys2Proof/Laws/State.lean ====
section
/-! SUPPORT. Sys2Proof/Laws/State.lean: what each update of a state or of a hart leaves as it was, field by field, and what the register operations read back. -/

namespace Sys2Proof.Machine

@[simp] theorem State.onH_h (s : State) (f : Hart → Hart) : (s.onH f).h = f s.h := rfl
@[simp] theorem State.onH_hid (s : State) (f : Hart → Hart) : (s.onH f).hid = s.hid := rfl
@[simp] theorem State.onH_others (s : State) (f : Hart → Hart) : (s.onH f).others = s.others := rfl
@[simp] theorem State.onH_cores (s : State) (f : Hart → Hart) : (s.onH f).cores = s.cores := rfl
@[simp] theorem State.onH_mem (s : State) (f : Hart → Hart) : (s.onH f).mem = s.mem := rfl
@[simp] theorem State.onH_log (s : State) (f : Hart → Hart) : (s.onH f).log = s.log := rfl
@[simp] theorem State.onH_nextWid (s : State) (f : Hart → Hart) : (s.onH f).nextWid = s.nextWid := rfl
@[simp] theorem State.onH_tickets (s : State) (f : Hart → Hart) : (s.onH f).tickets = s.tickets := rfl
@[simp] theorem State.onH_bufs (s : State) (f : Hart → Hart) : (s.onH f).bufs = s.bufs := rfl
@[simp] theorem State.onH_poison (s : State) (f : Hart → Hart) : (s.onH f).poison = s.poison := rfl
@[simp] theorem State.onH_corrected (s : State) (f : Hart → Hart) : (s.onH f).corrected = s.corrected := rfl
@[simp] theorem State.onH_gated (s : State) (f : Hart → Hart) : (s.onH f).gated = s.gated := rfl
@[simp] theorem State.onH_waking (s : State) (f : Hart → Hart) : (s.onH f).waking = s.waking := rfl
@[simp] theorem State.onH_devId (s : State) (f : Hart → Hart) : (s.onH f).devId = s.devId := rfl
@[simp] theorem State.onH_slots (s : State) (f : Hart → Hart) : (s.onH f).slots = s.slots := rfl
@[simp] theorem State.onH_inbox (s : State) (f : Hart → Hart) : (s.onH f).inbox = s.inbox := rfl
@[simp] theorem State.onH_sends (s : State) (f : Hart → Hart) : (s.onH f).sends = s.sends := rfl
@[simp] theorem State.onH_rings (s : State) (f : Hart → Hart) : (s.onH f).rings = s.rings := rfl
@[simp] theorem State.onH_unitOut (s : State) (f : Hart → Hart) : (s.onH f).unitOut = s.unitOut := rfl
@[simp] theorem State.onH_made (s : State) (f : Hart → Hart) : (s.onH f).made = s.made := rfl
@[simp] theorem State.onH_outbox (s : State) (f : Hart → Hart) : (s.onH f).outbox = s.outbox := rfl
@[simp] theorem State.onH_early (s : State) (f : Hart → Hart) : (s.onH f).early = s.early := rfl
@[simp] theorem State.onH_drops (s : State) (f : Hart → Hart) : (s.onH f).drops = s.drops := rfl
@[simp] theorem State.onH_discards (s : State) (f : Hart → Hart) : (s.onH f).discards = s.discards := rfl
@[simp] theorem State.onH_rreads (s : State) (f : Hart → Hart) : (s.onH f).rreads = s.rreads := rfl
@[simp] theorem State.onH_nextRid (s : State) (f : Hart → Hart) : (s.onH f).nextRid = s.nextRid := rfl
@[simp] theorem State.onH_buckets (s : State) (f : Hart → Hart) : (s.onH f).buckets = s.buckets := rfl
@[simp] theorem State.onH_sentStrips (s : State) (f : Hart → Hart) : (s.onH f).sentStrips = s.sentStrips := rfl
@[simp] theorem State.onH_inStrips (s : State) (f : Hart → Hart) : (s.onH f).inStrips = s.inStrips := rfl
@[simp] theorem State.onH_engines (s : State) (f : Hart → Hart) : (s.onH f).engines = s.engines := rfl
@[simp] theorem State.onH_eng (s : State) (f : Hart → Hart) : (s.onH f).eng = s.eng := rfl
@[simp] theorem State.onH_stepno (s : State) (f : Hart → Hart) : (s.onH f).stepno = s.stepno := rfl
@[simp] theorem State.onH_ctls (s : State) (f : Hart → Hart) : (s.onH f).ctls = s.ctls := rfl
@[simp] theorem State.onH_kernels (s : State) (f : Hart → Hart) : (s.onH f).kernels = s.kernels := rfl
@[simp] theorem State.onH_transfers (s : State) (f : Hart → Hart) : (s.onH f).transfers = s.transfers := rfl
@[simp] theorem State.onH_nextXfer (s : State) (f : Hart → Hart) : (s.onH f).nextXfer = s.nextXfer := rfl
@[simp] theorem State.onH_tiers (s : State) (f : Hart → Hart) : (s.onH f).tiers = s.tiers := rfl
@[simp] theorem State.onH_parts (s : State) (f : Hart → Hart) : (s.onH f).parts = s.parts := rfl
@[simp] theorem State.onH_timebase (s : State) (f : Hart → Hart) : (s.onH f).timebase = s.timebase := rfl
@[simp] theorem State.onH_now (s : State) (f : Hart → Hart) : (s.onH f).now = s.now := rfl
@[simp] theorem State.onH_lag (s : State) (f : Hart → Hart) : (s.onH f).lag = s.lag := rfl
@[simp] theorem State.onH_pwrlim (s : State) (f : Hart → Hart) : (s.onH f).pwrlim = s.pwrlim := rfl
@[simp] theorem State.onH_wdkick (s : State) (f : Hart → Hart) : (s.onH f).wdkick = s.wdkick := rfl
@[simp] theorem State.onH_bootstat (s : State) (f : Hart → Hart) : (s.onH f).bootstat = s.bootstat := rfl
@[simp] theorem State.onH_wdcause (s : State) (f : Hart → Hart) : (s.onH f).wdcause = s.wdcause := rfl
@[simp] theorem State.onH_seals (s : State) (f : Hart → Hart) : (s.onH f).seals = s.seals := rfl
@[simp] theorem State.onH_meas (s : State) (f : Hart → Hart) : (s.onH f).meas = s.meas := rfl
@[simp] theorem State.onH_measOpen (s : State) (f : Hart → Hart) : (s.onH f).measOpen = s.measOpen := rfl
@[simp] theorem State.onH_attreq (s : State) (f : Hart → Hart) : (s.onH f).attreq = s.attreq := rfl
@[simp] theorem State.onH_attdone (s : State) (f : Hart → Hart) : (s.onH f).attdone = s.attdone := rfl
@[simp] theorem State.onH_attrep (s : State) (f : Hart → Hart) : (s.onH f).attrep = s.attrep := rfl
@[simp] theorem State.onH_belfry (s : State) (f : Hart → Hart) : (s.onH f).belfry = s.belfry := rfl
@[simp] theorem State.onH_bsram (s : State) (f : Hart → Hart) : (s.onH f).bsram = s.bsram := rfl
@[simp] theorem State.onH_fwdata (s : State) (f : Hart → Hart) : (s.onH f).fwdata = s.fwdata := rfl
@[simp] theorem State.onH_errs (s : State) (f : Hart → Hart) : (s.onH f).errs = s.errs := rfl
@[simp] theorem State.onH_hostSaid (s : State) (f : Hart → Hart) : (s.onH f).hostSaid = s.hostSaid := rfl
@[simp] theorem State.onH_belfrySaid (s : State) (f : Hart → Hart) : (s.onH f).belfrySaid = s.belfrySaid := rfl
@[simp] theorem State.onH_errhead (s : State) (f : Hart → Hart) : (s.onH f).errhead = s.errhead := rfl
@[simp] theorem State.onH_errcorr (s : State) (f : Hart → Hart) : (s.onH f).errcorr = s.errcorr := rfl
@[simp] theorem State.onH_fresh (s : State) (f : Hart → Hart) : (s.onH f).fresh = s.fresh := rfl
@[simp] theorem State.onH_agenda (s : State) (f : Hart → Hart) : (s.onH f).agenda = s.agenda := rfl
@[simp] theorem State.onH_bound (s : State) (f : Hart → Hart) : (s.onH f).bound = s.bound := rfl
@[simp] theorem State.tick_now (s : State) (n : Nat) : (s.tick n).now = s.now + n := rfl
@[simp] theorem State.tick_fresh (s : State) (n : Nat) : (s.tick n).fresh = s.fresh + 1 := rfl
@[simp] theorem State.tick_h (s : State) (n : Nat) : (s.tick n).h = s.h := rfl
@[simp] theorem State.tick_hid (s : State) (n : Nat) : (s.tick n).hid = s.hid := rfl
@[simp] theorem State.tick_others (s : State) (n : Nat) : (s.tick n).others = s.others := rfl
@[simp] theorem State.tick_cores (s : State) (n : Nat) : (s.tick n).cores = s.cores := rfl
@[simp] theorem State.tick_mem (s : State) (n : Nat) : (s.tick n).mem = s.mem := rfl
@[simp] theorem State.tick_log (s : State) (n : Nat) : (s.tick n).log = s.log := rfl
@[simp] theorem State.tick_nextWid (s : State) (n : Nat) : (s.tick n).nextWid = s.nextWid := rfl
@[simp] theorem State.tick_tickets (s : State) (n : Nat) : (s.tick n).tickets = s.tickets := rfl
@[simp] theorem State.tick_bufs (s : State) (n : Nat) : (s.tick n).bufs = s.bufs := rfl
@[simp] theorem State.tick_poison (s : State) (n : Nat) : (s.tick n).poison = s.poison := rfl
@[simp] theorem State.tick_corrected (s : State) (n : Nat) : (s.tick n).corrected = s.corrected := rfl
@[simp] theorem State.tick_gated (s : State) (n : Nat) : (s.tick n).gated = s.gated := rfl
@[simp] theorem State.tick_waking (s : State) (n : Nat) : (s.tick n).waking = s.waking := rfl
@[simp] theorem State.tick_devId (s : State) (n : Nat) : (s.tick n).devId = s.devId := rfl
@[simp] theorem State.tick_slots (s : State) (n : Nat) : (s.tick n).slots = s.slots := rfl
@[simp] theorem State.tick_inbox (s : State) (n : Nat) : (s.tick n).inbox = s.inbox := rfl
@[simp] theorem State.tick_sends (s : State) (n : Nat) : (s.tick n).sends = s.sends := rfl
@[simp] theorem State.tick_rings (s : State) (n : Nat) : (s.tick n).rings = s.rings := rfl
@[simp] theorem State.tick_unitOut (s : State) (n : Nat) : (s.tick n).unitOut = s.unitOut := rfl
@[simp] theorem State.tick_made (s : State) (n : Nat) : (s.tick n).made = s.made := rfl
@[simp] theorem State.tick_outbox (s : State) (n : Nat) : (s.tick n).outbox = s.outbox := rfl
@[simp] theorem State.tick_early (s : State) (n : Nat) : (s.tick n).early = s.early := rfl
@[simp] theorem State.tick_drops (s : State) (n : Nat) : (s.tick n).drops = s.drops := rfl
@[simp] theorem State.tick_discards (s : State) (n : Nat) : (s.tick n).discards = s.discards := rfl
@[simp] theorem State.tick_rreads (s : State) (n : Nat) : (s.tick n).rreads = s.rreads := rfl
@[simp] theorem State.tick_nextRid (s : State) (n : Nat) : (s.tick n).nextRid = s.nextRid := rfl
@[simp] theorem State.tick_buckets (s : State) (n : Nat) : (s.tick n).buckets = s.buckets := rfl
@[simp] theorem State.tick_sentStrips (s : State) (n : Nat) : (s.tick n).sentStrips = s.sentStrips := rfl
@[simp] theorem State.tick_inStrips (s : State) (n : Nat) : (s.tick n).inStrips = s.inStrips := rfl
@[simp] theorem State.tick_engines (s : State) (n : Nat) : (s.tick n).engines = s.engines := rfl
@[simp] theorem State.tick_eng (s : State) (n : Nat) : (s.tick n).eng = s.eng := rfl
@[simp] theorem State.tick_stepno (s : State) (n : Nat) : (s.tick n).stepno = s.stepno := rfl
@[simp] theorem State.tick_ctls (s : State) (n : Nat) : (s.tick n).ctls = s.ctls := rfl
@[simp] theorem State.tick_kernels (s : State) (n : Nat) : (s.tick n).kernels = s.kernels := rfl
@[simp] theorem State.tick_transfers (s : State) (n : Nat) : (s.tick n).transfers = s.transfers := rfl
@[simp] theorem State.tick_nextXfer (s : State) (n : Nat) : (s.tick n).nextXfer = s.nextXfer := rfl
@[simp] theorem State.tick_tiers (s : State) (n : Nat) : (s.tick n).tiers = s.tiers := rfl
@[simp] theorem State.tick_parts (s : State) (n : Nat) : (s.tick n).parts = s.parts := rfl
@[simp] theorem State.tick_lag (s : State) (n : Nat) : (s.tick n).lag = s.lag := rfl
@[simp] theorem State.tick_pwrlim (s : State) (n : Nat) : (s.tick n).pwrlim = s.pwrlim := rfl
@[simp] theorem State.tick_wdkick (s : State) (n : Nat) : (s.tick n).wdkick = s.wdkick := rfl
@[simp] theorem State.tick_bootstat (s : State) (n : Nat) : (s.tick n).bootstat = s.bootstat := rfl
@[simp] theorem State.tick_wdcause (s : State) (n : Nat) : (s.tick n).wdcause = s.wdcause := rfl
@[simp] theorem State.tick_seals (s : State) (n : Nat) : (s.tick n).seals = s.seals := rfl
@[simp] theorem State.tick_meas (s : State) (n : Nat) : (s.tick n).meas = s.meas := rfl
@[simp] theorem State.tick_measOpen (s : State) (n : Nat) : (s.tick n).measOpen = s.measOpen := rfl
@[simp] theorem State.tick_attreq (s : State) (n : Nat) : (s.tick n).attreq = s.attreq := rfl
@[simp] theorem State.tick_attdone (s : State) (n : Nat) : (s.tick n).attdone = s.attdone := rfl
@[simp] theorem State.tick_attrep (s : State) (n : Nat) : (s.tick n).attrep = s.attrep := rfl
@[simp] theorem State.tick_belfry (s : State) (n : Nat) : (s.tick n).belfry = s.belfry := rfl
@[simp] theorem State.tick_bsram (s : State) (n : Nat) : (s.tick n).bsram = s.bsram := rfl
@[simp] theorem State.tick_fwdata (s : State) (n : Nat) : (s.tick n).fwdata = s.fwdata := rfl
@[simp] theorem State.tick_errs (s : State) (n : Nat) : (s.tick n).errs = s.errs := rfl
@[simp] theorem State.tick_hostSaid (s : State) (n : Nat) : (s.tick n).hostSaid = s.hostSaid := rfl
@[simp] theorem State.tick_belfrySaid (s : State) (n : Nat) : (s.tick n).belfrySaid = s.belfrySaid := rfl
@[simp] theorem State.tick_errhead (s : State) (n : Nat) : (s.tick n).errhead = s.errhead := rfl
@[simp] theorem State.tick_errcorr (s : State) (n : Nat) : (s.tick n).errcorr = s.errcorr := rfl
@[simp] theorem State.tick_agenda (s : State) (n : Nat) : (s.tick n).agenda = s.agenda := rfl
@[simp] theorem State.tick_bound (s : State) (n : Nat) : (s.tick n).bound = s.bound := rfl
@[simp] theorem State.slow_h (s : State) (n : Nat) : (s.slow n).h = s.h := rfl
@[simp] theorem State.slow_hid (s : State) (n : Nat) : (s.slow n).hid = s.hid := rfl
@[simp] theorem State.slow_others (s : State) (n : Nat) : (s.slow n).others = s.others := rfl
@[simp] theorem State.slow_cores (s : State) (n : Nat) : (s.slow n).cores = s.cores := rfl
@[simp] theorem State.slow_mem (s : State) (n : Nat) : (s.slow n).mem = s.mem := rfl
@[simp] theorem State.slow_log (s : State) (n : Nat) : (s.slow n).log = s.log := rfl
@[simp] theorem State.slow_nextWid (s : State) (n : Nat) : (s.slow n).nextWid = s.nextWid := rfl
@[simp] theorem State.slow_tickets (s : State) (n : Nat) : (s.slow n).tickets = s.tickets := rfl
@[simp] theorem State.slow_bufs (s : State) (n : Nat) : (s.slow n).bufs = s.bufs := rfl
@[simp] theorem State.slow_poison (s : State) (n : Nat) : (s.slow n).poison = s.poison := rfl
@[simp] theorem State.slow_corrected (s : State) (n : Nat) : (s.slow n).corrected = s.corrected := rfl
@[simp] theorem State.slow_gated (s : State) (n : Nat) : (s.slow n).gated = s.gated := rfl
@[simp] theorem State.slow_waking (s : State) (n : Nat) : (s.slow n).waking = s.waking := rfl
@[simp] theorem State.slow_devId (s : State) (n : Nat) : (s.slow n).devId = s.devId := rfl
@[simp] theorem State.slow_slots (s : State) (n : Nat) : (s.slow n).slots = s.slots := rfl
@[simp] theorem State.slow_inbox (s : State) (n : Nat) : (s.slow n).inbox = s.inbox := rfl
@[simp] theorem State.slow_sends (s : State) (n : Nat) : (s.slow n).sends = s.sends := rfl
@[simp] theorem State.slow_rings (s : State) (n : Nat) : (s.slow n).rings = s.rings := rfl
@[simp] theorem State.slow_unitOut (s : State) (n : Nat) : (s.slow n).unitOut = s.unitOut := rfl
@[simp] theorem State.slow_made (s : State) (n : Nat) : (s.slow n).made = s.made := rfl
@[simp] theorem State.slow_outbox (s : State) (n : Nat) : (s.slow n).outbox = s.outbox := rfl
@[simp] theorem State.slow_early (s : State) (n : Nat) : (s.slow n).early = s.early := rfl
@[simp] theorem State.slow_drops (s : State) (n : Nat) : (s.slow n).drops = s.drops := rfl
@[simp] theorem State.slow_discards (s : State) (n : Nat) : (s.slow n).discards = s.discards := rfl
@[simp] theorem State.slow_rreads (s : State) (n : Nat) : (s.slow n).rreads = s.rreads := rfl
@[simp] theorem State.slow_nextRid (s : State) (n : Nat) : (s.slow n).nextRid = s.nextRid := rfl
@[simp] theorem State.slow_buckets (s : State) (n : Nat) : (s.slow n).buckets = s.buckets := rfl
@[simp] theorem State.slow_sentStrips (s : State) (n : Nat) : (s.slow n).sentStrips = s.sentStrips := rfl
@[simp] theorem State.slow_inStrips (s : State) (n : Nat) : (s.slow n).inStrips = s.inStrips := rfl
@[simp] theorem State.slow_engines (s : State) (n : Nat) : (s.slow n).engines = s.engines := rfl
@[simp] theorem State.slow_eng (s : State) (n : Nat) : (s.slow n).eng = s.eng := rfl
@[simp] theorem State.slow_stepno (s : State) (n : Nat) : (s.slow n).stepno = s.stepno := rfl
@[simp] theorem State.slow_ctls (s : State) (n : Nat) : (s.slow n).ctls = s.ctls := rfl
@[simp] theorem State.slow_kernels (s : State) (n : Nat) : (s.slow n).kernels = s.kernels := rfl
@[simp] theorem State.slow_transfers (s : State) (n : Nat) : (s.slow n).transfers = s.transfers := rfl
@[simp] theorem State.slow_nextXfer (s : State) (n : Nat) : (s.slow n).nextXfer = s.nextXfer := rfl
@[simp] theorem State.slow_tiers (s : State) (n : Nat) : (s.slow n).tiers = s.tiers := rfl
@[simp] theorem State.slow_parts (s : State) (n : Nat) : (s.slow n).parts = s.parts := rfl
@[simp] theorem State.slow_now (s : State) (n : Nat) : (s.slow n).now = s.now := rfl
@[simp] theorem State.slow_pwrlim (s : State) (n : Nat) : (s.slow n).pwrlim = s.pwrlim := rfl
@[simp] theorem State.slow_wdkick (s : State) (n : Nat) : (s.slow n).wdkick = s.wdkick := rfl
@[simp] theorem State.slow_bootstat (s : State) (n : Nat) : (s.slow n).bootstat = s.bootstat := rfl
@[simp] theorem State.slow_wdcause (s : State) (n : Nat) : (s.slow n).wdcause = s.wdcause := rfl
@[simp] theorem State.slow_seals (s : State) (n : Nat) : (s.slow n).seals = s.seals := rfl
@[simp] theorem State.slow_meas (s : State) (n : Nat) : (s.slow n).meas = s.meas := rfl
@[simp] theorem State.slow_measOpen (s : State) (n : Nat) : (s.slow n).measOpen = s.measOpen := rfl
@[simp] theorem State.slow_attreq (s : State) (n : Nat) : (s.slow n).attreq = s.attreq := rfl
@[simp] theorem State.slow_attdone (s : State) (n : Nat) : (s.slow n).attdone = s.attdone := rfl
@[simp] theorem State.slow_attrep (s : State) (n : Nat) : (s.slow n).attrep = s.attrep := rfl
@[simp] theorem State.slow_belfry (s : State) (n : Nat) : (s.slow n).belfry = s.belfry := rfl
@[simp] theorem State.slow_bsram (s : State) (n : Nat) : (s.slow n).bsram = s.bsram := rfl
@[simp] theorem State.slow_fwdata (s : State) (n : Nat) : (s.slow n).fwdata = s.fwdata := rfl
@[simp] theorem State.slow_errs (s : State) (n : Nat) : (s.slow n).errs = s.errs := rfl
@[simp] theorem State.slow_hostSaid (s : State) (n : Nat) : (s.slow n).hostSaid = s.hostSaid := rfl
@[simp] theorem State.slow_belfrySaid (s : State) (n : Nat) : (s.slow n).belfrySaid = s.belfrySaid := rfl
@[simp] theorem State.slow_errhead (s : State) (n : Nat) : (s.slow n).errhead = s.errhead := rfl
@[simp] theorem State.slow_errcorr (s : State) (n : Nat) : (s.slow n).errcorr = s.errcorr := rfl
@[simp] theorem State.slow_fresh (s : State) (n : Nat) : (s.slow n).fresh = s.fresh := rfl
@[simp] theorem State.slow_agenda (s : State) (n : Nat) : (s.slow n).agenda = s.agenda := rfl
@[simp] theorem State.slow_bound (s : State) (n : Nat) : (s.slow n).bound = s.bound := rfl
@[simp] theorem State.setPart_h (s : State) (p : Nat) (x : Part) : (s.setPart p x).h = s.h := rfl
@[simp] theorem State.setPart_hid (s : State) (p : Nat) (x : Part) : (s.setPart p x).hid = s.hid := rfl
@[simp] theorem State.setPart_others (s : State) (p : Nat) (x : Part) : (s.setPart p x).others = s.others := rfl
@[simp] theorem State.setPart_cores (s : State) (p : Nat) (x : Part) : (s.setPart p x).cores = s.cores := rfl
@[simp] theorem State.setPart_mem (s : State) (p : Nat) (x : Part) : (s.setPart p x).mem = s.mem := rfl
@[simp] theorem State.setPart_log (s : State) (p : Nat) (x : Part) : (s.setPart p x).log = s.log := rfl
@[simp] theorem State.setPart_nextWid (s : State) (p : Nat) (x : Part) : (s.setPart p x).nextWid = s.nextWid := rfl
@[simp] theorem State.setPart_tickets (s : State) (p : Nat) (x : Part) : (s.setPart p x).tickets = s.tickets := rfl
@[simp] theorem State.setPart_bufs (s : State) (p : Nat) (x : Part) : (s.setPart p x).bufs = s.bufs := rfl
@[simp] theorem State.setPart_poison (s : State) (p : Nat) (x : Part) : (s.setPart p x).poison = s.poison := rfl
@[simp] theorem State.setPart_corrected (s : State) (p : Nat) (x : Part) : (s.setPart p x).corrected = s.corrected := rfl
@[simp] theorem State.setPart_gated (s : State) (p : Nat) (x : Part) : (s.setPart p x).gated = s.gated := rfl
@[simp] theorem State.setPart_waking (s : State) (p : Nat) (x : Part) : (s.setPart p x).waking = s.waking := rfl
@[simp] theorem State.setPart_devId (s : State) (p : Nat) (x : Part) : (s.setPart p x).devId = s.devId := rfl
@[simp] theorem State.setPart_slots (s : State) (p : Nat) (x : Part) : (s.setPart p x).slots = s.slots := rfl
@[simp] theorem State.setPart_inbox (s : State) (p : Nat) (x : Part) : (s.setPart p x).inbox = s.inbox := rfl
@[simp] theorem State.setPart_sends (s : State) (p : Nat) (x : Part) : (s.setPart p x).sends = s.sends := rfl
@[simp] theorem State.setPart_rings (s : State) (p : Nat) (x : Part) : (s.setPart p x).rings = s.rings := rfl
@[simp] theorem State.setPart_unitOut (s : State) (p : Nat) (x : Part) : (s.setPart p x).unitOut = s.unitOut := rfl
@[simp] theorem State.setPart_made (s : State) (p : Nat) (x : Part) : (s.setPart p x).made = s.made := rfl
@[simp] theorem State.setPart_outbox (s : State) (p : Nat) (x : Part) : (s.setPart p x).outbox = s.outbox := rfl
@[simp] theorem State.setPart_early (s : State) (p : Nat) (x : Part) : (s.setPart p x).early = s.early := rfl
@[simp] theorem State.setPart_drops (s : State) (p : Nat) (x : Part) : (s.setPart p x).drops = s.drops := rfl
@[simp] theorem State.setPart_discards (s : State) (p : Nat) (x : Part) : (s.setPart p x).discards = s.discards := rfl
@[simp] theorem State.setPart_rreads (s : State) (p : Nat) (x : Part) : (s.setPart p x).rreads = s.rreads := rfl
@[simp] theorem State.setPart_nextRid (s : State) (p : Nat) (x : Part) : (s.setPart p x).nextRid = s.nextRid := rfl
@[simp] theorem State.setPart_buckets (s : State) (p : Nat) (x : Part) : (s.setPart p x).buckets = s.buckets := rfl
@[simp] theorem State.setPart_sentStrips (s : State) (p : Nat) (x : Part) : (s.setPart p x).sentStrips = s.sentStrips := rfl
@[simp] theorem State.setPart_inStrips (s : State) (p : Nat) (x : Part) : (s.setPart p x).inStrips = s.inStrips := rfl
@[simp] theorem State.setPart_engines (s : State) (p : Nat) (x : Part) : (s.setPart p x).engines = s.engines := rfl
@[simp] theorem State.setPart_eng (s : State) (p : Nat) (x : Part) : (s.setPart p x).eng = s.eng := rfl
@[simp] theorem State.setPart_stepno (s : State) (p : Nat) (x : Part) : (s.setPart p x).stepno = s.stepno := rfl
@[simp] theorem State.setPart_ctls (s : State) (p : Nat) (x : Part) : (s.setPart p x).ctls = s.ctls := rfl
@[simp] theorem State.setPart_kernels (s : State) (p : Nat) (x : Part) : (s.setPart p x).kernels = s.kernels := rfl
@[simp] theorem State.setPart_transfers (s : State) (p : Nat) (x : Part) : (s.setPart p x).transfers = s.transfers := rfl
@[simp] theorem State.setPart_nextXfer (s : State) (p : Nat) (x : Part) : (s.setPart p x).nextXfer = s.nextXfer := rfl
@[simp] theorem State.setPart_tiers (s : State) (p : Nat) (x : Part) : (s.setPart p x).tiers = s.tiers := rfl
@[simp] theorem State.setPart_timebase (s : State) (p : Nat) (x : Part) : (s.setPart p x).timebase = s.timebase := rfl
@[simp] theorem State.setPart_now (s : State) (p : Nat) (x : Part) : (s.setPart p x).now = s.now := rfl
@[simp] theorem State.setPart_lag (s : State) (p : Nat) (x : Part) : (s.setPart p x).lag = s.lag := rfl
@[simp] theorem State.setPart_pwrlim (s : State) (p : Nat) (x : Part) : (s.setPart p x).pwrlim = s.pwrlim := rfl
@[simp] theorem State.setPart_wdkick (s : State) (p : Nat) (x : Part) : (s.setPart p x).wdkick = s.wdkick := rfl
@[simp] theorem State.setPart_bootstat (s : State) (p : Nat) (x : Part) : (s.setPart p x).bootstat = s.bootstat := rfl
@[simp] theorem State.setPart_wdcause (s : State) (p : Nat) (x : Part) : (s.setPart p x).wdcause = s.wdcause := rfl
@[simp] theorem State.setPart_seals (s : State) (p : Nat) (x : Part) : (s.setPart p x).seals = s.seals := rfl
@[simp] theorem State.setPart_meas (s : State) (p : Nat) (x : Part) : (s.setPart p x).meas = s.meas := rfl
@[simp] theorem State.setPart_measOpen (s : State) (p : Nat) (x : Part) : (s.setPart p x).measOpen = s.measOpen := rfl
@[simp] theorem State.setPart_attreq (s : State) (p : Nat) (x : Part) : (s.setPart p x).attreq = s.attreq := rfl
@[simp] theorem State.setPart_attdone (s : State) (p : Nat) (x : Part) : (s.setPart p x).attdone = s.attdone := rfl
@[simp] theorem State.setPart_attrep (s : State) (p : Nat) (x : Part) : (s.setPart p x).attrep = s.attrep := rfl
@[simp] theorem State.setPart_belfry (s : State) (p : Nat) (x : Part) : (s.setPart p x).belfry = s.belfry := rfl
@[simp] theorem State.setPart_bsram (s : State) (p : Nat) (x : Part) : (s.setPart p x).bsram = s.bsram := rfl
@[simp] theorem State.setPart_fwdata (s : State) (p : Nat) (x : Part) : (s.setPart p x).fwdata = s.fwdata := rfl
@[simp] theorem State.setPart_errs (s : State) (p : Nat) (x : Part) : (s.setPart p x).errs = s.errs := rfl
@[simp] theorem State.setPart_hostSaid (s : State) (p : Nat) (x : Part) : (s.setPart p x).hostSaid = s.hostSaid := rfl
@[simp] theorem State.setPart_belfrySaid (s : State) (p : Nat) (x : Part) : (s.setPart p x).belfrySaid = s.belfrySaid := rfl
@[simp] theorem State.setPart_errhead (s : State) (p : Nat) (x : Part) : (s.setPart p x).errhead = s.errhead := rfl
@[simp] theorem State.setPart_errcorr (s : State) (p : Nat) (x : Part) : (s.setPart p x).errcorr = s.errcorr := rfl
@[simp] theorem State.setPart_fresh (s : State) (p : Nat) (x : Part) : (s.setPart p x).fresh = s.fresh := rfl
@[simp] theorem State.setPart_agenda (s : State) (p : Nat) (x : Part) : (s.setPart p x).agenda = s.agenda := rfl
@[simp] theorem State.setPart_bound (s : State) (p : Nat) (x : Part) : (s.setPart p x).bound = s.bound := rfl
@[simp] theorem State.setEngine_h (s : State) (e : Nat) (x : Engine) : (s.setEngine e x).h = s.h := rfl
@[simp] theorem State.setEngine_hid (s : State) (e : Nat) (x : Engine) : (s.setEngine e x).hid = s.hid := rfl
@[simp] theorem State.setEngine_others (s : State) (e : Nat) (x : Engine) : (s.setEngine e x).others = s.others := rfl
@[simp] theorem State.setEngine_cores (s : State) (e : Nat) (x : Engine) : (s.setEngine e x).cores = s.cores := rfl
@[simp] theorem State.setEngine_mem (s : State) (e : Nat) (x : Engine) : (s.setEngine e x).mem = s.mem := rfl
@[simp] theorem State.setEngine_log (s : State) (e : Nat) (x : Engine) : (s.setEngine e x).log = s.log := rfl
@[simp] theorem State.setEngine_nextWid (s : State) (e : Nat) (x : Engine) : (s.setEngine e x).nextWid = s.nextWid := rfl
@[simp] theorem State.setEngine_tickets (s : State) (e : Nat) (x : Engine) : (s.setEngine e x).tickets = s.tickets := rfl
@[simp] theorem State.setEngine_bufs (s : State) (e : Nat) (x : Engine) : (s.setEngine e x).bufs = s.bufs := rfl
@[simp] theorem State.setEngine_poison (s : State) (e : Nat) (x : Engine) : (s.setEngine e x).poison = s.poison := rfl
@[simp] theorem State.setEngine_corrected (s : State) (e : Nat) (x : Engine) : (s.setEngine e x).corrected = s.corrected := rfl
@[simp] theorem State.setEngine_gated (s : State) (e : Nat) (x : Engine) : (s.setEngine e x).gated = s.gated := rfl
@[simp] theorem State.setEngine_waking (s : State) (e : Nat) (x : Engine) : (s.setEngine e x).waking = s.waking := rfl
@[simp] theorem State.setEngine_devId (s : State) (e : Nat) (x : Engine) : (s.setEngine e x).devId = s.devId := rfl
@[simp] theorem State.setEngine_slots (s : State) (e : Nat) (x : Engine) : (s.setEngine e x).slots = s.slots := rfl
@[simp] theorem State.setEngine_inbox (s : State) (e : Nat) (x : Engine) : (s.setEngine e x).inbox = s.inbox := rfl
@[simp] theorem State.setEngine_sends (s : State) (e : Nat) (x : Engine) : (s.setEngine e x).sends = s.sends := rfl
@[simp] theorem State.setEngine_rings (s : State) (e : Nat) (x : Engine) : (s.setEngine e x).rings = s.rings := rfl
@[simp] theorem State.setEngine_unitOut (s : State) (e : Nat) (x : Engine) : (s.setEngine e x).unitOut = s.unitOut := rfl
@[simp] theorem State.setEngine_made (s : State) (e : Nat) (x : Engine) : (s.setEngine e x).made = s.made := rfl
@[simp] theorem State.setEngine_outbox (s : State) (e : Nat) (x : Engine) : (s.setEngine e x).outbox = s.outbox := rfl
@[simp] theorem State.setEngine_early (s : State) (e : Nat) (x : Engine) : (s.setEngine e x).early = s.early := rfl
@[simp] theorem State.setEngine_drops (s : State) (e : Nat) (x : Engine) : (s.setEngine e x).drops = s.drops := rfl
@[simp] theorem State.setEngine_discards (s : State) (e : Nat) (x : Engine) : (s.setEngine e x).discards = s.discards := rfl
@[simp] theorem State.setEngine_rreads (s : State) (e : Nat) (x : Engine) : (s.setEngine e x).rreads = s.rreads := rfl
@[simp] theorem State.setEngine_nextRid (s : State) (e : Nat) (x : Engine) : (s.setEngine e x).nextRid = s.nextRid := rfl
@[simp] theorem State.setEngine_buckets (s : State) (e : Nat) (x : Engine) : (s.setEngine e x).buckets = s.buckets := rfl
@[simp] theorem State.setEngine_sentStrips (s : State) (e : Nat) (x : Engine) : (s.setEngine e x).sentStrips = s.sentStrips := rfl
@[simp] theorem State.setEngine_inStrips (s : State) (e : Nat) (x : Engine) : (s.setEngine e x).inStrips = s.inStrips := rfl
@[simp] theorem State.setEngine_eng (s : State) (e : Nat) (x : Engine) : (s.setEngine e x).eng = s.eng := rfl
@[simp] theorem State.setEngine_stepno (s : State) (e : Nat) (x : Engine) : (s.setEngine e x).stepno = s.stepno := rfl
@[simp] theorem State.setEngine_ctls (s : State) (e : Nat) (x : Engine) : (s.setEngine e x).ctls = s.ctls := rfl
@[simp] theorem State.setEngine_kernels (s : State) (e : Nat) (x : Engine) : (s.setEngine e x).kernels = s.kernels := rfl
@[simp] theorem State.setEngine_transfers (s : State) (e : Nat) (x : Engine) : (s.setEngine e x).transfers = s.transfers := rfl
@[simp] theorem State.setEngine_nextXfer (s : State) (e : Nat) (x : Engine) : (s.setEngine e x).nextXfer = s.nextXfer := rfl
@[simp] theorem State.setEngine_tiers (s : State) (e : Nat) (x : Engine) : (s.setEngine e x).tiers = s.tiers := rfl
@[simp] theorem State.setEngine_parts (s : State) (e : Nat) (x : Engine) : (s.setEngine e x).parts = s.parts := rfl
@[simp] theorem State.setEngine_timebase (s : State) (e : Nat) (x : Engine) : (s.setEngine e x).timebase = s.timebase := rfl
@[simp] theorem State.setEngine_now (s : State) (e : Nat) (x : Engine) : (s.setEngine e x).now = s.now := rfl
@[simp] theorem State.setEngine_lag (s : State) (e : Nat) (x : Engine) : (s.setEngine e x).lag = s.lag := rfl
@[simp] theorem State.setEngine_pwrlim (s : State) (e : Nat) (x : Engine) : (s.setEngine e x).pwrlim = s.pwrlim := rfl
@[simp] theorem State.setEngine_wdkick (s : State) (e : Nat) (x : Engine) : (s.setEngine e x).wdkick = s.wdkick := rfl
@[simp] theorem State.setEngine_bootstat (s : State) (e : Nat) (x : Engine) : (s.setEngine e x).bootstat = s.bootstat := rfl
@[simp] theorem State.setEngine_wdcause (s : State) (e : Nat) (x : Engine) : (s.setEngine e x).wdcause = s.wdcause := rfl
@[simp] theorem State.setEngine_seals (s : State) (e : Nat) (x : Engine) : (s.setEngine e x).seals = s.seals := rfl
@[simp] theorem State.setEngine_meas (s : State) (e : Nat) (x : Engine) : (s.setEngine e x).meas = s.meas := rfl
@[simp] theorem State.setEngine_measOpen (s : State) (e : Nat) (x : Engine) : (s.setEngine e x).measOpen = s.measOpen := rfl
@[simp] theorem State.setEngine_attreq (s : State) (e : Nat) (x : Engine) : (s.setEngine e x).attreq = s.attreq := rfl
@[simp] theorem State.setEngine_attdone (s : State) (e : Nat) (x : Engine) : (s.setEngine e x).attdone = s.attdone := rfl
@[simp] theorem State.setEngine_attrep (s : State) (e : Nat) (x : Engine) : (s.setEngine e x).attrep = s.attrep := rfl
@[simp] theorem State.setEngine_belfry (s : State) (e : Nat) (x : Engine) : (s.setEngine e x).belfry = s.belfry := rfl
@[simp] theorem State.setEngine_bsram (s : State) (e : Nat) (x : Engine) : (s.setEngine e x).bsram = s.bsram := rfl
@[simp] theorem State.setEngine_fwdata (s : State) (e : Nat) (x : Engine) : (s.setEngine e x).fwdata = s.fwdata := rfl
@[simp] theorem State.setEngine_errs (s : State) (e : Nat) (x : Engine) : (s.setEngine e x).errs = s.errs := rfl
@[simp] theorem State.setEngine_hostSaid (s : State) (e : Nat) (x : Engine) : (s.setEngine e x).hostSaid = s.hostSaid := rfl
@[simp] theorem State.setEngine_belfrySaid (s : State) (e : Nat) (x : Engine) : (s.setEngine e x).belfrySaid = s.belfrySaid := rfl
@[simp] theorem State.setEngine_errhead (s : State) (e : Nat) (x : Engine) : (s.setEngine e x).errhead = s.errhead := rfl
@[simp] theorem State.setEngine_errcorr (s : State) (e : Nat) (x : Engine) : (s.setEngine e x).errcorr = s.errcorr := rfl
@[simp] theorem State.setEngine_fresh (s : State) (e : Nat) (x : Engine) : (s.setEngine e x).fresh = s.fresh := rfl
@[simp] theorem State.setEngine_agenda (s : State) (e : Nat) (x : Engine) : (s.setEngine e x).agenda = s.agenda := rfl
@[simp] theorem State.setEngine_bound (s : State) (e : Nat) (x : Engine) : (s.setEngine e x).bound = s.bound := rfl
@[simp] theorem State.enqueue_h_sq (s : State) (l : List Access) : (s.enqueue l).h.sq = s.h.sq ++ l := rfl
@[simp] theorem State.enqueue_hid (s : State) (l : List Access) : (s.enqueue l).hid = s.hid := rfl
@[simp] theorem State.enqueue_others (s : State) (l : List Access) : (s.enqueue l).others = s.others := rfl
@[simp] theorem State.enqueue_cores (s : State) (l : List Access) : (s.enqueue l).cores = s.cores := rfl
@[simp] theorem State.enqueue_mem (s : State) (l : List Access) : (s.enqueue l).mem = s.mem := rfl
@[simp] theorem State.enqueue_log (s : State) (l : List Access) : (s.enqueue l).log = s.log := rfl
@[simp] theorem State.enqueue_nextWid (s : State) (l : List Access) : (s.enqueue l).nextWid = s.nextWid := rfl
@[simp] theorem State.enqueue_tickets (s : State) (l : List Access) : (s.enqueue l).tickets = s.tickets := rfl
@[simp] theorem State.enqueue_bufs (s : State) (l : List Access) : (s.enqueue l).bufs = s.bufs := rfl
@[simp] theorem State.enqueue_poison (s : State) (l : List Access) : (s.enqueue l).poison = s.poison := rfl
@[simp] theorem State.enqueue_corrected (s : State) (l : List Access) : (s.enqueue l).corrected = s.corrected := rfl
@[simp] theorem State.enqueue_gated (s : State) (l : List Access) : (s.enqueue l).gated = s.gated := rfl
@[simp] theorem State.enqueue_waking (s : State) (l : List Access) : (s.enqueue l).waking = s.waking := rfl
@[simp] theorem State.enqueue_devId (s : State) (l : List Access) : (s.enqueue l).devId = s.devId := rfl
@[simp] theorem State.enqueue_slots (s : State) (l : List Access) : (s.enqueue l).slots = s.slots := rfl
@[simp] theorem State.enqueue_inbox (s : State) (l : List Access) : (s.enqueue l).inbox = s.inbox := rfl
@[simp] theorem State.enqueue_sends (s : State) (l : List Access) : (s.enqueue l).sends = s.sends := rfl
@[simp] theorem State.enqueue_rings (s : State) (l : List Access) : (s.enqueue l).rings = s.rings := rfl
@[simp] theorem State.enqueue_unitOut (s : State) (l : List Access) : (s.enqueue l).unitOut = s.unitOut := rfl
@[simp] theorem State.enqueue_made (s : State) (l : List Access) : (s.enqueue l).made = s.made := rfl
@[simp] theorem State.enqueue_outbox (s : State) (l : List Access) : (s.enqueue l).outbox = s.outbox := rfl
@[simp] theorem State.enqueue_early (s : State) (l : List Access) : (s.enqueue l).early = s.early := rfl
@[simp] theorem State.enqueue_drops (s : State) (l : List Access) : (s.enqueue l).drops = s.drops := rfl
@[simp] theorem State.enqueue_discards (s : State) (l : List Access) : (s.enqueue l).discards = s.discards := rfl
@[simp] theorem State.enqueue_rreads (s : State) (l : List Access) : (s.enqueue l).rreads = s.rreads := rfl
@[simp] theorem State.enqueue_nextRid (s : State) (l : List Access) : (s.enqueue l).nextRid = s.nextRid := rfl
@[simp] theorem State.enqueue_buckets (s : State) (l : List Access) : (s.enqueue l).buckets = s.buckets := rfl
@[simp] theorem State.enqueue_sentStrips (s : State) (l : List Access) : (s.enqueue l).sentStrips = s.sentStrips := rfl
@[simp] theorem State.enqueue_inStrips (s : State) (l : List Access) : (s.enqueue l).inStrips = s.inStrips := rfl
@[simp] theorem State.enqueue_engines (s : State) (l : List Access) : (s.enqueue l).engines = s.engines := rfl
@[simp] theorem State.enqueue_eng (s : State) (l : List Access) : (s.enqueue l).eng = s.eng := rfl
@[simp] theorem State.enqueue_stepno (s : State) (l : List Access) : (s.enqueue l).stepno = s.stepno := rfl
@[simp] theorem State.enqueue_ctls (s : State) (l : List Access) : (s.enqueue l).ctls = s.ctls := rfl
@[simp] theorem State.enqueue_kernels (s : State) (l : List Access) : (s.enqueue l).kernels = s.kernels := rfl
@[simp] theorem State.enqueue_transfers (s : State) (l : List Access) : (s.enqueue l).transfers = s.transfers := rfl
@[simp] theorem State.enqueue_nextXfer (s : State) (l : List Access) : (s.enqueue l).nextXfer = s.nextXfer := rfl
@[simp] theorem State.enqueue_tiers (s : State) (l : List Access) : (s.enqueue l).tiers = s.tiers := rfl
@[simp] theorem State.enqueue_parts (s : State) (l : List Access) : (s.enqueue l).parts = s.parts := rfl
@[simp] theorem State.enqueue_timebase (s : State) (l : List Access) : (s.enqueue l).timebase = s.timebase := rfl
@[simp] theorem State.enqueue_now (s : State) (l : List Access) : (s.enqueue l).now = s.now := rfl
@[simp] theorem State.enqueue_lag (s : State) (l : List Access) : (s.enqueue l).lag = s.lag := rfl
@[simp] theorem State.enqueue_pwrlim (s : State) (l : List Access) : (s.enqueue l).pwrlim = s.pwrlim := rfl
@[simp] theorem State.enqueue_wdkick (s : State) (l : List Access) : (s.enqueue l).wdkick = s.wdkick := rfl
@[simp] theorem State.enqueue_bootstat (s : State) (l : List Access) : (s.enqueue l).bootstat = s.bootstat := rfl
@[simp] theorem State.enqueue_wdcause (s : State) (l : List Access) : (s.enqueue l).wdcause = s.wdcause := rfl
@[simp] theorem State.enqueue_seals (s : State) (l : List Access) : (s.enqueue l).seals = s.seals := rfl
@[simp] theorem State.enqueue_meas (s : State) (l : List Access) : (s.enqueue l).meas = s.meas := rfl
@[simp] theorem State.enqueue_measOpen (s : State) (l : List Access) : (s.enqueue l).measOpen = s.measOpen := rfl
@[simp] theorem State.enqueue_attreq (s : State) (l : List Access) : (s.enqueue l).attreq = s.attreq := rfl
@[simp] theorem State.enqueue_attdone (s : State) (l : List Access) : (s.enqueue l).attdone = s.attdone := rfl
@[simp] theorem State.enqueue_attrep (s : State) (l : List Access) : (s.enqueue l).attrep = s.attrep := rfl
@[simp] theorem State.enqueue_belfry (s : State) (l : List Access) : (s.enqueue l).belfry = s.belfry := rfl
@[simp] theorem State.enqueue_bsram (s : State) (l : List Access) : (s.enqueue l).bsram = s.bsram := rfl
@[simp] theorem State.enqueue_fwdata (s : State) (l : List Access) : (s.enqueue l).fwdata = s.fwdata := rfl
@[simp] theorem State.enqueue_errs (s : State) (l : List Access) : (s.enqueue l).errs = s.errs := rfl
@[simp] theorem State.enqueue_hostSaid (s : State) (l : List Access) : (s.enqueue l).hostSaid = s.hostSaid := rfl
@[simp] theorem State.enqueue_belfrySaid (s : State) (l : List Access) : (s.enqueue l).belfrySaid = s.belfrySaid := rfl
@[simp] theorem State.enqueue_errhead (s : State) (l : List Access) : (s.enqueue l).errhead = s.errhead := rfl
@[simp] theorem State.enqueue_errcorr (s : State) (l : List Access) : (s.enqueue l).errcorr = s.errcorr := rfl
@[simp] theorem State.enqueue_fresh (s : State) (l : List Access) : (s.enqueue l).fresh = s.fresh := rfl
@[simp] theorem State.enqueue_agenda (s : State) (l : List Access) : (s.enqueue l).agenda = s.agenda := rfl
@[simp] theorem State.enqueue_bound (s : State) (l : List Access) : (s.enqueue l).bound = s.bound := rfl
@[simp] theorem State.retire_hid (s : State) (n : Nat) : (s.retire n).hid = s.hid := rfl
@[simp] theorem State.retire_others (s : State) (n : Nat) : (s.retire n).others = s.others := rfl
@[simp] theorem State.retire_cores (s : State) (n : Nat) : (s.retire n).cores = s.cores := rfl
@[simp] theorem State.retire_mem (s : State) (n : Nat) : (s.retire n).mem = s.mem := rfl
@[simp] theorem State.retire_log (s : State) (n : Nat) : (s.retire n).log = s.log := rfl
@[simp] theorem State.retire_nextWid (s : State) (n : Nat) : (s.retire n).nextWid = s.nextWid := rfl
@[simp] theorem State.retire_tickets (s : State) (n : Nat) : (s.retire n).tickets = s.tickets := rfl
@[simp] theorem State.retire_bufs (s : State) (n : Nat) : (s.retire n).bufs = s.bufs := rfl
@[simp] theorem State.retire_poison (s : State) (n : Nat) : (s.retire n).poison = s.poison := rfl
@[simp] theorem State.retire_corrected (s : State) (n : Nat) : (s.retire n).corrected = s.corrected := rfl
@[simp] theorem State.retire_gated (s : State) (n : Nat) : (s.retire n).gated = s.gated := rfl
@[simp] theorem State.retire_waking (s : State) (n : Nat) : (s.retire n).waking = s.waking := rfl
@[simp] theorem State.retire_devId (s : State) (n : Nat) : (s.retire n).devId = s.devId := rfl
@[simp] theorem State.retire_slots (s : State) (n : Nat) : (s.retire n).slots = s.slots := rfl
@[simp] theorem State.retire_inbox (s : State) (n : Nat) : (s.retire n).inbox = s.inbox := rfl
@[simp] theorem State.retire_sends (s : State) (n : Nat) : (s.retire n).sends = s.sends := rfl
@[simp] theorem State.retire_rings (s : State) (n : Nat) : (s.retire n).rings = s.rings := rfl
@[simp] theorem State.retire_unitOut (s : State) (n : Nat) : (s.retire n).unitOut = s.unitOut := rfl
@[simp] theorem State.retire_made (s : State) (n : Nat) : (s.retire n).made = s.made := rfl
@[simp] theorem State.retire_outbox (s : State) (n : Nat) : (s.retire n).outbox = s.outbox := rfl
@[simp] theorem State.retire_early (s : State) (n : Nat) : (s.retire n).early = s.early := rfl
@[simp] theorem State.retire_drops (s : State) (n : Nat) : (s.retire n).drops = s.drops := rfl
@[simp] theorem State.retire_discards (s : State) (n : Nat) : (s.retire n).discards = s.discards := rfl
@[simp] theorem State.retire_rreads (s : State) (n : Nat) : (s.retire n).rreads = s.rreads := rfl
@[simp] theorem State.retire_nextRid (s : State) (n : Nat) : (s.retire n).nextRid = s.nextRid := rfl
@[simp] theorem State.retire_buckets (s : State) (n : Nat) : (s.retire n).buckets = s.buckets := rfl
@[simp] theorem State.retire_sentStrips (s : State) (n : Nat) : (s.retire n).sentStrips = s.sentStrips := rfl
@[simp] theorem State.retire_inStrips (s : State) (n : Nat) : (s.retire n).inStrips = s.inStrips := rfl
@[simp] theorem State.retire_engines (s : State) (n : Nat) : (s.retire n).engines = s.engines := rfl
@[simp] theorem State.retire_eng (s : State) (n : Nat) : (s.retire n).eng = s.eng := rfl
@[simp] theorem State.retire_stepno (s : State) (n : Nat) : (s.retire n).stepno = s.stepno := rfl
@[simp] theorem State.retire_ctls (s : State) (n : Nat) : (s.retire n).ctls = s.ctls := rfl
@[simp] theorem State.retire_kernels (s : State) (n : Nat) : (s.retire n).kernels = s.kernels := rfl
@[simp] theorem State.retire_transfers (s : State) (n : Nat) : (s.retire n).transfers = s.transfers := rfl
@[simp] theorem State.retire_nextXfer (s : State) (n : Nat) : (s.retire n).nextXfer = s.nextXfer := rfl
@[simp] theorem State.retire_tiers (s : State) (n : Nat) : (s.retire n).tiers = s.tiers := rfl
@[simp] theorem State.retire_parts (s : State) (n : Nat) : (s.retire n).parts = s.parts := rfl
@[simp] theorem State.retire_timebase (s : State) (n : Nat) : (s.retire n).timebase = s.timebase := rfl
@[simp] theorem State.retire_now (s : State) (n : Nat) : (s.retire n).now = s.now := rfl
@[simp] theorem State.retire_lag (s : State) (n : Nat) : (s.retire n).lag = s.lag := rfl
@[simp] theorem State.retire_pwrlim (s : State) (n : Nat) : (s.retire n).pwrlim = s.pwrlim := rfl
@[simp] theorem State.retire_wdkick (s : State) (n : Nat) : (s.retire n).wdkick = s.wdkick := rfl
@[simp] theorem State.retire_bootstat (s : State) (n : Nat) : (s.retire n).bootstat = s.bootstat := rfl
@[simp] theorem State.retire_wdcause (s : State) (n : Nat) : (s.retire n).wdcause = s.wdcause := rfl
@[simp] theorem State.retire_seals (s : State) (n : Nat) : (s.retire n).seals = s.seals := rfl
@[simp] theorem State.retire_meas (s : State) (n : Nat) : (s.retire n).meas = s.meas := rfl
@[simp] theorem State.retire_measOpen (s : State) (n : Nat) : (s.retire n).measOpen = s.measOpen := rfl
@[simp] theorem State.retire_attreq (s : State) (n : Nat) : (s.retire n).attreq = s.attreq := rfl
@[simp] theorem State.retire_attdone (s : State) (n : Nat) : (s.retire n).attdone = s.attdone := rfl
@[simp] theorem State.retire_attrep (s : State) (n : Nat) : (s.retire n).attrep = s.attrep := rfl
@[simp] theorem State.retire_belfry (s : State) (n : Nat) : (s.retire n).belfry = s.belfry := rfl
@[simp] theorem State.retire_bsram (s : State) (n : Nat) : (s.retire n).bsram = s.bsram := rfl
@[simp] theorem State.retire_fwdata (s : State) (n : Nat) : (s.retire n).fwdata = s.fwdata := rfl
@[simp] theorem State.retire_errs (s : State) (n : Nat) : (s.retire n).errs = s.errs := rfl
@[simp] theorem State.retire_hostSaid (s : State) (n : Nat) : (s.retire n).hostSaid = s.hostSaid := rfl
@[simp] theorem State.retire_belfrySaid (s : State) (n : Nat) : (s.retire n).belfrySaid = s.belfrySaid := rfl
@[simp] theorem State.retire_errhead (s : State) (n : Nat) : (s.retire n).errhead = s.errhead := rfl
@[simp] theorem State.retire_errcorr (s : State) (n : Nat) : (s.retire n).errcorr = s.errcorr := rfl
@[simp] theorem State.retire_fresh (s : State) (n : Nat) : (s.retire n).fresh = s.fresh := rfl
@[simp] theorem State.retire_agenda (s : State) (n : Nat) : (s.retire n).agenda = s.agenda := rfl
@[simp] theorem State.retire_bound (s : State) (n : Nat) : (s.retire n).bound = s.bound := rfl
@[simp] theorem State.retireTo_hid (s : State) (a : Word) : (s.retireTo a).hid = s.hid := rfl
@[simp] theorem State.retireTo_others (s : State) (a : Word) : (s.retireTo a).others = s.others := rfl
@[simp] theorem State.retireTo_cores (s : State) (a : Word) : (s.retireTo a).cores = s.cores := rfl
@[simp] theorem State.retireTo_mem (s : State) (a : Word) : (s.retireTo a).mem = s.mem := rfl
@[simp] theorem State.retireTo_log (s : State) (a : Word) : (s.retireTo a).log = s.log := rfl
@[simp] theorem State.retireTo_nextWid (s : State) (a : Word) : (s.retireTo a).nextWid = s.nextWid := rfl
@[simp] theorem State.retireTo_tickets (s : State) (a : Word) : (s.retireTo a).tickets = s.tickets := rfl
@[simp] theorem State.retireTo_bufs (s : State) (a : Word) : (s.retireTo a).bufs = s.bufs := rfl
@[simp] theorem State.retireTo_poison (s : State) (a : Word) : (s.retireTo a).poison = s.poison := rfl
@[simp] theorem State.retireTo_corrected (s : State) (a : Word) : (s.retireTo a).corrected = s.corrected := rfl
@[simp] theorem State.retireTo_gated (s : State) (a : Word) : (s.retireTo a).gated = s.gated := rfl
@[simp] theorem State.retireTo_waking (s : State) (a : Word) : (s.retireTo a).waking = s.waking := rfl
@[simp] theorem State.retireTo_devId (s : State) (a : Word) : (s.retireTo a).devId = s.devId := rfl
@[simp] theorem State.retireTo_slots (s : State) (a : Word) : (s.retireTo a).slots = s.slots := rfl
@[simp] theorem State.retireTo_inbox (s : State) (a : Word) : (s.retireTo a).inbox = s.inbox := rfl
@[simp] theorem State.retireTo_sends (s : State) (a : Word) : (s.retireTo a).sends = s.sends := rfl
@[simp] theorem State.retireTo_rings (s : State) (a : Word) : (s.retireTo a).rings = s.rings := rfl
@[simp] theorem State.retireTo_unitOut (s : State) (a : Word) : (s.retireTo a).unitOut = s.unitOut := rfl
@[simp] theorem State.retireTo_made (s : State) (a : Word) : (s.retireTo a).made = s.made := rfl
@[simp] theorem State.retireTo_outbox (s : State) (a : Word) : (s.retireTo a).outbox = s.outbox := rfl
@[simp] theorem State.retireTo_early (s : State) (a : Word) : (s.retireTo a).early = s.early := rfl
@[simp] theorem State.retireTo_drops (s : State) (a : Word) : (s.retireTo a).drops = s.drops := rfl
@[simp] theorem State.retireTo_discards (s : State) (a : Word) : (s.retireTo a).discards = s.discards := rfl
@[simp] theorem State.retireTo_rreads (s : State) (a : Word) : (s.retireTo a).rreads = s.rreads := rfl
@[simp] theorem State.retireTo_nextRid (s : State) (a : Word) : (s.retireTo a).nextRid = s.nextRid := rfl
@[simp] theorem State.retireTo_buckets (s : State) (a : Word) : (s.retireTo a).buckets = s.buckets := rfl
@[simp] theorem State.retireTo_sentStrips (s : State) (a : Word) : (s.retireTo a).sentStrips = s.sentStrips := rfl
@[simp] theorem State.retireTo_inStrips (s : State) (a : Word) : (s.retireTo a).inStrips = s.inStrips := rfl
@[simp] theorem State.retireTo_engines (s : State) (a : Word) : (s.retireTo a).engines = s.engines := rfl
@[simp] theorem State.retireTo_eng (s : State) (a : Word) : (s.retireTo a).eng = s.eng := rfl
@[simp] theorem State.retireTo_stepno (s : State) (a : Word) : (s.retireTo a).stepno = s.stepno := rfl
@[simp] theorem State.retireTo_ctls (s : State) (a : Word) : (s.retireTo a).ctls = s.ctls := rfl
@[simp] theorem State.retireTo_kernels (s : State) (a : Word) : (s.retireTo a).kernels = s.kernels := rfl
@[simp] theorem State.retireTo_transfers (s : State) (a : Word) : (s.retireTo a).transfers = s.transfers := rfl
@[simp] theorem State.retireTo_nextXfer (s : State) (a : Word) : (s.retireTo a).nextXfer = s.nextXfer := rfl
@[simp] theorem State.retireTo_tiers (s : State) (a : Word) : (s.retireTo a).tiers = s.tiers := rfl
@[simp] theorem State.retireTo_parts (s : State) (a : Word) : (s.retireTo a).parts = s.parts := rfl
@[simp] theorem State.retireTo_timebase (s : State) (a : Word) : (s.retireTo a).timebase = s.timebase := rfl
@[simp] theorem State.retireTo_now (s : State) (a : Word) : (s.retireTo a).now = s.now := rfl
@[simp] theorem State.retireTo_lag (s : State) (a : Word) : (s.retireTo a).lag = s.lag := rfl
@[simp] theorem State.retireTo_pwrlim (s : State) (a : Word) : (s.retireTo a).pwrlim = s.pwrlim := rfl
@[simp] theorem State.retireTo_wdkick (s : State) (a : Word) : (s.retireTo a).wdkick = s.wdkick := rfl
@[simp] theorem State.retireTo_bootstat (s : State) (a : Word) : (s.retireTo a).bootstat = s.bootstat := rfl
@[simp] theorem State.retireTo_wdcause (s : State) (a : Word) : (s.retireTo a).wdcause = s.wdcause := rfl
@[simp] theorem State.retireTo_seals (s : State) (a : Word) : (s.retireTo a).seals = s.seals := rfl
@[simp] theorem State.retireTo_meas (s : State) (a : Word) : (s.retireTo a).meas = s.meas := rfl
@[simp] theorem State.retireTo_measOpen (s : State) (a : Word) : (s.retireTo a).measOpen = s.measOpen := rfl
@[simp] theorem State.retireTo_attreq (s : State) (a : Word) : (s.retireTo a).attreq = s.attreq := rfl
@[simp] theorem State.retireTo_attdone (s : State) (a : Word) : (s.retireTo a).attdone = s.attdone := rfl
@[simp] theorem State.retireTo_attrep (s : State) (a : Word) : (s.retireTo a).attrep = s.attrep := rfl
@[simp] theorem State.retireTo_belfry (s : State) (a : Word) : (s.retireTo a).belfry = s.belfry := rfl
@[simp] theorem State.retireTo_bsram (s : State) (a : Word) : (s.retireTo a).bsram = s.bsram := rfl
@[simp] theorem State.retireTo_fwdata (s : State) (a : Word) : (s.retireTo a).fwdata = s.fwdata := rfl
@[simp] theorem State.retireTo_errs (s : State) (a : Word) : (s.retireTo a).errs = s.errs := rfl
@[simp] theorem State.retireTo_hostSaid (s : State) (a : Word) : (s.retireTo a).hostSaid = s.hostSaid := rfl
@[simp] theorem State.retireTo_belfrySaid (s : State) (a : Word) : (s.retireTo a).belfrySaid = s.belfrySaid := rfl
@[simp] theorem State.retireTo_errhead (s : State) (a : Word) : (s.retireTo a).errhead = s.errhead := rfl
@[simp] theorem State.retireTo_errcorr (s : State) (a : Word) : (s.retireTo a).errcorr = s.errcorr := rfl
@[simp] theorem State.retireTo_fresh (s : State) (a : Word) : (s.retireTo a).fresh = s.fresh := rfl
@[simp] theorem State.retireTo_agenda (s : State) (a : Word) : (s.retireTo a).agenda = s.agenda := rfl
@[simp] theorem State.retireTo_bound (s : State) (a : Word) : (s.retireTo a).bound = s.bound := rfl
@[simp] theorem State.pause_hid (s : State) : (s.pause).hid = s.hid := rfl
@[simp] theorem State.pause_others (s : State) : (s.pause).others = s.others := rfl
@[simp] theorem State.pause_cores (s : State) : (s.pause).cores = s.cores := rfl
@[simp] theorem State.pause_mem (s : State) : (s.pause).mem = s.mem := rfl
@[simp] theorem State.pause_log (s : State) : (s.pause).log = s.log := rfl
@[simp] theorem State.pause_nextWid (s : State) : (s.pause).nextWid = s.nextWid := rfl
@[simp] theorem State.pause_tickets (s : State) : (s.pause).tickets = s.tickets := rfl
@[simp] theorem State.pause_bufs (s : State) : (s.pause).bufs = s.bufs := rfl
@[simp] theorem State.pause_poison (s : State) : (s.pause).poison = s.poison := rfl
@[simp] theorem State.pause_corrected (s : State) : (s.pause).corrected = s.corrected := rfl
@[simp] theorem State.pause_gated (s : State) : (s.pause).gated = s.gated := rfl
@[simp] theorem State.pause_waking (s : State) : (s.pause).waking = s.waking := rfl
@[simp] theorem State.pause_devId (s : State) : (s.pause).devId = s.devId := rfl
@[simp] theorem State.pause_slots (s : State) : (s.pause).slots = s.slots := rfl
@[simp] theorem State.pause_inbox (s : State) : (s.pause).inbox = s.inbox := rfl
@[simp] theorem State.pause_sends (s : State) : (s.pause).sends = s.sends := rfl
@[simp] theorem State.pause_rings (s : State) : (s.pause).rings = s.rings := rfl
@[simp] theorem State.pause_unitOut (s : State) : (s.pause).unitOut = s.unitOut := rfl
@[simp] theorem State.pause_made (s : State) : (s.pause).made = s.made := rfl
@[simp] theorem State.pause_outbox (s : State) : (s.pause).outbox = s.outbox := rfl
@[simp] theorem State.pause_early (s : State) : (s.pause).early = s.early := rfl
@[simp] theorem State.pause_drops (s : State) : (s.pause).drops = s.drops := rfl
@[simp] theorem State.pause_discards (s : State) : (s.pause).discards = s.discards := rfl
@[simp] theorem State.pause_rreads (s : State) : (s.pause).rreads = s.rreads := rfl
@[simp] theorem State.pause_nextRid (s : State) : (s.pause).nextRid = s.nextRid := rfl
@[simp] theorem State.pause_buckets (s : State) : (s.pause).buckets = s.buckets := rfl
@[simp] theorem State.pause_sentStrips (s : State) : (s.pause).sentStrips = s.sentStrips := rfl
@[simp] theorem State.pause_inStrips (s : State) : (s.pause).inStrips = s.inStrips := rfl
@[simp] theorem State.pause_engines (s : State) : (s.pause).engines = s.engines := rfl
@[simp] theorem State.pause_eng (s : State) : (s.pause).eng = s.eng := rfl
@[simp] theorem State.pause_stepno (s : State) : (s.pause).stepno = s.stepno := rfl
@[simp] theorem State.pause_ctls (s : State) : (s.pause).ctls = s.ctls := rfl
@[simp] theorem State.pause_kernels (s : State) : (s.pause).kernels = s.kernels := rfl
@[simp] theorem State.pause_transfers (s : State) : (s.pause).transfers = s.transfers := rfl
@[simp] theorem State.pause_nextXfer (s : State) : (s.pause).nextXfer = s.nextXfer := rfl
@[simp] theorem State.pause_tiers (s : State) : (s.pause).tiers = s.tiers := rfl
@[simp] theorem State.pause_parts (s : State) : (s.pause).parts = s.parts := rfl
@[simp] theorem State.pause_timebase (s : State) : (s.pause).timebase = s.timebase := rfl
@[simp] theorem State.pause_now (s : State) : (s.pause).now = s.now := rfl
@[simp] theorem State.pause_lag (s : State) : (s.pause).lag = s.lag := rfl
@[simp] theorem State.pause_pwrlim (s : State) : (s.pause).pwrlim = s.pwrlim := rfl
@[simp] theorem State.pause_wdkick (s : State) : (s.pause).wdkick = s.wdkick := rfl
@[simp] theorem State.pause_bootstat (s : State) : (s.pause).bootstat = s.bootstat := rfl
@[simp] theorem State.pause_wdcause (s : State) : (s.pause).wdcause = s.wdcause := rfl
@[simp] theorem State.pause_seals (s : State) : (s.pause).seals = s.seals := rfl
@[simp] theorem State.pause_meas (s : State) : (s.pause).meas = s.meas := rfl
@[simp] theorem State.pause_measOpen (s : State) : (s.pause).measOpen = s.measOpen := rfl
@[simp] theorem State.pause_attreq (s : State) : (s.pause).attreq = s.attreq := rfl
@[simp] theorem State.pause_attdone (s : State) : (s.pause).attdone = s.attdone := rfl
@[simp] theorem State.pause_attrep (s : State) : (s.pause).attrep = s.attrep := rfl
@[simp] theorem State.pause_belfry (s : State) : (s.pause).belfry = s.belfry := rfl
@[simp] theorem State.pause_bsram (s : State) : (s.pause).bsram = s.bsram := rfl
@[simp] theorem State.pause_fwdata (s : State) : (s.pause).fwdata = s.fwdata := rfl
@[simp] theorem State.pause_errs (s : State) : (s.pause).errs = s.errs := rfl
@[simp] theorem State.pause_hostSaid (s : State) : (s.pause).hostSaid = s.hostSaid := rfl
@[simp] theorem State.pause_belfrySaid (s : State) : (s.pause).belfrySaid = s.belfrySaid := rfl
@[simp] theorem State.pause_errhead (s : State) : (s.pause).errhead = s.errhead := rfl
@[simp] theorem State.pause_errcorr (s : State) : (s.pause).errcorr = s.errcorr := rfl
@[simp] theorem State.pause_fresh (s : State) : (s.pause).fresh = s.fresh := rfl
@[simp] theorem State.pause_agenda (s : State) : (s.pause).agenda = s.agenda := rfl
@[simp] theorem State.pause_bound (s : State) : (s.pause).bound = s.bound := rfl
@[simp] theorem State.block_hid (s : State) : (s.block).hid = s.hid := rfl
@[simp] theorem State.block_others (s : State) : (s.block).others = s.others := rfl
@[simp] theorem State.block_cores (s : State) : (s.block).cores = s.cores := rfl
@[simp] theorem State.block_mem (s : State) : (s.block).mem = s.mem := rfl
@[simp] theorem State.block_log (s : State) : (s.block).log = s.log := rfl
@[simp] theorem State.block_nextWid (s : State) : (s.block).nextWid = s.nextWid := rfl
@[simp] theorem State.block_tickets (s : State) : (s.block).tickets = s.tickets := rfl
@[simp] theorem State.block_bufs (s : State) : (s.block).bufs = s.bufs := rfl
@[simp] theorem State.block_poison (s : State) : (s.block).poison = s.poison := rfl
@[simp] theorem State.block_corrected (s : State) : (s.block).corrected = s.corrected := rfl
@[simp] theorem State.block_gated (s : State) : (s.block).gated = s.gated := rfl
@[simp] theorem State.block_waking (s : State) : (s.block).waking = s.waking := rfl
@[simp] theorem State.block_devId (s : State) : (s.block).devId = s.devId := rfl
@[simp] theorem State.block_slots (s : State) : (s.block).slots = s.slots := rfl
@[simp] theorem State.block_inbox (s : State) : (s.block).inbox = s.inbox := rfl
@[simp] theorem State.block_sends (s : State) : (s.block).sends = s.sends := rfl
@[simp] theorem State.block_rings (s : State) : (s.block).rings = s.rings := rfl
@[simp] theorem State.block_unitOut (s : State) : (s.block).unitOut = s.unitOut := rfl
@[simp] theorem State.block_made (s : State) : (s.block).made = s.made := rfl
@[simp] theorem State.block_outbox (s : State) : (s.block).outbox = s.outbox := rfl
@[simp] theorem State.block_early (s : State) : (s.block).early = s.early := rfl
@[simp] theorem State.block_drops (s : State) : (s.block).drops = s.drops := rfl
@[simp] theorem State.block_discards (s : State) : (s.block).discards = s.discards := rfl
@[simp] theorem State.block_rreads (s : State) : (s.block).rreads = s.rreads := rfl
@[simp] theorem State.block_nextRid (s : State) : (s.block).nextRid = s.nextRid := rfl
@[simp] theorem State.block_buckets (s : State) : (s.block).buckets = s.buckets := rfl
@[simp] theorem State.block_sentStrips (s : State) : (s.block).sentStrips = s.sentStrips := rfl
@[simp] theorem State.block_inStrips (s : State) : (s.block).inStrips = s.inStrips := rfl
@[simp] theorem State.block_engines (s : State) : (s.block).engines = s.engines := rfl
@[simp] theorem State.block_eng (s : State) : (s.block).eng = s.eng := rfl
@[simp] theorem State.block_stepno (s : State) : (s.block).stepno = s.stepno := rfl
@[simp] theorem State.block_ctls (s : State) : (s.block).ctls = s.ctls := rfl
@[simp] theorem State.block_kernels (s : State) : (s.block).kernels = s.kernels := rfl
@[simp] theorem State.block_transfers (s : State) : (s.block).transfers = s.transfers := rfl
@[simp] theorem State.block_nextXfer (s : State) : (s.block).nextXfer = s.nextXfer := rfl
@[simp] theorem State.block_tiers (s : State) : (s.block).tiers = s.tiers := rfl
@[simp] theorem State.block_parts (s : State) : (s.block).parts = s.parts := rfl
@[simp] theorem State.block_timebase (s : State) : (s.block).timebase = s.timebase := rfl
@[simp] theorem State.block_now (s : State) : (s.block).now = s.now := rfl
@[simp] theorem State.block_lag (s : State) : (s.block).lag = s.lag := rfl
@[simp] theorem State.block_pwrlim (s : State) : (s.block).pwrlim = s.pwrlim := rfl
@[simp] theorem State.block_wdkick (s : State) : (s.block).wdkick = s.wdkick := rfl
@[simp] theorem State.block_bootstat (s : State) : (s.block).bootstat = s.bootstat := rfl
@[simp] theorem State.block_wdcause (s : State) : (s.block).wdcause = s.wdcause := rfl
@[simp] theorem State.block_seals (s : State) : (s.block).seals = s.seals := rfl
@[simp] theorem State.block_meas (s : State) : (s.block).meas = s.meas := rfl
@[simp] theorem State.block_measOpen (s : State) : (s.block).measOpen = s.measOpen := rfl
@[simp] theorem State.block_attreq (s : State) : (s.block).attreq = s.attreq := rfl
@[simp] theorem State.block_attdone (s : State) : (s.block).attdone = s.attdone := rfl
@[simp] theorem State.block_attrep (s : State) : (s.block).attrep = s.attrep := rfl
@[simp] theorem State.block_belfry (s : State) : (s.block).belfry = s.belfry := rfl
@[simp] theorem State.block_bsram (s : State) : (s.block).bsram = s.bsram := rfl
@[simp] theorem State.block_fwdata (s : State) : (s.block).fwdata = s.fwdata := rfl
@[simp] theorem State.block_errs (s : State) : (s.block).errs = s.errs := rfl
@[simp] theorem State.block_hostSaid (s : State) : (s.block).hostSaid = s.hostSaid := rfl
@[simp] theorem State.block_belfrySaid (s : State) : (s.block).belfrySaid = s.belfrySaid := rfl
@[simp] theorem State.block_errhead (s : State) : (s.block).errhead = s.errhead := rfl
@[simp] theorem State.block_errcorr (s : State) : (s.block).errcorr = s.errcorr := rfl
@[simp] theorem State.block_fresh (s : State) : (s.block).fresh = s.fresh := rfl
@[simp] theorem State.block_agenda (s : State) : (s.block).agenda = s.agenda := rfl
@[simp] theorem State.block_bound (s : State) : (s.block).bound = s.bound := rfl
@[simp] theorem State.ws_hid (s : State) (r : SReg) (x : Word) : (s.ws r x).hid = s.hid := rfl
@[simp] theorem State.ws_others (s : State) (r : SReg) (x : Word) : (s.ws r x).others = s.others := rfl
@[simp] theorem State.ws_cores (s : State) (r : SReg) (x : Word) : (s.ws r x).cores = s.cores := rfl
@[simp] theorem State.ws_mem (s : State) (r : SReg) (x : Word) : (s.ws r x).mem = s.mem := rfl
@[simp] theorem State.ws_log (s : State) (r : SReg) (x : Word) : (s.ws r x).log = s.log := rfl
@[simp] theorem State.ws_nextWid (s : State) (r : SReg) (x : Word) : (s.ws r x).nextWid = s.nextWid := rfl
@[simp] theorem State.ws_tickets (s : State) (r : SReg) (x : Word) : (s.ws r x).tickets = s.tickets := rfl
@[simp] theorem State.ws_bufs (s : State) (r : SReg) (x : Word) : (s.ws r x).bufs = s.bufs := rfl
@[simp] theorem State.ws_poison (s : State) (r : SReg) (x : Word) : (s.ws r x).poison = s.poison := rfl
@[simp] theorem State.ws_corrected (s : State) (r : SReg) (x : Word) : (s.ws r x).corrected = s.corrected := rfl
@[simp] theorem State.ws_gated (s : State) (r : SReg) (x : Word) : (s.ws r x).gated = s.gated := rfl
@[simp] theorem State.ws_waking (s : State) (r : SReg) (x : Word) : (s.ws r x).waking = s.waking := rfl
@[simp] theorem State.ws_devId (s : State) (r : SReg) (x : Word) : (s.ws r x).devId = s.devId := rfl
@[simp] theorem State.ws_slots (s : State) (r : SReg) (x : Word) : (s.ws r x).slots = s.slots := rfl
@[simp] theorem State.ws_inbox (s : State) (r : SReg) (x : Word) : (s.ws r x).inbox = s.inbox := rfl
@[simp] theorem State.ws_sends (s : State) (r : SReg) (x : Word) : (s.ws r x).sends = s.sends := rfl
@[simp] theorem State.ws_rings (s : State) (r : SReg) (x : Word) : (s.ws r x).rings = s.rings := rfl
@[simp] theorem State.ws_unitOut (s : State) (r : SReg) (x : Word) : (s.ws r x).unitOut = s.unitOut := rfl
@[simp] theorem State.ws_made (s : State) (r : SReg) (x : Word) : (s.ws r x).made = s.made := rfl
@[simp] theorem State.ws_outbox (s : State) (r : SReg) (x : Word) : (s.ws r x).outbox = s.outbox := rfl
@[simp] theorem State.ws_early (s : State) (r : SReg) (x : Word) : (s.ws r x).early = s.early := rfl
@[simp] theorem State.ws_drops (s : State) (r : SReg) (x : Word) : (s.ws r x).drops = s.drops := rfl
@[simp] theorem State.ws_discards (s : State) (r : SReg) (x : Word) : (s.ws r x).discards = s.discards := rfl
@[simp] theorem State.ws_rreads (s : State) (r : SReg) (x : Word) : (s.ws r x).rreads = s.rreads := rfl
@[simp] theorem State.ws_nextRid (s : State) (r : SReg) (x : Word) : (s.ws r x).nextRid = s.nextRid := rfl
@[simp] theorem State.ws_buckets (s : State) (r : SReg) (x : Word) : (s.ws r x).buckets = s.buckets := rfl
@[simp] theorem State.ws_sentStrips (s : State) (r : SReg) (x : Word) : (s.ws r x).sentStrips = s.sentStrips := rfl
@[simp] theorem State.ws_inStrips (s : State) (r : SReg) (x : Word) : (s.ws r x).inStrips = s.inStrips := rfl
@[simp] theorem State.ws_engines (s : State) (r : SReg) (x : Word) : (s.ws r x).engines = s.engines := rfl
@[simp] theorem State.ws_eng (s : State) (r : SReg) (x : Word) : (s.ws r x).eng = s.eng := rfl
@[simp] theorem State.ws_stepno (s : State) (r : SReg) (x : Word) : (s.ws r x).stepno = s.stepno := rfl
@[simp] theorem State.ws_ctls (s : State) (r : SReg) (x : Word) : (s.ws r x).ctls = s.ctls := rfl
@[simp] theorem State.ws_kernels (s : State) (r : SReg) (x : Word) : (s.ws r x).kernels = s.kernels := rfl
@[simp] theorem State.ws_transfers (s : State) (r : SReg) (x : Word) : (s.ws r x).transfers = s.transfers := rfl
@[simp] theorem State.ws_nextXfer (s : State) (r : SReg) (x : Word) : (s.ws r x).nextXfer = s.nextXfer := rfl
@[simp] theorem State.ws_tiers (s : State) (r : SReg) (x : Word) : (s.ws r x).tiers = s.tiers := rfl
@[simp] theorem State.ws_parts (s : State) (r : SReg) (x : Word) : (s.ws r x).parts = s.parts := rfl
@[simp] theorem State.ws_timebase (s : State) (r : SReg) (x : Word) : (s.ws r x).timebase = s.timebase := rfl
@[simp] theorem State.ws_now (s : State) (r : SReg) (x : Word) : (s.ws r x).now = s.now := rfl
@[simp] theorem State.ws_lag (s : State) (r : SReg) (x : Word) : (s.ws r x).lag = s.lag := rfl
@[simp] theorem State.ws_pwrlim (s : State) (r : SReg) (x : Word) : (s.ws r x).pwrlim = s.pwrlim := rfl
@[simp] theorem State.ws_wdkick (s : State) (r : SReg) (x : Word) : (s.ws r x).wdkick = s.wdkick := rfl
@[simp] theorem State.ws_bootstat (s : State) (r : SReg) (x : Word) : (s.ws r x).bootstat = s.bootstat := rfl
@[simp] theorem State.ws_wdcause (s : State) (r : SReg) (x : Word) : (s.ws r x).wdcause = s.wdcause := rfl
@[simp] theorem State.ws_seals (s : State) (r : SReg) (x : Word) : (s.ws r x).seals = s.seals := rfl
@[simp] theorem State.ws_meas (s : State) (r : SReg) (x : Word) : (s.ws r x).meas = s.meas := rfl
@[simp] theorem State.ws_measOpen (s : State) (r : SReg) (x : Word) : (s.ws r x).measOpen = s.measOpen := rfl
@[simp] theorem State.ws_attreq (s : State) (r : SReg) (x : Word) : (s.ws r x).attreq = s.attreq := rfl
@[simp] theorem State.ws_attdone (s : State) (r : SReg) (x : Word) : (s.ws r x).attdone = s.attdone := rfl
@[simp] theorem State.ws_attrep (s : State) (r : SReg) (x : Word) : (s.ws r x).attrep = s.attrep := rfl
@[simp] theorem State.ws_belfry (s : State) (r : SReg) (x : Word) : (s.ws r x).belfry = s.belfry := rfl
@[simp] theorem State.ws_bsram (s : State) (r : SReg) (x : Word) : (s.ws r x).bsram = s.bsram := rfl
@[simp] theorem State.ws_fwdata (s : State) (r : SReg) (x : Word) : (s.ws r x).fwdata = s.fwdata := rfl
@[simp] theorem State.ws_errs (s : State) (r : SReg) (x : Word) : (s.ws r x).errs = s.errs := rfl
@[simp] theorem State.ws_hostSaid (s : State) (r : SReg) (x : Word) : (s.ws r x).hostSaid = s.hostSaid := rfl
@[simp] theorem State.ws_belfrySaid (s : State) (r : SReg) (x : Word) : (s.ws r x).belfrySaid = s.belfrySaid := rfl
@[simp] theorem State.ws_errhead (s : State) (r : SReg) (x : Word) : (s.ws r x).errhead = s.errhead := rfl
@[simp] theorem State.ws_errcorr (s : State) (r : SReg) (x : Word) : (s.ws r x).errcorr = s.errcorr := rfl
@[simp] theorem State.ws_fresh (s : State) (r : SReg) (x : Word) : (s.ws r x).fresh = s.fresh := rfl
@[simp] theorem State.ws_agenda (s : State) (r : SReg) (x : Word) : (s.ws r x).agenda = s.agenda := rfl
@[simp] theorem State.ws_bound (s : State) (r : SReg) (x : Word) : (s.ws r x).bound = s.bound := rfl
@[simp] theorem Hart.setS_pc (h : Hart) (r : SReg) (x : Word) : (h.setS r x).pc = h.pc := by unfold Hart.setS; split <;> rfl
@[simp] theorem Hart.setS_eidx (h : Hart) (r : SReg) (x : Word) : (h.setS r x).eidx = h.eidx := by unfold Hart.setS; split <;> rfl
@[simp] theorem Hart.setS_sup (h : Hart) (r : SReg) (x : Word) : (h.setS r x).sup = h.sup := by unfold Hart.setS; split <;> rfl
@[simp] theorem Hart.setS_k (h : Hart) (r : SReg) (x : Word) : (h.setS r x).k = h.k := by unfold Hart.setS; split <;> rfl
@[simp] theorem Hart.setS_v (h : Hart) (r : SReg) (x : Word) : (h.setS r x).v = h.v := by unfold Hart.setS; split <;> rfl
@[simp] theorem Hart.setS_q (h : Hart) (r : SReg) (x : Word) : (h.setS r x).q = h.q := by unfold Hart.setS; split <;> rfl
@[simp] theorem Hart.setS_f (h : Hart) (r : SReg) (x : Word) : (h.setS r x).f = h.f := by unfold Hart.setS; split <;> rfl
@[simp] theorem Hart.setS_posts (h : Hart) (r : SReg) (x : Word) : (h.setS r x).posts = h.posts := by unfold Hart.setS; split <;> rfl
@[simp] theorem Hart.setS_tcfg (h : Hart) (r : SReg) (x : Word) : (h.setS r x).tcfg = h.tcfg := by unfold Hart.setS; split <;> rfl
@[simp] theorem Hart.setS_tel (h : Hart) (r : SReg) (x : Word) : (h.setS r x).tel = h.tel := by unfold Hart.setS; split <;> rfl
@[simp] theorem Hart.setS_tsc (h : Hart) (r : SReg) (x : Word) : (h.setS r x).tsc = h.tsc := by unfold Hart.setS; split <;> rfl
@[simp] theorem Hart.setS_acc (h : Hart) (r : SReg) (x : Word) : (h.setS r x).acc = h.acc := by unfold Hart.setS; split <;> rfl
@[simp] theorem Hart.setS_binds (h : Hart) (r : SReg) (x : Word) : (h.setS r x).binds = h.binds := by unfold Hart.setS; split <;> rfl
@[simp] theorem Hart.setS_vl (h : Hart) (r : SReg) (x : Word) : (h.setS r x).vl = h.vl := by unfold Hart.setS; split <;> rfl
@[simp] theorem Hart.setS_vlmax (h : Hart) (r : SReg) (x : Word) : (h.setS r x).vlmax = h.vlmax := by unfold Hart.setS; split <;> rfl
@[simp] theorem Hart.setS_efmt (h : Hart) (r : SReg) (x : Word) : (h.setS r x).efmt = h.efmt := by unfold Hart.setS; split <;> rfl
@[simp] theorem Hart.setS_tb (h : Hart) (r : SReg) (x : Word) : (h.setS r x).tb = h.tb := by unfold Hart.setS; split <;> rfl
@[simp] theorem Hart.setS_vill (h : Hart) (r : SReg) (x : Word) : (h.setS r x).vill = h.vill := by unfold Hart.setS; split <;> rfl
@[simp] theorem Hart.setS_nrc (h : Hart) (r : SReg) (x : Word) : (h.setS r x).nrc = h.nrc := by unfold Hart.setS; split <;> rfl
@[simp] theorem Hart.setS_sreg (h : Hart) (r : SReg) (x : Word) : (h.setS r x).sreg = h.sreg := by unfold Hart.setS; split <;> rfl
@[simp] theorem Hart.setS_sreq (h : Hart) (r : SReg) (x : Word) : (h.setS r x).sreq = h.sreq := by unfold Hart.setS; split <;> rfl
@[simp] theorem Hart.setS_fctl (h : Hart) (r : SReg) (x : Word) : (h.setS r x).fctl = h.fctl := by unfold Hart.setS; split <;> rfl
@[simp] theorem Hart.setS_fflags (h : Hart) (r : SReg) (x : Word) : (h.setS r x).fflags = h.fflags := by unfold Hart.setS; split <;> rfl
@[simp] theorem Hart.setS_srseed (h : Hart) (r : SReg) (x : Word) : (h.setS r x).srseed = h.srseed := by unfold Hart.setS; split <;> rfl
@[simp] theorem Hart.setS_srseq (h : Hart) (r : SReg) (x : Word) : (h.setS r x).srseq = h.srseq := by unfold Hart.setS; split <;> rfl
@[simp] theorem Hart.setS_tseedv (h : Hart) (r : SReg) (x : Word) : (h.setS r x).tseedv = h.tseedv := by unfold Hart.setS; split <;> rfl
@[simp] theorem Hart.setS_tbase (h : Hart) (r : SReg) (x : Word) : (h.setS r x).tbase = h.tbase := by unfold Hart.setS; split <;> rfl
@[simp] theorem Hart.setS_scale (h : Hart) (r : SReg) (x : Word) : (h.setS r x).scale = h.scale := by unfold Hart.setS; split <;> rfl
@[simp] theorem Hart.setS_epoch (h : Hart) (r : SReg) (x : Word) : (h.setS r x).epoch = h.epoch := by unfold Hart.setS; split <;> rfl
@[simp] theorem Hart.setS_cgroup (h : Hart) (r : SReg) (x : Word) : (h.setS r x).cgroup = h.cgroup := by unfold Hart.setS; split <;> rfl
@[simp] theorem Hart.setS_cops (h : Hart) (r : SReg) (x : Word) : (h.setS r x).cops = h.cops := by unfold Hart.setS; split <;> rfl
@[simp] theorem Hart.setS_cstride (h : Hart) (r : SReg) (x : Word) : (h.setS r x).cstride = h.cstride := by unfold Hart.setS; split <;> rfl
@[simp] theorem Hart.setS_ctag (h : Hart) (r : SReg) (x : Word) : (h.setS r x).ctag = h.ctag := by unfold Hart.setS; split <;> rfl
@[simp] theorem Hart.setS_cdens (h : Hart) (r : SReg) (x : Word) : (h.setS r x).cdens = h.cdens := by unfold Hart.setS; split <;> rfl
@[simp] theorem Hart.setS_lidx (h : Hart) (r : SReg) (x : Word) : (h.setS r x).lidx = h.lidx := by unfold Hart.setS; split <;> rfl
@[simp] theorem Hart.setS_capbase (h : Hart) (r : SReg) (x : Word) : (h.setS r x).capbase = h.capbase := by unfold Hart.setS; split <;> rfl
@[simp] theorem Hart.setS_cause (h : Hart) (r : SReg) (x : Word) : (h.setS r x).cause = h.cause := by unfold Hart.setS; split <;> rfl
@[simp] theorem Hart.setS_casync (h : Hart) (r : SReg) (x : Word) : (h.setS r x).casync = h.casync := by unfold Hart.setS; split <;> rfl
@[simp] theorem Hart.setS_tpc (h : Hart) (r : SReg) (x : Word) : (h.setS r x).tpc = h.tpc := by unfold Hart.setS; split <;> rfl
@[simp] theorem Hart.setS_teidx (h : Hart) (r : SReg) (x : Word) : (h.setS r x).teidx = h.teidx := by unfold Hart.setS; split <;> rfl
@[simp] theorem Hart.setS_tval (h : Hart) (r : SReg) (x : Word) : (h.setS r x).tval = h.tval := by unfold Hart.setS; split <;> rfl
@[simp] theorem Hart.setS_pp (h : Hart) (r : SReg) (x : Word) : (h.setS r x).pp = h.pp := by unfold Hart.setS; split <;> rfl
@[simp] theorem Hart.setS_ie (h : Hart) (r : SReg) (x : Word) : (h.setS r x).ie = h.ie := by unfold Hart.setS; split <;> rfl
@[simp] theorem Hart.setS_pie (h : Hart) (r : SReg) (x : Word) : (h.setS r x).pie = h.pie := by unfold Hart.setS; split <;> rfl
@[simp] theorem Hart.setS_th (h : Hart) (r : SReg) (x : Word) : (h.setS r x).th = h.th := by unfold Hart.setS; split <;> rfl
@[simp] theorem Hart.setS_lost (h : Hart) (r : SReg) (x : Word) : (h.setS r x).lost = h.lost := by unfold Hart.setS; split <;> rfl
@[simp] theorem Hart.setS_conv (h : Hart) (r : SReg) (x : Word) : (h.setS r x).conv = h.conv := by unfold Hart.setS; split <;> rfl
@[simp] theorem Hart.setS_twin (h : Hart) (r : SReg) (x : Word) : (h.setS r x).twin = h.twin := by unfold Hart.setS; split <;> rfl
@[simp] theorem Hart.setS_loops (h : Hart) (r : SReg) (x : Word) : (h.setS r x).loops = h.loops := by unfold Hart.setS; split <;> rfl
@[simp] theorem Hart.setS_loopsSaved (h : Hart) (r : SReg) (x : Word) : (h.setS r x).loopsSaved = h.loopsSaved := by unfold Hart.setS; split <;> rfl
@[simp] theorem Hart.setS_srseqSaved (h : Hart) (r : SReg) (x : Word) : (h.setS r x).srseqSaved = h.srseqSaved := by unfold Hart.setS; split <;> rfl
@[simp] theorem Hart.setS_seqSaved (h : Hart) (r : SReg) (x : Word) : (h.setS r x).seqSaved = h.seqSaved := by unfold Hart.setS; split <;> rfl
@[simp] theorem Hart.setS_reuse (h : Hart) (r : SReg) (x : Word) : (h.setS r x).reuse = h.reuse := by unfold Hart.setS; split <;> rfl
@[simp] theorem Hart.setS_events (h : Hart) (r : SReg) (x : Word) : (h.setS r x).events = h.events := by unfold Hart.setS; split <;> rfl
@[simp] theorem Hart.setS_genSaved (h : Hart) (r : SReg) (x : Word) : (h.setS r x).genSaved = h.genSaved := by unfold Hart.setS; split <;> rfl
@[simp] theorem Hart.setS_gen (h : Hart) (r : SReg) (x : Word) : (h.setS r x).gen = h.gen := by unfold Hart.setS; split <;> rfl
@[simp] theorem Hart.setS_cbIdx (h : Hart) (r : SReg) (x : Word) : (h.setS r x).cbIdx = h.cbIdx := by unfold Hart.setS; split <;> rfl
@[simp] theorem Hart.setS_cbHead (h : Hart) (r : SReg) (x : Word) : (h.setS r x).cbHead = h.cbHead := by unfold Hart.setS; split <;> rfl
@[simp] theorem Hart.setS_cbCount (h : Hart) (r : SReg) (x : Word) : (h.setS r x).cbCount = h.cbCount := by unfold Hart.setS; split <;> rfl
@[simp] theorem Hart.setS_pins (h : Hart) (r : SReg) (x : Word) : (h.setS r x).pins = h.pins := by unfold Hart.setS; split <;> rfl
@[simp] theorem Hart.setS_deliveries (h : Hart) (r : SReg) (x : Word) : (h.setS r x).deliveries = h.deliveries := by unfold Hart.setS; split <;> rfl
@[simp] theorem Hart.setS_copies (h : Hart) (r : SReg) (x : Word) : (h.setS r x).copies = h.copies := by unfold Hart.setS; split <;> rfl
@[simp] theorem Hart.setS_chanFaults (h : Hart) (r : SReg) (x : Word) : (h.setS r x).chanFaults = h.chanFaults := by unfold Hart.setS; split <;> rfl
@[simp] theorem Hart.setS_nextCopy (h : Hart) (r : SReg) (x : Word) : (h.setS r x).nextCopy = h.nextCopy := by unfold Hart.setS; split <;> rfl
@[simp] theorem Hart.setS_sq (h : Hart) (r : SReg) (x : Word) : (h.setS r x).sq = h.sq := by unfold Hart.setS; split <;> rfl
@[simp] theorem Hart.setS_fences (h : Hart) (r : SReg) (x : Word) : (h.setS r x).fences = h.fences := by unfold Hart.setS; split <;> rfl
@[simp] theorem Hart.setS_nextSeq (h : Hart) (r : SReg) (x : Word) : (h.setS r x).nextSeq = h.nextSeq := by unfold Hart.setS; split <;> rfl
@[simp] theorem Hart.setS_seen (h : Hart) (r : SReg) (x : Word) : (h.setS r x).seen = h.seen := by unfold Hart.setS; split <;> rfl
@[simp] theorem Hart.setS_gather (h : Hart) (r : SReg) (x : Word) : (h.setS r x).gather = h.gather := by unfold Hart.setS; split <;> rfl
@[simp] theorem Hart.setS_began (h : Hart) (r : SReg) (x : Word) : (h.setS r x).began = h.began := by unfold Hart.setS; split <;> rfl
@[simp] theorem Hart.setS_run (h : Hart) (r : SReg) (x : Word) : (h.setS r x).run = h.run := by unfold Hart.setS; split <;> rfl
@[simp] theorem Hart.setS_leaving (h : Hart) (r : SReg) (x : Word) : (h.setS r x).leaving = h.leaving := by unfold Hart.setS; split <;> rfl
@[simp] theorem Hart.setS_stop (h : Hart) (r : SReg) (x : Word) : (h.setS r x).stop = h.stop := by unfold Hart.setS; split <;> rfl
@[simp] theorem Hart.setS_dfault (h : Hart) (r : SReg) (x : Word) : (h.setS r x).dfault = h.dfault := by unfold Hart.setS; split <;> rfl
@[simp] theorem Hart.setS_inst (h : Hart) (r : SReg) (x : Word) : (h.setS r x).inst = h.inst := by unfold Hart.setS; split <;> rfl
@[simp] theorem Hart.setS_waiting (h : Hart) (r : SReg) (x : Word) : (h.setS r x).waiting = h.waiting := by unfold Hart.setS; split <;> rfl
@[simp] theorem Hart.setS_blocked (h : Hart) (r : SReg) (x : Word) : (h.setS r x).blocked = h.blocked := by unfold Hart.setS; split <;> rfl
@[simp] theorem Hart.setS_since (h : Hart) (r : SReg) (x : Word) : (h.setS r x).since = h.since := by unfold Hart.setS; split <;> rfl
@[simp] theorem Hart.setS_waitAt (h : Hart) (r : SReg) (x : Word) : (h.setS r x).waitAt = h.waitAt := by unfold Hart.setS; split <;> rfl
@[simp] theorem Hart.setS_got (h : Hart) (r : SReg) (x : Word) : (h.setS r x).got = h.got := by unfold Hart.setS; split <;> rfl
@[simp] theorem Hart.setS_lent (h : Hart) (r : SReg) (x : Word) : (h.setS r x).lent = h.lent := by unfold Hart.setS; split <;> rfl
@[simp] theorem Hart.setS_lates (h : Hart) (r : SReg) (x : Word) : (h.setS r x).lates = h.lates := by unfold Hart.setS; split <;> rfl
@[simp] theorem Hart.setS_puts (h : Hart) (r : SReg) (x : Word) : (h.setS r x).puts = h.puts := by unfold Hart.setS; split <;> rfl
@[simp] theorem Hart.setS_inConvoy (h : Hart) (r : SReg) (x : Word) : (h.setS r x).inConvoy = h.inConvoy := by unfold Hart.setS; split <;> rfl
@[simp] theorem Hart.setS_chainSaved (h : Hart) (r : SReg) (x : Word) : (h.setS r x).chainSaved = h.chainSaved := by unfold Hart.setS; split <;> rfl
@[simp] theorem Hart.setS_publishing (h : Hart) (r : SReg) (x : Word) : (h.setS r x).publishing = h.publishing := by unfold Hart.setS; split <;> rfl
@[simp] theorem Hart.setS_gotBad (h : Hart) (r : SReg) (x : Word) : (h.setS r x).gotBad = h.gotBad := by unfold Hart.setS; split <;> rfl
@[simp] theorem Hart.setS_poison (h : Hart) (r : SReg) (x : Word) : (h.setS r x).poison = h.poison := by unfold Hart.setS; split <;> rfl
@[simp] theorem Hart.setK_pc (h : Hart) (r : KReg) (x : BitVec 65536) : (h.setK r x).pc = h.pc := by unfold Hart.setK; split <;> rfl
@[simp] theorem Hart.setK_eidx (h : Hart) (r : KReg) (x : BitVec 65536) : (h.setK r x).eidx = h.eidx := by unfold Hart.setK; split <;> rfl
@[simp] theorem Hart.setK_sup (h : Hart) (r : KReg) (x : BitVec 65536) : (h.setK r x).sup = h.sup := by unfold Hart.setK; split <;> rfl
@[simp] theorem Hart.setK_s (h : Hart) (r : KReg) (x : BitVec 65536) : (h.setK r x).s = h.s := by unfold Hart.setK; split <;> rfl
@[simp] theorem Hart.setK_v (h : Hart) (r : KReg) (x : BitVec 65536) : (h.setK r x).v = h.v := by unfold Hart.setK; split <;> rfl
@[simp] theorem Hart.setK_q (h : Hart) (r : KReg) (x : BitVec 65536) : (h.setK r x).q = h.q := by unfold Hart.setK; split <;> rfl
@[simp] theorem Hart.setK_f (h : Hart) (r : KReg) (x : BitVec 65536) : (h.setK r x).f = h.f := by unfold Hart.setK; split <;> rfl
@[simp] theorem Hart.setK_posts (h : Hart) (r : KReg) (x : BitVec 65536) : (h.setK r x).posts = h.posts := by unfold Hart.setK; split <;> rfl
@[simp] theorem Hart.setK_tcfg (h : Hart) (r : KReg) (x : BitVec 65536) : (h.setK r x).tcfg = h.tcfg := by unfold Hart.setK; split <;> rfl
@[simp] theorem Hart.setK_tel (h : Hart) (r : KReg) (x : BitVec 65536) : (h.setK r x).tel = h.tel := by unfold Hart.setK; split <;> rfl
@[simp] theorem Hart.setK_tsc (h : Hart) (r : KReg) (x : BitVec 65536) : (h.setK r x).tsc = h.tsc := by unfold Hart.setK; split <;> rfl
@[simp] theorem Hart.setK_acc (h : Hart) (r : KReg) (x : BitVec 65536) : (h.setK r x).acc = h.acc := by unfold Hart.setK; split <;> rfl
@[simp] theorem Hart.setK_binds (h : Hart) (r : KReg) (x : BitVec 65536) : (h.setK r x).binds = h.binds := by unfold Hart.setK; split <;> rfl
@[simp] theorem Hart.setK_vl (h : Hart) (r : KReg) (x : BitVec 65536) : (h.setK r x).vl = h.vl := by unfold Hart.setK; split <;> rfl
@[simp] theorem Hart.setK_vlmax (h : Hart) (r : KReg) (x : BitVec 65536) : (h.setK r x).vlmax = h.vlmax := by unfold Hart.setK; split <;> rfl
@[simp] theorem Hart.setK_efmt (h : Hart) (r : KReg) (x : BitVec 65536) : (h.setK r x).efmt = h.efmt := by unfold Hart.setK; split <;> rfl
@[simp] theorem Hart.setK_tb (h : Hart) (r : KReg) (x : BitVec 65536) : (h.setK r x).tb = h.tb := by unfold Hart.setK; split <;> rfl
@[simp] theorem Hart.setK_vill (h : Hart) (r : KReg) (x : BitVec 65536) : (h.setK r x).vill = h.vill := by unfold Hart.setK; split <;> rfl
@[simp] theorem Hart.setK_nrc (h : Hart) (r : KReg) (x : BitVec 65536) : (h.setK r x).nrc = h.nrc := by unfold Hart.setK; split <;> rfl
@[simp] theorem Hart.setK_sreg (h : Hart) (r : KReg) (x : BitVec 65536) : (h.setK r x).sreg = h.sreg := by unfold Hart.setK; split <;> rfl
@[simp] theorem Hart.setK_sreq (h : Hart) (r : KReg) (x : BitVec 65536) : (h.setK r x).sreq = h.sreq := by unfold Hart.setK; split <;> rfl
@[simp] theorem Hart.setK_fctl (h : Hart) (r : KReg) (x : BitVec 65536) : (h.setK r x).fctl = h.fctl := by unfold Hart.setK; split <;> rfl
@[simp] theorem Hart.setK_fflags (h : Hart) (r : KReg) (x : BitVec 65536) : (h.setK r x).fflags = h.fflags := by unfold Hart.setK; split <;> rfl
@[simp] theorem Hart.setK_srseed (h : Hart) (r : KReg) (x : BitVec 65536) : (h.setK r x).srseed = h.srseed := by unfold Hart.setK; split <;> rfl
@[simp] theorem Hart.setK_srseq (h : Hart) (r : KReg) (x : BitVec 65536) : (h.setK r x).srseq = h.srseq := by unfold Hart.setK; split <;> rfl
@[simp] theorem Hart.setK_tseedv (h : Hart) (r : KReg) (x : BitVec 65536) : (h.setK r x).tseedv = h.tseedv := by unfold Hart.setK; split <;> rfl
@[simp] theorem Hart.setK_tbase (h : Hart) (r : KReg) (x : BitVec 65536) : (h.setK r x).tbase = h.tbase := by unfold Hart.setK; split <;> rfl
@[simp] theorem Hart.setK_scale (h : Hart) (r : KReg) (x : BitVec 65536) : (h.setK r x).scale = h.scale := by unfold Hart.setK; split <;> rfl
@[simp] theorem Hart.setK_epoch (h : Hart) (r : KReg) (x : BitVec 65536) : (h.setK r x).epoch = h.epoch := by unfold Hart.setK; split <;> rfl
@[simp] theorem Hart.setK_cgroup (h : Hart) (r : KReg) (x : BitVec 65536) : (h.setK r x).cgroup = h.cgroup := by unfold Hart.setK; split <;> rfl
@[simp] theorem Hart.setK_cops (h : Hart) (r : KReg) (x : BitVec 65536) : (h.setK r x).cops = h.cops := by unfold Hart.setK; split <;> rfl
@[simp] theorem Hart.setK_cstride (h : Hart) (r : KReg) (x : BitVec 65536) : (h.setK r x).cstride = h.cstride := by unfold Hart.setK; split <;> rfl
@[simp] theorem Hart.setK_ctag (h : Hart) (r : KReg) (x : BitVec 65536) : (h.setK r x).ctag = h.ctag := by unfold Hart.setK; split <;> rfl
@[simp] theorem Hart.setK_cdens (h : Hart) (r : KReg) (x : BitVec 65536) : (h.setK r x).cdens = h.cdens := by unfold Hart.setK; split <;> rfl
@[simp] theorem Hart.setK_lidx (h : Hart) (r : KReg) (x : BitVec 65536) : (h.setK r x).lidx = h.lidx := by unfold Hart.setK; split <;> rfl
@[simp] theorem Hart.setK_capbase (h : Hart) (r : KReg) (x : BitVec 65536) : (h.setK r x).capbase = h.capbase := by unfold Hart.setK; split <;> rfl
@[simp] theorem Hart.setK_cause (h : Hart) (r : KReg) (x : BitVec 65536) : (h.setK r x).cause = h.cause := by unfold Hart.setK; split <;> rfl
@[simp] theorem Hart.setK_casync (h : Hart) (r : KReg) (x : BitVec 65536) : (h.setK r x).casync = h.casync := by unfold Hart.setK; split <;> rfl
@[simp] theorem Hart.setK_tpc (h : Hart) (r : KReg) (x : BitVec 65536) : (h.setK r x).tpc = h.tpc := by unfold Hart.setK; split <;> rfl
@[simp] theorem Hart.setK_teidx (h : Hart) (r : KReg) (x : BitVec 65536) : (h.setK r x).teidx = h.teidx := by unfold Hart.setK; split <;> rfl
@[simp] theorem Hart.setK_tval (h : Hart) (r : KReg) (x : BitVec 65536) : (h.setK r x).tval = h.tval := by unfold Hart.setK; split <;> rfl
@[simp] theorem Hart.setK_pp (h : Hart) (r : KReg) (x : BitVec 65536) : (h.setK r x).pp = h.pp := by unfold Hart.setK; split <;> rfl
@[simp] theorem Hart.setK_ie (h : Hart) (r : KReg) (x : BitVec 65536) : (h.setK r x).ie = h.ie := by unfold Hart.setK; split <;> rfl
@[simp] theorem Hart.setK_pie (h : Hart) (r : KReg) (x : BitVec 65536) : (h.setK r x).pie = h.pie := by unfold Hart.setK; split <;> rfl
@[simp] theorem Hart.setK_th (h : Hart) (r : KReg) (x : BitVec 65536) : (h.setK r x).th = h.th := by unfold Hart.setK; split <;> rfl
@[simp] theorem Hart.setK_lost (h : Hart) (r : KReg) (x : BitVec 65536) : (h.setK r x).lost = h.lost := by unfold Hart.setK; split <;> rfl
@[simp] theorem Hart.setK_conv (h : Hart) (r : KReg) (x : BitVec 65536) : (h.setK r x).conv = h.conv := by unfold Hart.setK; split <;> rfl
@[simp] theorem Hart.setK_twin (h : Hart) (r : KReg) (x : BitVec 65536) : (h.setK r x).twin = h.twin := by unfold Hart.setK; split <;> rfl
@[simp] theorem Hart.setK_loops (h : Hart) (r : KReg) (x : BitVec 65536) : (h.setK r x).loops = h.loops := by unfold Hart.setK; split <;> rfl
@[simp] theorem Hart.setK_loopsSaved (h : Hart) (r : KReg) (x : BitVec 65536) : (h.setK r x).loopsSaved = h.loopsSaved := by unfold Hart.setK; split <;> rfl
@[simp] theorem Hart.setK_srseqSaved (h : Hart) (r : KReg) (x : BitVec 65536) : (h.setK r x).srseqSaved = h.srseqSaved := by unfold Hart.setK; split <;> rfl
@[simp] theorem Hart.setK_seqSaved (h : Hart) (r : KReg) (x : BitVec 65536) : (h.setK r x).seqSaved = h.seqSaved := by unfold Hart.setK; split <;> rfl
@[simp] theorem Hart.setK_reuse (h : Hart) (r : KReg) (x : BitVec 65536) : (h.setK r x).reuse = h.reuse := by unfold Hart.setK; split <;> rfl
@[simp] theorem Hart.setK_events (h : Hart) (r : KReg) (x : BitVec 65536) : (h.setK r x).events = h.events := by unfold Hart.setK; split <;> rfl
@[simp] theorem Hart.setK_genSaved (h : Hart) (r : KReg) (x : BitVec 65536) : (h.setK r x).genSaved = h.genSaved := by unfold Hart.setK; split <;> rfl
@[simp] theorem Hart.setK_gen (h : Hart) (r : KReg) (x : BitVec 65536) : (h.setK r x).gen = h.gen := by unfold Hart.setK; split <;> rfl
@[simp] theorem Hart.setK_cbIdx (h : Hart) (r : KReg) (x : BitVec 65536) : (h.setK r x).cbIdx = h.cbIdx := by unfold Hart.setK; split <;> rfl
@[simp] theorem Hart.setK_cbHead (h : Hart) (r : KReg) (x : BitVec 65536) : (h.setK r x).cbHead = h.cbHead := by unfold Hart.setK; split <;> rfl
@[simp] theorem Hart.setK_cbCount (h : Hart) (r : KReg) (x : BitVec 65536) : (h.setK r x).cbCount = h.cbCount := by unfold Hart.setK; split <;> rfl
@[simp] theorem Hart.setK_pins (h : Hart) (r : KReg) (x : BitVec 65536) : (h.setK r x).pins = h.pins := by unfold Hart.setK; split <;> rfl
@[simp] theorem Hart.setK_deliveries (h : Hart) (r : KReg) (x : BitVec 65536) : (h.setK r x).deliveries = h.deliveries := by unfold Hart.setK; split <;> rfl
@[simp] theorem Hart.setK_copies (h : Hart) (r : KReg) (x : BitVec 65536) : (h.setK r x).copies = h.copies := by unfold Hart.setK; split <;> rfl
@[simp] theorem Hart.setK_chanFaults (h : Hart) (r : KReg) (x : BitVec 65536) : (h.setK r x).chanFaults = h.chanFaults := by unfold Hart.setK; split <;> rfl
@[simp] theorem Hart.setK_nextCopy (h : Hart) (r : KReg) (x : BitVec 65536) : (h.setK r x).nextCopy = h.nextCopy := by unfold Hart.setK; split <;> rfl
@[simp] theorem Hart.setK_sq (h : Hart) (r : KReg) (x : BitVec 65536) : (h.setK r x).sq = h.sq := by unfold Hart.setK; split <;> rfl
@[simp] theorem Hart.setK_fences (h : Hart) (r : KReg) (x : BitVec 65536) : (h.setK r x).fences = h.fences := by unfold Hart.setK; split <;> rfl
@[simp] theorem Hart.setK_nextSeq (h : Hart) (r : KReg) (x : BitVec 65536) : (h.setK r x).nextSeq = h.nextSeq := by unfold Hart.setK; split <;> rfl
@[simp] theorem Hart.setK_seen (h : Hart) (r : KReg) (x : BitVec 65536) : (h.setK r x).seen = h.seen := by unfold Hart.setK; split <;> rfl
@[simp] theorem Hart.setK_gather (h : Hart) (r : KReg) (x : BitVec 65536) : (h.setK r x).gather = h.gather := by unfold Hart.setK; split <;> rfl
@[simp] theorem Hart.setK_began (h : Hart) (r : KReg) (x : BitVec 65536) : (h.setK r x).began = h.began := by unfold Hart.setK; split <;> rfl
@[simp] theorem Hart.setK_run (h : Hart) (r : KReg) (x : BitVec 65536) : (h.setK r x).run = h.run := by unfold Hart.setK; split <;> rfl
@[simp] theorem Hart.setK_leaving (h : Hart) (r : KReg) (x : BitVec 65536) : (h.setK r x).leaving = h.leaving := by unfold Hart.setK; split <;> rfl
@[simp] theorem Hart.setK_stop (h : Hart) (r : KReg) (x : BitVec 65536) : (h.setK r x).stop = h.stop := by unfold Hart.setK; split <;> rfl
@[simp] theorem Hart.setK_dfault (h : Hart) (r : KReg) (x : BitVec 65536) : (h.setK r x).dfault = h.dfault := by unfold Hart.setK; split <;> rfl
@[simp] theorem Hart.setK_inst (h : Hart) (r : KReg) (x : BitVec 65536) : (h.setK r x).inst = h.inst := by unfold Hart.setK; split <;> rfl
@[simp] theorem Hart.setK_waiting (h : Hart) (r : KReg) (x : BitVec 65536) : (h.setK r x).waiting = h.waiting := by unfold Hart.setK; split <;> rfl
@[simp] theorem Hart.setK_blocked (h : Hart) (r : KReg) (x : BitVec 65536) : (h.setK r x).blocked = h.blocked := by unfold Hart.setK; split <;> rfl
@[simp] theorem Hart.setK_since (h : Hart) (r : KReg) (x : BitVec 65536) : (h.setK r x).since = h.since := by unfold Hart.setK; split <;> rfl
@[simp] theorem Hart.setK_waitAt (h : Hart) (r : KReg) (x : BitVec 65536) : (h.setK r x).waitAt = h.waitAt := by unfold Hart.setK; split <;> rfl
@[simp] theorem Hart.setK_got (h : Hart) (r : KReg) (x : BitVec 65536) : (h.setK r x).got = h.got := by unfold Hart.setK; split <;> rfl
@[simp] theorem Hart.setK_lent (h : Hart) (r : KReg) (x : BitVec 65536) : (h.setK r x).lent = h.lent := by unfold Hart.setK; split <;> rfl
@[simp] theorem Hart.setK_lates (h : Hart) (r : KReg) (x : BitVec 65536) : (h.setK r x).lates = h.lates := by unfold Hart.setK; split <;> rfl
@[simp] theorem Hart.setK_puts (h : Hart) (r : KReg) (x : BitVec 65536) : (h.setK r x).puts = h.puts := by unfold Hart.setK; split <;> rfl
@[simp] theorem Hart.setK_inConvoy (h : Hart) (r : KReg) (x : BitVec 65536) : (h.setK r x).inConvoy = h.inConvoy := by unfold Hart.setK; split <;> rfl
@[simp] theorem Hart.setK_chainSaved (h : Hart) (r : KReg) (x : BitVec 65536) : (h.setK r x).chainSaved = h.chainSaved := by unfold Hart.setK; split <;> rfl
@[simp] theorem Hart.setK_publishing (h : Hart) (r : KReg) (x : BitVec 65536) : (h.setK r x).publishing = h.publishing := by unfold Hart.setK; split <;> rfl
@[simp] theorem Hart.setK_gotBad (h : Hart) (r : KReg) (x : BitVec 65536) : (h.setK r x).gotBad = h.gotBad := by unfold Hart.setK; split <;> rfl
@[simp] theorem Hart.setK_poison (h : Hart) (r : KReg) (x : BitVec 65536) : (h.setK r x).poison = h.poison := by unfold Hart.setK; split <;> rfl
@[simp] theorem Hart.putV_pc (h : Hart) (v : VReg) (p e x : Nat) : (h.putV v p e x).pc = h.pc := by unfold Hart.putV Hart.putC; split <;> rfl
@[simp] theorem Hart.putV_eidx (h : Hart) (v : VReg) (p e x : Nat) : (h.putV v p e x).eidx = h.eidx := by unfold Hart.putV Hart.putC; split <;> rfl
@[simp] theorem Hart.putV_sup (h : Hart) (v : VReg) (p e x : Nat) : (h.putV v p e x).sup = h.sup := by unfold Hart.putV Hart.putC; split <;> rfl
@[simp] theorem Hart.putV_s (h : Hart) (v : VReg) (p e x : Nat) : (h.putV v p e x).s = h.s := by unfold Hart.putV Hart.putC; split <;> rfl
@[simp] theorem Hart.putV_k (h : Hart) (v : VReg) (p e x : Nat) : (h.putV v p e x).k = h.k := by unfold Hart.putV Hart.putC; split <;> rfl
@[simp] theorem Hart.putV_q (h : Hart) (v : VReg) (p e x : Nat) : (h.putV v p e x).q = h.q := by unfold Hart.putV Hart.putC; split <;> rfl
@[simp] theorem Hart.putV_f (h : Hart) (v : VReg) (p e x : Nat) : (h.putV v p e x).f = h.f := by unfold Hart.putV Hart.putC; split <;> rfl
@[simp] theorem Hart.putV_posts (h : Hart) (v : VReg) (p e x : Nat) : (h.putV v p e x).posts = h.posts := by unfold Hart.putV Hart.putC; split <;> rfl
@[simp] theorem Hart.putV_tcfg (h : Hart) (v : VReg) (p e x : Nat) : (h.putV v p e x).tcfg = h.tcfg := by unfold Hart.putV Hart.putC; split <;> rfl
@[simp] theorem Hart.putV_tel (h : Hart) (v : VReg) (p e x : Nat) : (h.putV v p e x).tel = h.tel := by unfold Hart.putV Hart.putC; split <;> rfl
@[simp] theorem Hart.putV_tsc (h : Hart) (v : VReg) (p e x : Nat) : (h.putV v p e x).tsc = h.tsc := by unfold Hart.putV Hart.putC; split <;> rfl
@[simp] theorem Hart.putV_acc (h : Hart) (v : VReg) (p e x : Nat) : (h.putV v p e x).acc = h.acc := by unfold Hart.putV Hart.putC; split <;> rfl
@[simp] theorem Hart.putV_binds (h : Hart) (v : VReg) (p e x : Nat) : (h.putV v p e x).binds = h.binds := by unfold Hart.putV Hart.putC; split <;> rfl
@[simp] theorem Hart.putV_vl (h : Hart) (v : VReg) (p e x : Nat) : (h.putV v p e x).vl = h.vl := by unfold Hart.putV Hart.putC; split <;> rfl
@[simp] theorem Hart.putV_vlmax (h : Hart) (v : VReg) (p e x : Nat) : (h.putV v p e x).vlmax = h.vlmax := by unfold Hart.putV Hart.putC; split <;> rfl
@[simp] theorem Hart.putV_efmt (h : Hart) (v : VReg) (p e x : Nat) : (h.putV v p e x).efmt = h.efmt := by unfold Hart.putV Hart.putC; split <;> rfl
@[simp] theorem Hart.putV_tb (h : Hart) (v : VReg) (p e x : Nat) : (h.putV v p e x).tb = h.tb := by unfold Hart.putV Hart.putC; split <;> rfl
@[simp] theorem Hart.putV_vill (h : Hart) (v : VReg) (p e x : Nat) : (h.putV v p e x).vill = h.vill := by unfold Hart.putV Hart.putC; split <;> rfl
@[simp] theorem Hart.putV_nrc (h : Hart) (v : VReg) (p e x : Nat) : (h.putV v p e x).nrc = h.nrc := by unfold Hart.putV Hart.putC; split <;> rfl
@[simp] theorem Hart.putV_sreg (h : Hart) (v : VReg) (p e x : Nat) : (h.putV v p e x).sreg = h.sreg := by unfold Hart.putV Hart.putC; split <;> rfl
@[simp] theorem Hart.putV_sreq (h : Hart) (v : VReg) (p e x : Nat) : (h.putV v p e x).sreq = h.sreq := by unfold Hart.putV Hart.putC; split <;> rfl
@[simp] theorem Hart.putV_fctl (h : Hart) (v : VReg) (p e x : Nat) : (h.putV v p e x).fctl = h.fctl := by unfold Hart.putV Hart.putC; split <;> rfl
@[simp] theorem Hart.putV_fflags (h : Hart) (v : VReg) (p e x : Nat) : (h.putV v p e x).fflags = h.fflags := by unfold Hart.putV Hart.putC; split <;> rfl
@[simp] theorem Hart.putV_srseed (h : Hart) (v : VReg) (p e x : Nat) : (h.putV v p e x).srseed = h.srseed := by unfold Hart.putV Hart.putC; split <;> rfl
@[simp] theorem Hart.putV_srseq (h : Hart) (v : VReg) (p e x : Nat) : (h.putV v p e x).srseq = h.srseq := by unfold Hart.putV Hart.putC; split <;> rfl
@[simp] theorem Hart.putV_tseedv (h : Hart) (v : VReg) (p e x : Nat) : (h.putV v p e x).tseedv = h.tseedv := by unfold Hart.putV Hart.putC; split <;> rfl
@[simp] theorem Hart.putV_tbase (h : Hart) (v : VReg) (p e x : Nat) : (h.putV v p e x).tbase = h.tbase := by unfold Hart.putV Hart.putC; split <;> rfl
@[simp] theorem Hart.putV_scale (h : Hart) (v : VReg) (p e x : Nat) : (h.putV v p e x).scale = h.scale := by unfold Hart.putV Hart.putC; split <;> rfl
@[simp] theorem Hart.putV_epoch (h : Hart) (v : VReg) (p e x : Nat) : (h.putV v p e x).epoch = h.epoch := by unfold Hart.putV Hart.putC; split <;> rfl
@[simp] theorem Hart.putV_cgroup (h : Hart) (v : VReg) (p e x : Nat) : (h.putV v p e x).cgroup = h.cgroup := by unfold Hart.putV Hart.putC; split <;> rfl
@[simp] theorem Hart.putV_cops (h : Hart) (v : VReg) (p e x : Nat) : (h.putV v p e x).cops = h.cops := by unfold Hart.putV Hart.putC; split <;> rfl
@[simp] theorem Hart.putV_cstride (h : Hart) (v : VReg) (p e x : Nat) : (h.putV v p e x).cstride = h.cstride := by unfold Hart.putV Hart.putC; split <;> rfl
@[simp] theorem Hart.putV_ctag (h : Hart) (v : VReg) (p e x : Nat) : (h.putV v p e x).ctag = h.ctag := by unfold Hart.putV Hart.putC; split <;> rfl
@[simp] theorem Hart.putV_cdens (h : Hart) (v : VReg) (p e x : Nat) : (h.putV v p e x).cdens = h.cdens := by unfold Hart.putV Hart.putC; split <;> rfl
@[simp] theorem Hart.putV_lidx (h : Hart) (v : VReg) (p e x : Nat) : (h.putV v p e x).lidx = h.lidx := by unfold Hart.putV Hart.putC; split <;> rfl
@[simp] theorem Hart.putV_capbase (h : Hart) (v : VReg) (p e x : Nat) : (h.putV v p e x).capbase = h.capbase := by unfold Hart.putV Hart.putC; split <;> rfl
@[simp] theorem Hart.putV_cause (h : Hart) (v : VReg) (p e x : Nat) : (h.putV v p e x).cause = h.cause := by unfold Hart.putV Hart.putC; split <;> rfl
@[simp] theorem Hart.putV_casync (h : Hart) (v : VReg) (p e x : Nat) : (h.putV v p e x).casync = h.casync := by unfold Hart.putV Hart.putC; split <;> rfl
@[simp] theorem Hart.putV_tpc (h : Hart) (v : VReg) (p e x : Nat) : (h.putV v p e x).tpc = h.tpc := by unfold Hart.putV Hart.putC; split <;> rfl
@[simp] theorem Hart.putV_teidx (h : Hart) (v : VReg) (p e x : Nat) : (h.putV v p e x).teidx = h.teidx := by unfold Hart.putV Hart.putC; split <;> rfl
@[simp] theorem Hart.putV_tval (h : Hart) (v : VReg) (p e x : Nat) : (h.putV v p e x).tval = h.tval := by unfold Hart.putV Hart.putC; split <;> rfl
@[simp] theorem Hart.putV_pp (h : Hart) (v : VReg) (p e x : Nat) : (h.putV v p e x).pp = h.pp := by unfold Hart.putV Hart.putC; split <;> rfl
@[simp] theorem Hart.putV_ie (h : Hart) (v : VReg) (p e x : Nat) : (h.putV v p e x).ie = h.ie := by unfold Hart.putV Hart.putC; split <;> rfl
@[simp] theorem Hart.putV_pie (h : Hart) (v : VReg) (p e x : Nat) : (h.putV v p e x).pie = h.pie := by unfold Hart.putV Hart.putC; split <;> rfl
@[simp] theorem Hart.putV_th (h : Hart) (v : VReg) (p e x : Nat) : (h.putV v p e x).th = h.th := by unfold Hart.putV Hart.putC; split <;> rfl
@[simp] theorem Hart.putV_lost (h : Hart) (v : VReg) (p e x : Nat) : (h.putV v p e x).lost = h.lost := by unfold Hart.putV Hart.putC; split <;> rfl
@[simp] theorem Hart.putV_conv (h : Hart) (v : VReg) (p e x : Nat) : (h.putV v p e x).conv = h.conv := by unfold Hart.putV Hart.putC; split <;> rfl
@[simp] theorem Hart.putV_twin (h : Hart) (v : VReg) (p e x : Nat) : (h.putV v p e x).twin = h.twin := by unfold Hart.putV Hart.putC; split <;> rfl
@[simp] theorem Hart.putV_loops (h : Hart) (v : VReg) (p e x : Nat) : (h.putV v p e x).loops = h.loops := by unfold Hart.putV Hart.putC; split <;> rfl
@[simp] theorem Hart.putV_loopsSaved (h : Hart) (v : VReg) (p e x : Nat) : (h.putV v p e x).loopsSaved = h.loopsSaved := by unfold Hart.putV Hart.putC; split <;> rfl
@[simp] theorem Hart.putV_srseqSaved (h : Hart) (v : VReg) (p e x : Nat) : (h.putV v p e x).srseqSaved = h.srseqSaved := by unfold Hart.putV Hart.putC; split <;> rfl
@[simp] theorem Hart.putV_seqSaved (h : Hart) (v : VReg) (p e x : Nat) : (h.putV v p e x).seqSaved = h.seqSaved := by unfold Hart.putV Hart.putC; split <;> rfl
@[simp] theorem Hart.putV_reuse (h : Hart) (v : VReg) (p e x : Nat) : (h.putV v p e x).reuse = h.reuse := by unfold Hart.putV Hart.putC; split <;> rfl
@[simp] theorem Hart.putV_events (h : Hart) (v : VReg) (p e x : Nat) : (h.putV v p e x).events = h.events := by unfold Hart.putV Hart.putC; split <;> rfl
@[simp] theorem Hart.putV_genSaved (h : Hart) (v : VReg) (p e x : Nat) : (h.putV v p e x).genSaved = h.genSaved := by unfold Hart.putV Hart.putC; split <;> rfl
@[simp] theorem Hart.putV_gen (h : Hart) (v : VReg) (p e x : Nat) : (h.putV v p e x).gen = h.gen := by unfold Hart.putV Hart.putC; split <;> rfl
@[simp] theorem Hart.putV_cbIdx (h : Hart) (v : VReg) (p e x : Nat) : (h.putV v p e x).cbIdx = h.cbIdx := by unfold Hart.putV Hart.putC; split <;> rfl
@[simp] theorem Hart.putV_cbHead (h : Hart) (v : VReg) (p e x : Nat) : (h.putV v p e x).cbHead = h.cbHead := by unfold Hart.putV Hart.putC; split <;> rfl
@[simp] theorem Hart.putV_cbCount (h : Hart) (v : VReg) (p e x : Nat) : (h.putV v p e x).cbCount = h.cbCount := by unfold Hart.putV Hart.putC; split <;> rfl
@[simp] theorem Hart.putV_pins (h : Hart) (v : VReg) (p e x : Nat) : (h.putV v p e x).pins = h.pins := by unfold Hart.putV Hart.putC; split <;> rfl
@[simp] theorem Hart.putV_deliveries (h : Hart) (v : VReg) (p e x : Nat) : (h.putV v p e x).deliveries = h.deliveries := by unfold Hart.putV Hart.putC; split <;> rfl
@[simp] theorem Hart.putV_copies (h : Hart) (v : VReg) (p e x : Nat) : (h.putV v p e x).copies = h.copies := by unfold Hart.putV Hart.putC; split <;> rfl
@[simp] theorem Hart.putV_chanFaults (h : Hart) (v : VReg) (p e x : Nat) : (h.putV v p e x).chanFaults = h.chanFaults := by unfold Hart.putV Hart.putC; split <;> rfl
@[simp] theorem Hart.putV_nextCopy (h : Hart) (v : VReg) (p e x : Nat) : (h.putV v p e x).nextCopy = h.nextCopy := by unfold Hart.putV Hart.putC; split <;> rfl
@[simp] theorem Hart.putV_sq (h : Hart) (v : VReg) (p e x : Nat) : (h.putV v p e x).sq = h.sq := by unfold Hart.putV Hart.putC; split <;> rfl
@[simp] theorem Hart.putV_fences (h : Hart) (v : VReg) (p e x : Nat) : (h.putV v p e x).fences = h.fences := by unfold Hart.putV Hart.putC; split <;> rfl
@[simp] theorem Hart.putV_nextSeq (h : Hart) (v : VReg) (p e x : Nat) : (h.putV v p e x).nextSeq = h.nextSeq := by unfold Hart.putV Hart.putC; split <;> rfl
@[simp] theorem Hart.putV_seen (h : Hart) (v : VReg) (p e x : Nat) : (h.putV v p e x).seen = h.seen := by unfold Hart.putV Hart.putC; split <;> rfl
@[simp] theorem Hart.putV_gather (h : Hart) (v : VReg) (p e x : Nat) : (h.putV v p e x).gather = h.gather := by unfold Hart.putV Hart.putC; split <;> rfl
@[simp] theorem Hart.putV_began (h : Hart) (v : VReg) (p e x : Nat) : (h.putV v p e x).began = h.began := by unfold Hart.putV Hart.putC; split <;> rfl
@[simp] theorem Hart.putV_run (h : Hart) (v : VReg) (p e x : Nat) : (h.putV v p e x).run = h.run := by unfold Hart.putV Hart.putC; split <;> rfl
@[simp] theorem Hart.putV_leaving (h : Hart) (v : VReg) (p e x : Nat) : (h.putV v p e x).leaving = h.leaving := by unfold Hart.putV Hart.putC; split <;> rfl
@[simp] theorem Hart.putV_stop (h : Hart) (v : VReg) (p e x : Nat) : (h.putV v p e x).stop = h.stop := by unfold Hart.putV Hart.putC; split <;> rfl
@[simp] theorem Hart.putV_dfault (h : Hart) (v : VReg) (p e x : Nat) : (h.putV v p e x).dfault = h.dfault := by unfold Hart.putV Hart.putC; split <;> rfl
@[simp] theorem Hart.putV_inst (h : Hart) (v : VReg) (p e x : Nat) : (h.putV v p e x).inst = h.inst := by unfold Hart.putV Hart.putC; split <;> rfl
@[simp] theorem Hart.putV_waiting (h : Hart) (v : VReg) (p e x : Nat) : (h.putV v p e x).waiting = h.waiting := by unfold Hart.putV Hart.putC; split <;> rfl
@[simp] theorem Hart.putV_blocked (h : Hart) (v : VReg) (p e x : Nat) : (h.putV v p e x).blocked = h.blocked := by unfold Hart.putV Hart.putC; split <;> rfl
@[simp] theorem Hart.putV_since (h : Hart) (v : VReg) (p e x : Nat) : (h.putV v p e x).since = h.since := by unfold Hart.putV Hart.putC; split <;> rfl
@[simp] theorem Hart.putV_waitAt (h : Hart) (v : VReg) (p e x : Nat) : (h.putV v p e x).waitAt = h.waitAt := by unfold Hart.putV Hart.putC; split <;> rfl
@[simp] theorem Hart.putV_got (h : Hart) (v : VReg) (p e x : Nat) : (h.putV v p e x).got = h.got := by unfold Hart.putV Hart.putC; split <;> rfl
@[simp] theorem Hart.putV_lent (h : Hart) (v : VReg) (p e x : Nat) : (h.putV v p e x).lent = h.lent := by unfold Hart.putV Hart.putC; split <;> rfl
@[simp] theorem Hart.putV_lates (h : Hart) (v : VReg) (p e x : Nat) : (h.putV v p e x).lates = h.lates := by unfold Hart.putV Hart.putC; split <;> rfl
@[simp] theorem Hart.putV_puts (h : Hart) (v : VReg) (p e x : Nat) : (h.putV v p e x).puts = h.puts := by unfold Hart.putV Hart.putC; split <;> rfl
@[simp] theorem Hart.putV_inConvoy (h : Hart) (v : VReg) (p e x : Nat) : (h.putV v p e x).inConvoy = h.inConvoy := by unfold Hart.putV Hart.putC; split <;> rfl
@[simp] theorem Hart.putV_chainSaved (h : Hart) (v : VReg) (p e x : Nat) : (h.putV v p e x).chainSaved = h.chainSaved := by unfold Hart.putV Hart.putC; split <;> rfl
@[simp] theorem Hart.putV_publishing (h : Hart) (v : VReg) (p e x : Nat) : (h.putV v p e x).publishing = h.publishing := by unfold Hart.putV Hart.putC; split <;> rfl
@[simp] theorem Hart.putV_gotBad (h : Hart) (v : VReg) (p e x : Nat) : (h.putV v p e x).gotBad = h.gotBad := by unfold Hart.putV Hart.putC; split <;> rfl
@[simp] theorem Hart.putV_poison (h : Hart) (v : VReg) (p e x : Nat) : (h.putV v p e x).poison = h.poison := by unfold Hart.putV Hart.putC; split <;> rfl
@[simp] theorem Hart.setV_pc (h : Hart) (v : VReg) (p e x : Nat) : (h.setV v p e x).pc = h.pc := by unfold Hart.setV Hart.putV Hart.putC; split <;> split <;> rfl
@[simp] theorem Hart.setV_eidx (h : Hart) (v : VReg) (p e x : Nat) : (h.setV v p e x).eidx = h.eidx := by unfold Hart.setV Hart.putV Hart.putC; split <;> split <;> rfl
@[simp] theorem Hart.setV_sup (h : Hart) (v : VReg) (p e x : Nat) : (h.setV v p e x).sup = h.sup := by unfold Hart.setV Hart.putV Hart.putC; split <;> split <;> rfl
@[simp] theorem Hart.setV_s (h : Hart) (v : VReg) (p e x : Nat) : (h.setV v p e x).s = h.s := by unfold Hart.setV Hart.putV Hart.putC; split <;> split <;> rfl
@[simp] theorem Hart.setV_k (h : Hart) (v : VReg) (p e x : Nat) : (h.setV v p e x).k = h.k := by unfold Hart.setV Hart.putV Hart.putC; split <;> split <;> rfl
@[simp] theorem Hart.setV_q (h : Hart) (v : VReg) (p e x : Nat) : (h.setV v p e x).q = h.q := by unfold Hart.setV Hart.putV Hart.putC; split <;> split <;> rfl
@[simp] theorem Hart.setV_f (h : Hart) (v : VReg) (p e x : Nat) : (h.setV v p e x).f = h.f := by unfold Hart.setV Hart.putV Hart.putC; split <;> split <;> rfl
@[simp] theorem Hart.setV_posts (h : Hart) (v : VReg) (p e x : Nat) : (h.setV v p e x).posts = h.posts := by unfold Hart.setV Hart.putV Hart.putC; split <;> split <;> rfl
@[simp] theorem Hart.setV_tcfg (h : Hart) (v : VReg) (p e x : Nat) : (h.setV v p e x).tcfg = h.tcfg := by unfold Hart.setV Hart.putV Hart.putC; split <;> split <;> rfl
@[simp] theorem Hart.setV_tel (h : Hart) (v : VReg) (p e x : Nat) : (h.setV v p e x).tel = h.tel := by unfold Hart.setV Hart.putV Hart.putC; split <;> split <;> rfl
@[simp] theorem Hart.setV_tsc (h : Hart) (v : VReg) (p e x : Nat) : (h.setV v p e x).tsc = h.tsc := by unfold Hart.setV Hart.putV Hart.putC; split <;> split <;> rfl
@[simp] theorem Hart.setV_acc (h : Hart) (v : VReg) (p e x : Nat) : (h.setV v p e x).acc = h.acc := by unfold Hart.setV Hart.putV Hart.putC; split <;> split <;> rfl
@[simp] theorem Hart.setV_binds (h : Hart) (v : VReg) (p e x : Nat) : (h.setV v p e x).binds = h.binds := by unfold Hart.setV Hart.putV Hart.putC; split <;> split <;> rfl
@[simp] theorem Hart.setV_vl (h : Hart) (v : VReg) (p e x : Nat) : (h.setV v p e x).vl = h.vl := by unfold Hart.setV Hart.putV Hart.putC; split <;> split <;> rfl
@[simp] theorem Hart.setV_vlmax (h : Hart) (v : VReg) (p e x : Nat) : (h.setV v p e x).vlmax = h.vlmax := by unfold Hart.setV Hart.putV Hart.putC; split <;> split <;> rfl
@[simp] theorem Hart.setV_efmt (h : Hart) (v : VReg) (p e x : Nat) : (h.setV v p e x).efmt = h.efmt := by unfold Hart.setV Hart.putV Hart.putC; split <;> split <;> rfl
@[simp] theorem Hart.setV_tb (h : Hart) (v : VReg) (p e x : Nat) : (h.setV v p e x).tb = h.tb := by unfold Hart.setV Hart.putV Hart.putC; split <;> split <;> rfl
@[simp] theorem Hart.setV_vill (h : Hart) (v : VReg) (p e x : Nat) : (h.setV v p e x).vill = h.vill := by unfold Hart.setV Hart.putV Hart.putC; split <;> split <;> rfl
@[simp] theorem Hart.setV_nrc (h : Hart) (v : VReg) (p e x : Nat) : (h.setV v p e x).nrc = h.nrc := by unfold Hart.setV Hart.putV Hart.putC; split <;> split <;> rfl
@[simp] theorem Hart.setV_sreg (h : Hart) (v : VReg) (p e x : Nat) : (h.setV v p e x).sreg = h.sreg := by unfold Hart.setV Hart.putV Hart.putC; split <;> split <;> rfl
@[simp] theorem Hart.setV_sreq (h : Hart) (v : VReg) (p e x : Nat) : (h.setV v p e x).sreq = h.sreq := by unfold Hart.setV Hart.putV Hart.putC; split <;> split <;> rfl
@[simp] theorem Hart.setV_fctl (h : Hart) (v : VReg) (p e x : Nat) : (h.setV v p e x).fctl = h.fctl := by unfold Hart.setV Hart.putV Hart.putC; split <;> split <;> rfl
@[simp] theorem Hart.setV_fflags (h : Hart) (v : VReg) (p e x : Nat) : (h.setV v p e x).fflags = h.fflags := by unfold Hart.setV Hart.putV Hart.putC; split <;> split <;> rfl
@[simp] theorem Hart.setV_srseed (h : Hart) (v : VReg) (p e x : Nat) : (h.setV v p e x).srseed = h.srseed := by unfold Hart.setV Hart.putV Hart.putC; split <;> split <;> rfl
@[simp] theorem Hart.setV_srseq (h : Hart) (v : VReg) (p e x : Nat) : (h.setV v p e x).srseq = h.srseq := by unfold Hart.setV Hart.putV Hart.putC; split <;> split <;> rfl
@[simp] theorem Hart.setV_tseedv (h : Hart) (v : VReg) (p e x : Nat) : (h.setV v p e x).tseedv = h.tseedv := by unfold Hart.setV Hart.putV Hart.putC; split <;> split <;> rfl
@[simp] theorem Hart.setV_tbase (h : Hart) (v : VReg) (p e x : Nat) : (h.setV v p e x).tbase = h.tbase := by unfold Hart.setV Hart.putV Hart.putC; split <;> split <;> rfl
@[simp] theorem Hart.setV_scale (h : Hart) (v : VReg) (p e x : Nat) : (h.setV v p e x).scale = h.scale := by unfold Hart.setV Hart.putV Hart.putC; split <;> split <;> rfl
@[simp] theorem Hart.setV_epoch (h : Hart) (v : VReg) (p e x : Nat) : (h.setV v p e x).epoch = h.epoch := by unfold Hart.setV Hart.putV Hart.putC; split <;> split <;> rfl
@[simp] theorem Hart.setV_cgroup (h : Hart) (v : VReg) (p e x : Nat) : (h.setV v p e x).cgroup = h.cgroup := by unfold Hart.setV Hart.putV Hart.putC; split <;> split <;> rfl
@[simp] theorem Hart.setV_cops (h : Hart) (v : VReg) (p e x : Nat) : (h.setV v p e x).cops = h.cops := by unfold Hart.setV Hart.putV Hart.putC; split <;> split <;> rfl
@[simp] theorem Hart.setV_cstride (h : Hart) (v : VReg) (p e x : Nat) : (h.setV v p e x).cstride = h.cstride := by unfold Hart.setV Hart.putV Hart.putC; split <;> split <;> rfl
@[simp] theorem Hart.setV_ctag (h : Hart) (v : VReg) (p e x : Nat) : (h.setV v p e x).ctag = h.ctag := by unfold Hart.setV Hart.putV Hart.putC; split <;> split <;> rfl
@[simp] theorem Hart.setV_cdens (h : Hart) (v : VReg) (p e x : Nat) : (h.setV v p e x).cdens = h.cdens := by unfold Hart.setV Hart.putV Hart.putC; split <;> split <;> rfl
@[simp] theorem Hart.setV_lidx (h : Hart) (v : VReg) (p e x : Nat) : (h.setV v p e x).lidx = h.lidx := by unfold Hart.setV Hart.putV Hart.putC; split <;> split <;> rfl
@[simp] theorem Hart.setV_capbase (h : Hart) (v : VReg) (p e x : Nat) : (h.setV v p e x).capbase = h.capbase := by unfold Hart.setV Hart.putV Hart.putC; split <;> split <;> rfl
@[simp] theorem Hart.setV_cause (h : Hart) (v : VReg) (p e x : Nat) : (h.setV v p e x).cause = h.cause := by unfold Hart.setV Hart.putV Hart.putC; split <;> split <;> rfl
@[simp] theorem Hart.setV_casync (h : Hart) (v : VReg) (p e x : Nat) : (h.setV v p e x).casync = h.casync := by unfold Hart.setV Hart.putV Hart.putC; split <;> split <;> rfl
@[simp] theorem Hart.setV_tpc (h : Hart) (v : VReg) (p e x : Nat) : (h.setV v p e x).tpc = h.tpc := by unfold Hart.setV Hart.putV Hart.putC; split <;> split <;> rfl
@[simp] theorem Hart.setV_teidx (h : Hart) (v : VReg) (p e x : Nat) : (h.setV v p e x).teidx = h.teidx := by unfold Hart.setV Hart.putV Hart.putC; split <;> split <;> rfl
@[simp] theorem Hart.setV_tval (h : Hart) (v : VReg) (p e x : Nat) : (h.setV v p e x).tval = h.tval := by unfold Hart.setV Hart.putV Hart.putC; split <;> split <;> rfl
@[simp] theorem Hart.setV_pp (h : Hart) (v : VReg) (p e x : Nat) : (h.setV v p e x).pp = h.pp := by unfold Hart.setV Hart.putV Hart.putC; split <;> split <;> rfl
@[simp] theorem Hart.setV_ie (h : Hart) (v : VReg) (p e x : Nat) : (h.setV v p e x).ie = h.ie := by unfold Hart.setV Hart.putV Hart.putC; split <;> split <;> rfl
@[simp] theorem Hart.setV_pie (h : Hart) (v : VReg) (p e x : Nat) : (h.setV v p e x).pie = h.pie := by unfold Hart.setV Hart.putV Hart.putC; split <;> split <;> rfl
@[simp] theorem Hart.setV_th (h : Hart) (v : VReg) (p e x : Nat) : (h.setV v p e x).th = h.th := by unfold Hart.setV Hart.putV Hart.putC; split <;> split <;> rfl
@[simp] theorem Hart.setV_lost (h : Hart) (v : VReg) (p e x : Nat) : (h.setV v p e x).lost = h.lost := by unfold Hart.setV Hart.putV Hart.putC; split <;> split <;> rfl
@[simp] theorem Hart.setV_conv (h : Hart) (v : VReg) (p e x : Nat) : (h.setV v p e x).conv = h.conv := by unfold Hart.setV Hart.putV Hart.putC; split <;> split <;> rfl
@[simp] theorem Hart.setV_twin (h : Hart) (v : VReg) (p e x : Nat) : (h.setV v p e x).twin = h.twin := by unfold Hart.setV Hart.putV Hart.putC; split <;> split <;> rfl
@[simp] theorem Hart.setV_loops (h : Hart) (v : VReg) (p e x : Nat) : (h.setV v p e x).loops = h.loops := by unfold Hart.setV Hart.putV Hart.putC; split <;> split <;> rfl
@[simp] theorem Hart.setV_loopsSaved (h : Hart) (v : VReg) (p e x : Nat) : (h.setV v p e x).loopsSaved = h.loopsSaved := by unfold Hart.setV Hart.putV Hart.putC; split <;> split <;> rfl
@[simp] theorem Hart.setV_srseqSaved (h : Hart) (v : VReg) (p e x : Nat) : (h.setV v p e x).srseqSaved = h.srseqSaved := by unfold Hart.setV Hart.putV Hart.putC; split <;> split <;> rfl
@[simp] theorem Hart.setV_seqSaved (h : Hart) (v : VReg) (p e x : Nat) : (h.setV v p e x).seqSaved = h.seqSaved := by unfold Hart.setV Hart.putV Hart.putC; split <;> split <;> rfl
@[simp] theorem Hart.setV_reuse (h : Hart) (v : VReg) (p e x : Nat) : (h.setV v p e x).reuse = h.reuse := by unfold Hart.setV Hart.putV Hart.putC; split <;> split <;> rfl
@[simp] theorem Hart.setV_events (h : Hart) (v : VReg) (p e x : Nat) : (h.setV v p e x).events = h.events := by unfold Hart.setV Hart.putV Hart.putC; split <;> split <;> rfl
@[simp] theorem Hart.setV_genSaved (h : Hart) (v : VReg) (p e x : Nat) : (h.setV v p e x).genSaved = h.genSaved := by unfold Hart.setV Hart.putV Hart.putC; split <;> split <;> rfl
@[simp] theorem Hart.setV_gen (h : Hart) (v : VReg) (p e x : Nat) : (h.setV v p e x).gen = h.gen := by unfold Hart.setV Hart.putV Hart.putC; split <;> split <;> rfl
@[simp] theorem Hart.setV_cbIdx (h : Hart) (v : VReg) (p e x : Nat) : (h.setV v p e x).cbIdx = h.cbIdx := by unfold Hart.setV Hart.putV Hart.putC; split <;> split <;> rfl
@[simp] theorem Hart.setV_cbHead (h : Hart) (v : VReg) (p e x : Nat) : (h.setV v p e x).cbHead = h.cbHead := by unfold Hart.setV Hart.putV Hart.putC; split <;> split <;> rfl
@[simp] theorem Hart.setV_cbCount (h : Hart) (v : VReg) (p e x : Nat) : (h.setV v p e x).cbCount = h.cbCount := by unfold Hart.setV Hart.putV Hart.putC; split <;> split <;> rfl
@[simp] theorem Hart.setV_pins (h : Hart) (v : VReg) (p e x : Nat) : (h.setV v p e x).pins = h.pins := by unfold Hart.setV Hart.putV Hart.putC; split <;> split <;> rfl
@[simp] theorem Hart.setV_deliveries (h : Hart) (v : VReg) (p e x : Nat) : (h.setV v p e x).deliveries = h.deliveries := by unfold Hart.setV Hart.putV Hart.putC; split <;> split <;> rfl
@[simp] theorem Hart.setV_copies (h : Hart) (v : VReg) (p e x : Nat) : (h.setV v p e x).copies = h.copies := by unfold Hart.setV Hart.putV Hart.putC; split <;> split <;> rfl
@[simp] theorem Hart.setV_chanFaults (h : Hart) (v : VReg) (p e x : Nat) : (h.setV v p e x).chanFaults = h.chanFaults := by unfold Hart.setV Hart.putV Hart.putC; split <;> split <;> rfl
@[simp] theorem Hart.setV_nextCopy (h : Hart) (v : VReg) (p e x : Nat) : (h.setV v p e x).nextCopy = h.nextCopy := by unfold Hart.setV Hart.putV Hart.putC; split <;> split <;> rfl
@[simp] theorem Hart.setV_sq (h : Hart) (v : VReg) (p e x : Nat) : (h.setV v p e x).sq = h.sq := by unfold Hart.setV Hart.putV Hart.putC; split <;> split <;> rfl
@[simp] theorem Hart.setV_fences (h : Hart) (v : VReg) (p e x : Nat) : (h.setV v p e x).fences = h.fences := by unfold Hart.setV Hart.putV Hart.putC; split <;> split <;> rfl
@[simp] theorem Hart.setV_nextSeq (h : Hart) (v : VReg) (p e x : Nat) : (h.setV v p e x).nextSeq = h.nextSeq := by unfold Hart.setV Hart.putV Hart.putC; split <;> split <;> rfl
@[simp] theorem Hart.setV_seen (h : Hart) (v : VReg) (p e x : Nat) : (h.setV v p e x).seen = h.seen := by unfold Hart.setV Hart.putV Hart.putC; split <;> split <;> rfl
@[simp] theorem Hart.setV_gather (h : Hart) (v : VReg) (p e x : Nat) : (h.setV v p e x).gather = h.gather := by unfold Hart.setV Hart.putV Hart.putC; split <;> split <;> rfl
@[simp] theorem Hart.setV_began (h : Hart) (v : VReg) (p e x : Nat) : (h.setV v p e x).began = h.began := by unfold Hart.setV Hart.putV Hart.putC; split <;> split <;> rfl
@[simp] theorem Hart.setV_run (h : Hart) (v : VReg) (p e x : Nat) : (h.setV v p e x).run = h.run := by unfold Hart.setV Hart.putV Hart.putC; split <;> split <;> rfl
@[simp] theorem Hart.setV_leaving (h : Hart) (v : VReg) (p e x : Nat) : (h.setV v p e x).leaving = h.leaving := by unfold Hart.setV Hart.putV Hart.putC; split <;> split <;> rfl
@[simp] theorem Hart.setV_stop (h : Hart) (v : VReg) (p e x : Nat) : (h.setV v p e x).stop = h.stop := by unfold Hart.setV Hart.putV Hart.putC; split <;> split <;> rfl
@[simp] theorem Hart.setV_dfault (h : Hart) (v : VReg) (p e x : Nat) : (h.setV v p e x).dfault = h.dfault := by unfold Hart.setV Hart.putV Hart.putC; split <;> split <;> rfl
@[simp] theorem Hart.setV_inst (h : Hart) (v : VReg) (p e x : Nat) : (h.setV v p e x).inst = h.inst := by unfold Hart.setV Hart.putV Hart.putC; split <;> split <;> rfl
@[simp] theorem Hart.setV_waiting (h : Hart) (v : VReg) (p e x : Nat) : (h.setV v p e x).waiting = h.waiting := by unfold Hart.setV Hart.putV Hart.putC; split <;> split <;> rfl
@[simp] theorem Hart.setV_blocked (h : Hart) (v : VReg) (p e x : Nat) : (h.setV v p e x).blocked = h.blocked := by unfold Hart.setV Hart.putV Hart.putC; split <;> split <;> rfl
@[simp] theorem Hart.setV_since (h : Hart) (v : VReg) (p e x : Nat) : (h.setV v p e x).since = h.since := by unfold Hart.setV Hart.putV Hart.putC; split <;> split <;> rfl
@[simp] theorem Hart.setV_waitAt (h : Hart) (v : VReg) (p e x : Nat) : (h.setV v p e x).waitAt = h.waitAt := by unfold Hart.setV Hart.putV Hart.putC; split <;> split <;> rfl
@[simp] theorem Hart.setV_got (h : Hart) (v : VReg) (p e x : Nat) : (h.setV v p e x).got = h.got := by unfold Hart.setV Hart.putV Hart.putC; split <;> split <;> rfl
@[simp] theorem Hart.setV_lent (h : Hart) (v : VReg) (p e x : Nat) : (h.setV v p e x).lent = h.lent := by unfold Hart.setV Hart.putV Hart.putC; split <;> split <;> rfl
@[simp] theorem Hart.setV_lates (h : Hart) (v : VReg) (p e x : Nat) : (h.setV v p e x).lates = h.lates := by unfold Hart.setV Hart.putV Hart.putC; split <;> split <;> rfl
@[simp] theorem Hart.setV_inConvoy (h : Hart) (v : VReg) (p e x : Nat) : (h.setV v p e x).inConvoy = h.inConvoy := by unfold Hart.setV Hart.putV Hart.putC; split <;> split <;> rfl
@[simp] theorem Hart.setV_chainSaved (h : Hart) (v : VReg) (p e x : Nat) : (h.setV v p e x).chainSaved = h.chainSaved := by unfold Hart.setV Hart.putV Hart.putC; split <;> split <;> rfl
@[simp] theorem Hart.setV_publishing (h : Hart) (v : VReg) (p e x : Nat) : (h.setV v p e x).publishing = h.publishing := by unfold Hart.setV Hart.putV Hart.putC; split <;> split <;> rfl
@[simp] theorem Hart.setV_gotBad (h : Hart) (v : VReg) (p e x : Nat) : (h.setV v p e x).gotBad = h.gotBad := by unfold Hart.setV Hart.putV Hart.putC; split <;> split <;> rfl
@[simp] theorem Hart.setV_poison (h : Hart) (v : VReg) (p e x : Nat) : (h.setV v p e x).poison = h.poison := by unfold Hart.setV Hart.putV Hart.putC; split <;> split <;> rfl
@[simp] theorem Hart.setQ_pc (h : Hart) (q : Nat) (x : QReg) : (h.setQ q x).pc = h.pc := rfl
@[simp] theorem Hart.setQ_eidx (h : Hart) (q : Nat) (x : QReg) : (h.setQ q x).eidx = h.eidx := rfl
@[simp] theorem Hart.setQ_sup (h : Hart) (q : Nat) (x : QReg) : (h.setQ q x).sup = h.sup := rfl
@[simp] theorem Hart.setQ_s (h : Hart) (q : Nat) (x : QReg) : (h.setQ q x).s = h.s := rfl
@[simp] theorem Hart.setQ_k (h : Hart) (q : Nat) (x : QReg) : (h.setQ q x).k = h.k := rfl
@[simp] theorem Hart.setQ_v (h : Hart) (q : Nat) (x : QReg) : (h.setQ q x).v = h.v := rfl
@[simp] theorem Hart.setQ_f (h : Hart) (q : Nat) (x : QReg) : (h.setQ q x).f = h.f := rfl
@[simp] theorem Hart.setQ_posts (h : Hart) (q : Nat) (x : QReg) : (h.setQ q x).posts = h.posts := rfl
@[simp] theorem Hart.setQ_tcfg (h : Hart) (q : Nat) (x : QReg) : (h.setQ q x).tcfg = h.tcfg := rfl
@[simp] theorem Hart.setQ_tel (h : Hart) (q : Nat) (x : QReg) : (h.setQ q x).tel = h.tel := rfl
@[simp] theorem Hart.setQ_tsc (h : Hart) (q : Nat) (x : QReg) : (h.setQ q x).tsc = h.tsc := rfl
@[simp] theorem Hart.setQ_acc (h : Hart) (q : Nat) (x : QReg) : (h.setQ q x).acc = h.acc := rfl
@[simp] theorem Hart.setQ_binds (h : Hart) (q : Nat) (x : QReg) : (h.setQ q x).binds = h.binds := rfl
@[simp] theorem Hart.setQ_vl (h : Hart) (q : Nat) (x : QReg) : (h.setQ q x).vl = h.vl := rfl
@[simp] theorem Hart.setQ_vlmax (h : Hart) (q : Nat) (x : QReg) : (h.setQ q x).vlmax = h.vlmax := rfl
@[simp] theorem Hart.setQ_efmt (h : Hart) (q : Nat) (x : QReg) : (h.setQ q x).efmt = h.efmt := rfl
@[simp] theorem Hart.setQ_tb (h : Hart) (q : Nat) (x : QReg) : (h.setQ q x).tb = h.tb := rfl
@[simp] theorem Hart.setQ_vill (h : Hart) (q : Nat) (x : QReg) : (h.setQ q x).vill = h.vill := rfl
@[simp] theorem Hart.setQ_nrc (h : Hart) (q : Nat) (x : QReg) : (h.setQ q x).nrc = h.nrc := rfl
@[simp] theorem Hart.setQ_sreg (h : Hart) (q : Nat) (x : QReg) : (h.setQ q x).sreg = h.sreg := rfl
@[simp] theorem Hart.setQ_sreq (h : Hart) (q : Nat) (x : QReg) : (h.setQ q x).sreq = h.sreq := rfl
@[simp] theorem Hart.setQ_fctl (h : Hart) (q : Nat) (x : QReg) : (h.setQ q x).fctl = h.fctl := rfl
@[simp] theorem Hart.setQ_fflags (h : Hart) (q : Nat) (x : QReg) : (h.setQ q x).fflags = h.fflags := rfl
@[simp] theorem Hart.setQ_srseed (h : Hart) (q : Nat) (x : QReg) : (h.setQ q x).srseed = h.srseed := rfl
@[simp] theorem Hart.setQ_srseq (h : Hart) (q : Nat) (x : QReg) : (h.setQ q x).srseq = h.srseq := rfl
@[simp] theorem Hart.setQ_tseedv (h : Hart) (q : Nat) (x : QReg) : (h.setQ q x).tseedv = h.tseedv := rfl
@[simp] theorem Hart.setQ_tbase (h : Hart) (q : Nat) (x : QReg) : (h.setQ q x).tbase = h.tbase := rfl
@[simp] theorem Hart.setQ_scale (h : Hart) (q : Nat) (x : QReg) : (h.setQ q x).scale = h.scale := rfl
@[simp] theorem Hart.setQ_epoch (h : Hart) (q : Nat) (x : QReg) : (h.setQ q x).epoch = h.epoch := rfl
@[simp] theorem Hart.setQ_cgroup (h : Hart) (q : Nat) (x : QReg) : (h.setQ q x).cgroup = h.cgroup := rfl
@[simp] theorem Hart.setQ_cops (h : Hart) (q : Nat) (x : QReg) : (h.setQ q x).cops = h.cops := rfl
@[simp] theorem Hart.setQ_cstride (h : Hart) (q : Nat) (x : QReg) : (h.setQ q x).cstride = h.cstride := rfl
@[simp] theorem Hart.setQ_ctag (h : Hart) (q : Nat) (x : QReg) : (h.setQ q x).ctag = h.ctag := rfl
@[simp] theorem Hart.setQ_cdens (h : Hart) (q : Nat) (x : QReg) : (h.setQ q x).cdens = h.cdens := rfl
@[simp] theorem Hart.setQ_lidx (h : Hart) (q : Nat) (x : QReg) : (h.setQ q x).lidx = h.lidx := rfl
@[simp] theorem Hart.setQ_capbase (h : Hart) (q : Nat) (x : QReg) : (h.setQ q x).capbase = h.capbase := rfl
@[simp] theorem Hart.setQ_cause (h : Hart) (q : Nat) (x : QReg) : (h.setQ q x).cause = h.cause := rfl
@[simp] theorem Hart.setQ_casync (h : Hart) (q : Nat) (x : QReg) : (h.setQ q x).casync = h.casync := rfl
@[simp] theorem Hart.setQ_tpc (h : Hart) (q : Nat) (x : QReg) : (h.setQ q x).tpc = h.tpc := rfl
@[simp] theorem Hart.setQ_teidx (h : Hart) (q : Nat) (x : QReg) : (h.setQ q x).teidx = h.teidx := rfl
@[simp] theorem Hart.setQ_tval (h : Hart) (q : Nat) (x : QReg) : (h.setQ q x).tval = h.tval := rfl
@[simp] theorem Hart.setQ_pp (h : Hart) (q : Nat) (x : QReg) : (h.setQ q x).pp = h.pp := rfl
@[simp] theorem Hart.setQ_ie (h : Hart) (q : Nat) (x : QReg) : (h.setQ q x).ie = h.ie := rfl
@[simp] theorem Hart.setQ_pie (h : Hart) (q : Nat) (x : QReg) : (h.setQ q x).pie = h.pie := rfl
@[simp] theorem Hart.setQ_th (h : Hart) (q : Nat) (x : QReg) : (h.setQ q x).th = h.th := rfl
@[simp] theorem Hart.setQ_lost (h : Hart) (q : Nat) (x : QReg) : (h.setQ q x).lost = h.lost := rfl
@[simp] theorem Hart.setQ_conv (h : Hart) (q : Nat) (x : QReg) : (h.setQ q x).conv = h.conv := rfl
@[simp] theorem Hart.setQ_twin (h : Hart) (q : Nat) (x : QReg) : (h.setQ q x).twin = h.twin := rfl
@[simp] theorem Hart.setQ_loops (h : Hart) (q : Nat) (x : QReg) : (h.setQ q x).loops = h.loops := rfl
@[simp] theorem Hart.setQ_loopsSaved (h : Hart) (q : Nat) (x : QReg) : (h.setQ q x).loopsSaved = h.loopsSaved := rfl
@[simp] theorem Hart.setQ_srseqSaved (h : Hart) (q : Nat) (x : QReg) : (h.setQ q x).srseqSaved = h.srseqSaved := rfl
@[simp] theorem Hart.setQ_seqSaved (h : Hart) (q : Nat) (x : QReg) : (h.setQ q x).seqSaved = h.seqSaved := rfl
@[simp] theorem Hart.setQ_reuse (h : Hart) (q : Nat) (x : QReg) : (h.setQ q x).reuse = h.reuse := rfl
@[simp] theorem Hart.setQ_events (h : Hart) (q : Nat) (x : QReg) : (h.setQ q x).events = h.events := rfl
@[simp] theorem Hart.setQ_genSaved (h : Hart) (q : Nat) (x : QReg) : (h.setQ q x).genSaved = h.genSaved := rfl
@[simp] theorem Hart.setQ_gen (h : Hart) (q : Nat) (x : QReg) : (h.setQ q x).gen = h.gen := rfl
@[simp] theorem Hart.setQ_cbIdx (h : Hart) (q : Nat) (x : QReg) : (h.setQ q x).cbIdx = h.cbIdx := rfl
@[simp] theorem Hart.setQ_cbHead (h : Hart) (q : Nat) (x : QReg) : (h.setQ q x).cbHead = h.cbHead := rfl
@[simp] theorem Hart.setQ_cbCount (h : Hart) (q : Nat) (x : QReg) : (h.setQ q x).cbCount = h.cbCount := rfl
@[simp] theorem Hart.setQ_pins (h : Hart) (q : Nat) (x : QReg) : (h.setQ q x).pins = h.pins := rfl
@[simp] theorem Hart.setQ_deliveries (h : Hart) (q : Nat) (x : QReg) : (h.setQ q x).deliveries = h.deliveries := rfl
@[simp] theorem Hart.setQ_copies (h : Hart) (q : Nat) (x : QReg) : (h.setQ q x).copies = h.copies := rfl
@[simp] theorem Hart.setQ_chanFaults (h : Hart) (q : Nat) (x : QReg) : (h.setQ q x).chanFaults = h.chanFaults := rfl
@[simp] theorem Hart.setQ_nextCopy (h : Hart) (q : Nat) (x : QReg) : (h.setQ q x).nextCopy = h.nextCopy := rfl
@[simp] theorem Hart.setQ_sq (h : Hart) (q : Nat) (x : QReg) : (h.setQ q x).sq = h.sq := rfl
@[simp] theorem Hart.setQ_fences (h : Hart) (q : Nat) (x : QReg) : (h.setQ q x).fences = h.fences := rfl
@[simp] theorem Hart.setQ_nextSeq (h : Hart) (q : Nat) (x : QReg) : (h.setQ q x).nextSeq = h.nextSeq := rfl
@[simp] theorem Hart.setQ_seen (h : Hart) (q : Nat) (x : QReg) : (h.setQ q x).seen = h.seen := rfl
@[simp] theorem Hart.setQ_gather (h : Hart) (q : Nat) (x : QReg) : (h.setQ q x).gather = h.gather := rfl
@[simp] theorem Hart.setQ_began (h : Hart) (q : Nat) (x : QReg) : (h.setQ q x).began = h.began := rfl
@[simp] theorem Hart.setQ_run (h : Hart) (q : Nat) (x : QReg) : (h.setQ q x).run = h.run := rfl
@[simp] theorem Hart.setQ_leaving (h : Hart) (q : Nat) (x : QReg) : (h.setQ q x).leaving = h.leaving := rfl
@[simp] theorem Hart.setQ_stop (h : Hart) (q : Nat) (x : QReg) : (h.setQ q x).stop = h.stop := rfl
@[simp] theorem Hart.setQ_dfault (h : Hart) (q : Nat) (x : QReg) : (h.setQ q x).dfault = h.dfault := rfl
@[simp] theorem Hart.setQ_inst (h : Hart) (q : Nat) (x : QReg) : (h.setQ q x).inst = h.inst := rfl
@[simp] theorem Hart.setQ_waiting (h : Hart) (q : Nat) (x : QReg) : (h.setQ q x).waiting = h.waiting := rfl
@[simp] theorem Hart.setQ_blocked (h : Hart) (q : Nat) (x : QReg) : (h.setQ q x).blocked = h.blocked := rfl
@[simp] theorem Hart.setQ_since (h : Hart) (q : Nat) (x : QReg) : (h.setQ q x).since = h.since := rfl
@[simp] theorem Hart.setQ_waitAt (h : Hart) (q : Nat) (x : QReg) : (h.setQ q x).waitAt = h.waitAt := rfl
@[simp] theorem Hart.setQ_got (h : Hart) (q : Nat) (x : QReg) : (h.setQ q x).got = h.got := rfl
@[simp] theorem Hart.setQ_lent (h : Hart) (q : Nat) (x : QReg) : (h.setQ q x).lent = h.lent := rfl
@[simp] theorem Hart.setQ_lates (h : Hart) (q : Nat) (x : QReg) : (h.setQ q x).lates = h.lates := rfl
@[simp] theorem Hart.setQ_puts (h : Hart) (q : Nat) (x : QReg) : (h.setQ q x).puts = h.puts := rfl
@[simp] theorem Hart.setQ_inConvoy (h : Hart) (q : Nat) (x : QReg) : (h.setQ q x).inConvoy = h.inConvoy := rfl
@[simp] theorem Hart.setQ_chainSaved (h : Hart) (q : Nat) (x : QReg) : (h.setQ q x).chainSaved = h.chainSaved := rfl
@[simp] theorem Hart.setQ_publishing (h : Hart) (q : Nat) (x : QReg) : (h.setQ q x).publishing = h.publishing := rfl
@[simp] theorem Hart.setQ_gotBad (h : Hart) (q : Nat) (x : QReg) : (h.setQ q x).gotBad = h.gotBad := rfl
@[simp] theorem Hart.setQ_poison (h : Hart) (q : Nat) (x : QReg) : (h.setQ q x).poison = h.poison := rfl
@[simp] theorem Hart.setF_pc (h : Hart) (f : Nat) (x : FReg) : (h.setF f x).pc = h.pc := rfl
@[simp] theorem Hart.setF_eidx (h : Hart) (f : Nat) (x : FReg) : (h.setF f x).eidx = h.eidx := rfl
@[simp] theorem Hart.setF_sup (h : Hart) (f : Nat) (x : FReg) : (h.setF f x).sup = h.sup := rfl
@[simp] theorem Hart.setF_s (h : Hart) (f : Nat) (x : FReg) : (h.setF f x).s = h.s := rfl
@[simp] theorem Hart.setF_k (h : Hart) (f : Nat) (x : FReg) : (h.setF f x).k = h.k := rfl
@[simp] theorem Hart.setF_v (h : Hart) (f : Nat) (x : FReg) : (h.setF f x).v = h.v := rfl
@[simp] theorem Hart.setF_q (h : Hart) (f : Nat) (x : FReg) : (h.setF f x).q = h.q := rfl
@[simp] theorem Hart.setF_posts (h : Hart) (f : Nat) (x : FReg) : (h.setF f x).posts = h.posts := rfl
@[simp] theorem Hart.setF_tcfg (h : Hart) (f : Nat) (x : FReg) : (h.setF f x).tcfg = h.tcfg := rfl
@[simp] theorem Hart.setF_tel (h : Hart) (f : Nat) (x : FReg) : (h.setF f x).tel = h.tel := rfl
@[simp] theorem Hart.setF_tsc (h : Hart) (f : Nat) (x : FReg) : (h.setF f x).tsc = h.tsc := rfl
@[simp] theorem Hart.setF_acc (h : Hart) (f : Nat) (x : FReg) : (h.setF f x).acc = h.acc := rfl
@[simp] theorem Hart.setF_binds (h : Hart) (f : Nat) (x : FReg) : (h.setF f x).binds = h.binds := rfl
@[simp] theorem Hart.setF_vl (h : Hart) (f : Nat) (x : FReg) : (h.setF f x).vl = h.vl := rfl
@[simp] theorem Hart.setF_vlmax (h : Hart) (f : Nat) (x : FReg) : (h.setF f x).vlmax = h.vlmax := rfl
@[simp] theorem Hart.setF_efmt (h : Hart) (f : Nat) (x : FReg) : (h.setF f x).efmt = h.efmt := rfl
@[simp] theorem Hart.setF_tb (h : Hart) (f : Nat) (x : FReg) : (h.setF f x).tb = h.tb := rfl
@[simp] theorem Hart.setF_vill (h : Hart) (f : Nat) (x : FReg) : (h.setF f x).vill = h.vill := rfl
@[simp] theorem Hart.setF_nrc (h : Hart) (f : Nat) (x : FReg) : (h.setF f x).nrc = h.nrc := rfl
@[simp] theorem Hart.setF_sreg (h : Hart) (f : Nat) (x : FReg) : (h.setF f x).sreg = h.sreg := rfl
@[simp] theorem Hart.setF_sreq (h : Hart) (f : Nat) (x : FReg) : (h.setF f x).sreq = h.sreq := rfl
@[simp] theorem Hart.setF_fctl (h : Hart) (f : Nat) (x : FReg) : (h.setF f x).fctl = h.fctl := rfl
@[simp] theorem Hart.setF_fflags (h : Hart) (f : Nat) (x : FReg) : (h.setF f x).fflags = h.fflags := rfl
@[simp] theorem Hart.setF_srseed (h : Hart) (f : Nat) (x : FReg) : (h.setF f x).srseed = h.srseed := rfl
@[simp] theorem Hart.setF_srseq (h : Hart) (f : Nat) (x : FReg) : (h.setF f x).srseq = h.srseq := rfl
@[simp] theorem Hart.setF_tseedv (h : Hart) (f : Nat) (x : FReg) : (h.setF f x).tseedv = h.tseedv := rfl
@[simp] theorem Hart.setF_tbase (h : Hart) (f : Nat) (x : FReg) : (h.setF f x).tbase = h.tbase := rfl
@[simp] theorem Hart.setF_scale (h : Hart) (f : Nat) (x : FReg) : (h.setF f x).scale = h.scale := rfl
@[simp] theorem Hart.setF_epoch (h : Hart) (f : Nat) (x : FReg) : (h.setF f x).epoch = h.epoch := rfl
@[simp] theorem Hart.setF_cgroup (h : Hart) (f : Nat) (x : FReg) : (h.setF f x).cgroup = h.cgroup := rfl
@[simp] theorem Hart.setF_cops (h : Hart) (f : Nat) (x : FReg) : (h.setF f x).cops = h.cops := rfl
@[simp] theorem Hart.setF_cstride (h : Hart) (f : Nat) (x : FReg) : (h.setF f x).cstride = h.cstride := rfl
@[simp] theorem Hart.setF_ctag (h : Hart) (f : Nat) (x : FReg) : (h.setF f x).ctag = h.ctag := rfl
@[simp] theorem Hart.setF_cdens (h : Hart) (f : Nat) (x : FReg) : (h.setF f x).cdens = h.cdens := rfl
@[simp] theorem Hart.setF_lidx (h : Hart) (f : Nat) (x : FReg) : (h.setF f x).lidx = h.lidx := rfl
@[simp] theorem Hart.setF_capbase (h : Hart) (f : Nat) (x : FReg) : (h.setF f x).capbase = h.capbase := rfl
@[simp] theorem Hart.setF_cause (h : Hart) (f : Nat) (x : FReg) : (h.setF f x).cause = h.cause := rfl
@[simp] theorem Hart.setF_casync (h : Hart) (f : Nat) (x : FReg) : (h.setF f x).casync = h.casync := rfl
@[simp] theorem Hart.setF_tpc (h : Hart) (f : Nat) (x : FReg) : (h.setF f x).tpc = h.tpc := rfl
@[simp] theorem Hart.setF_teidx (h : Hart) (f : Nat) (x : FReg) : (h.setF f x).teidx = h.teidx := rfl
@[simp] theorem Hart.setF_tval (h : Hart) (f : Nat) (x : FReg) : (h.setF f x).tval = h.tval := rfl
@[simp] theorem Hart.setF_pp (h : Hart) (f : Nat) (x : FReg) : (h.setF f x).pp = h.pp := rfl
@[simp] theorem Hart.setF_ie (h : Hart) (f : Nat) (x : FReg) : (h.setF f x).ie = h.ie := rfl
@[simp] theorem Hart.setF_pie (h : Hart) (f : Nat) (x : FReg) : (h.setF f x).pie = h.pie := rfl
@[simp] theorem Hart.setF_th (h : Hart) (f : Nat) (x : FReg) : (h.setF f x).th = h.th := rfl
@[simp] theorem Hart.setF_lost (h : Hart) (f : Nat) (x : FReg) : (h.setF f x).lost = h.lost := rfl
@[simp] theorem Hart.setF_conv (h : Hart) (f : Nat) (x : FReg) : (h.setF f x).conv = h.conv := rfl
@[simp] theorem Hart.setF_twin (h : Hart) (f : Nat) (x : FReg) : (h.setF f x).twin = h.twin := rfl
@[simp] theorem Hart.setF_loops (h : Hart) (f : Nat) (x : FReg) : (h.setF f x).loops = h.loops := rfl
@[simp] theorem Hart.setF_loopsSaved (h : Hart) (f : Nat) (x : FReg) : (h.setF f x).loopsSaved = h.loopsSaved := rfl
@[simp] theorem Hart.setF_srseqSaved (h : Hart) (f : Nat) (x : FReg) : (h.setF f x).srseqSaved = h.srseqSaved := rfl
@[simp] theorem Hart.setF_seqSaved (h : Hart) (f : Nat) (x : FReg) : (h.setF f x).seqSaved = h.seqSaved := rfl
@[simp] theorem Hart.setF_reuse (h : Hart) (f : Nat) (x : FReg) : (h.setF f x).reuse = h.reuse := rfl
@[simp] theorem Hart.setF_events (h : Hart) (f : Nat) (x : FReg) : (h.setF f x).events = h.events := rfl
@[simp] theorem Hart.setF_genSaved (h : Hart) (f : Nat) (x : FReg) : (h.setF f x).genSaved = h.genSaved := rfl
@[simp] theorem Hart.setF_gen (h : Hart) (f : Nat) (x : FReg) : (h.setF f x).gen = h.gen := rfl
@[simp] theorem Hart.setF_cbIdx (h : Hart) (f : Nat) (x : FReg) : (h.setF f x).cbIdx = h.cbIdx := rfl
@[simp] theorem Hart.setF_cbHead (h : Hart) (f : Nat) (x : FReg) : (h.setF f x).cbHead = h.cbHead := rfl
@[simp] theorem Hart.setF_cbCount (h : Hart) (f : Nat) (x : FReg) : (h.setF f x).cbCount = h.cbCount := rfl
@[simp] theorem Hart.setF_pins (h : Hart) (f : Nat) (x : FReg) : (h.setF f x).pins = h.pins := rfl
@[simp] theorem Hart.setF_deliveries (h : Hart) (f : Nat) (x : FReg) : (h.setF f x).deliveries = h.deliveries := rfl
@[simp] theorem Hart.setF_copies (h : Hart) (f : Nat) (x : FReg) : (h.setF f x).copies = h.copies := rfl
@[simp] theorem Hart.setF_chanFaults (h : Hart) (f : Nat) (x : FReg) : (h.setF f x).chanFaults = h.chanFaults := rfl
@[simp] theorem Hart.setF_nextCopy (h : Hart) (f : Nat) (x : FReg) : (h.setF f x).nextCopy = h.nextCopy := rfl
@[simp] theorem Hart.setF_sq (h : Hart) (f : Nat) (x : FReg) : (h.setF f x).sq = h.sq := rfl
@[simp] theorem Hart.setF_fences (h : Hart) (f : Nat) (x : FReg) : (h.setF f x).fences = h.fences := rfl
@[simp] theorem Hart.setF_nextSeq (h : Hart) (f : Nat) (x : FReg) : (h.setF f x).nextSeq = h.nextSeq := rfl
@[simp] theorem Hart.setF_seen (h : Hart) (f : Nat) (x : FReg) : (h.setF f x).seen = h.seen := rfl
@[simp] theorem Hart.setF_gather (h : Hart) (f : Nat) (x : FReg) : (h.setF f x).gather = h.gather := rfl
@[simp] theorem Hart.setF_began (h : Hart) (f : Nat) (x : FReg) : (h.setF f x).began = h.began := rfl
@[simp] theorem Hart.setF_run (h : Hart) (f : Nat) (x : FReg) : (h.setF f x).run = h.run := rfl
@[simp] theorem Hart.setF_leaving (h : Hart) (f : Nat) (x : FReg) : (h.setF f x).leaving = h.leaving := rfl
@[simp] theorem Hart.setF_stop (h : Hart) (f : Nat) (x : FReg) : (h.setF f x).stop = h.stop := rfl
@[simp] theorem Hart.setF_dfault (h : Hart) (f : Nat) (x : FReg) : (h.setF f x).dfault = h.dfault := rfl
@[simp] theorem Hart.setF_inst (h : Hart) (f : Nat) (x : FReg) : (h.setF f x).inst = h.inst := rfl
@[simp] theorem Hart.setF_waiting (h : Hart) (f : Nat) (x : FReg) : (h.setF f x).waiting = h.waiting := rfl
@[simp] theorem Hart.setF_blocked (h : Hart) (f : Nat) (x : FReg) : (h.setF f x).blocked = h.blocked := rfl
@[simp] theorem Hart.setF_since (h : Hart) (f : Nat) (x : FReg) : (h.setF f x).since = h.since := rfl
@[simp] theorem Hart.setF_waitAt (h : Hart) (f : Nat) (x : FReg) : (h.setF f x).waitAt = h.waitAt := rfl
@[simp] theorem Hart.setF_got (h : Hart) (f : Nat) (x : FReg) : (h.setF f x).got = h.got := rfl
@[simp] theorem Hart.setF_lent (h : Hart) (f : Nat) (x : FReg) : (h.setF f x).lent = h.lent := rfl
@[simp] theorem Hart.setF_lates (h : Hart) (f : Nat) (x : FReg) : (h.setF f x).lates = h.lates := rfl
@[simp] theorem Hart.setF_puts (h : Hart) (f : Nat) (x : FReg) : (h.setF f x).puts = h.puts := rfl
@[simp] theorem Hart.setF_inConvoy (h : Hart) (f : Nat) (x : FReg) : (h.setF f x).inConvoy = h.inConvoy := rfl
@[simp] theorem Hart.setF_chainSaved (h : Hart) (f : Nat) (x : FReg) : (h.setF f x).chainSaved = h.chainSaved := rfl
@[simp] theorem Hart.setF_publishing (h : Hart) (f : Nat) (x : FReg) : (h.setF f x).publishing = h.publishing := rfl
@[simp] theorem Hart.setF_gotBad (h : Hart) (f : Nat) (x : FReg) : (h.setF f x).gotBad = h.gotBad := rfl
@[simp] theorem Hart.setF_poison (h : Hart) (f : Nat) (x : FReg) : (h.setF f x).poison = h.poison := rfl
@[simp] theorem Hart.raise_pc (h : Hart) (p f : Nat) : (h.raise p f).pc = h.pc := rfl
@[simp] theorem Hart.raise_eidx (h : Hart) (p f : Nat) : (h.raise p f).eidx = h.eidx := rfl
@[simp] theorem Hart.raise_sup (h : Hart) (p f : Nat) : (h.raise p f).sup = h.sup := rfl
@[simp] theorem Hart.raise_s (h : Hart) (p f : Nat) : (h.raise p f).s = h.s := rfl
@[simp] theorem Hart.raise_k (h : Hart) (p f : Nat) : (h.raise p f).k = h.k := rfl
@[simp] theorem Hart.raise_v (h : Hart) (p f : Nat) : (h.raise p f).v = h.v := rfl
@[simp] theorem Hart.raise_q (h : Hart) (p f : Nat) : (h.raise p f).q = h.q := rfl
@[simp] theorem Hart.raise_f (h : Hart) (p f : Nat) : (h.raise p f).f = h.f := rfl
@[simp] theorem Hart.raise_posts (h : Hart) (p f : Nat) : (h.raise p f).posts = h.posts := rfl
@[simp] theorem Hart.raise_tcfg (h : Hart) (p f : Nat) : (h.raise p f).tcfg = h.tcfg := rfl
@[simp] theorem Hart.raise_tel (h : Hart) (p f : Nat) : (h.raise p f).tel = h.tel := rfl
@[simp] theorem Hart.raise_tsc (h : Hart) (p f : Nat) : (h.raise p f).tsc = h.tsc := rfl
@[simp] theorem Hart.raise_acc (h : Hart) (p f : Nat) : (h.raise p f).acc = h.acc := rfl
@[simp] theorem Hart.raise_binds (h : Hart) (p f : Nat) : (h.raise p f).binds = h.binds := rfl
@[simp] theorem Hart.raise_vl (h : Hart) (p f : Nat) : (h.raise p f).vl = h.vl := rfl
@[simp] theorem Hart.raise_vlmax (h : Hart) (p f : Nat) : (h.raise p f).vlmax = h.vlmax := rfl
@[simp] theorem Hart.raise_efmt (h : Hart) (p f : Nat) : (h.raise p f).efmt = h.efmt := rfl
@[simp] theorem Hart.raise_tb (h : Hart) (p f : Nat) : (h.raise p f).tb = h.tb := rfl
@[simp] theorem Hart.raise_vill (h : Hart) (p f : Nat) : (h.raise p f).vill = h.vill := rfl
@[simp] theorem Hart.raise_nrc (h : Hart) (p f : Nat) : (h.raise p f).nrc = h.nrc := rfl
@[simp] theorem Hart.raise_sreg (h : Hart) (p f : Nat) : (h.raise p f).sreg = h.sreg := rfl
@[simp] theorem Hart.raise_sreq (h : Hart) (p f : Nat) : (h.raise p f).sreq = h.sreq := rfl
@[simp] theorem Hart.raise_fctl (h : Hart) (p f : Nat) : (h.raise p f).fctl = h.fctl := rfl
@[simp] theorem Hart.raise_srseed (h : Hart) (p f : Nat) : (h.raise p f).srseed = h.srseed := rfl
@[simp] theorem Hart.raise_srseq (h : Hart) (p f : Nat) : (h.raise p f).srseq = h.srseq := rfl
@[simp] theorem Hart.raise_tseedv (h : Hart) (p f : Nat) : (h.raise p f).tseedv = h.tseedv := rfl
@[simp] theorem Hart.raise_tbase (h : Hart) (p f : Nat) : (h.raise p f).tbase = h.tbase := rfl
@[simp] theorem Hart.raise_scale (h : Hart) (p f : Nat) : (h.raise p f).scale = h.scale := rfl
@[simp] theorem Hart.raise_epoch (h : Hart) (p f : Nat) : (h.raise p f).epoch = h.epoch := rfl
@[simp] theorem Hart.raise_cgroup (h : Hart) (p f : Nat) : (h.raise p f).cgroup = h.cgroup := rfl
@[simp] theorem Hart.raise_cops (h : Hart) (p f : Nat) : (h.raise p f).cops = h.cops := rfl
@[simp] theorem Hart.raise_cstride (h : Hart) (p f : Nat) : (h.raise p f).cstride = h.cstride := rfl
@[simp] theorem Hart.raise_ctag (h : Hart) (p f : Nat) : (h.raise p f).ctag = h.ctag := rfl
@[simp] theorem Hart.raise_cdens (h : Hart) (p f : Nat) : (h.raise p f).cdens = h.cdens := rfl
@[simp] theorem Hart.raise_lidx (h : Hart) (p f : Nat) : (h.raise p f).lidx = h.lidx := rfl
@[simp] theorem Hart.raise_capbase (h : Hart) (p f : Nat) : (h.raise p f).capbase = h.capbase := rfl
@[simp] theorem Hart.raise_cause (h : Hart) (p f : Nat) : (h.raise p f).cause = h.cause := rfl
@[simp] theorem Hart.raise_casync (h : Hart) (p f : Nat) : (h.raise p f).casync = h.casync := rfl
@[simp] theorem Hart.raise_tpc (h : Hart) (p f : Nat) : (h.raise p f).tpc = h.tpc := rfl
@[simp] theorem Hart.raise_teidx (h : Hart) (p f : Nat) : (h.raise p f).teidx = h.teidx := rfl
@[simp] theorem Hart.raise_tval (h : Hart) (p f : Nat) : (h.raise p f).tval = h.tval := rfl
@[simp] theorem Hart.raise_pp (h : Hart) (p f : Nat) : (h.raise p f).pp = h.pp := rfl
@[simp] theorem Hart.raise_ie (h : Hart) (p f : Nat) : (h.raise p f).ie = h.ie := rfl
@[simp] theorem Hart.raise_pie (h : Hart) (p f : Nat) : (h.raise p f).pie = h.pie := rfl
@[simp] theorem Hart.raise_th (h : Hart) (p f : Nat) : (h.raise p f).th = h.th := rfl
@[simp] theorem Hart.raise_lost (h : Hart) (p f : Nat) : (h.raise p f).lost = h.lost := rfl
@[simp] theorem Hart.raise_conv (h : Hart) (p f : Nat) : (h.raise p f).conv = h.conv := rfl
@[simp] theorem Hart.raise_twin (h : Hart) (p f : Nat) : (h.raise p f).twin = h.twin := rfl
@[simp] theorem Hart.raise_loops (h : Hart) (p f : Nat) : (h.raise p f).loops = h.loops := rfl
@[simp] theorem Hart.raise_loopsSaved (h : Hart) (p f : Nat) : (h.raise p f).loopsSaved = h.loopsSaved := rfl
@[simp] theorem Hart.raise_srseqSaved (h : Hart) (p f : Nat) : (h.raise p f).srseqSaved = h.srseqSaved := rfl
@[simp] theorem Hart.raise_seqSaved (h : Hart) (p f : Nat) : (h.raise p f).seqSaved = h.seqSaved := rfl
@[simp] theorem Hart.raise_reuse (h : Hart) (p f : Nat) : (h.raise p f).reuse = h.reuse := rfl
@[simp] theorem Hart.raise_events (h : Hart) (p f : Nat) : (h.raise p f).events = h.events := rfl
@[simp] theorem Hart.raise_genSaved (h : Hart) (p f : Nat) : (h.raise p f).genSaved = h.genSaved := rfl
@[simp] theorem Hart.raise_gen (h : Hart) (p f : Nat) : (h.raise p f).gen = h.gen := rfl
@[simp] theorem Hart.raise_cbIdx (h : Hart) (p f : Nat) : (h.raise p f).cbIdx = h.cbIdx := rfl
@[simp] theorem Hart.raise_cbHead (h : Hart) (p f : Nat) : (h.raise p f).cbHead = h.cbHead := rfl
@[simp] theorem Hart.raise_cbCount (h : Hart) (p f : Nat) : (h.raise p f).cbCount = h.cbCount := rfl
@[simp] theorem Hart.raise_pins (h : Hart) (p f : Nat) : (h.raise p f).pins = h.pins := rfl
@[simp] theorem Hart.raise_deliveries (h : Hart) (p f : Nat) : (h.raise p f).deliveries = h.deliveries := rfl
@[simp] theorem Hart.raise_copies (h : Hart) (p f : Nat) : (h.raise p f).copies = h.copies := rfl
@[simp] theorem Hart.raise_chanFaults (h : Hart) (p f : Nat) : (h.raise p f).chanFaults = h.chanFaults := rfl
@[simp] theorem Hart.raise_nextCopy (h : Hart) (p f : Nat) : (h.raise p f).nextCopy = h.nextCopy := rfl
@[simp] theorem Hart.raise_sq (h : Hart) (p f : Nat) : (h.raise p f).sq = h.sq := rfl
@[simp] theorem Hart.raise_fences (h : Hart) (p f : Nat) : (h.raise p f).fences = h.fences := rfl
@[simp] theorem Hart.raise_nextSeq (h : Hart) (p f : Nat) : (h.raise p f).nextSeq = h.nextSeq := rfl
@[simp] theorem Hart.raise_seen (h : Hart) (p f : Nat) : (h.raise p f).seen = h.seen := rfl
@[simp] theorem Hart.raise_gather (h : Hart) (p f : Nat) : (h.raise p f).gather = h.gather := rfl
@[simp] theorem Hart.raise_began (h : Hart) (p f : Nat) : (h.raise p f).began = h.began := rfl
@[simp] theorem Hart.raise_run (h : Hart) (p f : Nat) : (h.raise p f).run = h.run := rfl
@[simp] theorem Hart.raise_leaving (h : Hart) (p f : Nat) : (h.raise p f).leaving = h.leaving := rfl
@[simp] theorem Hart.raise_stop (h : Hart) (p f : Nat) : (h.raise p f).stop = h.stop := rfl
@[simp] theorem Hart.raise_dfault (h : Hart) (p f : Nat) : (h.raise p f).dfault = h.dfault := rfl
@[simp] theorem Hart.raise_inst (h : Hart) (p f : Nat) : (h.raise p f).inst = h.inst := rfl
@[simp] theorem Hart.raise_waiting (h : Hart) (p f : Nat) : (h.raise p f).waiting = h.waiting := rfl
@[simp] theorem Hart.raise_blocked (h : Hart) (p f : Nat) : (h.raise p f).blocked = h.blocked := rfl
@[simp] theorem Hart.raise_since (h : Hart) (p f : Nat) : (h.raise p f).since = h.since := rfl
@[simp] theorem Hart.raise_waitAt (h : Hart) (p f : Nat) : (h.raise p f).waitAt = h.waitAt := rfl
@[simp] theorem Hart.raise_got (h : Hart) (p f : Nat) : (h.raise p f).got = h.got := rfl
@[simp] theorem Hart.raise_lent (h : Hart) (p f : Nat) : (h.raise p f).lent = h.lent := rfl
@[simp] theorem Hart.raise_lates (h : Hart) (p f : Nat) : (h.raise p f).lates = h.lates := rfl
@[simp] theorem Hart.raise_puts (h : Hart) (p f : Nat) : (h.raise p f).puts = h.puts := rfl
@[simp] theorem Hart.raise_inConvoy (h : Hart) (p f : Nat) : (h.raise p f).inConvoy = h.inConvoy := rfl
@[simp] theorem Hart.raise_chainSaved (h : Hart) (p f : Nat) : (h.raise p f).chainSaved = h.chainSaved := rfl
@[simp] theorem Hart.raise_publishing (h : Hart) (p f : Nat) : (h.raise p f).publishing = h.publishing := rfl
@[simp] theorem Hart.raise_gotBad (h : Hart) (p f : Nat) : (h.raise p f).gotBad = h.gotBad := rfl
@[simp] theorem Hart.raise_poison (h : Hart) (p f : Nat) : (h.raise p f).poison = h.poison := rfl

/-- s0 reads 0, and a scalar register reads what was written to it last. -/
@[simp] theorem Hart.getS_zero (h : Hart) : h.getS 0 = 0 := rfl

@[simp] theorem Hart.getS_setS_same (h : Hart) {r : SReg} (x : Word) (hr : r ≠ 0) : (h.setS r x).getS r = x := by
  simp [Hart.setS, Hart.getS, hr]

theorem Hart.getS_setS_other (h : Hart) {r q : SReg} (x : Word) (hq : q ≠ r) : (h.setS r x).getS q = h.getS q := by
  unfold Hart.setS Hart.getS
  by_cases hr : r = 0
  · simp [hr]
  · by_cases h0 : q = 0
    · simp [h0]
    · simp only [hr, h0, if_false]
      exact SMap.get_put_other 0 _ _ (fun e => hq (Fin.ext e))

/-- Reading a scalar register depends on the scalar registers alone. -/
theorem Hart.getS_congr {g h : Hart} (e : g.s = h.s) (r : SReg) : g.getS r = h.getS r := by simp [Hart.getS, e]

/-- A hart read back after it was set, and every other hart. -/
@[simp] theorem State.hart_setHart_same (s : State) (n : Nat) (h : Hart) : (s.setHart n h).hart n = h := by
  unfold State.setHart State.hart
  split <;> simp [*]

theorem State.hart_setHart_other (s : State) {n m : Nat} (h : Hart) (hm : m ≠ n) : (s.setHart n h).hart m = s.hart m := by
  unfold State.setHart State.hart
  split
  · next e =>
    have : m ≠ s.hid := e ▸ hm
    simp [this]
  · by_cases e : m = s.hid
    · simp [e]
    · simp [e, SMap.get_put_other _ _ _ hm]

@[simp] theorem State.part_setPart_same (s : State) (p : Nat) (x : Part) : (s.setPart p x).part p = x := by
  simp [State.part, State.setPart]

theorem State.part_setPart_other (s : State) {p q : Nat} (x : Part) (h : q ≠ p) : (s.setPart p x).part q = s.part q := by
  simp [State.part, State.setPart, SMap.get_put_other _ _ _ h]

@[simp] theorem State.engine_setEngine_same (s : State) (e : Nat) (x : Engine) : (s.setEngine e x).engine e = x := by
  simp [State.engine, State.setEngine]

theorem State.engine_setEngine_other (s : State) {e d : Nat} (x : Engine) (h : d ≠ e) :
    (s.setEngine e x).engine d = s.engine d := by
  simp [State.engine, State.setEngine, SMap.get_put_other _ _ _ h]

end Sys2Proof.Machine
end

