-- ==== Sys2Proof/Laws/Memory.lean ====
section
/-! SUPPORT. Sys2Proof/Laws/Memory.lean: what the operations of the machine's memory do: the canonical form they keep, and the byte each reading of memory gives after a write, a delivery or the settling of old writes. -/

namespace Sys2Proof.Machine

/-- What a log holds for an address, over what is older than it. -/
theorem logByte_acc (p : WriteRec → Bool) (a : Nat) (l : List WriteRec) (x : Option Byte) :
    logByte p a l x = (logByte p a l none).or x := by
  induction l generalizing x with
  | nil => simp [logByte]
  | cons w l ih =>
    unfold logByte
    rw [ih, ih (if p w then (w.byteAt a).or none else none)]
    by_cases h : p w = true <;> cases logByte p a l none <;> cases w.byteAt a <;> simp [h]

theorem logByte_append (p : WriteRec → Bool) (a : Nat) (l k : List WriteRec) (x : Option Byte) :
    logByte p a (l ++ k) x = logByte p a k (logByte p a l x) := by
  induction l generalizing x with
  | nil => rfl
  | cons w l ih => simpa [logByte] using ih _

/-- A write as one that base memory holds. -/
theorem memByte_write (m : List Host.Cell) (w : WriteRec) (a : Nat) :
    memByte (memPutList m w.pa w.data) a = (w.byteAt a).getD (memByte m a) := by
  rw [memByte_memPutList, WriteRec.byteAt]
  split <;> simp

/-- Settling changes no reading that every settled write was in. -/
theorem settleLog_byte (p : WriteRec → Bool) (hp : ∀ w, w.atDevice = true → p w = true) (a : Nat) (l : List WriteRec)
    (m : List Host.Cell) :
    (logByte p a (settleLog l m).1 none).getD (memByte (settleLog l m).2 a) = (logByte p a l none).getD (memByte m a) := by
  induction l generalizing m with
  | nil => rfl
  | cons w l ih =>
    unfold settleLog
    split
    · next h =>
      rw [ih, logByte, hp w h, if_pos rfl, logByte_acc p a l ((w.byteAt a).or none), memByte_write]
      cases logByte p a l none <;> cases w.byteAt a <;> rfl
    · rfl

theorem WriteRec.inView_of_atDevice (w : WriteRec) (g : Nat) (h : w.atDevice = true) : w.inView g = true := by
  have : w.pend = 0 := by simpa [WriteRec.atDevice] using h
  simp [WriteRec.inView, this]

/-- 05 R132: settling changes no view and no last write. -/
@[simp] theorem State.settle_viewByte (s : State) (g a : Nat) : s.settle.viewByte g a = s.viewByte g a :=
  settleLog_byte _ (fun w h => w.inView_of_atDevice g h) a s.log s.mem

@[simp] theorem State.settle_lastByte (s : State) (a : Nat) : s.settle.lastByte a = s.lastByte a :=
  settleLog_byte _ (fun _ _ => rfl) a s.log s.mem

@[simp] theorem State.settle_devByte (s : State) (a : Nat) : s.settle.devByte a = s.devByte a :=
  settleLog_byte _ (fun _ h => h) a s.log s.mem

/-- Settling touches the log and base memory alone. -/
theorem State.settle_eq (s : State) : s.settle = { s with log := s.settle.log, mem := s.settle.mem } := rfl

@[simp] theorem State.settle_h (s : State) : s.settle.h = s.h := rfl
@[simp] theorem State.settle_hid (s : State) : s.settle.hid = s.hid := rfl
@[simp] theorem State.settle_others (s : State) : s.settle.others = s.others := rfl
@[simp] theorem State.settle_parts (s : State) : s.settle.parts = s.parts := rfl
@[simp] theorem State.settle_cores (s : State) : s.settle.cores = s.cores := rfl
@[simp] theorem State.settle_bsram (s : State) : s.settle.bsram = s.bsram := rfl
@[simp] theorem State.settle_nextWid (s : State) : s.settle.nextWid = s.nextWid := rfl

/-- A write that performs touches the log, base memory and the next identity alone. -/
theorem State.appendWrite_eq (s : State) (agent strm seq cluster : Nat) (die sc : Bool) (pa : Nat) (data : List Byte) :
    let t := s.appendWrite agent strm seq cluster die sc pa data
    t = { s with log := t.log, mem := t.mem, nextWid := t.nextWid } := by
  unfold State.appendWrite
  dsimp only
  split <;> rfl

/-- 05 R132: a write is the last one at each of its bytes. -/
theorem State.appendWrite_lastByte (s : State) (agent strm seq cluster : Nat) (die sc : Bool) (pa : Nat) (data : List Byte) (a : Nat) :
    (s.appendWrite agent strm seq cluster die sc pa data).lastByte a =
      if pa ≤ a then (data[a - pa]?).getD (s.lastByte a) else s.lastByte a := by
  unfold State.appendWrite
  split
  · next h =>
    have : data = [] := by simpa using h
    simp [this]
  · rw [State.settle_lastByte]
    simp only [State.lastByte, logByte_append, logByte, WriteRec.byteAt, if_true]
    split
    · cases data[a - pa]? <;> rfl
    · rfl

/-- 05 R132: a write is in the views that do not wait for it, and in no other. -/
theorem State.appendWrite_viewByte (s : State) (agent strm seq cluster : Nat) (die sc : Bool) (pa : Nat) (data : List Byte) (g a : Nat) :
    (s.appendWrite agent strm seq cluster die sc pa data).viewByte g a =
      if (writePending cluster die sc).getLsbD g = false ∧ pa ≤ a then (data[a - pa]?).getD (s.viewByte g a) else s.viewByte g a := by
  unfold State.appendWrite
  split
  · next h =>
    have : data = [] := by simpa using h
    simp [this]
  · rw [State.settle_viewByte]
    simp only [State.viewByte, logByte_append, logByte, WriteRec.byteAt, WriteRec.inView]
    by_cases h1 : (writePending cluster die sc).getLsbD g = true
    · simp [h1]
    · have h2 : (writePending cluster die sc).getLsbD g = false := by simpa using h1
      by_cases h3 : pa ≤ a
      · simp only [h2, h3, Bool.not_false, if_true, and_self]
        cases data[a - pa]? <;> rfl
      · simp [h2, h3]

/-- 05 R133: a delivery changes no last write. -/
theorem logByte_map (p : WriteRec → Bool) (f : WriteRec → WriteRec) (a : Nat) (l : List WriteRec)
    (hf : ∀ w ∈ l, (f w).byteAt a = w.byteAt a ∧ p (f w) = p w) (x : Option Byte) :
    logByte p a (l.map f) x = logByte p a l x := by
  induction l generalizing x with
  | nil => rfl
  | cons w l ih =>
    have hw := hf w (by simp)
    have := ih (fun v hv => hf v (by simp [hv]))
    simp [logByte, hw.1, hw.2, this]

@[simp] theorem State.deliverTo_lastByte (s : State) (id g a : Nat) : (s.deliverTo id g).lastByte a = s.lastByte a := by
  unfold State.deliverTo
  rw [State.settle_lastByte]
  unfold State.lastByte
  rw [logByte_map]
  intro w _
  split <;> exact ⟨rfl, rfl⟩

/-- 05 R133: a delivery changes the view of its cluster alone. -/
theorem State.deliverTo_viewByte (s : State) (id : Nat) {g c : Nat} (h : c ≠ g) (a : Nat) :
    (s.deliverTo id g).viewByte c a = s.viewByte c a := by
  unfold State.deliverTo
  rw [State.settle_viewByte]
  unfold State.viewByte
  rw [logByte_map]
  intro w _
  split
  · refine ⟨rfl, ?_⟩
    have hg : (BitVec.ofNat 64 (2 ^ g)).getLsbD c = false := by
      rw [BitVec.getLsbD_ofNat, Nat.testBit_two_pow]
      have : g ≠ c := Ne.symm h
      simp [this]
    by_cases hc : c < 64
    · simp only [WriteRec.inView, BitVec.getLsbD_and, BitVec.getLsbD_not, hg, hc, decide_true, Bool.not_false, Bool.and_self, Bool.and_true]
    · have h0 (x : BitVec 64) : x.getLsbD c = false := BitVec.getLsbD_of_ge x c (by omega)
      simp only [WriteRec.inView, h0]
  · exact ⟨rfl, rfl⟩

/-! The canonical form. -/

theorem filter_wf {m : List Host.Cell} (p : Host.Cell → Bool) (w : Memory.wf m) : Memory.wf (m.filter p) := SMap.wf_filter memDefault p m w

theorem foldl_wf {α : Type} (f : List Host.Cell → α → List Host.Cell) (hf : ∀ m x, Memory.wf m → Memory.wf (f m x)) (l : List α)
    {m : List Host.Cell} (w : Memory.wf m) : Memory.wf (l.foldl f m) := by
  induction l generalizing m with
  | nil => exact w
  | cons x l ih => exact ih (hf m x w)

theorem copyBytes_wf (src dst : Nat) {m : List Host.Cell} (a : Nat) (l : List Byte) (w : Memory.wf m) :
    Memory.wf (copyBytes src dst m a l) := by
  induction l generalizing m a with
  | nil => exact w
  | cons b l ih =>
    refine ih (a + 1) ?_
    split
    · exact memPut_wf _ _ w
    · exact w

theorem State.memOk_reset : State.reset.memOk := ⟨rfl, rfl⟩

/-- An operation that leaves base memory and the belfry's SRAM keeps the form. -/
theorem State.memOk_congr {s t : State} (w : s.memOk) (hm : t.mem = s.mem) (hb : t.bsram = s.bsram) : t.memOk := by
  unfold State.memOk
  rw [hm, hb]
  exact w

theorem State.memOk_settle {s : State} (w : s.memOk) : s.settle.memOk := ⟨settleLog_wf w.1, w.2⟩

theorem State.memOk_appendWrite {s : State} (w : s.memOk) (agent strm seq cluster : Nat) (die sc : Bool) (pa : Nat) (data : List Byte) :
    (s.appendWrite agent strm seq cluster die sc pa data).memOk := by
  unfold State.appendWrite
  split
  · exact w
  · exact State.memOk_settle w

theorem State.memOk_deliverTo {s : State} (w : s.memOk) (id g : Nat) : (s.deliverTo id g).memOk := by
  unfold State.deliverTo
  exact State.memOk_settle w

@[simp] theorem State.setHart_mem (s : State) (n : Nat) (h : Hart) : (s.setHart n h).mem = s.mem := by
  unfold State.setHart
  split <;> rfl

@[simp] theorem State.setHart_bsram (s : State) (n : Nat) (h : Hart) : (s.setHart n h).bsram = s.bsram := by
  unfold State.setHart
  split <;> rfl

@[simp] theorem State.setHart_log (s : State) (n : Nat) (h : Hart) : (s.setHart n h).log = s.log := by
  unfold State.setHart
  split <;> rfl

theorem State.memOk_setHart {s : State} (w : s.memOk) (n : Nat) (h : Hart) : (s.setHart n h).memOk :=
  State.memOk_congr w (by simp) (by simp)

theorem State.select_mem (s : State) (n : Nat) : (s.select n).mem = s.mem ∧ (s.select n).bsram = s.bsram ∧ (s.select n).log = s.log := by
  unfold State.select
  split <;> exact ⟨rfl, rfl, rfl⟩

theorem State.memOk_select {s : State} (w : s.memOk) (n : Nat) : (s.select n).memOk :=
  State.memOk_congr w (s.select_mem n).1 (s.select_mem n).2.1

/-- The marks of a write leave memory. -/
theorem State.markChanged_mem (s : State) (l : List Nat) :
    (s.markChanged l).mem = s.mem ∧ (s.markChanged l).bsram = s.bsram ∧ (s.markChanged l).log = s.log := by
  unfold State.markChanged
  split <;> exact ⟨rfl, rfl, rfl⟩

theorem State.touchTier_mem (s : State) (pa : Nat) (st : Bool) :
    (s.touchTier pa st).mem = s.mem ∧ (s.touchTier pa st).bsram = s.bsram ∧ (s.touchTier pa st).log = s.log := by
  unfold State.touchTier
  split
  · dsimp only
    split
    · exact ⟨rfl, rfl, rfl⟩
    · split <;> exact ⟨rfl, rfl, rfl⟩
  · exact ⟨rfl, rfl, rfl⟩

theorem State.touchPages_mem (s : State) (l : List Nat) (st : Bool) :
    (s.touchPages l st).mem = s.mem ∧ (s.touchPages l st).bsram = s.bsram ∧ (s.touchPages l st).log = s.log := by
  unfold State.touchPages
  generalize ((l.map (· / 65536)).eraseDups.filterMap fun p => l.find? fun pa => pa / 65536 == p) = m
  induction m generalizing s with
  | nil => exact ⟨rfl, rfl, rfl⟩
  | cons x m ih =>
    have h := ih (s.touchTier x st)
    have k := s.touchTier_mem x st
    exact ⟨h.1.trans k.1, h.2.1.trans k.2.1, h.2.2.trans k.2.2⟩

/-- No cask has pages to drain. -/
def State.noCut (s : State) : Prop := (s.parts.all fun p => p.2.cask.marked.isEmpty) = true

/-- Without pages to drain a write makes no copy of a cut value (18 R410). -/
theorem State.cutCopies_noCut {s : State} (h : s.noCut) (l : List Nat) : s.cutCopies l = s := by
  unfold State.cutCopies
  exact if_pos h

theorem State.memOk_foldl {α : Type} (f : State → α → State) (hf : ∀ s x, s.memOk → (f s x).memOk) (l : List α) {s : State} (w : s.memOk) :
    (l.foldl f s).memOk := by
  induction l generalizing s with
  | nil => exact w
  | cons x l ih => exact ih (hf s x w)

theorem State.memOk_cutCopy {s : State} (w : s.memOk) (part f : Nat) : (s.cutCopy part f).memOk := by
  unfold State.cutCopy
  dsimp only
  split
  · exact State.memOk_congr (State.memOk_appendWrite w _ 0 0 _ true false _ _) rfl rfl
  · exact w

theorem State.memOk_cutCopies {s : State} (w : s.memOk) (l : List Nat) : (s.cutCopies l).memOk := by
  unfold State.cutCopies
  split
  · exact w
  · refine State.memOk_foldl _ (fun t f h => ?_) l w
    refine State.memOk_foldl _ (fun t p h => ?_) _ h
    split
    · exact State.memOk_cutCopy h ..
    · exact h

/-- An agent's write: the form it keeps, and the bytes it leaves. -/
theorem State.writeMem_mem (s : State) (agent strm seq cluster : Nat) (die sc st pois : Bool) (pa : Nat) (data : List Byte) :
    let t := s.writeMem agent strm seq cluster die sc st pois pa data
    let u := (s.cutCopies (pagesOf pa data.length)).appendWrite agent strm seq cluster die sc pa data
    t.mem = u.mem ∧ t.bsram = u.bsram ∧ t.log = u.log := by
  unfold State.writeMem
  dsimp only
  have h := fun u : State => u.touchPages_mem [pa, pa + (data.length - 1)] st
  refine ⟨?_, ?_, ?_⟩
  · rw [(h _).1, (State.markChanged_mem _ _).1]
  · rw [(h _).2.1, (State.markChanged_mem _ _).2.1]
  · rw [(h _).2.2, (State.markChanged_mem _ _).2.2]

theorem State.memOk_writeMem {s : State} (w : s.memOk) (agent strm seq cluster : Nat) (die sc st pois : Bool) (pa : Nat) (data : List Byte) :
    (s.writeMem agent strm seq cluster die sc st pois pa data).memOk :=
  let h := s.writeMem_mem agent strm seq cluster die sc st pois pa data
  State.memOk_congr (State.memOk_appendWrite (State.memOk_cutCopies w _) agent strm seq cluster die sc pa data) h.1 h.2.1

/-- Readings of memory depend on base memory and the log alone. -/
theorem State.lastByte_congr {s t : State} (hm : t.mem = s.mem) (hl : t.log = s.log) (a : Nat) : t.lastByte a = s.lastByte a := by
  simp [State.lastByte, hm, hl]

theorem State.viewByte_congr {s t : State} (hm : t.mem = s.mem) (hl : t.log = s.log) (g a : Nat) : t.viewByte g a = s.viewByte g a := by
  simp [State.viewByte, hm, hl]

theorem State.sameMemory_of_eq {s t : State} (hm : t.mem = s.mem) (hl : t.log = s.log) : s.sameMemory t :=
  ⟨State.lastByte_congr hm hl, State.viewByte_congr hm hl⟩

/-- The bytes after a write, where no cask copies a page for it. -/
theorem State.writeMem_lastByte {s : State} (hc : s.noCut) (agent strm seq cluster : Nat) (die sc st pois : Bool) (pa : Nat) (data : List Byte)
    (a : Nat) :
    (s.writeMem agent strm seq cluster die sc st pois pa data).lastByte a =
      if pa ≤ a then (data[a - pa]?).getD (s.lastByte a) else s.lastByte a := by
  have h := s.writeMem_mem agent strm seq cluster die sc st pois pa data
  rw [State.lastByte_congr h.1 h.2.2, State.cutCopies_noCut hc, State.appendWrite_lastByte]

theorem State.writeMem_viewByte {s : State} (hc : s.noCut) (agent strm seq cluster : Nat) (die sc st pois : Bool) (pa : Nat) (data : List Byte)
    (g a : Nat) :
    (s.writeMem agent strm seq cluster die sc st pois pa data).viewByte g a =
      if (writePending cluster die sc).getLsbD g = false ∧ pa ≤ a then (data[a - pa]?).getD (s.viewByte g a) else s.viewByte g a := by
  have h := s.writeMem_mem agent strm seq cluster die sc st pois pa data
  rw [State.viewByte_congr h.1 h.2.2, State.cutCopies_noCut hc, State.appendWrite_viewByte]

theorem State.memOk_dieWrite {s : State} (w : s.memOk) (agent die : Nat) (st : Bool) (mask pa : Nat) (data : List Byte) :
    (s.dieWrite agent die st mask pa data).memOk := by
  unfold State.dieWrite
  have h := State.memOk_writeMem w agent 0 0 (16 * die) true false st false pa data
  extract_lets o
  clear_value o
  cases o
  · exact ⟨w.1, w.2⟩
  · exact ⟨h.1, h.2⟩

theorem State.memOk_copyPage {s : State} (w : s.memOk) (src dst : Nat) : (s.copyPage src dst).memOk := by
  refine ⟨?_, w.2⟩
  exact foldl_wf _ (fun m x h => copyBytes_wf src dst x.pa x.data h) _
    (foldl_wf _ (fun m x h => memPut_wf _ _ h) _ (filter_wf _ w.1))

theorem State.memOk_saveImage {s : State} (w : s.memOk) (n base : Nat) : (s.saveImage n base).memOk := by
  unfold State.saveImage
  generalize imageOffsets = l
  refine State.memOk_foldl _ (fun t o h => ?_) l w
  dsimp only
  split
  · exact h
  · exact State.memOk_writeMem h ..

theorem State.memOk_zeroBank {s : State} (w : s.memOk) (cluster bank : Nat) : (s.zeroBank cluster bank).memOk :=
  ⟨filter_wf _ w.1, w.2⟩

end Sys2Proof.Machine
end

