-- ==== Sys2Proof/Laws/Ops.lean ====
section
/-! SUPPORT. Sys2Proof/Laws/Ops.lean: what the operations that instructions share do: registers read back, flow and retirement, waiting, taking a trap and returning, the common forms of scalar instructions, and the step. -/

namespace Sys2Proof.Machine

/-! Registers. -/

theorem vkey_inj {v p e w q d : Nat} (hp : p < 32) (hq : q < 32) (he : e < 65536) (hd : d < 65536)
    (h : vkey v p e = vkey w q d) : v = w ∧ p = q ∧ e = d := by
  unfold vkey at h
  omega

theorem Hart.tangents_le (h : Hart) : h.tangents ≤ 16 := by
  unfold Hart.tangents tangentsOf
  split <;> omega

theorem keepBits_le (f : Fmt) : keepBits f ≤ 64 := by cases f <;> decide

theorem keepBits_le_fmtBits (f : Fmt) : keepBits f ≤ fmtBits f := by cases f <;> decide

theorem Hart.putC_tangents (h : Hart) (v : VReg) (p e x : Nat) : (h.putC v p e x).tangents = h.tangents := by
  unfold Hart.putC
  split <;> rfl

theorem Hart.getV_putC_same (h : Hart) (v : VReg) {p : Nat} (e x : Nat) (hp : p ≤ h.tangents) :
    (h.putC v p e x).getV v p e = x % 2 ^ h.ebits := by
  have hp' : ¬ h.tangents < p := by omega
  have h64 : h.ebits ≤ 64 := by unfold Hart.ebits; cases h.fmt <;> decide
  unfold Hart.getV
  rw [h.putC_tangents, if_neg hp']
  simp only [Hart.putC, if_neg hp', SMap.get_put_same, BitVec.toNat_ofNat]
  exact Nat.mod_eq_of_lt (Nat.lt_of_lt_of_le (Nat.mod_lt _ (Nat.two_pow_pos _)) (Nat.pow_le_pow_right (by decide) h64))

/-- 01 R30, 08 R206: a container reads what was put into it, cut to the bits its format keeps. -/
theorem Hart.getV_putV_same (h : Hart) (v : VReg) {p : Nat} (e x : Nat) (hp : p ≤ h.tangents) :
    (h.putV v p e x).getV v p e = x % 2 ^ keepBits h.fmt := by
  rw [Hart.putV, h.getV_putC_same v e _ hp]
  exact Nat.mod_eq_of_lt (Nat.lt_of_lt_of_le (Nat.mod_lt _ (Nat.two_pow_pos _)) (Nat.pow_le_pow_right (by decide) (keepBits_le_fmtBits _)))

/-- Another container keeps its bits. -/
theorem Hart.getV_putC_other (h : Hart) (v w : VReg) {p q e d : Nat} (x : Nat) (hq : q < 32) (he : e < 65536) (hd : d < 65536)
    (hne : ¬ (w = v ∧ q = p ∧ d = e)) : (h.putC v p e x).getV w q d = h.getV w q d := by
  unfold Hart.putC
  split
  · rfl
  · next hp =>
    have hp' : p < 32 := by have := h.tangents_le; omega
    unfold Hart.getV
    simp only [show ({ h with v := SMap.put 0 h.v (vkey v.val p e) (BitVec.ofNat 64 (x % 2 ^ h.ebits)) } : Hart).tangents = h.tangents
      from rfl]
    rw [SMap.get_put_other]
    intro hk
    have hk := vkey_inj hq hp' hd he hk
    exact hne ⟨Fin.ext hk.1, hk.2.1, hk.2.2⟩

theorem Hart.getV_putV_other (h : Hart) (v w : VReg) {p q e d : Nat} (x : Nat) (hq : q < 32) (he : e < 65536) (hd : d < 65536)
    (hne : ¬ (w = v ∧ q = p ∧ d = e)) : (h.putV v p e x).getV w q d = h.getV w q d := by
  exact h.getV_putC_other v w _ hq he hd hne

/-- A write of an instruction to a register that is not pinned goes into its container at once; of a pinned one it is kept for
stream V (01 R43). -/
theorem Hart.setV_unpinned (h : Hart) {v : VReg} (hv : h.pinned v = false) (p e x : Nat) : h.setV v p e x = h.putV v p e x := by
  simp [Hart.setV, hv]

theorem Hart.getV_setV_same (h : Hart) {v : VReg} (hv : h.pinned v = false) {p : Nat} (e x : Nat) (hp : p ≤ h.tangents) :
    (h.setV v p e x).getV v p e = x % 2 ^ keepBits h.fmt := by
  rw [h.setV_unpinned hv, h.getV_putV_same v e x hp]

theorem Hart.getV_setV_other (h : Hart) (v w : VReg) {p q e d : Nat} (x : Nat) (hq : q < 32) (he : e < 65536) (hd : d < 65536)
    (hne : ¬ (w = v ∧ q = p ∧ d = e)) : (h.setV v p e x).getV w q d = h.getV w q d := by
  by_cases hv : h.pinned v = true
  · unfold Hart.setV
    rw [if_pos hv]
    split <;> rfl
  · rw [h.setV_unpinned (by simpa using hv)]
    exact h.getV_putV_other v w x hq he hd hne

/-- 01 R18, R20: k0 reads ones, and another mask register what was written. -/
@[simp] theorem Hart.getK_zero (h : Hart) : h.getK 0 = BitVec.allOnes 65536 := rfl

@[simp] theorem Hart.getK_setK_same (h : Hart) {k : KReg} (x : BitVec 65536) (hk : k ≠ 0) : (h.setK k x).getK k = x := by
  simp [Hart.setK, Hart.getK, hk]

theorem Hart.getK_setK_other (h : Hart) {k j : KReg} (x : BitVec 65536) (hj : j ≠ k) : (h.setK k x).getK j = h.getK j := by
  unfold Hart.setK Hart.getK
  by_cases hk : k = 0
  · simp [hk]
  · by_cases h0 : j = 0
    · simp [h0]
    · simp only [hk, h0, if_false]
      exact SMap.get_put_other 0 _ _ (fun e => hj (Fin.ext e))

@[simp] theorem Hart.queue_setQ_same (h : Hart) (q : Nat) (x : QReg) : (h.setQ q x).queue q = x := by simp [Hart.queue, Hart.setQ]

theorem Hart.queue_setQ_other (h : Hart) {q r : Nat} (x : QReg) (hr : r ≠ q) : (h.setQ q x).queue r = h.queue r := by
  simp [Hart.queue, Hart.setQ, SMap.get_put_other _ _ _ hr]

/-- A scalar register of the selected hart after a write. -/
theorem State.rs_ws (s : State) (d r : SReg) (x : Word) : (s.ws d x).rs r = if r = d ∧ r ≠ 0 then x else s.rs r := by
  unfold State.ws State.rs State.onH
  by_cases h : r = d
  · subst h
    by_cases h0 : r = 0
    · simp [h0]
    · simp [h0]
  · simp [h, Hart.getS_setS_other]

/-! Flow and retirement (04 R121 to R123). -/

/-- Flow changes position, loop stack and scalar registers alone. -/
theorem Hart.flowTo_eq (h : Hart) (pc : Word) (inner l : List LoopLevel) :
    h.flowTo pc inner l = { h with s := (h.flowTo pc inner l).s, pc := (h.flowTo pc inner l).pc, loops := (h.flowTo pc inner l).loops } := by
  induction l generalizing h inner with
  | nil => rfl
  | cons x l ih =>
    have hs (r : SReg) (w : Word) : h.setS r w = { h with s := (h.setS r w).s } := by
      unfold Hart.setS
      split <;> rfl
    unfold Hart.flowTo
    dsimp only
    split
    · exact ih h _
    · split
      · split
        · split
          · rfl
          · split
            · rw [ih, hs]
            · rw [hs]
        · split
          · exact ih h _
          · rfl
      · rfl

/-- Of the scalar registers flow changes only the counters of active LOOPN levels. -/
theorem Hart.flowTo_getS (h : Hart) (pc : Word) (inner l : List LoopLevel) (r : SReg)
    (hr : (l.any fun x => x.valid && x.isLoopn && x.reg == r) = false) : (h.flowTo pc inner l).getS r = h.getS r := by
  induction l generalizing h inner with
  | nil => rfl
  | cons x l ih =>
    simp only [List.any_cons, Bool.or_eq_false_iff] at hr
    unfold Hart.flowTo
    dsimp only
    split
    · exact ih h _ hr.2
    · next hv =>
      split
      · split
        · next hn =>
          have hne : r ≠ x.reg := by
            intro e
            simp [hn, e] at hr
            simp [hr.1] at hv
          split
          · rfl
          · split
            · rw [ih _ _ hr.2, Hart.getS_setS_other _ _ hne]
            · exact Hart.getS_setS_other h _ hne
        · split
          · exact ih h _ hr.2
          · rfl
      · rfl

/-- Where no active level of the stack ends, flow goes on in sequence and the stack stays. -/
theorem Hart.flowTo_straight (h : Hart) (pc : Word) (inner l : List LoopLevel) (hl : ∀ x ∈ l, x.valid = true → x.passed h.pc pc = false) :
    h.flowTo pc inner l = { h with pc := pc, loops := l.reverse ++ inner } := by
  induction l generalizing inner with
  | nil => rfl
  | cons x l ih =>
    unfold Hart.flowTo
    dsimp only
    split
    · rw [ih _ fun y hy => hl y (by simp [hy])]
      simp
    · next hv => simp [hl x (by simp) (by simpa using hv)]

/-- Retirement leaves all but the flow of the hart, and every scalar register but the counters of LOOPN levels. -/
theorem State.retire_onlyFlow (s : State) (n : Nat) : s.onlyFlow (s.retire n) [] := by
  refine ⟨?_, ?_⟩
  · unfold State.sameBut State.retire State.onH Hart.flowOf
    dsimp only
    rw [Hart.flowTo_eq]
    rfl
  · intro r _ hr
    have : ((s.h.loops.reverse).any fun x => x.valid && x.isLoopn && x.reg == r) = false := by
      rw [List.any_reverse, List.any_eq_false]
      intro x hx h
      simp only [Bool.and_assoc, Bool.and_eq_true] at h
      exact List.any_eq_false.1 hr x (List.mem_filter.2 ⟨hx, h.1⟩) (by simpa using h.2)
    exact Hart.flowTo_getS s.h.done_ _ [] _ r this

theorem State.retireTo_onlyFlow (s : State) (a : Word) : s.onlyFlow (s.retireTo a) [] := ⟨rfl, fun _ _ _ => rfl⟩

/-- With no loop active retirement goes on in sequence. -/
theorem State.retire_straight (s : State) (n : Nat) (h : s.h.loops = []) :
    s.retire n = s.onH fun g => { g.done_ with pc := g.pc + BitVec.ofNat 64 n, loops := [] } := by
  simp [State.retire, State.onH, h, Hart.flowTo]


/-! Traps (18 R396, R400). -/

theorem State.raiseSource_eq (s : State) (p k : Nat) : s.raiseSource p k = { s with parts := (s.raiseSource p k).parts } := rfl

/-- The error log changes its entries, its counter, the interrupt sources and what the host and the belfry have been told alone. -/
theorem State.logErr_eq (s : State) (k d p : Nat) (a x : Word) :
    let t := s.logErr k d p a x
    t = { s with errs := t.errs, errhead := t.errhead, parts := t.parts, hostSaid := t.hostSaid, belfrySaid := t.belfrySaid } ∧
      t.errhead = (s.errhead + 1) % 256 ∧ SMap.get none t.errs s.errhead = some ⟨k, d, p, a, s.timebase, x⟩ := by
  unfold State.logErr
  dsimp only
  have h := SMap.get_put_same (none : Option LogEntry) s.errs s.errhead (some ⟨k, d, p, a, s.timebase, x⟩)
  split <;> exact ⟨rfl, rfl, h⟩

/-- A synchronous trap with TH clear is an entry; with TH set it stops the hart. -/
theorem State.trap_enter {s : State} (h : s.h.th = false) (t : Trp) : s.trap t = s.enterTrap false false none t := by
  simp [State.trap, State.trapWith, h]

theorem State.trap_double {s : State} (h : s.h.th = true) (t : Trp) : s.trap t = s.doubleFault none t := by
  simp [State.trap, State.trapWith, h]

/-- What a trap entry saves and where it goes. -/
theorem State.enterTrap_saves (s : State) (async conv : Bool) (drew : Option Word) (t : Trp) :
    let u := (s.enterTrap async conv drew t).h
    u.cause = .ofNat 6 t.cause ∧ u.casync = async ∧ u.tval = t.tval ∧ u.teidx = .ofNat 64 t.eidx ∧ u.conv = conv ∧ u.ie = false ∧
    u.th = true ∧ u.sup = true ∧ u.loops = [] ∧ u.eidx = 0 ∧ u.pc = (s.part s.myPart).tvec ∧ u.reuse = none :=
  ⟨rfl, rfl, rfl, rfl, rfl, rfl, rfl, rfl, rfl, rfl, rfl, rfl⟩

/-- Putting the entries of a convoy's pops back changes queues and accesses alone. -/
theorem Hart.unpop_eq (h : Hart) : h.unpop = { h with q := h.unpop.q, sq := h.unpop.sq } := by
  have key (l : List (Nat × Word)) (g : Hart) :
      let r := l.foldl (fun (g : Hart) x =>
        if 2 ^ 60 ≤ x.1 ∧ x.1 < 2 ^ 61 then g.setQ (x.1 % 8) { g.queue (x.1 % 8) with entries := x.2 :: (g.queue (x.1 % 8)).entries } else g) g
      r = { g with q := r.q } := by
    induction l generalizing g with
    | nil => rfl
    | cons x l ih =>
      simp only [List.foldl_cons]
      split
      · rw [ih]; rfl
      · exact ih g
  unfold Hart.unpop
  dsimp only
  rw [key h.got h]

/-- An entry leaves every register, and all but the hart. -/
theorem State.enterTrap_keeps (s : State) (async conv : Bool) (drew : Option Word) (t : Trp) :
    s.sameBut Hart.trapOf (s.enterTrap async conv drew t) := by
  unfold State.sameBut State.enterTrap Hart.trapOf
  dsimp only
  rw [Hart.unpop_eq]

theorem State.enterTrap_pc (s : State) (async conv : Bool) (drew : Option Word) (t : Trp) :
    let u := (s.enterTrap async conv drew t).h
    u.tpc = s.h.pc ∧ u.pp = s.h.sup ∧ u.pie = s.h.ie ∧ u.loopsSaved = s.h.loops ∧ u.srseqSaved = s.h.srseq ∧ u.s = s.h.s ∧ u.k = s.h.k ∧ u.v = s.h.v := by
  unfold State.enterTrap
  dsimp only
  rw [Hart.unpop_eq]
  exact ⟨rfl, rfl, rfl, rfl, rfl, rfl, rfl, rfl⟩

/-- The return goes back to what was saved. -/
theorem State.trapReturn_restores (s : State) :
    let u := s.trapReturn.h
    u.pc = s.h.tpc ∧ u.sup = s.h.pp ∧ u.ie = s.h.pie ∧ u.th = false ∧ u.loops = s.h.loopsSaved ∧ u.srseq = s.h.srseqSaved ∧
    u.eidx = s.h.teidx.toNat % 65536 := by
  refine ⟨rfl, rfl, rfl, rfl, rfl, rfl, ?_⟩
  simp [State.trapReturn, State.onH, bitsOf]

/-- Entry and return: the position, the mode and the loop stack come back. -/
theorem State.trapReturn_enterTrap (s : State) (async conv : Bool) (drew : Option Word) (t : Trp) (he : t.eidx < 65536) :
    let u := (s.enterTrap async conv drew t).trapReturn.h
    u.pc = s.h.pc ∧ u.sup = s.h.sup ∧ u.ie = s.h.ie ∧ u.loops = s.h.loops ∧ u.srseq = s.h.srseq ∧ u.eidx = t.eidx ∧ u.th = false := by
  have h1 := State.enterTrap_pc s async conv drew t
  have h2 := State.trapReturn_restores (s.enterTrap async conv drew t)
  have h3 := State.enterTrap_saves s async conv drew t
  dsimp only at h1 h2 h3 ⊢
  refine ⟨h2.1.trans h1.1, h2.2.1.trans h1.2.1, h2.2.2.1.trans h1.2.2.1, h2.2.2.2.2.1.trans h1.2.2.2.1, h2.2.2.2.2.2.1.trans h1.2.2.2.2.1, ?_, h2.2.2.2.1⟩
  rw [h2.2.2.2.2.2.2, h3.2.2.2.1]
  simp
  omega

/-! The common forms. -/

/-- A scalar instruction whose registers are available has its effect and retires; otherwise the hart waits (04 R102). -/
theorem scalarStep_ready {s : State} {l : List SReg} (h : s.ready l = true) (f : State → State) : scalarStep s l f = .next ((f s).retire 4) := by
  simp [scalarStep, h]

theorem scalarStep_waits {s : State} {l : List SReg} (h : s.ready l = false) (f : State → State) : scalarStep s l f = .next (s.stall l) := by
  simp [scalarStep, h]

theorem scalarStep_next (s : State) (l : List SReg) (f : State → State) : ∃ t, scalarStep s l f = .next t := by
  unfold scalarStep
  split <;> exact ⟨_, rfl⟩

/-- 03 R80: a privileged instruction runs in supervisor mode and is cause 8 in program mode. -/
theorem privStep_sup {s : State} (h : s.h.sup = true) (i : Instr) (k : Out) : privStep s i k = k := by simp [privStep, h]

theorem privStep_program {s : State} (h : s.h.sup = false) (i : Instr) (k : Out) : privStep s i k = .next (s.trap ⟨8, encodeWord i, 0⟩) := by
  simp [privStep, h]

/-- A hart that waits keeps its registers and position. -/
theorem State.pause_eq (s : State) : s.pause = { s with h := { s.h with blocked := none, waiting := true } } := rfl

/-- Where the counter passes no multiple of 1,024 cycles, time passes and no kernel is sampled (13 R315). -/
theorem State.advance_tick {s : State} {dt : Nat} (h : (s.now + dt) / 1024 = s.now / 1024) : s.advance dt = s.endBuckets.noteWaits.tick dt := by
  have hn : (s.endBuckets.noteWaits.tick dt).now = s.now + dt := by
    unfold State.tick State.noteWaits State.endBuckets
    split <;> split <;> rfl
  unfold State.advance
  dsimp only
  split
  · rfl
  · rw [hn, h, Nat.sub_self]
    show ({ s.endBuckets.noteWaits.tick dt with now := s.now + dt } : State) = _
    rw [← hn]

/-- A step makes the move at the head of the agenda, on the state as time leaves it. -/
theorem step_agenda {s : State} {dt : Nat} {m : Move} {l : List (Nat × Move)} (h : s.agenda = (dt, m) :: l) :
    step s = ({ s with agenda := l }.advance dt).move m := by
  simp [step, h]

theorem step_default {s : State} (h : s.agenda = []) : step s = (s.advance 1).turn := by simp [step, h]

/-- A hart's turn goes on with the convoy it is inside, counts a pass of a loop that is due, and otherwise runs the instruction its bytes
decode to. -/
theorem State.issue_convoy {s : State} {c : Chain} (h : s.h.inConvoy = some c) : s.issue = .next (s.goOn c) := by simp [State.issue, h]

theorem State.issue_flow {s : State} (h : s.h.inConvoy = none) (hf : s.h.flowDue = true) : s.issue = .next s.flowOn := by
  simp [State.issue, h, hf]

theorem State.issue_at {s : State} (h : s.h.inConvoy = none) (hf : s.h.flowDue = false) : s.issue = s.execAt := by simp [State.issue, h, hf]

theorem State.execAt_decoded {s : State} {bs rest : List Byte} {i : Instr} (hw : s.fetchDelayed s.h.pc = false)
    (hf : s.fetchFault s.h.pc = none) (hb : s.fetchBytes s.h.pc = .ok bs) (hd : decodeBytes bs = .ok (i, rest)) :
    s.execAt = exec i (s.fetched bs.length) := by
  simp [State.execAt, hw, hf, hb, hd]

theorem State.move_issue {s : State} (he : s.eventReady = false) (hr : s.h.run = .running) (hl : s.h.leaving = none) :
    s.move .issue = s.issue := by
  simp [State.move, State.issues, he, hr, hl]

theorem State.move_event {s : State} (he : s.eventReady = true) : s.move .issue = .next s.takeEvent := by simp [State.move, he]

/-- An engine's turn runs the instruction of its word. -/
theorem State.engineTurn_decoded {s : State} {e : Nat} {w : BitVec 32} {i : Instr} (he : e < 16) (hb : (s.engine e).busy = true)
    (hw : (s.engine e).fetch = some w) (hd : decodeDungen w.toNat = some i) : s.engineTurn e = exec i { s with eng := e } := by
  simp [State.engineTurn, show ¬ 16 ≤ e by omega, hb, hw, hd]

end Sys2Proof.Machine
end

