-- ==== Sys2Proof/Laws/Vector.lean ====
section
/-! SUPPORT. Sys2Proof/Laws/Vector.lean: what the element loop of the vector instructions does (09 R235, R237): the registers it leaves, the planes of each element it writes, and the trap at which it stops. -/

namespace Sys2Proof.Machine

/-- t is h but for vector containers, FFLAGS and the writes of pinned registers that wait for stream V. -/
def Hart.loopOf (h g : Hart) : Hart := { h with v := g.v, fflags := g.fflags, puts := g.puts }

theorem Hart.setV_loopOf (h : Hart) (v : VReg) (p e x : Nat) : h.setV v p e x = h.loopOf (h.setV v p e x) := by
  unfold Hart.setV Hart.putV Hart.putC Hart.loopOf
  split <;> (try split) <;> rfl

theorem Hart.loopOf_trans {a b c : Hart} (h1 : b = a.loopOf b) (h2 : c = b.loopOf c) : c = a.loopOf c := by
  rw [h1] at h2
  exact h2

theorem Hart.loopOf_tangents {a b : Hart} (h : b = a.loopOf b) : b.tangents = a.tangents := by rw [h]; rfl
theorem Hart.loopOf_pinned {a b : Hart} (h : b = a.loopOf b) (v : VReg) : b.pinned v = a.pinned v := by rw [h]; rfl
theorem Hart.loopOf_fmt {a b : Hart} (h : b = a.loopOf b) : b.fmt = a.fmt := by rw [h]; rfl

theorem Hart.raiseFrom_loopOf (h : Hart) (p : Nat) (l : List Nat) : h.raiseFrom p l = h.loopOf (h.raiseFrom p l) := by
  induction l generalizing h p with
  | nil => rfl
  | cons f l ih => exact Hart.loopOf_trans (b := h.raise p f) rfl (ih _ _)

@[simp] theorem Hart.raiseFrom_v (h : Hart) (p : Nat) (l : List Nat) : (h.raiseFrom p l).v = h.v := by
  induction l generalizing h p with
  | nil => rfl
  | cons f l ih => exact ih _ _

/-- Containers read back depend on the containers and the geometry alone. -/
theorem Hart.getV_congr {g h : Hart} (hv : g.v = h.v) (ht : g.tb = h.tb) (v : VReg) (p e : Nat) : g.getV v p e = h.getV v p e := by
  unfold Hart.getV Hart.tangents
  rw [hv, ht]

theorem Hart.getV_raiseFrom (h : Hart) (i : Nat) (l : List Nat) (v : VReg) (p e : Nat) : (h.raiseFrom i l).getV v p e = h.getV v p e :=
  Hart.getV_congr (by simp) (by rw [Hart.raiseFrom_loopOf]; rfl) v p e

/-- One plane of an element written: a value, nothing, or zero. -/
def Hart.putPlane (h : Hart) (v : VReg) (e : Nat) (vals : List (Option Nat)) (p : Nat) : Hart :=
  match vals[p]? with
  | some (some x) => h.setV v p e x
  | some none => h
  | none => h.setV v p e 0

theorem Hart.putPlane_loopOf (h : Hart) (v : VReg) (e : Nat) (vals : List (Option Nat)) (p : Nat) :
    h.putPlane v e vals p = h.loopOf (h.putPlane v e vals p) := by
  unfold Hart.putPlane
  split
  · exact h.setV_loopOf v p e _
  · rfl
  · exact h.setV_loopOf v p e _

/-- What a plane of an element holds after its planes are written. -/
def planeAfter (f : Fmt) (vals : List (Option Nat)) (q old : Nat) : Nat :=
  match vals[q]? with
  | some (some x) => x % 2 ^ keepBits f
  | some none => old
  | none => 0

theorem Hart.getV_putPlane (h : Hart) {v : VReg} (hv : h.pinned v = false) (w : VReg) (vals : List (Option Nat)) {p q e d : Nat}
    (hp : p ≤ h.tangents) (hq : q < 32) (he : e < 65536) (hd : d < 65536) :
    (h.putPlane v e vals p).getV w q d = if w = v ∧ q = p ∧ d = e then planeAfter h.fmt vals q (h.getV w q d) else h.getV w q d := by
  unfold Hart.putPlane planeAfter
  by_cases hc : w = v ∧ q = p ∧ d = e
  · obtain ⟨rfl, rfl, rfl⟩ := hc
    rw [if_pos ⟨rfl, rfl, rfl⟩]
    split
    · exact h.getV_setV_same hv d _ hp
    · rfl
    · rw [h.getV_setV_same hv d 0 hp, Nat.zero_mod]
  · rw [if_neg hc]
    split
    · exact Hart.getV_setV_other h v w _ hq he hd hc
    · rfl
    · exact Hart.getV_setV_other h v w _ hq he hd hc

/-- Writing planes of an element leaves every other container's bits. -/
theorem Hart.getV_putPlane_other (h : Hart) (v w : VReg) (vals : List (Option Nat)) (p : Nat) {q e d : Nat} (hq : q < 32)
    (he : e < 65536) (hd : d < 65536) (hne : ¬ (w = v ∧ d = e)) : (h.putPlane v e vals p).getV w q d = h.getV w q d := by
  have hc : ¬ (w = v ∧ q = p ∧ d = e) := fun x => hne ⟨x.1, x.2.2⟩
  unfold Hart.putPlane
  split
  · exact h.getV_setV_other v w _ hq he hd hc
  · rfl
  · exact h.getV_setV_other v w _ hq he hd hc

theorem Hart.putPlanes_other (h : Hart) (v w : VReg) (vals : List (Option Nat)) {q e d : Nat} (hq : q < 32) (he : e < 65536)
    (hd : d < 65536) (hne : ¬ (w = v ∧ d = e)) : (h.putPlanes v e vals).getV w q d = h.getV w q d := by
  have key (l : List Nat) (g : Hart) : (l.foldl (fun (g : Hart) p => g.putPlane v e vals p) g).getV w q d = g.getV w q d := by
    induction l generalizing g with
    | nil => rfl
    | cons p l ih => exact (ih _).trans (g.getV_putPlane_other v w vals p hq he hd hne)
  exact key (List.range (1 + h.tangents)) h

/-- The planes 0 to n - 1 of an element of a register that is not pinned written. -/
theorem Hart.foldl_putPlane (h : Hart) {v : VReg} (hv : h.pinned v = false) (vals : List (Option Nat)) (n : Nat) {e : Nat}
    (hn : n ≤ 1 + h.tangents) (he : e < 65536) :
    let g := (List.range n).foldl (fun (g : Hart) p => g.putPlane v e vals p) h
    g = h.loopOf g ∧ ∀ (w : VReg) (q d : Nat), q < 32 → d < 65536 →
      g.getV w q d = if w = v ∧ q < n ∧ d = e then planeAfter h.fmt vals q (h.getV w q d) else h.getV w q d := by
  induction n with
  | zero => exact ⟨rfl, fun w q d _ _ => by simp⟩
  | succ n ih =>
    obtain ⟨h1, h2⟩ := ih (by omega)
    rw [List.range_succ, List.foldl_append]
    refine ⟨Hart.loopOf_trans h1 (Hart.putPlane_loopOf _ _ _ _ _), fun w q d hq hd => ?_⟩
    have ht := Hart.loopOf_tangents h1
    have hf := Hart.loopOf_fmt h1
    rw [List.foldl_cons, List.foldl_nil, Hart.getV_putPlane _ (by rw [Hart.loopOf_pinned h1, hv]) _ _ (by omega) hq he hd, h2 w q d hq hd, hf]
    by_cases h3 : w = v ∧ d = e
    · obtain ⟨rfl, rfl⟩ := h3
      by_cases h4 : q = n
      · subst h4
        simp
      · have h5 : (q < n + 1) ↔ (q < n) := by omega
        simp [h4, h5]
    · have h4 (k : Prop) : ¬ (w = v ∧ k ∧ d = e) := fun x => h3 ⟨x.1, x.2.2⟩
      simp [h4]

/-- 01 R46, 09 R235: the planes of one element written; every other container keeps its bits. -/
theorem Hart.putPlanes_loopOf (h : Hart) (v : VReg) (vals : List (Option Nat)) (e : Nat) :
    h.putPlanes v e vals = h.loopOf (h.putPlanes v e vals) := by
  have key (l : List Nat) (g : Hart) : (l.foldl (fun (g : Hart) p => g.putPlane v e vals p) g) =
      g.loopOf (l.foldl (fun (g : Hart) p => g.putPlane v e vals p) g) := by
    induction l generalizing g with
    | nil => rfl
    | cons p l ih => exact Hart.loopOf_trans (g.putPlane_loopOf v e vals p) (ih _)
  exact key (List.range (1 + h.tangents)) h

theorem Hart.putPlanes_spec (h : Hart) {v : VReg} (hv : h.pinned v = false) (vals : List (Option Nat)) {e : Nat} (he : e < 65536) :
    h.putPlanes v e vals = h.loopOf (h.putPlanes v e vals) ∧ ∀ (w : VReg) (q d : Nat), q ≤ h.tangents → d < 65536 →
      (h.putPlanes v e vals).getV w q d = if w = v ∧ d = e then planeAfter h.fmt vals q (h.getV w q d) else h.getV w q d := by
  obtain ⟨h1, h2⟩ := h.foldl_putPlane hv vals (1 + h.tangents) (Nat.le_refl _) he
  refine ⟨h1, fun w q d hq hd => ?_⟩
  have ht := h.tangents_le
  have h3 : q < 1 + h.tangents := by omega
  exact (h2 w q d (by omega) hd).trans (by simp [h3])

theorem Hart.zeroElem_loopOf (h : Hart) (v : VReg) (e p : Nat) : h.zeroElem v e p = h.loopOf (h.zeroElem v e p) := by
  induction p with
  | zero => exact h.setV_loopOf v 0 e 0
  | succ p ih => exact Hart.loopOf_trans ih (Hart.setV_loopOf _ _ _ _ _)

theorem Hart.zeroElem_other (h : Hart) (v w : VReg) (p : Nat) {q e d : Nat} (hq : q < 32) (he : e < 65536) (hd : d < 65536)
    (hne : ¬ (w = v ∧ d = e)) : (h.zeroElem v e p).getV w q d = h.getV w q d := by
  have hc (k : Nat) : ¬ (w = v ∧ q = k ∧ d = e) := fun x => hne ⟨x.1, x.2.2⟩
  induction p with
  | zero => exact h.getV_setV_other v w 0 hq he hd (hc 0)
  | succ p ih => exact (Hart.getV_setV_other _ v w 0 hq he hd (hc (p + 1))).trans ih

theorem Hart.zeroElem_spec (h : Hart) {v : VReg} (hv : h.pinned v = false) {e : Nat} (p : Nat) (hp : p ≤ h.tangents) (he : e < 65536) :
    ∀ (w : VReg) (q d : Nat), q < 32 → d < 65536 →
      (h.zeroElem v e p).getV w q d = if w = v ∧ q ≤ p ∧ d = e then 0 else h.getV w q d := by
  induction p with
  | zero =>
    refine fun w q d hq hd => ?_
    by_cases hc : w = v ∧ q = 0 ∧ d = e
    · obtain ⟨rfl, rfl, rfl⟩ := hc
      simp [Hart.zeroElem, h.getV_setV_same hv _ _ hp]
    · have h3 : ¬ (w = v ∧ q ≤ 0 ∧ d = e) := fun x => hc ⟨x.1, by omega, x.2.2⟩
      rw [if_neg h3]
      exact h.getV_setV_other v w 0 hq he hd hc
  | succ p ih =>
    have h1 := h.zeroElem_loopOf v e p
    have h2 := ih (by omega)
    refine fun w q d hq hd => ?_
    have ht := Hart.loopOf_tangents h1
    show ((h.zeroElem v e p).setV v (p + 1) e 0).getV w q d = _
    by_cases hc : w = v ∧ q = p + 1 ∧ d = e
    · obtain ⟨rfl, rfl, rfl⟩ := hc
      rw [Hart.getV_setV_same _ (by rw [Hart.loopOf_pinned h1, hv]) _ _ (by omega)]
      simp
    · rw [Hart.getV_setV_other _ _ _ _ hq he hd hc, h2 w q d hq hd]
      have h3 : (w = v ∧ q ≤ p ∧ d = e) ↔ (w = v ∧ q ≤ p + 1 ∧ d = e) :=
        ⟨fun x => ⟨x.1, by omega, x.2.2⟩, fun x => ⟨x.1, by have : q ≠ p + 1 := fun y => hc ⟨x.1, y, x.2.2⟩; omega, x.2.2⟩⟩
      simp [h3]

/-- 01 R20: every plane of an element of a register that is not pinned zeroed. -/
theorem Hart.zeroPlanes_spec (h : Hart) {v : VReg} (hv : h.pinned v = false) {e : Nat} (he : e < 65536) :
    ∀ (w : VReg) (q d : Nat), q ≤ h.tangents → d < 65536 →
      (h.zeroPlanes v e).getV w q d = if w = v ∧ d = e then 0 else h.getV w q d := by
  refine fun w q d hq hd => ?_
  have ht := h.tangents_le
  exact (h.zeroElem_spec hv h.tangents (Nat.le_refl _) he w q d (by omega) hd).trans (by simp [hq])

/-- The element loop changes only vector containers and FFLAGS, and of the containers only those of its register. -/
theorem elemLoop_frame (h0 : Hart) (c : Ctl) (v : VReg) (f : Nat → List (Option Nat) × List Nat) (es : List Nat) (h : Hart)
    (hes : ∀ e ∈ es, e < 65536) :
    let g := (elemLoop h0 c v f es h).1
    g = h.loopOf g ∧ ∀ (w : VReg) (q d : Nat), q ≤ h.tangents → d < 65536 → w ≠ v ∨ d ∉ es → g.getV w q d = h.getV w q d := by
  induction es generalizing h with
  | nil => exact ⟨rfl, fun _ _ _ _ _ _ => rfl⟩
  | cons e es ih =>
    have he := hes e (by simp)
    have hes' : ∀ x ∈ es, x < 65536 := fun x hx => hes x (by simp [hx])
    have step (g : Hart) (hg : g = h.loopOf g)
        (hv : ∀ (w : VReg) (q d : Nat), q ≤ h.tangents → d < 65536 → ¬ (w = v ∧ d = e) → g.getV w q d = h.getV w q d) :
        let k := (elemLoop h0 c v f es g).1
        k = h.loopOf k ∧ ∀ (w : VReg) (q d : Nat), q ≤ h.tangents → d < 65536 → w ≠ v ∨ d ∉ e :: es → k.getV w q d = h.getV w q d := by
      obtain ⟨h1, h2⟩ := ih g hes'
      refine ⟨Hart.loopOf_trans hg h1, fun w q d hq hd hne => ?_⟩
      rw [h2 w q d (by rw [Hart.loopOf_tangents hg]; exact hq) hd (hne.imp id fun x y => x (by simp [y]))]
      exact hv w q d hq hd fun x => hne.elim (fun y => y x.1) (fun y => y (by simp [x.2]))
    unfold elemLoop
    split
    · split
      · exact step _ (h.zeroElem_loopOf v e h.tangents) fun w q d hq hd hne =>
          h.zeroElem_other v w h.tangents (Nat.lt_of_le_of_lt (Nat.le_trans hq h.tangents_le) (by decide)) he hd hne
      · exact step h rfl fun _ _ _ _ _ _ => rfl
    · dsimp only
      split
      · exact ⟨h.raiseFrom_loopOf 0 _, fun w q d _ _ _ => h.getV_raiseFrom 0 _ w q d⟩
      · have hr := h.raiseFrom_loopOf 0 (f e).2
        refine step _ (Hart.loopOf_trans hr (Hart.putPlanes_loopOf _ v (f e).1 e)) fun w q d hq hd hne => ?_
        rw [Hart.putPlanes_other _ v w _ (Nat.lt_of_le_of_lt (Nat.le_trans hq h.tangents_le) (by decide)) he hd hne, h.getV_raiseFrom]

/-- The element loop that no flag stops writes each element of the list, of a register that is not pinned: an active one the planes
given, an inactive one zero or nothing (01 R20, 09 R237). -/
theorem elemLoop_value (h0 : Hart) (c : Ctl) (v : VReg) (f : Nat → List (Option Nat) × List Nat) (es : List Nat) (h : Hart) (hp : h.pinned v = false)
    (hes : ∀ e ∈ es, e < 65536) (nd : es.Nodup) (ok : (elemLoop h0 c v f es h).2 = none) {e q : Nat} (he : e ∈ es) (hq : q ≤ h.tangents) :
    (elemLoop h0 c v f es h).1.getV v q e =
      if h0.kBit c.k e then planeAfter h.fmt (f e).1 q (h.getV v q e) else if c.kz then 0 else h.getV v q e := by
  induction es generalizing h with
  | nil => simp at he
  | cons x es ih =>
    have hx := hes x (by simp)
    have hes' : ∀ y ∈ es, y < 65536 := fun y hy => hes y (by simp [hy])
    have nd' := (List.nodup_cons.1 nd)
    have heq := hes e he
    -- the rest of the loop leaves x alone, and writes e from what the head left
    have step (g : Hart) (hg : g = h.loopOf g) (hok : (elemLoop h0 c v f es g).2 = none)
        (hv : ∀ d, d < 65536 → g.getV v q d = if d = x then
          (if h0.kBit c.k x then planeAfter h.fmt (f x).1 q (h.getV v q x) else if c.kz then 0 else h.getV v q x) else h.getV v q d) :
        (elemLoop h0 c v f es g).1.getV v q e =
          if h0.kBit c.k e then planeAfter h.fmt (f e).1 q (h.getV v q e) else if c.kz then 0 else h.getV v q e := by
      have hqg : q ≤ g.tangents := by rw [Hart.loopOf_tangents hg]; exact hq
      by_cases hex : e = x
      · subst hex
        rw [(elemLoop_frame h0 c v f es g hes').2 v q e hqg heq (Or.inr nd'.1), hv e heq, if_pos rfl]
      · have hin : e ∈ es := by simpa [hex] using he
        rw [ih g (by rw [Hart.loopOf_pinned hg, hp]) hes' nd'.2 hok hin hqg, hv e heq, if_neg hex, Hart.loopOf_fmt hg]
    unfold elemLoop at ok ⊢
    split
    · next hk =>
      rw [if_pos hk] at ok
      have hk' : h0.kBit c.k x = false := by simpa using hk
      by_cases hz : c.kz = true
      · rw [show (if c.kz = true then h.zeroPlanes v x else h) = h.zeroPlanes v x from if_pos hz] at ok ⊢
        have h1 : h.zeroPlanes v x = h.loopOf (h.zeroPlanes v x) := h.zeroElem_loopOf v x h.tangents
        have h2 := h.zeroPlanes_spec hp hx
        refine step _ h1 ok fun d hd => ?_
        rw [h2 v q d hq hd]
        by_cases hdx : d = x <;> simp [hdx, hk', hz]
      · rw [show (if c.kz = true then h.zeroPlanes v x else h) = h from if_neg hz] at ok ⊢
        refine step h rfl ok fun d hd => ?_
        by_cases hdx : d = x <;> simp [hdx, hk', hz]
    · next hk =>
      rw [if_neg hk] at ok
      have hk' : h0.kBit c.k x = true := by simpa using hk
      dsimp only at ok ⊢
      split
      · next t ht => simp [ht] at ok
      · next ht =>
        rw [ht] at ok
        have hr := h.raiseFrom_loopOf 0 (f x).2
        obtain ⟨h1, h2⟩ := (h.raiseFrom 0 (f x).2).putPlanes_spec (by rw [Hart.loopOf_pinned hr, hp]) (f x).1 hx
        refine step _ (Hart.loopOf_trans hr h1) ok fun d hd => ?_
        rw [h2 v q d (by rw [Hart.loopOf_tangents hr]; exact hq) hd, h.getV_raiseFrom, Hart.loopOf_fmt hr]
        by_cases hdx : d = x <;> simp [hdx, hk']

/-- 08 R217: the loop stops at the first active element whose flags are enabled. -/
theorem elemLoop_stops (h0 : Hart) (c : Ctl) (v : VReg) (f : Nat → List (Option Nat) × List Nat) (es : List Nat) (h : Hart) (t : Trp)
    (ht : (elemLoop h0 c v f es h).2 = some t) : ∃ e ∈ es, t.eidx = e ∧ h0.kBit c.k e = true ∧ (t.cause = 10 ∨ t.cause = 11) := by
  induction es generalizing h with
  | nil => simp [elemLoop] at ht
  | cons x es ih =>
    have up (g : Hart) (hg : (elemLoop h0 c v f es g).2 = some t) :
        ∃ e ∈ x :: es, t.eidx = e ∧ h0.kBit c.k e = true ∧ (t.cause = 10 ∨ t.cause = 11) := by
      obtain ⟨e, he, r⟩ := ih g hg
      exact ⟨e, by simp [he], r⟩
    unfold elemLoop at ht
    split at ht
    · exact up _ ht
    · next hk =>
      dsimp only at ht
      split at ht
      · next u hu =>
        cases ht
        refine ⟨x, by simp, ?_, by simpa using hk, ?_⟩
        · unfold Hart.flagTrap at hu
          obtain ⟨y, _, rfl⟩ := Option.map_eq_some_iff.1 hu
          rfl
        · unfold Hart.flagTrap at hu
          obtain ⟨y, _, rfl⟩ := Option.map_eq_some_iff.1 hu
          by_cases hy : y.1 = 0 <;> simp [hy]
      · exact up _ ht

end Sys2Proof.Machine
end

