-- ==== Sys2Proof/Tests/Slice0.lean ====
section
/-! SUPPORT. Sys2Proof/Tests/Slice0.lean: tests: ill-formed terms, words written out from the formats of 03, one state for the hypotheses of every statement, and single instructions and moves with results computed by hand from the rules cited. -/

namespace Sys2Proof.Tests
set_option Elab.async false
open Sys2Proof Sys2Proof.Machine

/-! What the tests stand on: the reset state with scalar registers set, with fields of its hart changed, and with memory mapped. -/

def regs (l : List (SReg × Word)) : State := l.foldl (fun s p => s.ws p.1 p.2) State.reset
def withHart (f : Hart → Hart) : State := { State.reset with h := f State.reset.h }
def hartBy (s : State) (f : Hart → Hart) : State := { s with h := f s.h }

/-- Program memory mapped one to one, with the no-operation of 04 R102 at the pc. -/
def mapped : State := State.reset.placeHart (leBytes 4 0x2)

/-- The state an instruction leads to. -/
def after (i : Instr) (s : State) : State :=
  match exec i s with
  | .next t => t
  | _ => s

/-- An active loop level. -/
def level (start : Word) (len : Nat) (byReg : Bool) (r : SReg) (count : Nat) : LoopLevel := ⟨true, start, len, byReg, r, count, false⟩

/-- A load of s1 is under way. -/
def loading : State := withHart fun h => { h with sq := [State.reset.access 0 0 (.read (.sreg 1 8 false) [0x3000])] }

/-- What an exception-valued function answers, as a Bool the kernel evaluates. -/
def okIs {α : Type} [DecidableEq α] (x : Except Trp α) (y : α) : Bool :=
  match x with
  | .ok z => decide (z = y)
  | .error _ => false
def errIs {α : Type} (x : Except Trp α) (t : Trp) : Bool :=
  match x with
  | .ok _ => false
  | .error u => decide (u = t)
theorem okIs_eq {α : Type} [DecidableEq α] {x : Except Trp α} {y : α} (h : okIs x y = true) : x = .ok y := by
  cases x <;> simp_all [okIs]
theorem errIs_eq {α : Type} {x : Except Trp α} {t : Trp} (h : errIs x t = true) : x = .error t := by
  cases x <;> simp_all [errIs]

/-! Well-formedness: one ill-formed term for each check, and one well-formed neighbour. -/

theorem test_wf_refuses :
    ([Instr.fence .dev false false, .vconf 5 8, .vconf 0 7, .vconf 0 17, .vlds .f32 0 .plain 1 2 0 0 ⟨0, false⟩,
      .vst .f32 0 .plain true 1 2 0 0, .vsts .f32 0 .plain true 1 2 3 0 0, .vsts .f32 0 .plain false 1 2 0 0 0,
      .vstx .bf16 0 .plain true 1 2 0 3 0, .vstxa .f32 0 true 1 2 0 3 0, .mcfg 0 0, .mtset 0 (.reg 0) 1 0, .mrow 0 (.reg 0) 0 1,
      .mrowd 0 (.reg 0) 0 1 0, .mdrain (.vec 1) 0 (.reg 0) .rne, .mdraint (.vec 1) 0 (.reg 0) .rne, .mtscl 0 (.reg 0) 1,
      .br .always 1 0 0, .br .always 0 1 0].all fun i => !i.wf) = true := by decide

theorem test_wf_accepts :
    ([Instr.fence .dev true false, .vconf 4 8, .vconf 0 16, .vlds .f32 0 .plain 1 2 31 0 ⟨0, false⟩, .vst .e4m3 0 .plain true 1 2 0 0,
      .vsts .e4m3 0 .plain true 1 2 3 0 0, .vstx .e4m3 0 .plain true 1 2 0 3 0, .vstxa .e4m3 0 true 1 2 0 3 0, .mcfg 0 1, .mtset 0 (.imm 0) 1 0,
      .mrow 0 (.reg 1) 0 1, .mrowd 0 (.reg 31) 0 1 0, .mdrain (.vec 1) 0 (.imm 63) .rne, .mdraint (.vec 1) 0 (.reg 1) .rne,
      .mtscl 0 (.reg 1) 1, .br .always 0 0 0, .br (.cmp .eq) 1 2 0].all Instr.wf) = true := by decide
/-- ALU words, format S3 with funct10 (03 R73, R76). -/
theorem test_code_alu :
    ([(0x326981, Instr.add 19 6 25), (0x726981, .sub 19 6 25), (0xB26981, .and 19 6 25), (0xF26981, .or 19 6 25), (0x1326981, .xor 19 6 25),
        (0x1726981, .sll 19 6 25), (0x1B26981, .srl 19 6 25), (0x1F26981, .sra 19 6 25), (0x2326981, .slt 19 6 25), (0x2726981, .sltu 19 6 25),
        (0x2B26981, .mul 19 6 25), (0x2F26981, .mulh 19 6 25), (0x3326981, .mulhu 19 6 25), (0x3726981, .div 19 6 25), (0x3B26981, .divu 19 6 25),
        (0x3F26981, .rem 19 6 25), (0x4326981, .remu 19 6 25), (0x4726981, .min 19 6 25), (0x4B26981, .max 19 6 25), (0x4F26981, .minu 19 6 25),
        (0x5326981, .maxu 19 6 25), (0x5406981, .clz 19 6), (0x5806981, .ctz 19 6), (0x5C06981, .popc 19 6), (0x6326981,
        .andn 19 6 25)].all fun p => decode32 p.1 == some p.2 && encode p.2 == p.1) = true := by rfl

/-- IMM, LUI and AUIPC words; the SRAI word is the one of 04 R105. -/
theorem test_code_imm :
    ([(0xA5C06982, Instr.addi 19 6 0xA5C), (0xA5C26982, .andi 19 6 0xA5C), (0xA5C46982, .ori 19 6 0xA5C), (0xA5C66982, .xori 19 6 0xA5C),
        (0xA5C86982, .slti 19 6 0xA5C), (0xA5CA6982, .sltiu 19 6 0xA5C), (0x2BC6982, .slli 19 6 0x2B), (0x42BC6982, .srli 19 6 0x2B), (0x82BC6982,
        .srai 19 6 0x2B), (0x803C7302, .srai 6 7 3), (0xC3A51984, .lui 19 0xC3A51), (0xC3A51985,
        .auipc 19 0xC3A51)].all fun p => decode32 p.1 == some p.2 && encode p.2 == p.1) = true := by rfl

/-- FALU words: precision, rm and operation (03 R75, R76). -/
theorem test_code_falu :
    ([(0x80326986, Instr.fadd true .rne 19 6 25), (0x10726986, .fsub false .rtz 19 6 25), (0xA0B26986, .fmul true .rdn 19 6 25), (0x30F26986,
        .fdiv false .rup 19 6 25), (0xC1006986, .fsqrt true .rna 19 6), (0x1726986, .fmin false 19 6 25), (0x81B26986, .fmax true 19 6 25),
        (0x71F26986, .fmadd false .dyn 19 6 25), (0x82326986, .feq true 19 6 25), (0x2726986, .flt false 19 6 25), (0x82B26986, .fle true 19 6 25),
        (0x32C06986, .fcvtfi false .rup 19 6), (0xC3006986, .fcvtif true .rna 19 6), (0x53406986,
        .fcvtff false .rsr 19 6)].all fun p => decode32 p.1 == some p.2 && encode p.2 == p.1) = true := by rfl

/-- BRANCH, BSUB, JAL and JALR words (03 R75). -/
theorem test_code_branch :
    ([(0xA5C06988, Instr.beq 19 6 0xA5C), (0xA5C26988, .bne 19 6 0xA5C), (0xA5C46988, .blt 19 6 0xA5C), (0xA5C66988, .bge 19 6 0xA5C), (0xA5C86988,
        .bltu 19 6 0xA5C), (0xA5CA6988, .bgeu 19 6 0xA5C), (0xA5C06989, .bsubnz 19 6 0xA5C), (0xA5C26989, .bsubgt 19 6 0xA5C), (0xC3A5198A,
        .jal 19 0xC3A51), (0xA5C0698C, .jalr 19 6 0xA5C)].all fun p => decode32 p.1 == some p.2 && encode p.2 == p.1) = true := by rfl

/-- LOAD and STORE words (03 R75). -/
theorem test_code_access :
    ([(0xA5C0698D, Instr.lb 19 6 0xA5C), (0xA5C2698D, .lh 19 6 0xA5C), (0xA5C4698D, .lw 19 6 0xA5C), (0xA5C6698D, .ld 19 6 0xA5C), (0xA5C8698D,
        .lbn 19 6 0xA5C), (0xA5CA698D, .lhn 19 6 0xA5C), (0xA5CC698D, .lwn 19 6 0xA5C), (0xA5C0698E, .sb 19 6 0xA5C), (0xA5C2698E, .sh 19 6 0xA5C),
        (0xA5C4698E, .sw 19 6 0xA5C), (0xA5C6698E, .sd 19 6 0xA5C)].all fun p => decode32 p.1 == some p.2 && encode p.2 == p.1) = true := by rfl

/-- AMO words: scope, order and operation (03 R76). -/
theorem test_code_amo :
    ([(0x326990, Instr.amoswp .core .plain 19 6 25), (0x28726990, .amoadd .clu .acq 19 6 25), (0x50B26990, .amoand .die .rel 19 6 25), (0x78F26990,
        .amoor .dev .sc 19 6 25), (0x81326990, .amoxor .dom .plain 19 6 25), (0x9726990, .amomin .core .acq 19 6 25), (0x31B26990,
        .amomax .clu .rel 19 6 25), (0x59F26990, .amominu .die .sc 19 6 25), (0x62326990, .amomaxu .dev .plain 19 6 25), (0x8A726990,
        .amocas .dom .acq 19 6 25), (0x12B26990, .amofadd .core .rel 19 6 25), (0x3AC06990, .ldo .clu .sc 19 6), (0x43326010,
        .sto .die .plain 6 25)].all fun p => decode32 p.1 == some p.2 && encode p.2 == p.1) = true := by rfl

/-- The FENCE parcels of 05 R142, and WAITV (03 R75). -/
theorem test_code_fence :
    ([(0x1B00011, Instr.fence .dev true true), (0xB00011, .fence .dev true false), (0x1100011, .fence .clu false true), (0x20011, .fenceSv),
        (0x40011, .fenceVs), (0x73011, .sbar 19), (0x326992, .waitv .eq 19 6 25), (0x726992, .waitv .ne 19 6 25), (0xB26992, .waitv .lt 19 6 25),
        (0xF26992, .waitv .ge 19 6 25), (0x1326992, .waitv .ltu 19 6 25), (0x1726992,
        .waitv .geu 19 6 25)].all fun p => decode32 p.1 == some p.2 && encode p.2 == p.1) = true := by rfl

/-- CSR words with every assigned number (03 R78); the first two are the parcels of 04 R116. -/
theorem test_code_csr :
    ([(0x294, Instr.csrr 5 .vl), (0x549014, .csrs 0 .fctl 9), (0x66994, .csrc 19 .vl 6), (0x126994, .csrw 19 .vtype 6), (0x266994, .csrc 19 .vcfg 6),
        (0x326994, .csrw 19 .eidx 6), (0x466994, .csrc 19 .vlmax 6), (0x526994, .csrw 19 .fctl 6), (0x666994, .csrc 19 .fflags 6), (0x726994,
        .csrw 19 .srseed 6), (0x866994, .csrc 19 .srseq 6), (0x926994, .csrw 19 .tseedv 6), (0xA66994, .csrc 19 .tbase 6), (0xB26994,
        .csrw 19 .lscale 6), (0xC66994, .csrc 19 .lpart 6), (0xD26994, .csrw 19 .cdens 6), (0x1066994, .csrc 19 .cgroup 6), (0x1126994,
        .csrw 19 .cops 6), (0x1266994, .csrc 19 .cstride 6), (0x1326994, .csrw 19 .ctag 6), (0x2666994, .csrc 19 .stepno 6), (0x3066994,
        .csrc 19 .capbase 6), (0x10066994, .csrc 19 .tvec 6), (0x10126994, .csrw 19 .tcause 6), (0x10266994, .csrc 19 .tpc 6), (0x10326994,
        .csrw 19 .teidx 6), (0x10466994, .csrc 19 .tval 6), (0x10526994, .csrw 19 .tstatus 6), (0x10666994, .csrc 19 .ptbase 6), (0x10726994,
        .csrw 19 .partid 6), (0x10866994, .csrc 19 .twin 6), (0x10926994, .csrw 19 .tshort 6), (0x10A66994, .csrc 19 .rwin 6), (0x2000994,
        .csrr 19 (.lidx 0)), (0x2100994, .csrr 19 (.lidx 1)), (0x2200994, .csrr 19 (.lidx 2)), (0x2300994, .csrr 19 (.lidx 3)), (0x2400994,
        .csrr 19 (.lidx 4)), (0x2500994, .csrr 19 (.lidx 5))].all fun p => decode32 p.1 == some p.2 && encode p.2 == p.1) = true := by rfl

/-- VCONF, VSETVL, VSETVLX, CONVOY and loop words (03 R75, R77, R82). -/
theorem test_code_config :
    ([(0xD60015, Instr.vconf 3 13), (0x69726996, .vsetvl 19 6 25 0x1A5), (0x3726998, .vsetvlx 19 6 25 13), (0xA947219, .convoy 4 0x2A51C),
        (0x2B0601A, .loop 6 0x2B), (0x2B2601A, .loopn 6 0x2B)].all fun p => decode32 p.1 == some p.2 && encode p.2 == p.1) = true := by rfl

/-- SYS, SCHED, DGN, PRIV and BELL words (03 R75, 15 R344). -/
theorem test_code_system :
    ([(0x1C, Instr.ecall), (0x2001C, .ebreak), (0x4001C, .tret), (0x6001C, .exit), (0x8001C, .yield), (0x699D, .launch 19 6), (0x2601D, .ksend 6),
        (0x4601D, .kwait 6), (0x6699D, .kstat 19 6), (0x206021, .dgload 2 6), (0x226021, .dgstart 2 6), (0x240021, .dgstop 2), (0x2609A1,
        .dgstat 19 2), (0x69A2, .tsync 19 6), (0x26022, .cask 6), (0x46022, .pgpin 6), (0x69A4, .bella 19 6), (0x406024, .bellf 6), (0xB269A4,
        .bellring 6 25 19), (0xC069A4, .bellq 19 6)].all fun p => decode32 p.1 == some p.2 && encode p.2 == p.1) = true := by rfl

/-- COPY and QOP words (03 R75, R79, 06 R187). -/
theorem test_code_copy :
    ([(0xB0699E, Instr.cpy 11 19 6), (0xB2601E, .cnest 11 6), (0xB4001E, .cdrain 11), (0x6601E, .shadow 6), (0x8601E, .publish 6), (0x506020,
        .qpush 5 6), (0x203A0, .qpop 7 0), (0x8840020, .qbind 0 (.chan 1)), (0x5D40020, .qbind 5 (.stream 11)), (0x1FD40020, .qbind 5 .none),
        (0xFD40020, .qbind 5 (.chan 15))].all fun p => decode32 p.1 == some p.2 && encode p.2 == p.1) = true := by rfl

/-- VFP words, format VV (03 R81, R84). -/
theorem test_code_vfp :
    ([(0xD02D9B903, Instr.vfadd 57 38 (.reg 45) .rne .prop ⟨5, true⟩), (0x15069D0009B903, .vfsub 57 38 (.scalar 21) .rtz .tstop ⟨5, true⟩),
        (0x92D02D9B903, .vfmul 57 38 (.reg 45) .rdn .vonly ⟨5, true⟩), (0x150E3D0009B903, .vfdiv 57 38 (.scalar 21) .rup .prop ⟨5, true⟩),
        (0x10CDAAD9B903, .vfma 57 38 (.reg 45) 42 .rna .tstop ⟨5, true⟩), (0x15175DA809B903, .vfms 57 38 (.scalar 21) 42 .rsr .vonly ⟨5, true⟩),
        (0x186DAAD9B903, .vfnma 57 38 (.reg 45) 42 .rod .prop ⟨5, true⟩), (0x1CFD0009B903, .vfsqrt 57 38 .dyn .tstop ⟨5, true⟩), (0x210D02D9B903,
        .vfmin 57 38 (.reg 45) .vonly ⟨5, true⟩), (0x15260D0009B903, .vfmax 57 38 (.scalar 21) .prop ⟨5, true⟩), (0x288D0009B903,
        .vfabs 57 38 .tstop ⟨5, true⟩), (0x2D0D0009B903, .vfneg 57 38 .vonly ⟨5, true⟩), (0x300D02D9B903, .vfcps 57 38 (.reg 45) .prop ⟨5,
        true⟩)].all fun p => decode64 p.1 == some p.2 && encode p.2 == p.1) = true := by rfl

/-- VINT words. -/
theorem test_code_vint :
    ([(0xD02D9B907, Instr.vadd 57 38 (.reg 45) .prop ⟨5, true⟩), (0x15068D0009B907, .vsub 57 38 (.scalar 21) .tstop ⟨5, true⟩), (0x90D02D9B907,
        .vmul 57 38 (.reg 45) .vonly ⟨5, true⟩), (0x150E0D0009B907, .vmulh 57 38 (.scalar 21) .prop ⟨5, true⟩), (0x108D02D9B907,
        .vmulhu 57 38 (.reg 45) .tstop ⟨5, true⟩), (0x15170D0009B907, .vand 57 38 (.scalar 21) .vonly ⟨5, true⟩), (0x180D02D9B907,
        .vor 57 38 (.reg 45) .prop ⟨5, true⟩), (0x151E8D0009B907, .vxor 57 38 (.scalar 21) .tstop ⟨5, true⟩), (0x210D02D9B907,
        .vsll 57 38 (.reg 45) .vonly ⟨5, true⟩), (0x15260D0009B907, .vsrl 57 38 (.scalar 21) .prop ⟨5, true⟩), (0x288D02D9B907,
        .vsra 57 38 (.reg 45) .tstop ⟨5, true⟩), (0x152F0D0009B907, .vmin 57 38 (.scalar 21) .vonly ⟨5, true⟩), (0x300D02D9B907,
        .vmax 57 38 (.reg 45) .prop ⟨5, true⟩), (0x15368D0009B907, .vminu 57 38 (.scalar 21) .tstop ⟨5, true⟩), (0x390D02D9B907,
        .vmaxu 57 38 (.reg 45) .vonly ⟨5, true⟩), (0x153E0D0009B907, .vsadd 57 38 (.scalar 21) .prop ⟨5, true⟩), (0x408D02D9B907,
        .vssub 57 38 (.reg 45) .tstop ⟨5, true⟩)].all fun p => decode64 p.1 == some p.2 && encode p.2 == p.1) = true := by rfl

/-- VCMP words. -/
theorem test_code_vcmp :
    ([(0xD02D9860B, Instr.vfeq 6 38 (.reg 45) ⟨5, true⟩), (0x15060D0009860B, .vflt 6 38 (.scalar 21) ⟨5, true⟩), (0x80D02D9860B,
        .vfle 6 38 (.reg 45) ⟨5, true⟩), (0x150E0D0009860B, .vfne 6 38 (.scalar 21) ⟨5, true⟩), (0x100D02D9860B, .vieq 6 38 (.reg 45) ⟨5, true⟩),
        (0x15160D0009860B, .vilt 6 38 (.scalar 21) ⟨5, true⟩), (0x180D02D9860B, .viltu 6 38 (.reg 45) ⟨5, true⟩), (0x151E0D0009860B,
        .vile 6 38 (.scalar 21) ⟨5, true⟩), (0x400D0040C60B, .kand 6 3 4 ⟨5, true⟩), (0x440D0040C60B, .kor 6 3 4 ⟨5, true⟩), (0x480D0040C60B,
        .kxor 6 3 4 ⟨5, true⟩), (0x4C0D0040C60B, .kandn 6 3 4 ⟨5, true⟩), (0x500D0000C60B, .knot 6 3 ⟨5, true⟩), (0x15600D0000C00B, .kpop 21 3 ⟨5,
        true⟩), (0x15640D0000C00B, .kfirst 21 3 ⟨5, true⟩)].all fun p => decode64 p.1 == some p.2 && encode p.2 == p.1) = true := by rfl

/-- VSFU words. -/
theorem test_code_vsfu :
    ([(0xD0009B90F, Instr.vexp 57 38 .rne .prop ⟨5, true⟩), (0x49D0009B90F, .vlog 57 38 .rtz .tstop ⟨5, true⟩), (0x92D0009B90F,
        .vtanh 57 38 .rdn .vonly ⟨5, true⟩), (0xC3D0009B90F, .vsigm 57 38 .rup .prop ⟨5, true⟩), (0x10CD0009B90F, .vrcp 57 38 .rna .tstop ⟨5, true⟩),
        (0x155D0009B90F, .vrsq 57 38 .rsr .vonly ⟨5, true⟩), (0x186D0009B90F, .vrelu 57 38 .rod .prop ⟨5, true⟩), (0x1CFD0009B90F,
        .vsilu 57 38 .dyn .tstop ⟨5, true⟩)].all fun p => decode64 p.1 == some p.2 && encode p.2 == p.1) = true := by rfl

/-- VCVT words with imm11 (03 R85). -/
theorem test_code_vcvt :
    ([(0x440013D0009B913, Instr.vcvt .f16 true 57 38 .rup .vonly ⟨5, true⟩), (0xC80053D02D9B913, .vqblk .e4m3 true true 57 38 45 .rup .vonly ⟨5,
        true⟩), (0x8E008BD02D9B913, .vdqblk .e2m1 true 57 38 45 .rup .tstop ⟨5, true⟩), (0x1200C1D0009B913, .vcvti .i8 57 38 .rtz .prop ⟨5,
        true⟩)].all fun p => decode64 p.1 == some p.2 && encode p.2 == p.1) = true := by rfl

/-- VMOV words. -/
theorem test_code_vmov :
    ([(0x8D0009B917, Instr.vmv 57 38 .tstop ⟨5, true⟩), (0x15050D00003917, .vsplat 57 21 .vonly ⟨5, true⟩), (0x15080D34098017, .vext 21 38 13 ⟨5,
        true⟩), (0x150C8D34003917, .vins 57 21 13 .tstop ⟨5, true⟩), (0x100D00003917, .viota 57 ⟨5, true⟩), (0x15168D0009B917,
        .vmerge 57 38 (.scalar 21) .tstop ⟨5, true⟩), (0x180D00003917, .vpin 57 ⟨5, true⟩), (0x1C0D00003917, .vunpin 57 ⟨5, true⟩), (0x200D00003917,
        .lwait 57 ⟨5, true⟩)].all fun p => decode64 p.1 == some p.2 && encode p.2 == p.1) = true := by rfl

/-- VPERM words. -/
theorem test_code_vperm :
    ([(0xB475008D3409B91B, Instr.vslup 57 38 21 0x5A3 13 .tstop ⟨5, true⟩), (0xB460050D3409B91B, .vsldn 57 38 0 0x5A3 13 .vonly ⟨5, true⟩),
        (0x88D02D9B91B, .vrgath 57 38 45 .tstop ⟨5, true⟩), (0xC8D0009B91B, .vcompr 57 38 .tstop ⟨5,
        true⟩)].all fun p => decode64 p.1 == some p.2 && encode p.2 == p.1) = true := by rfl

/-- VRED words. -/
theorem test_code_vred :
    ([(0xD02D9B91F, Instr.vfredo 57 38 45 .rne .prop ⟨5, true⟩), (0x49D02D9B91F, .vfredu 57 38 45 .rtz .tstop ⟨5, true⟩), (0x92D02D9B91F,
        .vfrmax 57 38 45 .rdn .vonly ⟨5, true⟩), (0xC3D02D9B91F, .vfrmin 57 38 45 .rup .prop ⟨5, true⟩), (0x10CD02D9B91F,
        .vireds 57 38 45 .rna .tstop ⟨5, true⟩), (0x155D0009B91F, .vscan 57 38 .rsr .vonly ⟨5, true⟩), (0x186D0009B91F, .vscanf 57 38 .rod .prop ⟨5,
        true⟩)].all fun p => decode64 p.1 == some p.2 && encode p.2 == p.1) = true := by rfl

/-- TANG words. -/
theorem test_code_tang :
    ([(0x20000D00003923, Instr.tseed .n12 57 ⟨5, true⟩), (0x40D00003923, .tzero 57 ⟨5, true⟩), (0x80D0009B923, .tget 57 38 ⟨5, true⟩),
        (0xC0D0009B923, .tput 57 38 ⟨5, true⟩), (0x100D00003923, .tregen .rad 57 ⟨5, true⟩), (0x20144D0009B923, .tfga .n12 57 38 .rna ⟨5, true⟩),
        (0x15185D00003923, .tscl 57 21 .rsr ⟨5, true⟩)].all fun p => decode64 p.1 == some p.2 && encode p.2 == p.1) = true := by rfl

/-- MTX words, format MX (03 R81). -/
theorem test_code_mtx :
    ([(0x15008027, Instr.mcfg 2 21), (0x40260ACB927, .mtset 2 (.imm 43) 57 19), (0x4027500B927, .mtset 2 (.reg 21) 57 19), (0x80000AFB927,
        .mrow 3 (.imm 43) 2 57), (0xC027503B927, .mrowd 3 (.reg 21) 2 57 19), (0x101800AF3927, .mdrain (.vec 57) 3 (.imm 43) .rod), (0x101BF6031527,
        .mdrain (.mem 21) 3 (.reg 22) .rod), (0x140BE0AF1527, .mdraint (.mem 21) 3 (.imm 43) .rdn), (0x180000030027, .maclr 3), (0x1C0000ACB927,
        .mtscl 2 (.imm 43) 57)].all fun p => decode64 p.1 == some p.2 && encode p.2 == p.1) = true := by rfl

/-- VLD words, format VM (03 R81, R86). -/
theorem test_code_vld :
    ([(0xA940E64D0005792B, Instr.vld .e4m3 19 .sc 57 21 0x2A5 ⟨5, true⟩), (0xA942661D006D792B, .vlds .bf16 19 .acq 57 21 13 0x2A5 ⟨5, true⟩),
        (0xA944A70D6D05792B, .vldx .i32 19 .rel 57 21 0x2A5 45 ⟨5, true⟩), (0xA946274D806D792B, .vslr .f64 19 .plain 57 21 13 0x2A5 ⟨5, true⟩),
        (0xA948007D006D422B, .mtld .e2m1 2 21 13 0x2A5 ⟨5, true⟩)].all fun p => decode64 p.1 == some p.2 && encode p.2 == p.1) = true := by rfl

/-- VST words. -/
theorem test_code_vst :
    ([(0xA940E64D0005792F, Instr.vst .e4m3 19 .sc true 57 21 0x2A5 5), (0xA9426615006D792F, .vsts .bf16 19 .acq false 57 21 13 0x2A5 5),
        (0xA944A7056D05792F, .vstx .i32 19 .rel false 57 21 0x2A5 45 5), (0xA94726056D05792F,
        .vstxa .f32 19 false 57 21 0x2A5 45 5)].all fun p => decode64 p.1 == some p.2 && encode p.2 == p.1) = true := by rfl

/-- VBIND and VQ words. -/
theorem test_code_vbind :
    ([(0x15000D00003933, Instr.vbind 57 21 ⟨5, true⟩), (0x40D00003933, .vunbind 57 ⟨5, true⟩), (0x15080D00003933, .vbskip 57 21 ⟨5, true⟩),
        (0xC0000D00098037, .vqpush 6 38 ⟨5, true⟩), (0xC0050D00003937, .vqpop 57 6 .vonly ⟨5,
        true⟩)].all fun p => decode64 p.1 == some p.2 && encode p.2 == p.1) = true := by rfl

/-- VCOL and VCPK words. -/
theorem test_code_vcol :
    ([(0x60000D0009803B, Instr.vcsend 3 38 ⟨5, true⟩), (0x60050D0000393B, .vcrecv 57 3 .vonly ⟨5, true⟩), (0x6008CD0009B93B,
        .vcred 57 38 3 .rna .tstop ⟨5, true⟩), (0xD0009B93F, .vcpk 57 38 ⟨5, true⟩), (0x40D0000393F, .vcpkf 57 ⟨5,
        true⟩)].all fun p => decode64 p.1 == some p.2 && encode p.2 == p.1) = true := by rfl

/-- Dungen words (15 R363). -/
theorem test_code_dungen :
    ([(0x0, Instr.nop), (0xCB6D800, .send 9 6 13 11), (0x14B05800, .recv 9 6 11), (0x1CB6D846, .reduce .min 17 9 6 13 11), (0x24B05800,
        .copy 9 6 11), (0x2CB0053C, .wait .ltu 9 6 0xA7), (0x34B68000, .ring 9 6 13), (0x3CB00000, .alloc 9 6), (0x44800000, .free 9), (0x4CB00000,
        .flag 9 6), (0x54DA3C71, .setc 9 0x5A3C71), (0x5CB685A3, .addc 9 6 13 0x5A3), (0x64800A5C, .dungenLoop 9 0xA5C), (0x6CB20A5C,
        .br (.cmp .ge) 9 6 0xA5C), (0x68000A5C, .br .always 0 0 0xA5C), (0x70000000, .step), (0x78000000, .dungenFence), (0x80000000,
        .halt)].all fun p => decodeDungen p.1 == some p.2 && encode p.2 == p.1) = true := by rfl
/-- Unassigned majors, functions and operands of 32-bit instructions, and fields that must be zero (03 R74 to R80, R82). -/
theorem test_refused_32 :
    ([0x0, 0x7, 0x25, 0x26, 0x28, 0x30, 0x70, 0x6462081, 0x5462081, 0x5C62081, 0xFFC62081, 0xE2082, 0xC00C2082, 0x40C2082, 0xA00C2082, 0x3862086,
        0x1062086, 0x11462086, 0x72862086, 0x2C62086, 0x83462086, 0xC2088, 0xE2088, 0x42089, 0xE2089, 0x2208C, 0xE208D, 0x8208E, 0x3462090,
        0xA0062090, 0x2C62090, 0x3062090, 0xE0062090, 0xD00011, 0x300011, 0x2800011, 0x800091, 0x21011, 0x140011, 0x61091, 0x80011, 0x1862092,
        0x2062092, 0x1094, 0xE22094, 0x2742094, 0x10B62094, 0x82094, 0x8A0015, 0x700015, 0x1100015, 0x2800015, 0x800095, 0x80062096, 0x8062098,
        0x10000019, 0x209A, 0x4201A, 0x400201A, 0xA001C, 0x9C, 0x16001C, 0x8209D, 0x2209D, 0x10209D, 0xA209E, 0x100209E, 0x2209E, 0x4101E, 0x16201E,
        0x62020, 0x20A0, 0x220A0, 0x6040020, 0x7840020, 0x10040020, 0x1F040020, 0x20040020, 0x802020, 0x82021, 0x20A1, 0x402021, 0x41021, 0x610A1,
        0x620A2, 0x220A2, 0x142022, 0x620A4, 0x4020A4, 0x10020A4, 0x20620A4].all fun w => decode32 w == none) = true := by rfl

/-- The same of 64-bit instructions (03 R81, R83 to R86). -/
theorem test_refused_64 :
    ([0x43, 0xFF, 0x340000000003, 0x18000000003, 0x20000000000003, 0x20000100003, 0x1000000000003, 0x4000003, 0x1C0000100003, 0x1E0000000003,
        0x201000000003, 0x281000000003, 0x440000000007, 0x1000000007, 0x4000007, 0x20000000000B, 0x3C000000000B, 0x54000000000B, 0x68000000000B,
        0x80B, 0x800000000B, 0x40000002010B, 0x40000080010B, 0x50000010010B, 0x60000000010B, 0x60000002000B, 0x20000000000F, 0x10000F, 0x2000000000F,
        0x100000000013, 0x100013, 0x800000000000013, 0x8000C0000000013, 0x400080000000013, 0x1000000000000013, 0x8000040000000013, 0x240000000017,
        0x100017, 0x40000004017, 0x80000000117, 0x80080000017, 0x88000000017, 0xC0000004017, 0x108000000017, 0x100000004017, 0x180000004017,
        0x208000000017, 0x10000000001B, 0x8000001B, 0x10001B, 0x8000400001B, 0x200C000000001B, 0x1C000000001F, 0x14000010001F, 0x2000000001F,
        0x1C0000000023, 0x40000000000023, 0x4023, 0x48000000023, 0x148000000023, 0x40140000000023, 0x180000004023, 0x200000000027, 0x1000127,
        0x1040027, 0x27, 0x40000010027, 0x40001040027, 0x40400000027, 0x80020000027, 0x100020000027, 0x100000004027, 0x180000040027, 0x180000004027,
        0x1C0020000027, 0x82000000027, 0xA0000000027, 0x1080000000027, 0xA00000000812B, 0x100000000812B, 0x140000000812B, 0x4000812B, 0xC000812B,
        0x100812B, 0x200000000812B, 0x400004008812B, 0x600008100812B, 0x800000000842B, 0x840000000812B, 0x802000000812B, 0x800000000812F,
        0x80000812F, 0x200000000812F, 0x600004000812F, 0x6C0004000812F, 0x500004000812F, 0xC0000000033, 0x1040000000033, 0x8000000033, 0x80000000037,
        0x100000000000037, 0x8000000037, 0xC000000003B, 0x8000000000003B, 0x100000003B, 0x4000000403B, 0x8000000003F, 0x4000000403F,
        0x800000003F].all fun w => decode64 w == none) = true := by rfl

/-- The same of Dungen words (15 R363). -/
theorem test_refused_dungen :
    ([0x88000000, 0xF8000000, 0x800000, 0x1, 0x891A001, 0x1090A000, 0x1891A003, 0x1891A080, 0x20909800, 0x28908000, 0x28900006, 0x30918800,
        0x38908000, 0x40880000, 0x48900001, 0x58918800, 0x60801000, 0x68038000, 0x68004000, 0x68800000, 0x70800000, 0x78000001,
        0x80080000].all fun w => decodeDungen w == none) = true := by rfl

/-! Witnesses: for each statement with hypotheses, states and operands that meet them together, clause by clause. -/

theorem test_witness_integer : (regs [(1, 0x8000000000000000), (2, 0xFFFFFFFFFFFFFFFF)]).ready [1, 2, 3] = true ∧ State.reset.ready [0, 0, 0] = true := by decide +kernel
theorem test_witness_alu_word : (3 : SReg) ≠ 0 ∧ (21 : Nat) ∈ [21, 22, 23] ∧ (23 : Nat) ∈ [21, 22, 23] := by decide +kernel
theorem test_witness_imm_word : 3072 < 4096 ∧ 3072 / 1024 = 3 ∧ 64 / 64 % 16 ≠ 0 ∧ (0 < 4096) := by decide +kernel
theorem test_witness_integer_frame :
    (Instr.add 3 1 2).intForm = some (3, [1, 2, 3]) ∧ State.reset.ready [1, 2, 3] = true ∧
    (Instr.addi 0 1 5).intForm = some (0, [1, 0]) ∧ loading.ready [1, 0] = false := by decide +kernel

/-- A loop of two parcels at 0x1000 with 3 passes left, inside a LOOPN level counted in s5 whose body ends at the same place. -/
def looping (passes : Nat) (left : Word) : State :=
  (withHart fun h => { h with pc := 0x1004, loops := [level 0xFF8 4 true 5 0, level 0x1000 2 false 0 passes] }).ws 5 left
def counting (left : Word) : State := (withHart fun h => { h with pc := 0x1004, loops := [level 0xFF8 4 true 5 0] }).ws 5 left

/-- Is the pass of a level past, as sequential flow goes on by n (04 R121). -/
def pastOf (s : State) (n : Nat) (l : LoopLevel) : Bool :=
  let stop := l.start + BitVec.ofNat 64 (4 * l.len)
  let next := s.h.pc + BitVec.ofNat 64 n
  l.due || stop == next || (decide (0 < (stop - s.h.pc).toNat) && decide ((stop - s.h.pc).toNat < (next - s.h.pc).toNat))
/-- The counter s5 of the inner level is still to come from a load. -/
def countLoading : State := hartBy (counting 2) fun h => { h with sq := [State.reset.access 0 0 (.read (.sreg 5 8 false) [0x3000])] }

theorem test_witness_flow :
    State.reset.h.levels = [] ∧
    (let l := level 0x1000 2 false 0 3
     (looping 3 7).h.loops = [level 0xFF8 4 true 5 0] ++ l :: [] ∧ l.valid = true ∧ pastOf (looping 3 7) 4 l = true ∧
     pastOf (hartBy (looping 3 7) fun h => { h with pc := 0x1000 }) 4 l = false ∧ l.count ≠ 1 ∧ l.count < 2 ^ 64 ∧ (looping 1 7).h.loops = [level 0xFF8 4 true 5 0] ++ [level 0x1000 2 false 0 1]) ∧
    (let l := level 0xFF8 4 true 5 0
     (counting 2).h.loops = [] ++ l :: [] ∧ pastOf (counting 2) 4 l = true ∧ pastOf (counting 2) 8 l = true ∧ (counting 2).h.sPending 5 = false ∧
     1 < ((counting 2).rs 5).toNat ∧ ((counting 1).rs 5).toNat ≤ 1 ∧ countLoading.h.loops = [] ++ l :: [] ∧ countLoading.h.sPending 5 = true) := by decide +kernel
/-- 04 R121, R123: an end shared by two levels: the inner repeats, then ends and the outer repeats, then both end. -/
theorem test_loop_ends :
    ((looping 3 7).retire 4).h.pc = 0x1000 ∧ ((looping 1 7).retire 4).h.pc = 0xFF8 ∧ ((looping 1 7).retire 4).rs 5 = 6 ∧
    ((looping 1 1).retire 4).h.pc = 0x1008 ∧ ((looping 1 1).retire 4).rs 5 = 0 := by decide +kernel
theorem test_witness_loop :
    mapped.ready [1] = true ∧ mapped.loopFault (.loop 1 0) 1 = none ∧ mapped.loopFault (.loopn 1 0) 1 = none ∧
    (hartBy mapped fun h => { h with loops := List.replicate 4 (level 0 1 false 0 1) }).loopFault
      (.loop 1 0) 1 = some ⟨3, encodeWord (.loop 1 0), 0⟩ := by decide +kernel
theorem test_witness_loop_nest :
    let s := looping 3 7
    let l : LoopLevel := level 0x1000 2 false 0 3
    l ∈ s.h.loops ∧ l.start.toNat ≤ s.h.pc.toNat ∧ s.h.pc.toNat < l.start.toNat + 4 * l.len ∧
    l.after.toNat < s.h.pc.toNat + 4 + 4 * 1 := by decide +kernel
theorem test_witness_jump : State.reset.ready [1] = true ∧ State.reset.ready [1, 2] = true ∧ State.reset.h.th = false := by decide +kernel

theorem test_witness_float :
    State.reset.ready [3, 1, 2] = true ∧ State.reset.h.resolveRm .rne = some .rne ∧ State.reset.h.resolveRm .dyn = some .rne ∧
    bitsOf State.reset.h.fctl.toNat 5 5 &&& 1 = 0 ∧ bitsOf (withHart fun h => { h with fctl := 0x20 }).h.fctl.toNat 5 5 &&& 1 ≠ 0 ∧
    (withHart fun h => { h with fctl := 7 }).h.resolveRm .dyn = none := by decide +kernel
/-- f32 values by their bits: a quiet NaN, a signalling NaN, +0, -0 and 1. -/
theorem test_witness_float_choice :
    (precEx false 0x7FC00000).isNan = true ∧ (precEx false 0x7F800001).isSnan = true ∧ (precEx false 0x3F800000).isNan = false ∧
    exCmp (precEx false 0) (precEx false 0x80000000) = .eq ∧ (precEx false 0).isZero = true ∧
    exCmp (precEx false 0x3F800000) (precEx false 0x3F800000) = .eq ∧ (precEx false 0x3F800000).isZero = false ∧
    exCmp (precEx false 0) (precEx false 0x3F800000) = .lt := by decide +kernel
theorem test_witness_rounding : (0 : Nat) < 2 ∧ 2 * 0 < 2 ∧ 3 < 2 * 2 ∧ 2 < 3 ∧ 2 * 1 = 2 ∧ 1 < 2 ∧ 2 ^ 32 - 1 < 2 ^ 32 := by decide +kernel
theorem test_witness_exact :
    decodeEx .f32 0x3F800000 = .fin false 8388608 8388608 ∧ decodeEx .e2m1 0xF = .fin true 6 1 ∧ (decodeEx .f64 1).isZero = false ∧ fmtFloat .f64 = true ∧
    0x7FEFFFFFFFFFFFFF < 2 ^ keepBits .f64 := by
  decide

/-! Accesses. -/

theorem test_witness_load :
    loadForm (.lh 1 2 0xFFE) = some (1, 2, 0xFFE, 2, true) ∧ (mapped.ws 2 0x3002).ready [2, 1] = true ∧ mapped.h.waitAt = none ∧
    mapped.readTargets 0x3000 2 = .ok ([0x3000, 0x3001].map .loc) ∧ mapped.readTargets 0x3001 2 = .ok ([0x3001, 0x3002].map .loc) :=
  ⟨rfl, by decide +kernel, rfl, okIs_eq (by decide +kernel), okIs_eq (by decide +kernel)⟩
theorem test_witness_clean (s : State) (h : s.poison = []) (l : List Nat) : s.clean l := by
  intro pa _ hp; rw [h] at hp; exact nomatch hp
theorem test_witness_load_fault :
    mapped.readTargets 0x40000000 4 = .error ⟨6, 0x40000000, 0⟩ ∧ mapped.walkHeld 0 6 = false :=
  ⟨errIs_eq (by decide +kernel), by decide +kernel⟩
theorem test_witness_store :
    storeForm (.sw 1 2 4) = some (1, 2, 4, 4) ∧ mapped.ready [2, 1] = true ∧
    mapped.writeTargets 0x3000 4 = .ok [0x3000, 0x3001, 0x3002, 0x3003] ∧ mapped.writeTargets 0x40000000 1 = .error ⟨7, 0x40000000, 0⟩ :=
  ⟨rfl, by decide +kernel, okIs_eq (by decide +kernel), errIs_eq (by decide +kernel)⟩

/-- The mapped state with a page of device 2 at 0x40000000, which the partition may reach, and the aliases at 0x80000000. -/
def reaching : State :=
  let s := mapped
  { (s.setPart 0 { s.part 0 with allowMap := 4, clus := 1 }) with
    mem := memPutList s.mem 0x200008 (leBytes 8 0x200200000000007F ++ leBytes 8 0x1010000007F) }
theorem test_witness_store_remote : reaching.accessByte 0 false .write 0x40000000 = .ok (.remote 2 0) := okIs_eq (by decide +kernel)

/-- A hart whose only access has an operation, at the head of stream S. -/
def heading (op : AccOp) : State := withHart fun h => { h with sq := [State.reset.access 0 0 op] }
theorem test_witness_perform_write :
    let a := State.reset.access 0 0 (.write (List.range' 0x3000 2) [0xAA, 0xBB])
    (heading a.op).mayPerform 0 0 = some a ∧ a.shadows = [] ∧ (0x3000 + 2 ≤ 0x10020000000) ∧ (0 : Nat) < 64 := by decide +kernel
theorem test_witness_fresh :
    (heading (.write (List.range' 0x3000 2) [0xAA, 0xBB])).freshOp 0 (State.reset.access 0 0 (.write (List.range' 0x3000 2) [0xAA, 0xBB])) =
      .ok (.write (List.range' 0x3000 2) [0xAA, 0xBB]) ∧
    (heading (.read (.sreg 1 2 true) [0x3000, 0x3001])).freshOp 0 (State.reset.access 0 0 (.read (.sreg 1 2 true) [0x3000, 0x3001])) =
      .ok (.read (.sreg 1 2 true) [0x3000, 0x3001]) ∧
    (heading (.amo .add 1 0x3000 5 0)).freshOp 0 (State.reset.access 0 0 (.amo .add 1 0x3000 5 0)) = .ok (.amo .add 1 0x3000 5 0) :=
  ⟨okIs_eq (by decide +kernel), okIs_eq (by decide +kernel), okIs_eq (by decide +kernel)⟩
/-- 09 R259: a write to an alias whose register is pinned no longer faults as it performs, and the hart has an event. -/
theorem test_late_fault :
    let s := hartBy (heading (.write [0x10100000000] [1])) fun h => { h with run := .running }
    errIs (s.freshOp 0 (State.reset.access 0 0 (.write [0x10100000000] [1]))) ⟨8, 0, 0⟩ = true ∧ (s.h.lates = []) ∧ s.h.events.length < 8 ∧
    (after (.performAccess 0 0) s).h.events = [⟨8, 0⟩] := by decide +kernel
theorem test_perform_write :
    let t := after (.performAccess 0 0) (heading (.write (List.range' 0x3000 2) [0xAA, 0xBB]))
    t.lastByte 0x3001 = 0xBB ∧ t.viewByte 0 0x3000 = 0xAA ∧ t.viewByte 1 0x3000 = 0 ∧ t.lastByte 0x3002 = 0 := by decide +kernel
theorem test_witness_perform_read :
    let a := State.reset.access 0 0 (.read (.sreg 1 2 true) [0x3000, 0x3001])
    (heading a.op).mayPerform 0 0 = some a ∧ (∀ pa ∈ [0x3000, 0x3001], pa < 0x10020000000) := by decide +kernel
theorem test_load_extends :
    let s := { heading (.read (.sreg 1 2 true) [0x3000, 0x3001]) with mem := [(0x3001, 0x80)] }
    let u := { heading (.read (.sreg 1 2 false) [0x3000, 0x3001]) with mem := [(0x3001, 0x80)] }
    ((after (.performAccess 0 0) s).rs 1 = 0xFFFFFFFFFFFF8000) ∧ (after (.performAccess 0 0) u).rs 1 = 0x8000 := by decide +kernel
theorem test_witness_perform_atomic :
    let a := State.reset.access 0 0 (.amo .add 1 0x3000 5 0)
    (heading a.op).mayPerform 0 0 = some a ∧ 0x3000 + 8 ≤ 0x10020000000 ∧ 0x3000 % 8 = 0 := by decide +kernel
theorem test_amo_min_signed :
    let t := after (.performAccess 0 0) { heading (.amo .min 1 0x3000 0xFFFFFFFFFFFFFFFF 0) with mem := [(0x3000, 7)] }
    t.rs 1 = 7 ∧ t.lastByte 0x3000 = 0xFF ∧ t.lastByte 0x3007 = 0xFF ∧ t.lastByte 0x3008 = 0 := by decide +kernel

theorem test_witness_amo :
    amoForm (.amoadd .dev .acq 3 1 2) = some (.add, .dev, .acq, 3, 1, 2) ∧ (mapped.ws 1 0x3000).ready [1, 2, 3] = true ∧
    (mapped.ws 1 0x3000).amoTarget 0x3000 true true = .ok (.loc 0x3000) ∧ (isAlias 0x3000 || mapped.imageShut 0x3000) = false :=
  ⟨rfl, by decide +kernel, okIs_eq (by decide +kernel), by decide +kernel⟩
theorem test_witness_amo_traps :
    amoForm (.amofadd .core .sc 3 1 2) = some (.fadd, .core, .sc, 3, 1, 2) ∧ (withHart fun h => { h with fctl := 8 }).h.fctl.getLsbD 3 = true ∧
    (0x3001 : Word).toNat % 8 ≠ 0 ∧ reaching.amoTarget 0x40000000 true true = .ok (.remote 2 0) ∧
    (hartBy reaching fun h => { h with pins := 1, vill := false, vl := 8, vlmax := 8 }).amoTarget 0x80000000 true true = .ok (.loc 0x10100000000) ∧ isAlias 0x10100000000 = true :=
  ⟨rfl, by decide +kernel, by decide +kernel, okIs_eq (by decide +kernel), okIs_eq (by decide +kernel), by decide +kernel⟩
theorem test_witness_ordered :
    mapped.ready [1, 2, 3] = true ∧ mapped.h.waitAt = none ∧ mapped.amoTarget 0x3000 true false = .ok (.loc 0x3000) ∧
    mapped.amoTarget 0x3008 false true = .ok (.loc 0x3008) ∧ mapped.imageShut 0x3008 = false :=
  ⟨by decide +kernel, rfl, okIs_eq (by decide +kernel), okIs_eq (by decide +kernel), by decide +kernel⟩

theorem test_witness_fence_word :
    (5 ≤ 5 % 8) ∧ 7 / 8 % 4 = 0 ∧ 32 ≤ 40 ∧ 4095 < 4096 ∧ (4 ≤ 4 ∧ 4 < 8) ∧ (true = true ∨ false = true) ∧ (1 : SReg) ≠ 0 := by decide
/-- A write and a later read of stream n, behind a fence that comes between them, or before both. -/
def fenced (k : FenceKind) (strm seq : Nat) (op : AccOp) : State :=
  withHart fun h => { h with
    fences := [⟨seq, k⟩], nextSeq := 3
    sq := [{ State.reset.access 0 0 (.write [0x4000] [1]) with seq := 0, strm := if strm = 0 then 1 else 0 }, { State.reset.access strm 0 op with seq := 2 }] }
theorem test_witness_fences :
    let r : AccOp := .read (.sreg 1 1 false) [0x3000]
    let w : AccOp := .write [0x3000] [1]
    let holds (k : FenceKind) (strm : Nat) (op : AccOp) : Bool :=
      let s := fenced k strm 1 op
      ((s.hart 0).head strm == some { State.reset.access strm 0 op with seq := 2 }) && !s.fenceDone 0 ⟨1, k⟩ && s.mayPerform 0 strm == none
    holds (.full .dev true true) 0 r ∧ holds (.full .dev false true) 1 w ∧ holds .sv 1 r ∧ holds .sv 11 r ∧ holds .vs 0 r ∧
    holds (.sbar 0x800) 11 r := by decide +kernel

theorem test_witness_waitv :
    let s := withHart fun h => { h with waitAt := some 0, got := [(0, 5)] }
    s.ready [1, 2, 3] = true ∧ s.h.waitAt = some 0 ∧ s.h.got.find? (·.1 == 0) = some (0, 5) ∧ (5 : Word) ≠ s.rs 2 ∧
    min (s.rs 3).toNat (2 ^ 32 - 1) ≤ s.now - 0 ∧ (s.ws 2 5).rs 2 = 5 := by decide +kernel
theorem test_witness_waitv_goes_on :
    let s := (withHart fun h => { h with waitAt := some 0, got := [(0, 5)], sq := [State.reset.access 0 0 (.read (.word 0 0) [0x3000])] }).ws 3 1
    s.ready [1, 2, 3] = true ∧ s.now - 0 < min (s.rs 3).toNat (2 ^ 32 - 1) ∧ s.h.sq.any s.h.isWordRead = true := by decide +kernel

theorem test_witness_csr :
    State.reset.ready [1, 2] = true ∧ State.reset.csrReady .fctl true = true ∧ State.reset.csrReady .vl false = true ∧
    csrPriv .tvec = true ∧ csrPriv .capbase = false ∧ State.reset.h.sup = false ∧ (withHart fun h => { h with sup := true }).h.sup = true ∧
    csrKeeps .fctl = some 0x7FEF ∧ csrOf 0x10A = some .rwin ∧ csrOf 0x10B = none ∧ csrOf 0xFFF = none := by decide +kernel
theorem test_csr_reads_old_and_writes :
    let s := (withHart fun h => { h with srseed := 6 }).ws 2 3
    (after (.csrs 1 .srseed 2) s).rs 1 = 6 ∧ (after (.csrs 1 .srseed 2) s).h.srseed = 7 ∧ (after (.csrc 1 .srseed 2) s).h.srseed = 4 ∧
    (after (.csrw 1 .srseed 0) s).h.srseed = 0 := by decide +kernel

/-! Traps, the system group, configuration, kernels, copies, queues and engines. -/

/-- The mapped state with doublewords in memory from an address on. -/
def holding (pa : Nat) (l : List Nat) : State := { mapped with mem := memPutList mapped.mem pa (l.flatMap fun x => leBytes 8 x) }

theorem test_witness_trap :
    State.reset.h.th = false ∧ (withHart fun h => { h with th := true }).h.th = true ∧ State.reset.h.got = [] ∧ 65535 < 65536 := by decide
theorem test_trap_saves :
    let s := withHart fun h => { h with pc := 0x1000, ie := true, srseq := 9, loops := [level 0x1000 2 false 0 3] }
    let t := s.trap ⟨8, 0x77, 3⟩
    t.h.tpc = 0x1000 ∧ t.h.tval = 0x77 ∧ t.h.teidx = 3 ∧ t.h.cause = 8 ∧ t.h.pie = true ∧ t.h.ie = false ∧ t.h.sup = true ∧ t.h.th = true ∧
    t.h.loops = [] ∧ t.trapReturn.h.pc = 0x1000 ∧ t.trapReturn.h.eidx = 3 ∧ t.trapReturn.h.sup = false ∧ t.trapReturn.h.loops = s.h.loops := by
  decide +kernel
theorem test_witness_system :
    let sup := withHart fun h => { h with sup := true, tpc := 0x1004 }
    sup.h.sup = true ∧ sup.h.tpc.toNat % 4 = 0 ∧ (withHart fun h => { h with tpc := 2 }).h.tpc.toNat % 4 ≠ 0 ∧ State.reset.h.chanFaults = [] ∧
    State.reset.h.sq = [] ∧ State.reset.copiesDone State.reset.hid = true ∧ State.reset.kernelOf State.reset.hid = none ∧
    State.reset.h.sup = false ∧ csrPriv .tvec = true ∧ Instr.dgload 3 1 ∈ [Instr.dgload 3 1] := by decide +kernel

/-- A hart with 8 elements of a format and register count, all done. -/
def vectors (code : BitVec 5) (n : Nat) : State := withHart fun h => { h with vill := false, efmt := code, vl := n, vlmax := n }
theorem test_witness_configuration :
    let s := vectors 0 8
    s.h.nrc = 3 ∧ s.h.lowestPin = none ∧ (hartBy s fun h => { h with pins := 6 }).h.lowestPin = some 1 ∧ s.h.vectorsDone = true ∧
    s.ready [1, 2, 3, 4] = true ∧ s.h.loops = [] ∧ fmtOfCode 0 = some .f32 ∧ 0 < s.lanesOf s.hid ∧ s.h.vill = false ∧
    (s.lanesOf s.hid ≤ min 65536 (s.lanesOf s.hid * (12 * 8192 / (4 * 2 ^ s.h.nrc.toNat * (1 + 16) * 32)))) ∧
    (hartBy s fun h => { h with sreq := 8 }).h.sreq ≠ s.h.sreg := by decide +kernel

/-- A kernel record of one spatial level of two instances at 0x1000 and no transfers. -/
def record : List Nat := [0x1000, 0x20, 0, 0, 2, 0, 0, 0, 0, 0, 0, 0, 0, 0, 0, 0]
theorem test_witness_launch :
    let s := (holding 0x3000 record).ws 1 0x3000
    s.hid < 2048 ∧ s.ready [2, 1] = true ∧ s.launchReady = true ∧ (s.rs 1).toNat % 64 = 0 ∧ recBad record = false ∧
    recBad (record.set 3 1) = true ∧ s.h.loops = [] ∧ (s.freeEntry 0).isSome ∧ (s.freeEntry 1).isSome ∧ (s.freeEntry 2).isSome ∧
    (s.freeEntry 3).isSome ∧ (0x3020 : Word).toNat % 64 ≠ 0 := by decide +kernel
theorem test_witness_launch_words :
    (holding 0x3000 record).dieWords 0x3000 0 16 = .ok record ∧ (holding 0x3000 record).listWords 0 0 = .ok [] ∧
    (holding 0x3000 (record.set 3 1)).dieWords 0x3000 0 16 = .ok (record.set 3 1) :=
  ⟨okIs_eq (by decide +kernel), okIs_eq (by decide +kernel), okIs_eq (by decide +kernel)⟩

def kernelIn (st : KState) (toCome : Nat) : Kernel := {
  token := 1024, die := 0, seqn := 1, part := 0, record := 0x3000, entry := 0x1000, prio := 0, memlight := false, compactable := false
  lanes16 := false, cmask := 0, levels := [(1, 2)], total := 2, dies := [0], ents := [(0, 0)], toCome := toCome, notResident := toCome
  state := st, win := 0xF424 }
theorem test_witness_kernel :
    let s := { holding 0x3000 [0x8000, 0x40, 0x40, 1024] with kernels := [kernelIn .waiting 1] }
    s.ready [2, 1] = true ∧ s.launchReady = true ∧ (0x3000 : Word).toNat % 32 = 0 ∧ descriptorBad [0x8000, 0x40, 0x40, 1024] false = false ∧
    recBits [0x8000, 0x40, 0x40, 1024] 192 64 < 2 ^ 50 ∧ s.kernel? s.myPart 1024 = some (kernelIn .waiting 1) ∧ (s.freeEntry s.myDie).isSome = true ∧
    (kernelIn .waiting 1).toCome ≠ 0 ∧ (kernelIn .waiting 0).toCome = 0 ∧ State.reset.kernel? 0 1024 = none ∧ 2 ^ 50 ≤ (0x4000000000000 : Word).toNat ∧
    ({ s with kernels := [kernelIn .failed 0] } : State).kernel? 0 1024 = some (kernelIn .failed 0) ∧
    ({ s with kernels := [kernelIn .complete 0] } : State).kernel? 0 1024 = some (kernelIn .complete 0) := by decide +kernel
theorem test_witness_descriptor :
    (holding 0x3000 [0x8000, 0x40, 0x40, 1024]).dieWords 0x3000 0 4 = .ok [0x8000, 0x40, 0x40, 1024] := okIs_eq (by decide +kernel)

/-- A copy on channel 2, made by instruction 0, of n elements of which pos are done. -/
def copyOf (n pos : Nat) : Copy := {
  id := 0, chan := 2, seq := 0, esize := 4, src := 0x3000, dst := 0x4000, zsrc := false, sup := false, dest := .mem
  dims := [⟨n, 4, 4⟩], total := n, pos := pos }
theorem test_witness_copy :
    let s := vectors 0 8
    s.ready [2, 1] = true ∧ s.h.fedQueue 2 = none ∧ s.h.vl ≠ 0 ∧ s.copiesInFlight s.hid < 512 ∧ s.remoteByte 0x4000 0x401F = none ∧
    s.h.chanFault 2 = none ∧ (withHart fun h => { h with chanFaults := [(2, some ⟨6, 0x3000, false⟩)] }).h.chanFault 2 = some ⟨6, 0x3000, false⟩ ∧
    (hartBy s fun h => { h with copies := [copyOf 8 8] }).copyDone 0 (copyOf 8 8) = true ∧
    (hartBy s fun h => { h with copies := [copyOf 8 7] }).copyDone 0 (copyOf 8 7) = false := by decide +kernel
/-- The words of a nested copy of one dimension of 8 elements of 4 bytes have been read; or those of no dimension. -/
def described (dims : Word) : State :=
  withHart fun h => { h with waitAt := some 0, got := [(0, 0x4000), (1, 0x3000), (2, dims * 4 + 2), (6, 8), (7, 4), (8, 4)] }
theorem test_witness_nested_copy :
    let s := described 1
    s.h.waitAt.isSome = true ∧ s.h.sq.any s.h.isWordRead = false ∧ s.h.wordFault = none ∧ s.descBad s.h.word = false ∧
    (described 0).descBad (described 0).h.word = true ∧ (s.descCopy 2 s.h.word).dest ≠ .queue ∧ (s.descCopy 2 s.h.word).total ≠ 0 ∧
    s.copiesInFlight s.hid < 512 ∧ s.ready [1] = true ∧ (3 : Word).toNat % 8 ≠ 0 := by decide +kernel

/-- The mapped state with the handle table at 0x5000, whose entry 1 is a buffer of one page at 0x10000; and with its shadow open. -/
def handled : State :=
  let s := holding 0x5010 [0x10000, 1]
  s.setPart 0 { s.part 0 with htab := 0x5000 }
def shadowed : State := { handled with bufs := [⟨0, 1, 0x10000, 1, 0, [], some []⟩] }
theorem test_witness_shadow :
    handled.ready [1] = true ∧ handled.handleEntry 0 1 = some (0x10000, 1) ∧ handled.handleEntry 0 2 = none ∧ handled.openBuf 0 1 = none ∧
    (handled.bufs = []) ∧ shadowed.openBuf 0 1 = some ⟨0, 1, 0x10000, 1, 0, [], some []⟩ ∧ shadowed.h.shadowFault ⟨0, 1, 0x10000, 1, 0, [], some []⟩ = none ∧
    shadowed.shadowDone ⟨0, 1, 0x10000, 1, 0, [], some []⟩ = true ∧ shadowed.publishOpen ⟨0, 1, 0x10000, 1, 0, [], some []⟩ = true := by decide +kernel

theorem test_witness_queue :
    let s := withHart fun h => { h with q := [(3, { home := 1, chan := some 2, entries := [7] })] }
    State.reset.ready [1, 2] = true ∧ (State.reset.h.queue 3).chan = none ∧ (s.h.queue 3).chan ≠ none ∧ State.reset.h.popIssueFault 3 1 = none ∧
    State.reset.h.poison = [] ∧ (heading (.push 3 7)).mayPerform 0 0 = some (State.reset.access 0 0 (.push 3 7)) ∧
    (hartBy (heading (.popS 3 1)) fun h => { h with q := [(3, { entries := [7] })] }).mayPerform 0 0 = some (State.reset.access 0 0 (.popS 3 1)) ∧
    (s.h.queue 3).entries = 7 :: [] ∧ (3 < 8 ∧ (3 : Nat) ≠ (5 : Fin 8) ∧ (s.h.queue 3).chan = some (2 : Fin 16).val) ∧
    (State.reset.h.sq.any fun z => z.op.onQueue 3) = false ∧ State.reset.h.copies = [] := by decide +kernel

def caskWords : List Nat := [0x200000000000, 0x100000000, 0x6000, 0x100000, 1, 0, 0, 0]
def casking : State :=
  let s := { holding 0x5000 caskWords with mem := memPutList (holding 0x5000 caskWords).mem 0x6000 (leBytes 8 0x10000 ++ leBytes 8 1) }
  hartBy (s.setPart 0 { s.part 0 with caskd := 0x5000, allowMap := 4 }) fun h => { h with sup := true }
theorem test_witness_privileged :
    casking.h.sup = true ∧ casking.ready [2, 1] = true ∧ casking.stepno.toNat < 1 ∧ 0 ≤ casking.stepno.toNat ∧
    (casking.part 0).caskd ≠ 0 ∧ casking.caskBad 0 caskWords = false ∧
    casking.dieDelayed 0x5000 8 = false ∧ casking.dieDelayed (.ofNat 64 (recBits caskWords 128 64)) (2 * recBits caskWords 96 32) = false ∧
    casking.rangesMapped 0 [(0x10000, 1)] = true ∧ casking.myPart < 8 ∧ (2 : Word).toNat / 2 % 2 ^ 15 ≠ 0 ∧ (0x10000 : Word).toNat / 2 % 2 ^ 15 = 0 ∧
    canonical 0x10000 = true ∧ leafShut 0x7F = false ∧ pteRmt 0x7F = false ∧ casking.physOk 0 0x10000 = true ∧
    (casking.tier 1).en = true ∧ (casking.tier 1).pins.length < min (casking.tier 1).quota 98304 := by decide +kernel
theorem test_witness_privileged_words :
    casking.dieWords 0x5000 0 8 = .ok caskWords ∧
    (match casking.leafOf (some 0) 0 0x10000 true .read with | .ok x => x == (0x7F, 1) | .error _ => false) = true ∧
    (∀ q : Fin 8, (casking.part q).cask.state ≠ 1 ∧ (casking.part q).cask.state ≠ 2) :=
  ⟨okIs_eq (by decide +kernel), by decide +kernel, by decide +kernel⟩
theorem test_witness_cask_ranges :
    casking.caskRanges ⟨8, 0x5000, 0⟩ (.ofNat 64 (recBits caskWords 128 64)) (recBits caskWords 96 32) = .ok [(0x10000, 1)] :=
  okIs_eq (by decide +kernel)
theorem test_witness_cask_busy :
    let s := casking.setPart 2 { casking.part 2 with cask := { state := 2 } }
    s.h.sup = true ∧ s.ready [2, 1] = true ∧ (2 : Nat) < 8 ∧ (s.part 2).cask.state = 2 := by decide +kernel

/-- Partition 0 may use the slots 0 to 3. -/
def slotted : State := let s := State.reset; { (s.setPart 0 { s.part 0 with belllo := 0, bellhi := 3, allowMap := 4 }) with now := 0 }
theorem test_witness_bells :
    slotted.hid < 2048 ∧ slotted.ready [1, 2, 3] = true ∧ slotted.h.loops = [] ∧ slotted.freeSlotOn 0 0 = some 0 ∧
    slotted.dropsOf 0 = [] ∧ slotted.earlyOf 0 = [] ∧ slotted.handleBad 0 4 = true ∧ slotted.handleBad 0 3 = false ∧
    slotted.destBad 0 0x200000000008 = false ∧ slotted.destBad 0 0x300000000008 = true ∧ (0x200000000008 : Word).toNat % 8 = 0 ∧
    (0x2000 : Word).toNat / 2 ^ 13 % 8 ≠ 0 ∧ (0x10001FFF : Word).toNat / 2 ^ 13 % 8 = 0 ∧ 2 ^ 14 ≤ (0x4000 : Word).toNat := by decide +kernel
theorem test_witness_no_slot : ((List.range 4).foldl (fun s i => s.setSlot i { s.slot i with state := 1 }) slotted).freeSlotOn 0 0 = none := by
  decide +kernel

/-- A hart that has read the words of a record for an engine. -/
def enginesReady (sup : Bool) (l : List (Nat × Word)) : State :=
  let s := mapped
  hartBy s fun h => { h with sup := sup, waitAt := some 0, got := l }
theorem test_witness_engine :
    let s := enginesReady true [(0, 0x3000), (1, 0x1000)]
    s.ready [2, 1] = true ∧ (s.engine 0).part = s.myPart ∧ (0x3000 : Word).toNat % 16 = 0 ∧ s.h.waitAt.isSome = true ∧
    s.h.sq.any s.h.isWordRead = false ∧ s.h.wordFault = none ∧ (s.h.word 0).toNat % 4 = 0 ∧ (s.h.word 1).toNat / 2 ^ 25 = 0 ∧
    0 < bitsOf (s.h.word 1).toNat 12 13 ∧ bitsOf (s.h.word 1).toNat 0 12 + bitsOf (s.h.word 1).toNat 12 13 ≤ 4096 ∧ (s.engine 0).busy = false ∧
    s.launchReady = true ∧ (∀ p : Fin 8, (s.part p).cask.state ≠ 1) ∧ (s.engine 0).state ≠ .waiting ∧ (s.engine 0).state ≠ .running := by
  decide +kernel
theorem test_witness_engine_states :
    (enginesReady true []).imageReads 0 0x3000 2 1 = .ok [(enginesReady true []).access 0 0x3000 (.read (.word 0 2) [0x3000, 0x3001, 0x3002, 0x3003])] ∧
    (enginesReady true []).imageWords [(enginesReady true []).access 0 0x3000 (.read (.word 0 2) [0x3000, 0x3001, 0x3002, 0x3003])] = some [0] ∧
    ((enginesReady false [(0, 5)]).setEngine 0 { state := .halted }).engine 0 = { state := .halted } ∧
    ((enginesReady true []).setEngine 3 { state := .waiting, part := 7 }).engine 3 = { state := .waiting, part := 7 } ∧ (7 : Nat) ≠ State.reset.myPart :=
  ⟨okIs_eq (by decide +kernel), rfl, rfl, rfl, by decide +kernel⟩

/-! Vector instructions. -/

/-- What vRuns asks of a state without bindings, as a Bool. -/
def runsBool (s : State) (l : List VReg) : Bool :=
  !s.h.vill && fmtHasContainer s.h.fmt && decide (s.h.vl ≤ 65536) && s.h.sq.isEmpty && s.h.fences.isEmpty && s.h.poison.isEmpty && s.h.binds.isEmpty && s.bound.isNone && s.h.puts.isEmpty &&
  decide (bitsOf s.h.fctl.toNat 5 10 = 0) && l.all fun v => decide (v.val < s.h.nreg) && (!s.h.leased v && !s.h.pinned v)
theorem unbound_held {s : State} (h : s.h.binds = []) (sc : Option Nat) (v : VReg) : s.stripHeld sc v := by
  intro b hb; simp [Hart.bound, h] at hb
theorem runs_unbound {s : State} {a b : List VReg} (h : runsBool s (a ++ b) = true) : s.vRuns a b := by
  simp only [runsBool, Bool.and_eq_true, decide_eq_true_eq, List.isEmpty_iff, List.all_eq_true, Bool.not_eq_true'] at h
  obtain ⟨⟨⟨⟨⟨⟨⟨⟨⟨⟨h1, hc⟩, h2⟩, h3⟩, h4⟩, h5⟩, h6⟩, h7⟩, h8⟩, h9⟩, h10⟩ := h
  exact ⟨⟨h1, hc, h2, h3, h4, h5, Option.isNone_iff_eq_none.1 h7, h8, h10, fun v _ => by simp [Hart.bound, h6],
    fun v _ => unbound_held h6 none v⟩, h9⟩

/-- With format f32 and i32, 8 elements, and one tangent plane; the highest register that exists; an operand in s1. -/
theorem test_witness_runs :
    (vectors 0 8).vRuns [1, 3, 2] [31] ∧ (vectors 16 0).vRuns [1] [1] ∧ (hartBy (vectors 1 8) fun h => { h with tb := 1 }).vRuns [0, 1] [0] :=
  ⟨runs_unbound (by decide +kernel), runs_unbound (by decide +kernel), runs_unbound (by decide +kernel)⟩
theorem test_witness_formats :
    isF8 (vectors 0 8).h.fmt = true ∧ isF3 (vectors 2 8).h.fmt = true ∧ fmtInt (vectors 16 8).h.fmt = true ∧ fmtSigned (vectors 16 8).h.fmt = true ∧
    fmtHasContainer (vectors 10 8).h.fmt = true ∧ (vectors 0 8).h.resolveRm .dyn = some .rne ∧ dequantFmt .e2m1 = true ∧
    fmtBits .f16 ≤ (vectors 0 8).h.ebits ∧ (vectors 4 8).h.fmt = .e4m3 ∧ emaxOf .e2m1 = some 2 ∧ (5 : VReg) ≠ 4 ∧
    (withHart fun h => { h with vill := false, vl := 1 }).h.vl = 1 := by decide +kernel

/-- v1 holds 1, 2 and a signalling NaN as f32 with tangents 1, v2 the integers 5, 0xFFFFFFFF, 7. -/
def filled (code : BitVec 5) : State :=
  hartBy (vectors code 3) fun h => ((((((h.setV 1 0 0 0x3F800000).setV 1 0 1 0x40000000).setV 1 0 2 0x7F800001)).setV 2 0 0 5).setV 2 0 1 0xFFFFFFFF).setV 2 0 2 7
def plain : Ctl := ⟨0, false⟩
/-- 09 R238: 1 + 1 = 2, 2 + 2 = 4, and a signalling NaN gives the NaN of the format and NV. -/
theorem test_vfadd :
    let t := after (.vfadd 4 1 (.reg 1) .rne .prop plain) (filled 0)
    t.h.getV 4 0 0 = 0x40000000 ∧ t.h.getV 4 0 1 = 0x40800000 ∧ t.h.getV 4 0 2 = 0x7FC00000 ∧ t.h.fflags = 16 ∧ t.h.pc = 8 := by decide +kernel
/-- 09 R241: the high half of (−1) × (−1), signed and unsigned, and a saturating sum. -/
theorem test_vint :
    let s := filled 16
    (after (.vmulh 4 2 (.reg 2) .prop plain) s).h.getV 4 0 1 = 0 ∧ (after (.vmulhu 4 2 (.reg 2) .prop plain) s).h.getV 4 0 1 = 0xFFFFFFFE ∧
    (after (.vmin 4 1 (.reg 2) .prop plain) s).h.getV 4 0 1 = 0xFFFFFFFF ∧ (after (.vsra 4 2 (.reg 2) .prop plain) s).h.getV 4 0 1 = 0xFFFFFFFF ∧
    (after (.vsadd 4 1 (.reg 1) .prop plain) s).h.getV 4 0 0 = 0x7F000000 ∧ (after (.vsadd 4 1 (.reg 1) .prop plain) s).h.getV 4 0 1 = 0x7FFFFFFF ∧
    (after (.vsadd 4 1 (.reg 1) .prop plain) s).h.fflags = 0x4000 := by decide +kernel
/-- 09 R256: with bf16 elements, element 257 holds 256 and NX is raised. -/
theorem test_viota : 
    let t := after (.viota 4 plain) (hartBy (vectors 1 258) fun h => { h with eidx := 257 })
    t.h.getV 4 0 257 = 0x4380 ∧ t.h.fflags = 1 := by decide +kernel
/-- 10 R277: a slide up by one under a mask that leaves element 1, whose old value stays. -/
theorem test_vslup :
    let s := hartBy (filled 16) fun h => (h.setK 1 0xFFFD).setV 4 0 1 0x99
    let t := after (.vslup 4 2 0 1 0 .prop ⟨1, false⟩) s
    t.h.getV 4 0 0 = 0 ∧ t.h.getV 4 0 1 = 0x99 ∧ t.h.getV 4 0 2 = 0xFFFFFFFF := by decide +kernel
/-- 09 R243, R245: which elements of v2 are less than 0, counted, and the first of them. -/
theorem test_compare_count :
    let t := after (.vilt 1 2 (.scalar 0) plain) (filled 16)
    t.h.kBit 1 0 = false ∧ t.h.kBit 1 1 = true ∧ t.h.kBit 1 2 = false ∧ (after (.kpop 3 1 plain) t).rs 3 = 1 ∧ (after (.kfirst 3 1 plain) t).rs 3 = 1 := by
  decide +kernel

theorem test_witness_masks : (1 : KReg) ≠ 0 ∧ (vectors 0 8).h.sq = [] ∧ (vectors 0 8).h.fences = [] ∧ (0 < 8 ∧ (vectors 0 8).h.kBit 0 0 = true) := by
  decide +kernel
theorem test_witness_pins :
    let s := vectors 0 8
    (31 : VReg).val < s.h.nreg ∧ s.h.bound 31 = none ∧ s.h.leased 31 = false ∧ s.h.deliveries = [] ∧
    (hartBy s fun h => { h with pins := 0xFF }).h.pinned 31 = false ∧
    8 ≤ ((List.range 64).filter fun j => (hartBy s fun h => { h with pins := 0xFF }).h.pins.getLsbD j).length ∧
    (hartBy s fun h => { h with pins := 1, deliveries := [{ reg := 0, src := .strip 0 0, seq := 0 }] }).h.leased 0 = true := by decide +kernel
theorem test_witness_reductions :
    0 < (vectors 0 8).h.vl ∧ (vectors 0 8).h.det = false ∧ (hartBy (vectors 0 8) fun h => { h with fctl := 8 }).h.det = true := by decide +kernel
/-- 10 R279: an ordered sum from vb, whatever the mask; 1 + 2 + 1. -/
theorem test_vfredo :
    let s := hartBy (filled 0) fun h => (h.setK 1 3).setV 3 0 0 0x3F800000
    (after (.vfredo 4 1 3 .rne .prop ⟨1, false⟩) s).h.getV 4 0 0 = 0x40800000 := by decide +kernel

theorem test_witness_tiles :
    let s := vectors 0 8
    let cfg := s.h.tileCfg 1 (s.columnsOf s.hid)
    (1 : Fin 4).val < s.slotsOf s.hid ∧ (1 : SReg) ≠ 0 ∧ s.h.fmt = tileFmt cfg ∧ 0 < tileK cfg ∧ tileN cfg ≤ 64 ∧ (0 : BitVec 5).toNat ≤ s.h.tangents ∧
    tileWordOk cfg s.h.nreg (s.columnsOf s.hid) = true ∧ tileWordOk 0x1F s.h.nreg (s.columnsOf s.hid) = false ∧
    (tileClass s.h.fmt).map (·.1) = (tileClass (tileFmt cfg)).map (·.1) ∧ 0 < 64 / (1 + s.h.tangents) ∧ tileAsc cfg = false ∧
    0 < s.columnsOf s.hid ∧ s.h.ebits ≠ 4 ∧ (tileClass .f32).all (fun x => decide (tileK cfg ≤ x.2)) = true ∧ tileScaled cfg = false := by
  decide +kernel

/-- Two products of finite values with scales 2^1 and 2^-1, gathered in one group. -/
def terms : RowTerms := ⟨2, fun _ => .fin false 3 1, fun _ => some 1, fun _ _ => .fin true 5 2, fun _ _ => some (-1)⟩
theorem test_witness_products :
    terms.k ≤ 16 ∧ 0 < terms.k ∧ decodeEx .f32 0x3F800000 = .fin false 8388608 8388608 ∧ terms.x 1 = .fin false 3 1 ∧ terms.b 1 0 = .fin true 5 2 ∧
    terms.sa 1 = some 1 ∧ terms.sb 1 0 = some (-1) ∧ (terms.column 0 0x3F800000).1 = 0xC1600000 := by decide +kernel

/-! Vector accesses: 2 elements of f32 on mapped memory. -/

/-- Elements at 0x3000, and at the end of mapped memory so that the second faults. -/
def accessing (base : Word) : State := hartBy (mapped.ws 1 base) fun h => { h with vill := false, vl := 2, vlmax := 32 }
theorem test_witness_vector_access :
    let s := accessing 0x3000
    runsBool s [2, 3] = true ∧ s.h.binds = [] ∧ loadPair .f32 s.h.fmt = true ∧ storePair s.h.fmt .f32 = true ∧ s.h.doing 0 = [0, 1] ∧
    (fmtBits .f32 = 4 → true = true) ∧ s.planesAt 0 = [0] ∧ s.planesAt 31 = [0] ∧ storeRounds s.h.fmt .f32 = false ∧ addFmt .f32 = true ∧
    s.h.det = false ∧ (hartBy s fun h => { h with fctl := 8 }).h.det = true ∧ s.inWindow s.myPart 0x3000 = none ∧ (0x3004 : Word).toNat % 4 = 0 := by
  decide +kernel
theorem test_witness_vector_targets :
    (accessing 0x3000).readTargets 0x3004 4 = .ok ([0x3004, 0x3005, 0x3006, 0x3007].map .loc) ∧
    (accessing 0x3FFFFFFC).readTargets 0x40000000 4 = .error ⟨6, 0x40000000, 0⟩ ∧
    (accessing 0x3000).storeTargets true 0x3004 4 = .ok [0x3004, 0x3005, 0x3006, 0x3007] ∧
    (accessing 0x3FFFFFFC).storeTargets true 0x40000000 4 = .error ⟨7, 0x40000000, 0⟩ :=
  ⟨okIs_eq (by decide +kernel), errIs_eq (by decide +kernel), okIs_eq (by decide +kernel), errIs_eq (by decide +kernel)⟩
/-- 06 R172, 01 R65: a load whose second element faults sets VL to 1; one whose first element faults traps. -/
theorem test_fault_only_first :
    (after (.vld .f32 0 .plain 2 1 0 plain) (accessing 0x3FFFFFFC)).h.vl = 1 ∧
    (after (.vld .f32 0 .plain 2 1 0 plain) (accessing 0x40000000)).h.cause = 6 := by decide +kernel
/-- A tile of 8 rows and columns, in the format of the elements; a load of it from 0x3000. -/
theorem test_witness_tile_load :
    let s := accessing 0x3000
    (0 : Fin 4).val < s.slotsOf s.hid ∧ tileScaled (s.h.tileCfg 0 (s.columnsOf s.hid)) = false ∧ tileN (s.h.tileCfg 0 (s.columnsOf s.hid)) ≤ 64 := by
  decide +kernel

/-- The words of a binding record in order (f32, 16 elements), read for a VBIND; its place is free; and a binding. -/
def binding : Binding :=
  { slot := 0, reg := 2, fmt := .f32, base := 0x3000, estride := 4, sbase := 0, sstride := 0, tlen := 16, scaled := false, scalereg := false, blen := 0
    seq := 0 }
def recordRead (l : List (Nat × Word)) : State := hartBy (accessing 0x3000) fun h => { h with waitAt := some 0, got := l }
theorem test_witness_bindings :
    let s := recordRead [(0, 0x4000), (1, 4), (2, 0), (3, 0x1000000000)]
    runsBool s [2] = true ∧ (2 : VReg).val < s.h.nreg ∧ (0x3000 : Word).toNat % 32 = 0 ∧ (0x3008 : Word).toNat % 32 ≠ 0 ∧ s.h.pinned 2 = false ∧
    (hartBy s fun h => { h with pins := 4 }).h.pinned 2 = true ∧ s.h.gotBad = [] ∧ (∀ i : Fin 4, (s.h.got.any (·.1 == i)) = true) ∧
    recordFmt s.h.word = some .f32 ∧ recordFmt (recordRead [(0, 0), (1, 0x1F00000004), (2, 0), (3, 0)]).h.word = none ∧ s.h.bound 2 = none ∧
    (hartBy s fun h => { h with binds := [binding] }).h.bound 2 ≠ none ∧ (s.h.queue 0).chan = none ∧ s.h.popIssueFault 0 2 = none := by decide +kernel
/-- vRuns of no registers asks nothing of the bindings. -/
theorem runs_bound {s : State} {l : List Binding} (h : runsBool { s with h := { s.h with binds := [] } } [] = true) :
    ({ s with h := { s.h with binds := l } } : State).vRuns [] [] := by
  obtain ⟨⟨h1, hc, h2, h3, h4, h5, h6, h7, -⟩, h8⟩ := runs_unbound (a := []) (b := []) h
  exact ⟨⟨h1, hc, h2, h3, h4, h5, h6, h7, by simp, by simp, by simp⟩, h8⟩
theorem test_witness_bound :
    (hartBy (accessing 0x3000) fun h => { h with binds := [binding] }).vRuns [] [] ∧
    (match (accessing 0x3000).wordReads 0 0x3000 0 4 with | .ok l => l.length == 4 | .error _ => false) = true ∧
    (accessing 0x3000).h.waitAt = none ∧ (accessing 0x3000).h.got = [] :=
  ⟨runs_bound (by decide +kernel), by decide +kernel, rfl, rfl⟩

/-! Fabric streams, compaction and convoys. -/

/-- Group 1 of partition 0: one rank, this one, with its record at 0x6100, ranks at 0x6200 and one bucket at 0x6300 of 64 bytes whose result
area is 0x7000 and whose flag is 9 at 0x7800; the hart has two elements of i32 and stream values of that group. -/
def grouped : State :=
  let s := holding 0x6008 [0x6100]
  let m := memPutList (memPutList s.mem 0x6100 ([0x100000001, 0x6200, 0x6300, 0, 0x100000000].flatMap (leBytes 8))) 0x6200 (leBytes 8 1)
  let t := { s with mem := memPutList m 0x6300 ([0x4000000000, 0x7000, 0x7800, 9].flatMap (leBytes 8)) }
  hartBy (t.setPart 0 { t.part 0 with gtab := 0x6000 }) fun h =>
    { h with vill := false, efmt := 16, vl := 2, vlmax := 32, cgroup := 1, ctag := 0, cops := 0x40, cstride := 64, pins := 1 }
def grp : Grp := ⟨1, 0, 1, 0, 0x6200, 0x6300, 0, 0, 4000⟩
def freg1 : FReg := { group := 1, tag := 0, opfmt := 0x40, chunk := 64, pseq := 1, state := 1 }
def post (vd : Option VReg) : RecvPost := ⟨0, 0, vd, 2, 3, false, false, 0, 0, 0⟩
/-- A strip of two elements has arrived whole for stream 0. -/
def strip : InStrip := ⟨0, 0, 1, 0, 0, 2, 64, [(0, 0, leBytes 8 0x500000007)], 0⟩
def receiving (vd : Option VReg) : State :=
  { hartBy grouped fun h => { h with f := [(0, freg1)], posts := [post vd] } with inStrips := [strip] }
theorem test_witness_streams :
    grouped.group? 0 1 = some grp ∧ runsBool grouped [1] = true ∧ grouped.streamCheck 0 true true = none ∧ (grouped.h.freg 0).state ≠ 2 ∧
    (hartBy grouped fun h => { h with f := [(0, { state := 2 })] }).h.freg 0 = { state := 2 } ∧ (0 : VReg).val < grouped.h.nreg ∧ grouped.h.pinned 0 = true ∧
    grouped.h.pinned 1 = false ∧ copsOp 0x40 = some .sum ∧ (receiving none).readyStrip 0 0 = some (post none, strip, leBytes 8 0x500000007) ∧
    (receiving none).streamCheck 0 true false = none ∧ (post none).vd = none := by decide +kernel
/-- 15 R357: a received strip plus this rank's. -/
theorem test_vcred :
    let s := hartBy (receiving none) fun h => { h with v := ((h.setV 1 0 0 3).setV 1 0 1 4).v }
    let t := after (.vcred 2 1 0 .rne .prop plain) s
    t.h.getV 2 0 0 = 10 ∧ t.h.getV 2 0 1 = 9 ∧ (t.h.freg 0).dseq = 1 := by decide +kernel

/-- A hart that may compact, with a density threshold and a buffer at 0x400000. -/
def packing (dens : Word) (buf : List Nat) : State :=
  { hartBy (filled 16) fun h => { h with cbIdx := some 4, cbCount := buf.length, cdens := dens, k := (h.setK 1 1).k } with
    mem := memPutList [] 0x400000 (buf.flatMap (leBytes 8)) }
theorem test_witness_compaction :
    runsBool (packing 25 []) [1, 2] = true ∧ packFmt (packing 25 []).h.fmt = true ∧ (packing 25 []).h.mayPack = true ∧ (1 : KReg) ≠ 0 ∧
    min 100 ((packing 25 []).h.cdens.toNat % 128) * 3 ≤ 100 * ((List.range 3).filter fun e => (packing 25 []).h.kBit 1 e).length ∧
    ¬ min 100 ((packing 50 []).h.cdens.toNat % 128) * 3 ≤ 100 * ((List.range 3).filter fun e => (packing 50 []).h.kBit 1 e).length ∧
    (packing 25 [1, 2]).h.cbCount = 2 ∧ 3 ≤ 2 + 1 ∧ (packing 25 [1, 2]).packAddr 1 = 0x400008 ∧ (packing 25 [1, 2]).packTrap 0 3 = none := by decide +kernel
/-- 10 R282: two held entries and one active value make a strip of three. -/
theorem test_vcpk :
    let t := after (.vcpk 4 2 ⟨1, false⟩) (packing 25 [0x11, 0x22])
    t.h.getV 4 0 0 = 0x11 ∧ t.h.getV 4 0 1 = 0x22 ∧ t.h.getV 4 0 2 = 5 ∧ t.h.cbCount = 0 ∧ t.h.kBit 1 2 = true := by decide +kernel

/-- A convoy of two moves, VMV v3, v1 and VMV v4, v3, at the pc. -/
def moves : List Instr := [.vmv 3 1 .prop plain, .vmv 4 3 .prop plain]
def convoyed : State :=
  let s := { mapped with mem := memPutList mapped.mem 0x1000 (leBytes 4 0x19 ++ moves.flatMap encodeBytes) }
  hartBy s fun h => { h with vill := false, vl := 1, vlmax := 32, v := (h.setV 1 0 0 7).v }
def convoyParcels : List (BitVec 32) := moves.flatMap fun i => [.ofNat 32 (encode i), .ofNat 32 (encode i / 2 ^ 32)]
theorem test_witness_convoy :
    (0 : BitVec 3).toNat ≤ 4 ∧ 4 < (7 : BitVec 3).toNat ∧ malformed 8 (wordsOfParcels convoyParcels) = false ∧
    malformed 0 (wordsOfParcels convoyParcels) = true ∧ (wordsOfParcels convoyParcels).map decode64 = moves.map some ∧
    (∀ i ∈ moves, registerOnly i = true) ∧ convoyed.h.sq = [] ∧ convoyed.h.fences = [] ∧ convoyed.h.binds = [] ∧ convoyed.h.loops = [] ∧
    convoyed.h.eidx = 0 ∧ convoyed.h.reuse = none ∧ convoyed.h.th = false ∧ ((decode64 (encode moves[0])).bind memberOp).isSome = true ∧
    ((decode64 (2 ^ 64 - 1)).bind memberOp).isNone = true := by decide +kernel
theorem test_witness_convoy_parcels : convoyed.fetchParcels (convoyed.h.pc + 4) 4 = .ok convoyParcels := okIs_eq (by decide +kernel)
theorem test_witness_convoy_runs :
    RunsAll moves convoyed (after (.vmv 4 3 .prop plain) (after (.vmv 3 1 .prop plain) convoyed)) :=
  .cons (t := after (.vmv 3 1 .prop plain) convoyed) rfl (by decide +kernel) (by decide +kernel)
    (.cons (t := after (.vmv 4 3 .prop plain) (after (.vmv 3 1 .prop plain) convoyed)) rfl (by decide +kernel) (by decide +kernel) (.nil _))
/-- 02 R59, 03 R90: the second member reads what the first wrote. -/
theorem test_convoy :
    let t := after (.convoy 0 8) convoyed
    t.h.getV 4 0 0 = 7 ∧ t.h.pc = 0x1014 ∧ t.h.nextSeq = 2 := by decide +kernel

/-! Engines and moves. -/

/-- Engine 0 runs, with chunk registers. -/
def running (c : List (Nat × Word)) : State :=
  let s := reaching
  { (s.setPart 0 { s.part 0 with allowMap := 4, belllo := 0, bellhi := 3 }) with engines := [(0, { state := .running, c := c })], eng := 0 }
theorem test_witness_engine_runs :
    let s := running [(1, 0x3000), (2, 0x200000000000), (3, 1), (4, 8)]
    (s.engine 0).busy = true ∧ (s.engine 0).stopReq = false ∧ ({ s with engines := [] } : State).engine 0 = {} ∧ ({} : Engine).busy = false ∧
    s.dgSettled = true ∧ (8 : Word) ≠ 0 ∧ s.destBad 0 0x200000000000 = false ∧ s.destBad 0 0x300000000000 = true ∧ (8 : Word).toNat % 4 = 0 ∧
    (6 : Word).toNat % 4 ≠ 0 ∧ fmtOfCode 16 = some .i32 ∧ s.isOwn 0 = true ∧ s.handleBad 0 3 = false ∧ s.handleBad 0 4 = true ∧
    s.freeSlotOn 0 (engineDie 0) = some 0 ∧ s.earlyOf 0 = [] ∧ s.dropsOf 0 = [] ∧ s.log = [] ∧ (s.sendRec 0 2 1).isSome = true ∧
    (s.engine 0).sending 2 1 = false ∧ s.bankDelays [0x3000] = false := by decide +kernel
theorem test_witness_engine_transfers :
    let x : Xfer := ⟨.send 1, 0, 0x3000, 0x200000000000, 8, 0, none, []⟩
    let s := { running [] with engines := [(0, { state := .running, xfers := [x] })] }
    s.dgSettled = false ∧ (s.engine 0).sending 2 1 = true ∧ ((running []).freeSlotOn 1 0) = some 0 := by decide +kernel
theorem test_witness_engine_reads :
    (match (running []).engineBytes 0 .read 0x3000 8 with | .ok l => l == List.range' 0x3000 8 | .error _ => false) = true ∧
    (match (running []).engineBytes 0 .write 0x3000 8 with | .ok l => l == List.range' 0x3000 8 | .error _ => false) = true ∧
    (match (running []).engineBytes 0 .read 0xC0000000 8 with | .ok _ => false | .error _ => true) = true := by decide +kernel
/-- 15 R363: ADDC with an immediate of −1, and a LOOP that ends. -/
theorem test_dungen :
    let s := running [(1, 5), (2, 7), (3, 1)]
    SMap.get 0 ((after (.addc 4 1 2 0x7FF) s).engine 0).c 4 = 11 ∧ ((after (.addc 4 1 2 0x7FF) s).engine 0).pc = 1 ∧
    ((after (.dungenLoop 1 9) s).engine 0).pc = 9 ∧ ((after (.dungenLoop 3 9) s).engine 0).pc = 1 ∧ ((after .halt s).engine 0).state = .halted := by
  decide +kernel

theorem test_witness_registers :
    (7 < 8 ∧ 3 < 4 ∧ 1023 < 1024 ∧ 2047 < 2048 ∧ (6 : Nat) ≠ 7) ∧ (3 : Word).toNat % 4 = 3 ∧ State.reset.coreIdle 0 = true ∧
    (withHart fun h => { h with run := .running }).coreIdle 0 = false ∧ (withHart fun h => { h with sup := true }).releaseMet 0 0 .dev = true ∧
    (State.reset.part 0).egressLocked = false ∧ (State.reset.part 0).locked = false ∧ (State.reset.hart 5).run ≠ .running ∧ State.reset.hartPart 5 = 0 ∧
    ((State.reset.setPart 1 { State.reset.part 1 with locked := true, egressLocked := true }).part 1).locked = true := by decide +kernel

theorem test_witness_belfry :
    State.reset.belfry = .rom ∧ ({ State.reset with belfry := .halted } : State).belfry ≠ .rom ∧
    bootFails ⟨false, [], []⟩ = some 2 ∧ ({ State.reset with now := 8000000000 } : State).now - 0 = 8000000000 ∧
    ({ State.reset with attreq := some 5 } : State).attreq = some 5 ∧ State.reset.attreq = none ∧
    ({ State.reset with seals := List.replicate 8 0 } : State).seals.length = 8 := by decide +kernel
/-- An image of one byte boots on a device whose fuses and signature function take it. -/
def image : BootImage := ⟨true, leBytes 4 0x42525747 ++ leBytes 4 0xFFFF ++ leBytes 4 1 ++ List.replicate 324 0, [1]⟩
theorem test_witness_boot (hk : digestOf (sha256 (sliceOf image.header 32 32)) = Config.pkHash)
    (hs : ∀ pk m sig, Config.slhVerify pk m sig = true) : bootFails image = none := by
  have hm : ¬ leValue (sliceOf image.header 4 2) < Config.minVer.toNat := by
    have : leValue (sliceOf image.header 4 2) = 65535 := by decide +kernel
    omega
  have h1 : leValue (sliceOf image.header 8 4) = 1 ∧ leValue (sliceOf image.header 0 4) = 0x42525747 ∧ image.fetched = true := by decide +kernel
  simp [bootFails, h1, hk, hs, hm]

/-! Moves of the device's units and of the stream controllers. -/

/-- Partition 0 of a state with its cask engine so. -/
def casked (s : State) (c : Cask) : State := s.setPart 0 { s.part 0 with cask := c }
/-- A drain of page 4 at place 1, to device 3 at 0x8000 and slot 5. -/
def draining : Cask := { state := 2, dest := 3 * 2 ^ 44 + 0x8000, slot := 5, marked := [(1, 4)], nmarked := 1, image := [(65536, 7)] }
theorem test_witness_cask :
    let s := casked mapped { state := 1, ranges := [(0x10000, 2)] }
    let t := casked mapped draining
    s.cutDue 0 = true ∧ mapped.cutDue 0 = false ∧ (Memory.wf s.mem ∧ Memory.wf s.bsram) ∧ s.caskPages 0 = [(0, 1), (1, 2)] ∧
    draining.marked.find? (fun y => y.2 % 4 == 0) = some (1, 4) ∧ t.egressOpen 0 512 = true ∧ (t.sendRec 0 (draining.dest / 2 ^ 44 % 2 ^ 13) 5).isSome = true ∧
    draining.dest < 2 ^ 57 ∧ (casked mapped { draining with marked := [] }).part 0 ≠ t.part 0 ∧ draining.recordSent = false := by decide +kernel
/-- 18 R410, R411: a cut of one page takes its contents; its first packet has them. -/
theorem test_cut_and_drain :
    let s := casked (holding 0x10000 [0x1234]) { state := 1, ranges := [(0x10000, 1)], dest := 3 * 2 ^ 44 + 0x8000, slot := 5 }
    let t := after (.cut 0) s
    (t.part 0).cask.marked = [(0, 1)] ∧ memByte (t.part 0).cask.image 1 = 0x12 ∧
    (after (.caskDrain 0 1) t).outbox.map (fun p => (p.dst, p.addr, p.data.length, p.data[0]?)) = [(3, 0x8000, 512, some 0x34)] := by decide +kernel
theorem test_witness_migration :
    (4 % 4 = 0 ∧ 4 < 2 ^ 24) ∧ (State.reset.tier 0).en = true ∧ (State.reset.tier 0).pages.any (·.page == 4) = false ∧
    (State.reset.tier 0).pages.length < 98304 := by decide +kernel
theorem test_witness_full_tier (n : Nat) :
    let t : Tier := { pages := List.replicate (n + 1) ⟨0, false, true, 0, 0⟩ }
    n + 1 ≤ t.pages.length ∧ (∃ y ∈ t.pages, y.pinned = false) ∧ t.pages.any (·.page == 4) = false := by
  refine ⟨by simp, ⟨⟨0, false, true, 0, 0⟩, by simp, rfl⟩, by simp⟩
theorem test_witness_storage :
    State.reset.mayGate (.bank 0 0) = true ∧ ({ State.reset with now := 1 } : State).now % 1024 ≠ 0 ∧ State.reset.now % 1024 = 0 ∧
    ({ State.reset with gated := [.bank 0 0] } : State).mayGate (.bank 0 0) = true ∧
    State.reset.mayGate (.segment 0 0 12) = true ∧ State.reset.mayGate (.segment 0 0 11) = false := by
  decide +kernel
/-- 18 R406: a double error poisons its word; 01 R54: a bank wakes zeroed. -/
theorem test_soft_error_and_wake :
    let s := { State.reset with mem := [(0x10000000000, 9)], gated := [.bank 0 0] }
    (after (.softError 0x3005 true) s).poison = [0x600] ∧ (after (.powerGating (.bank 0 0) false) s).lastByte 0x10000000000 = 0 := by decide +kernel

/-- A kernel of two instances is ISSUABLE. -/
def scheduled : State := { mapped with h := { State.reset.h with nextSeq := 5 }, kernels := [kernelIn .issuable 0] }
theorem test_witness_dispatch :
    State.reset.choose 0 = none ∧ scheduled.choose 0 = some (kernelIn .issuable 0, .fresh 0) ∧ scheduled.coreFree 0 = true ∧
    (kernelIn .issuable 0).part = scheduled.partOf (0 / 16) := by decide +kernel
/-- 01 R57: the second instance of a kernel starts with its index in LIDX0 and its record in s1. -/
theorem test_dispatch :
    let t := after (.dispatch 1 0) (after (.dispatch 0 0) scheduled)
    t.h.pc = 0x1000 ∧ (t.hart 2).getS 1 = 0x3000 ∧ SMap.get 0 (t.hart 2).lidx 0 = 1 ∧ SMap.get 0 t.h.lidx 0 = 0 := by decide +kernel
/-- An instance of a PRIO-0 kernel has run a slice, and one of PRIO 3 waits to resume on its hart. -/
def contended : State :=
  let low := { kernelIn .running 0 with cursor := [(0, 2)] }
  let high := { kernelIn .running 0 with
    token := 2048, prio := 3, cursor := [(0, 2)], waits := [(0, some 0)], resumable := [{ number := 0, home := some 0, ctx := {}, poolEntry := 0, part := 0, left := 0, since := 0 }] }
  let s := { mapped with
    h := { mapped.h with inst := some ⟨1024, 0, false, false, 1⟩ }, now := 2000000, kernels := [low, high]
    ctls := [(0, { scctl := 0x100101 })] }
  s.setPart 0 { s.part 0 with ctxpool := 2 ^ 44 + 2 ^ 20 }
theorem test_witness_preemption :
    ((contended.ctl 0).preen = true ∧ (State.reset.ctl 0).preen = false) ∧ (contended.ctl 0).lastPreempt + (contended.ctl 0).slice ≤ contended.now ∧
    (contended.preemptor 0).map (fun k => (k.token, contended.victimSet 0 k)) = some (2048, [0]) := by decide +kernel
def moving (pos : Nat) : State := { mapped with
  transfers := [⟨3, 0, 0, 1024, 0, 0x8000, 64, [0], pos, none⟩], kernels := [{ kernelIn .waiting 1 with toCome := 0 }] }
theorem test_witness_transfer :
    ((moving 0).transfers.find? fun y => y.id == 3 && y.die == 0).isSome = true ∧ ((moving 0).transfers.any fun x => !(moving 0).transferDone x) = true ∧
    ((moving 64).transfers.all fun x => (moving 64).transferDone x) = true := by decide +kernel
/-- 13 R300: the kernel becomes ISSUABLE with its last transfer. -/
theorem test_transfer_resident : ((after (.transferResident 0 3) (moving 64)).kernels.map fun k => (k.state, k.notResident)) = [(.issuable, 0)] := by
  decide +kernel
/-- A kernel's hart blocked since cycle 0, at a cycle. -/
def stuckAt (now : Nat) : State :=
  { hartBy mapped fun h => { h with inst := some ⟨1024, 0, false, false, 1⟩, blocked := some 0 } with
    now := now, kernels := [{ kernelIn .running 0 with win := 1, done := 2, harts := [(0, 1)] }] }
theorem test_witness_progress :
    2048 % 1024 = 0 ∧ (stuckAt 2048).h.blocked = some 0 ∧ 1024 * max 1 1 < 2048 - 0 ∧ (stuckAt 2048).h.th = false ∧
    (stuckAt 2048).kernelHarts 1024 = [0] ∧ (stuckAt 2047).now % 1024 ≠ 0 ∧ (stuckAt 1024).h.blocked = some 0 ∧
    (∀ m, m ∈ (stuckAt 2048).kernels → m.done = m.total) := by decide +kernel
theorem test_witness_lpart :
    let s := { State.reset with cores := [(3, { pend := true, next := 1 })] }
    (SMap.get ({} : Core) s.cores 3).pend = true ∧ s.coreIdle 3 = true ∧ (SMap.get ({} : Core) State.reset.cores 3).pend = false := by decide +kernel

/-! Moves of a hart and an engine, of the fabric units, groups and strips. -/

theorem test_witness_events :
    let s := hartBy mapped fun h => { h with events := [⟨17, 5⟩] }
    let t := mapped.setPart 0 { mapped.part 0 with undelivered := [(1, 0)], intsrc := 2 }
    State.reset.h.run ≠ .running ∧ (hartBy mapped fun h => { h with sup := true }).h.ie = false ∧ s.h.run = .running ∧ s.h.sup = false ∧
    s.h.events = ⟨17, 5⟩ :: [] ∧ t.h.events = [] ∧ t.mySources ≠ [] ∧ t.hid = 0 ∧ (7 < 8 ∧ 2 < 3) := by decide +kernel
/-- 18 R399: the interrupt raised is taken as cause 22 with its sources. -/
theorem test_interrupt :
    let t := after (.eventTaken 0) (after (.interrupt 0 1) mapped)
    t.h.cause = 22 ∧ t.h.casync = true ∧ t.h.tval = 2 ∧ t.h.tpc = 0x1000 ∧ t.h.sup = true ∧ t.mySources = [] := by decide +kernel
/-- The hart stands at WAITV eq s1, s2, s3 with its word read, at a cycle. -/
def waitingV (v : Word) (now : Nat) : State :=
  let s := State.reset.placeHart (encodeBytes (.waitv .eq 1 2 3))
  { hartBy (s.ws 1 10) fun h => { h with got := [(0, v)], waitAt := some 5 } with now := now }
theorem test_witness_waitv_timeout :
    (waitingV 4 15).atInstr = some (.waitv .eq 1 2 3) ∧ (waitingV 4 15).h.got.find? (·.1 == 0) = some (0, 4) ∧
    condHolds .eq 4 ((waitingV 4 15).rs 3) = false ∧ min ((waitingV 4 15).rs 1).toNat (2 ^ 32 - 1) ≤ 15 - 5 ∧ condHolds .eq 0 ((waitingV 0 15).rs 3) = true ∧
    14 - 5 < min ((waitingV 4 14).rs 1).toNat (2 ^ 32 - 1) ∧ (waitingV 4 15).h.waitAt = some 5 := by decide +kernel
/-- An engine at a schedule word since cycle 0. -/
def engineAt (w : Option (BitVec 32)) (st : EngState) (now : Nat) : State :=
  { State.reset with engines := [(3, { state := st, sched := [(0, w)], waitAt := some 0 })], now := now }
theorem test_witness_engine_waits :
    let w : BitVec 32 := .ofNat 32 (encode (.wait .eq 1 2 1))
    let s := engineAt (some w) .waiting 65536
    (s.engine 3).fetch = some w ∧ decodeDungen w.toNat = some (.wait .eq 1 2 1) ∧ (s.engine 3).state = .waiting ∧ (s.engine 3).waitAt = some 0 ∧
    65536 * (1 : BitVec 8).toNat ≤ s.now - 0 ∧ ((engineAt (some w) .waiting 65535).now - 0 < 65536 * (1 : BitVec 8).toNat) ∧
    (engineAt none .running 0).engine 3 ≠ {} ∧ ((engineAt none .running 0).engine 3).fetch = none ∧ ((engineAt none .running 0).engine 3).busy = true ∧
    ((engineAt (some 0x88000000) .running 0).engine 3).fetch = some 0x88000000 ∧ decodeDungen 0x88000000 = none ∧
    ((engineAt none .halted 0).engine 3).busy = false := by decide +kernel
theorem test_witness_ticket :
    let s := withHart fun h => { h with sq := [{ State.reset.access 0 0 (.write [0x3000] [1]) with sc := true }] }
    let u := hartBy s fun h => { h with fences := [⟨0, .full .dev true true⟩], sq := h.sq.map fun (a : Access) => { a with rel := some .dev, acq := some .dev } }
    (s.h.head 0).map (fun a => (a.sc, a.ticket, s.guardsMet 0 a)) = some (true, none, true) ∧ s.h.head 1 = none ∧ u.h.fences ≠ [] := by decide +kernel
/-- A write of cluster 0 that clusters 1 and 16 have not received. -/
def written : State := { mapped with log := [⟨4, 0x3000, [7], 0, false, 0, 0, 0, 0x10002⟩] }
theorem test_witness_delivery :
    written.mayDeliver 4 1 = true ∧ written.mayDeliver 4 16 = false ∧ (written.log.find? (·.id == 4)).isSome = true ∧
    (written.log.filter fun z => z.id == 4).length = 1 := by decide +kernel
/-- 05 R133: delivery changes the view of its cluster. -/
theorem test_deliver : written.viewByte 1 0x3000 = 0 ∧ (after (.deliver 4 1) written).viewByte 1 0x3000 = 7 := by decide +kernel
theorem test_witness_copy_complete :
    let s := withHart fun h => { h with copies := [copyOf 4 4] }
    s.h.copies.find? (fun z => z.id == 0) = some (copyOf 4 4) ∧ s.copyDone 0 (copyOf 4 4) = true ∧ s.copyDone 0 (copyOf 4 3) = false := by decide +kernel
theorem test_witness_fetch :
    (State.reset.placeHart (leBytes 4 0)).illegalAt = some 0 ∧ mapped.illegalAt = none ∧ mapped.fetchFault mapped.h.pc = none ∧
    (hartBy mapped fun h => { h with pc := 0x40000000 }).fetchFault 0x40000000 = some (false, ⟨5, 0x40000000, 0⟩) := by decide +kernel

/-- A record of two open writes at slot 5 of device 3, and a ring that waits. -/
def sendTo3 (held : List Group) (sent : Nat) : SendRec := { dest := 3, slot := 5, die := 0, sent := sent, held := held }
def ringing : State := { State.reset with
  sends := [sendTo3 [] 2], rings := [⟨.hart 0, 0, 9, 3, 5, 0x8000, 7, 0, none⟩, ⟨.hart 0, 0, 10, 3, 5, 0x8008, 8, 0, none⟩] }
theorem test_witness_rings :
    (ringing.rings[0]?).map (fun r => (ringing.writesOut r.agent r.dest r.slot r.seq, ringing.ringWaits r.agent r.dest r.slot r.seq)) = some (true, false) ∧
    (ringing.rings[1]?).map (fun r => ringing.ringWaits r.agent r.dest r.slot r.seq) = some true ∧ ringing.sendRec 0 3 5 = some (sendTo3 [] 2) := by
  decide +kernel
theorem test_witness_engine_send :
    let x : Xfer := ⟨.send 1, 0, 0x3000, 0x200000000000, 600, 512, none, []⟩
    let s := { mapped with engines := [(0, { state := .running, xfers := [x] })] }
    (s.engine 0).xfers = x :: [] ∧ s.egressOpen 0 88 = true ∧ (s.sendRec 0 (x.c.toNat / 2 ^ 44 % 2 ^ 13) 1).map (fun r => r.sent) = some 0 ∧
    (match s.engineBytes 0 .read (x.a + 512) 88 with | .ok l => !s.bankDelays l && l.length == 88 | .error _ => false) = true := by decide +kernel
/-- Slot 5 is open for device 3. -/
def opened (x : Slot) : State := { State.reset with slots := [(5, x)] }
def slot3 : Slot := { state := 1, sender := 3 }
def write3 : Packet := { dst := 1, src := 3, kind := .write, slot := 5, addr := 0x3000, data := [1, 2] }
def ring3 (phase : Nat) : Packet := { dst := 1, src := 3, kind := .ring, slot := 5, phase := phase, addr := 0x3008, expect := 1, flagVal := 9 }
theorem test_witness_arrivals :
    let s := opened slot3
    s.accepts write3 = true ∧ s.accepts { write3 with src := 4 } = false ∧ (s.slot 5).state ≠ 0 ∧ (s.slot 5).state ≠ 4 ∧ s.accepts (ring3 0) = true ∧
    State.reset.accepts write3 = true ∧ (State.reset.slot 5).state = 0 ∧ (ring3 0).gen = (s.slot 5).gen ∧ (s.slot 5).rings.any (·.phase == 0) = false ∧
    ((ring3 0).phase + 4 - (s.slot 5).phase) % 4 = 0 ∧ ((ring3 1).phase + 4 - (s.slot 5).phase) % 4 = 1 ∧
    ((ring3 3).phase + 4 - (s.slot 5).phase) % 4 = 3 ∧ (opened { slot3 with gen := true }).accepts (ring3 0) = true ∧
    (opened { slot3 with rings := [⟨0, 1, 0, 0⟩], state := 2 }).accepts (ring3 0) = true := by decide +kernel
theorem test_witness_landing :
    let s := { opened slot3 with inbox := [⟨write3, 0, none, 0⟩, ⟨write3, 0, some [4], 0⟩] }
    (s.inbox[0]?).map (·.wids) = some none ∧ (s.inbox[1]?).map (·.wids) = some (some [4]) ∧ s.writeDelays [write3.addr, write3.addr + 1] = false ∧ write3.data ≠ [] ∧
    write3.addr + write3.data.length ≤ 0x10020000000 ∧ ([4].all fun w => s.widReached w .dev) = true ∧
    ([4].all fun w => ({ s with log := written.log } : State).widReached w .dev) = false := by decide +kernel
/-- 14 R323, R325: a write lands, is counted and its ring writes the flag. -/
theorem test_bell :
    let l := after (.land 0) (after (.arrive write3 false) (opened slot3))
    let s := after (.ringArrival (ring3 0)) (after (.count 0) { l with log := [], mem := [(0x3000, 1), (0x3001, 2)] })
    let t := after (.release 5) s
    l.lastByte 0x3001 = 2 ∧ (l.slot 5).count = 0 ∧ (s.slot 5).count = 1 ∧ (s.slot 5).state = 2 ∧ t.lastByte 0x3001 = 2 ∧ t.lastByte 0x3008 = 9 ∧
    (t.slot 5).phase = 1 ∧ (t.slot 5).state = 1 := by
  decide +kernel
def readReq : Packet := { dst := 1, src := 3, kind := .readReq, addr := 0x3000, expect := 512 }
def pendingRead (agent since sends : Nat) : State :=
  { withHart fun h => { h with sq := [State.reset.access 1 0 (.readRemote (.sreg 2 4 false) 3 0x3000 4 0x3000)] } with
    rreads := [⟨7, agent, 1, 3, 0x3000, 4, since, sends⟩], now := 200000
    engines := [(0, { state := .running, xfers := [⟨.recv, 0, 0, 0, 4, 0, none, []⟩] })] }
theorem test_witness_remote_reads :
    let p : Packet := { dst := 1, src := 3, kind := .readResp, seqn := 7, data := [1, 2, 3, 4] }
    State.reset.reaches 0 readReq.addr readReq.expect = true ∧ readReq.dst = State.reset.devId ∧
    ((pendingRead 0 0 1).rreads.find? fun y => y.id == p.seqn && y.dev == p.src) = some ⟨7, 0, 1, 3, 0x3000, 4, 0, 1⟩ ∧
    (((pendingRead 0 0 1).hart 0).head 1).isSome = true ∧ ((pendingRead 2048 0 1).engine 0).xfers ≠ [] ∧
    State.reset.rreads.find? (fun y => y.id == p.seqn && y.dev == p.src) = none ∧ (pendingRead 0 0 1).tShort 0 ≤ 200000 - 0 ∧ (1 < 3) ∧
    200000 - 1 < (pendingRead 0 1 1).tShort 0 ∧ ((pendingRead 0 0 3).rreads[0]?).map (·.sends) = some 3 := by decide +kernel

/-- Timers: slots held or short since a cycle, a held group, and packets and records that expire. -/
def timed (st retry since : Nat) : State :=
  { hartBy (opened { slot3 with state := st, retry := retry, since := since }) fun h => { h with run := .running } with now := 1000000 }
def group0 (repeats rung : Nat) : Group := ⟨0, [⟨write3, []⟩], 1, 0x8000, 9, .hart 0, rung, repeats⟩
def holdingGroup (repeats rung : Nat) : State := { timed 1 0 0 with sends := [sendTo3 [group0 repeats rung] 0] }
theorem test_witness_slot_timers :
    (opened slot3).releasable 5 = none ∧ (timed 2 0 800000).slotShort 5 = 200000 ∧ 200000 ≤ (timed 2 0 800000).now - 800000 ∧
    (timed 2 0 800001).now - 800001 < 200000 ∧ ((timed 2 3 0).slot 5).flag = none ∧ ((timed 2 3 0).hart 0).run ≠ .idle ∧
    ((timed 2 3 0).hart 0).events.length < 8 ∧ ((timed 1 0 0).slot 5).state ≠ 2 := by decide +kernel
theorem test_witness_held_groups :
    let s := holdingGroup 1 600000
    s.findSend 3 5 = some (sendTo3 [group0 1 600000] 0) ∧ s.tShort 0 = 200000 ∧ (1 + 1) * 200000 ≤ s.now - 600000 ∧ s.now - 600001 < (1 + 1) * 200000 ∧
    (2 ≤ (group0 2 0).repeats) ∧ 4 * 200000 ≤ (holdingGroup 2 200000).now - 200000 ∧ (holdingGroup 2 200001).now - 200001 < 4 * 200000 ∧
    (group0 1 0).maker = .hart 0 ∧ (sendTo3 [group0 1 0] 0).openWrites = [] := by decide +kernel
theorem test_witness_notices :
    let p : Packet := { dst := 1, src := 3, kind := .shortfall, slot := 5, gen := true }
    (holdingGroup 0 0).findSend p.src p.slot = some (sendTo3 [group0 0 0] 0) ∧ (group0 0 0).phase = p.phase ∧ (group0 0 0).phase ≠ 1 ∧
    p.dst = (holdingGroup 0 0).devId ∧ ((timed 2 0 0).slot 5).sender = p.src ∧ p.freg = 0 := by decide +kernel
theorem test_witness_expiries :
    let s := { State.reset with
      early := [(0, [⟨write3, 5⟩])], drops := [(0, [⟨5, 3, false, 0, 100⟩])], now := 200005 }
    (s.earlyOf 0)[0]? = some ⟨write3, 5⟩ ∧ s.slotShort 5 ≤ s.now - 5 ∧ 200004 - 5 < s.slotShort 5 ∧ (s.slot 5).state = 0 ∧
    (s.dropsOf 0)[0]? = some ⟨5, 3, false, 0, 100⟩ ∧ 100 ≤ s.now ∧ ({ s with now := 99 } : State).now < 100 := by decide +kernel
/-- 14 R329: a slot that is not released starts a new generation and tells its sender. -/
theorem test_short_timer :
    let t := after (.shortTimer 5) (timed 2 0 800000)
    (t.slot 5).gen = true ∧ (t.slot 5).state = 3 ∧ t.outbox.map (fun p => (p.dst, p.kind, p.gen)) = [(3, .shortfall, true)] := by decide +kernel

/-- The group's bucket 0 with this rank's partial of chunk 0, whose values are 5 and 14 zeros; ops is SUM of i32. -/
def contribution (src : Nat) : Packet :=
  { dst := 1, src := src, kind := .contribution, slot := 5, group := 1, data := leBytes 4 5, ops := 0x40, chunk := 64, epoch := 2 }
def partialOf (n : Nat) : Partial := { chunk := 0, size := 64, rank := 0, dev := 1, bytes := (List.range n).map fun o => (o, some (.ofNat 8 (o % 4))), firstAt := 0 }
def bucketOf (l : List Partial) : Bucket := { part := 0, group := 1, tag := 0, ops := 0x40, chunk := 64, epoch := some 2, partials := l }
def bucketed (l : List Partial) : State := { grouped with buckets := [bucketOf l], now := 4000, slots := [(5, slot3)] }
theorem test_witness_contributions :
    let s := { grouped with inbox := [⟨contribution 1, 0, none, 0⟩], slots := [(5, slot3)] }
    s.group? 0 1 = some grp ∧ s.packetPart (contribution 1) = 0 ∧ s.inboxPlace (contribution 1) = some 0 ∧ (contribution 1).src = s.devId ∧
    (contribution 3).src ≠ s.devId ∧ (s.slot 5).state ≠ 0 ∧ (contribution 3).gen = (s.slot 5).gen ∧ s.bucket? 0 1 0 = none ∧
    (bucketed []).bucket? 0 1 0 = some (bucketOf []) ∧ (bucketOf []).epoch ≠ some 3 ∧ (s.hart grp.notify).run ≠ .idle ∧
    (s.hart grp.notify).events.length < 8 := by decide +kernel
theorem test_witness_combination :
    let s := bucketed [partialOf 64]
    copsOp 0x40 = some .sum ∧ copsFmt 0x40 = some .i32 ∧ 0 % grp.nr = grp.me ∧ (∀ r, r < grp.nr → ((bucketOf [partialOf 64]).used 0 r).isSome = true) ∧
    s.bufs = [] ∧ (s.bktEnt 0 grp 0).res = 0x7000 ∧ (s.bktEnt 0 grp 0).boff = 0 ∧ (List.range 64).all (fun j => s.reaches 0 (0x7000 + j) 1) = true ∧
    (bucketOf [partialOf 63]).used 0 0 = none := by decide +kernel
theorem test_witness_result_area :
    (bucketed []).translate none 0 true .write 0x7000 = .ok (.loc 0x7000) ∧ (bucketed []).translate none 0 true .write 0x703F = .ok (.loc 0x703F) ∧
    (bucketed []).translate none 0 true .write 0x7807 = .ok (.loc 0x7807) :=
  ⟨okIs_eq (by decide +kernel), okIs_eq (by decide +kernel), okIs_eq (by decide +kernel)⟩
theorem test_witness_bucket_release :
    let b := { bucketOf [] with results := [(0, [])], resChunk := 64 }
    let due (s : State) (b : Bucket) : Bool := (dueChunks grp (s.bktEnt 0 grp 0) b).all fun c => (resultOffsets c b.resChunk).all fun o =>
      b.results.any fun x => x.1 == o && x.2.all fun w => s.widReached w .dev
    due (bucketed []) b = true ∧ due (bucketed []) { bucketOf [] with resChunk := 64 } = false ∧ (partialOf 64).late = false ∧ 4000 - (partialOf 64).firstAt ≥ grp.late ∧
    3999 - 0 < grp.late ∧ (bucketOf [partialOf 63]).used 0 0 = none := by decide +kernel
/-- 14 R338: the chunk is combined and the flag written. -/
theorem test_combine_and_release :
    let s := bucketed [partialOf 64]
    let t := after (.combine 0 1 0 0) s
    leValue ((List.range 4).map fun j => t.lastByte (0x7000 + j)) = 0x03020100 ∧
    (after (.bucketRelease 0 1 0) { t with log := [] }).lastByte 0x7800 = 9 := by decide +kernel

def chunk3 (index : Nat) : Packet :=
  { dst := 1, src := 3, kind := .contribution, group := 1, ops := 0x40, chunk := 64, freg := 1, elems := 2, index := index, data := leBytes 8 5 }
theorem test_witness_strip_chunks :
    let s := receiving (some 0)
    s.inboxPlace (chunk3 0) = none ∧ s.groupPart 1 = some 0 ∧ s.stripHart 0 0 1 0 = some 0 ∧ (s.h.freg 0).opfmt = 0x40 ∧
    s.h.post 0 0 = some (post (some 0)) ∧ ({ s with inStrips := [] } : State).inStrip 0 0 1 0 0 = none ∧ s.inStrip 0 0 1 0 0 = some strip ∧
    strip.chunks.any (fun z => z.1 == 0 && z.2.1 == 0) = true ∧ (chunk3 0).data.length ≤ 512 ∧ s.earlyOf 0 = [] ∧ s.h.post 0 1 = none ∧ (1 + 2 ^ 32 - (s.h.freg 0).pseq) % 2 ^ 32 < 2 ^ 31 ∧
    2 ^ 31 ≤ (0 + 2 ^ 32 - (s.h.freg 0).pseq) % 2 ^ 32 := by decide +kernel
theorem test_witness_strip_delivery :
    let s := receiving (some 0)
    s.readyStrip 0 0 = some (post (some 0), strip, leBytes 8 0x500000007) ∧ (s.h.freg 0).state = 1 ∧ s.fenced 0 11 0 true = false ∧ 0 < s.h.vlmax ∧ s.h.aliasNib 0 0 = none ∧ s.h.aliasBytes ≤ 0x20000 ∧
    ({ s with inStrips := [] } : State).readyStrip 0 0 = none ∧ s.h.posts.find? (fun z => z.f == 0) = some (post (some 0)) ∧
    (strip.whole (s.h.freg 0).esize).isSome = true ∧ ({ s with now := 200000 } : State).tShort 0 ≤ 200000 - (post (some 0)).since ∧
    199999 - (post (some 0)).since < s.tShort 0 := by decide +kernel
/-- 15 R357, 05 R128: the strip is delivered into the receive's pinned register, element by element; then DSEQ advances. -/
theorem test_strip_delivery :
    let t := after (.stripDelivery 0 0) (receiving (some 0))
    let u := after (.stripDelivery 0 0) t
    let w := after (.stripDelivery 0 0) u
    t.lastByte (aliasAddr 0 0 0) = 7 ∧ t.lastByte (aliasAddr 0 0 4) = 0 ∧ u.lastByte (aliasAddr 0 0 4) = 5 ∧ (u.h.freg 0).dseq = 0 ∧
    (w.h.freg 0).dseq = 1 ∧ w.h.posts = [] := by decide +kernel
def sentStrip (notices : Nat) : SentStrip := ⟨0, 0, 3, 1, 0, 0x40, 64, 0, 2, leBytes 8 5, 0, notices, false⟩
def sentStrips (notices : Nat) : State := { receiving none with sentStrips := [sentStrip notices], now := 800000 }
theorem test_witness_strip_notices :
    let p : Packet := { dst := 1, src := 3, kind := .shortfall, group := 1, freg := 1 }
    (sentStrips 3).sentStrips.find? (fun z => z.dest == p.src && z.f == 0 && z.group == p.group && z.tag == p.tag && z.seqn == p.seqn) =
      some (sentStrip 3) ∧ (sentStrips 3).stripQueued (sentStrip 3) = false ∧ (sentStrip 2).notices ≠ 3 ∧ p.expect = 0 ∧
    ((sentStrips 3).hart 0).run ≠ .idle ∧ (sentStrips 3).tHold 0 ≤ 800000 - 0 ∧ 799999 - 0 < (sentStrips 3).tHold 0 := by decide +kernel
/-- A contribution of the strip still waits in a stream of the hart. -/
theorem test_witness_strip_queued :
    (hartBy (sentStrips 0) fun h => { h with sq := [State.reset.access 2 0 (.contrib { chunk3 0 with dst := 3 } 0)] }).stripQueued (sentStrip 0) = true := by
  decide +kernel

/-! The machine's own statements. -/

/-- ADDI s1, s0, 5 stands at the pc, and a turn of each kind waits. -/
def turns : State :=
  { State.reset.placeHart (encodeBytes (.addi 1 0 5)) with
    agenda := [(3, .issue), (0, .engine 0), (1, .select 7)]
    engines := [(0, { state := .running, sched := [(0, some (.ofNat 32 (encode .halt)))] })] }
theorem test_witness_turn :
    turns.h.run = .running ∧ turns.fetchFault turns.h.pc = none ∧ (turns.engine 0).busy = true ∧
    (turns.engine 0).fetch.map (fun w => decodeDungen w.toNat) = some (some .halt) ∧ (Instr.wakeUp (.bank 0 0)).form = .move ∧
    ({ turns with agenda := [(1, .run (.wakeUp (.bank 0 0)))] } : State).agenda ≠ [] := by decide +kernel
theorem test_witness_turn_bytes :
    turns.fetchBytes turns.h.pc = .ok (encodeBytes (.addi 1 0 5)) ∧ decodeBytes (encodeBytes (.addi 1 0 5)) = .ok (.addi 1 0 5, []) ∧
    turns.accessByte turns.hid turns.h.sup .fetch (turns.h.pc + 7) = .ok (.loc (0x1000 + 7)) :=
  ⟨okIs_eq (by decide +kernel), rfl, okIs_eq (by decide +kernel)⟩
/-- The state a step leads to. -/
def stepped (s : State) : State :=
  match step s with
  | .next t => t
  | _ => s
/-- 03 R70, 15 R347: an instruction runs, then an engine's, and time passes. -/
theorem test_step :
    (stepped turns).h.getS 1 = 5 ∧ (stepped turns).now = 3 ∧ (stepped turns).h.pc = 0x1004 ∧ ((stepped (stepped turns)).engine 0).state = .halted ∧
    (stepped (stepped (stepped turns))).timebase = 1 := by decide +kernel
/-- 03 R88: a zero parcel raises cause 1. -/
theorem test_step_zero :
    let t := stepped (State.reset.placeHart (leBytes 4 0))
    t.h.cause = 1 ∧ t.h.tval = 0 := by decide +kernel
theorem test_step_no_such_hart : step { State.reset with agenda := [(0, .select 2048)] } = .fault .noSuchHart := rfl
/-- A machine that steps with its memory in form, and a program instruction in program mode. -/
theorem test_witness_step : Memory.wf turns.mem ∧ Memory.wf turns.bsram ∧ Memory.wf (stepped turns).mem ∧ turns.h.sup = false := by decide +kernel
theorem test_witness_wf :
    (Instr.addi 31 31 0xFFF).wf = true ∧ (Instr.addi 31 31 0xFFF).form = .hart32 ∧ (Instr.vfadd 63 63 (.scalar 31) .rna .tstop ⟨7, true⟩).wf = true ∧
    (Instr.vfadd 63 63 (.scalar 31) .rna .tstop ⟨7, true⟩).form = .hart64 ∧ Instr.halt.wf = true ∧ Instr.halt.form = .dungen := by decide
theorem test_witness_place :
    (State.reset.withFetchWord 32 0x000E6281).fetchBytes 0x1000 = .ok (leBytes 4 0x000E6281) := okIs_eq (by decide +kernel)
theorem test_witness_encodings :
    csrOf 7 = some .srseed ∧ csrOf 4095 = none ∧ (1 : SReg) ≠ 0 ∧ 4095 / 1024 = 3 ∧ 64 / 64 % 16 ≠ 0 ∧ 5 ≤ 4095 % 8 ∧ 0 / 8 % 4 = 0 := by decide +kernel
theorem test_witness_unencoded :
    let s := State.reset.placeHart (leBytes 4 0xC00C0002)
    s.fetchFault s.h.pc = none ∧ s.illegalAt = some 0xC00C0002 := by decide +kernel

/-! More states for the hypotheses of the statements, clause by clause. -/

/-- Is an exception-valued function's answer no trap. -/
def isOk {α : Type} (x : Except Trp α) : Bool :=
  match x with
  | .ok _ => true
  | .error _ => false
theorem isOk_eq {α : Type} {x : Except Trp α} (h : isOk x = true) : ∃ y, x = .ok y := by
  cases x with
  | ok y => exact ⟨y, rfl⟩
  | error t => simp [isOk] at h

theorem test_witness_counter_loading :
    let s := hartBy (counting 2) fun h => { h with sq := [State.reset.access 0 0 (.read (.sreg 5 8 false) [0x3000])] }
    s.h.levels = [] ++ [level 0xFF8 4 true 5 0] ∧ s.h.sPending 5 = true ∧ (counting 2).h.sPending 5 = false ∧ (looping 0 7).h.levels.getLast? = some (level 0x1000 2 false 0 0) := by
  decide +kernel
theorem test_witness_loop_fetch :
    errIs (mapped.fetchParcels 0x40000000 1) ⟨5, 0x40000000, 0⟩ = true ∧
    isOk ((hartBy mapped fun h => { h with loops := List.replicate 4 (level 0 1 false 0 1) }).fetchParcels (mapped.h.pc + 4) 1) = true := by
  decide +kernel
theorem test_witness_no_flag_enabled : bitsOf State.reset.h.fctl.toNat 5 5 = 0 := by decide +kernel
theorem test_witness_late_fault :
    let a := State.reset.access 0 0 (.write [0x10100000000] [1])
    let s := hartBy (heading a.op) fun h => { h with run := .running }
    s.mayPerform 0 0 = some a ∧ s.h.lates = [] ∧ s.h.run = .running ∧ s.h.events.length < 8 := by decide +kernel
theorem test_witness_leased_alias :
    errIs ((hartBy reaching fun h => { h with pins := 1, vill := false, vl := 8, vlmax := 8, deliveries := [⟨0, .copy 2 0, 0, false⟩] }).amoTarget
      0x80000000 true true) ⟨9, 0, 0⟩ = true := by decide +kernel

/-- A running instance of a kernel on hart 0, and another kernel that waits with the same priority; the pool has one entry. -/
def yielding : State :=
  let s := withHart fun h => { h with run := .running, inst := some ⟨1024, 0, false, false, 0xF424⟩ }
  let s := { s with kernels := [{ kernelIn .running 0 with cursor := [(0, 2)] }, { kernelIn .issuable 0 with token := 2048, seqn := 2 }] }
  s.setPart 0 { s.part 0 with ctxpool := 1 <<< 44 }
theorem test_witness_yield :
    yielding.h.sq = [] ∧ yielding.olderDone = true ∧ (yielding.kernelOf 0).isSome = true ∧ yielding.poolRoom yielding.myPart 1 = true ∧
    (yielding.retire 4).yieldsTo 0 { kernelIn .running 0 with cursor := [(0, 2)] } ≠ none ∧ yielding.h.pins = 0 ∧ yielding.copiesDone 0 = true ∧
    ({ yielding with kernels := yielding.kernels.take 1 } : State).poolRoom 0 2 = false ∧
    (({ yielding with kernels := yielding.kernels.take 1 } : State).retire 4).yieldsTo 0 { kernelIn .running 0 with cursor := [(0, 2)] } = none := by
  decide +kernel

theorem test_witness_same_geometry :
    let s := hartBy (vectors 0 8) fun h => { h with pins := 6 }
    s.h.lowestPin ≠ none ∧ s.h.vill = false ∧ s.h.efmt.toNat = 0 ∧ s.h.tb.toNat = 0 ∧ s.h.sreq = s.h.sreg := by decide +kernel

/-- The record with one transfer descriptor at 0x4000, of 64 bytes to every cluster. -/
def recordMoving : List Nat := record.set 1 (0x20 + 2 ^ 8) |>.set 2 0x4000
theorem test_witness_launch_transfer :
    let s := { (holding 0x3000 recordMoving) with mem := memPutList (holding 0x3000 recordMoving).mem 0x4000 ([0x8000, 0, 64, 0].flatMap fun x => leBytes 8 x) }
    recBad recordMoving = false ∧ recBits recordMoving 72 8 = 1 ∧ (s.ctl 0).launched = none ∧ s.kernels = [] ∧
    isOk (s.listWords (.ofNat 64 (recBits recordMoving 128 64)) 1) = true ∧ s.freeEntry 0 = some 0 ∧
    ({ s with ctls := [(0, { launched := some (0, 0) })] } : State).hid = 0 := by decide +kernel
theorem test_witness_moves :
    (State.reset.targets 0 0 0 (kernelIn .waiting 1).liveDies).isEmpty = false ∧ recBits [0x8000, 0x40, 0x40, 1024] 128 32 ≠ 0 ∧
    recBits [0x8000, 0x40, 0, 1024] 128 32 = 0 ∧ descriptorBad [0x8000, 0x40, 0, 1024] false = false := by decide +kernel

/-- The buffer of shadowed, and a copy of the hart with a write into it to come. -/
def buffer : Buf := ⟨0, 1, 0x10000, 1, 0, [], some []⟩
def owing (fault : Bool) : State :=
  let s := { shadowed with bufs := [buffer] }
  hartBy s fun h => { h with
    copies := [{ copyOf 8 4 with dst := 0x10000, shadows := [(1, 0)] }]
    chanFaults := if fault then [(2, some ⟨6, 0x3000, false⟩)] else [] }
theorem test_witness_publish :
    (owing false).h.publishing = none ∧ (owing true).h.shadowFault buffer = some (2, ⟨6, 0x3000, false⟩) ∧
    (owing false).h.shadowFault buffer = none ∧ (owing false).shadowDone buffer = false := by decide +kernel
/-- Hart 1 has a copy that has read one page of the buffer and has still to read it. -/
theorem test_witness_publish_waits :
    let s := shadowed.setHart 1 { State.reset.h with copies := [{ copyOf 8 4 with src := 0x10000 }] }
    s.shadowDone buffer = true ∧ s.publishOpen buffer = false := by decide +kernel
theorem test_witness_publish_asked :
    let s := hartBy shadowed fun h => { h with publishing := some (1, false) }
    s.openBuf 0 1 = some buffer ∧ s.shadowDone buffer = true ∧ s.publishOpen buffer = true := by decide +kernel
theorem test_witness_schedule_read :
    let s := enginesReady true [(0, 0x3000), (1, 0x1000), (2, 7)]
    s.h.got.any (·.1 == 2) = true ∧ (enginesReady true [(0, 0x3000), (1, 0x1000)]).h.got.any (·.1 == 2) = false := by decide +kernel

theorem test_witness_alias :
    let s := vectors 0 8
    s.h.pinned 31 = false ∧ Memory.wf s.mem ∧ s.aliasAddrs 0 31 = [] ∧ s.h.aliasBytes ≤ 0x20000 ∧ s.bindsAlias 31 = false ∧
    (hartBy s fun h => { h with pins := 1 }).h.pinned 0 = true ∧ fmtSix s.h.fmt = false ∧ 0 < s.h.aliasBytes := by decide +kernel
theorem test_witness_zero_register (p e : Nat) : (hartBy (vectors 0 8) fun h => { h with pins := 1 }).h.getV 0 p e = 0 := by
  simp [vectors, withHart, hartBy, Hart.getV, State.reset, SMap.get]
theorem test_witness_tangents : 0 < (hartBy (vectors 0 8) fun h => { h with tb := 1 }).h.tangents ∧ (1 : VReg) ≠ 2 := by decide +kernel
theorem test_witness_release_first :
    (List.range 2).find? ((accessing 0x3000).h.kBit 0 ·) = some 0 ∧ (accessing 0x3000).earlyOf 0 = [] := by decide +kernel
theorem test_witness_chained :
    convoyed.bound = none ∧ convoyed.h.pins = 0 ∧ convoyed.h.vl ≤ 65536 ∧ convoyed.h.got = [] ∧ convoyed.h.gotBad = [] ∧ convoyed.h.lent = [] ∧
    convoyed.h.puts = [] ∧ convoyed.h.lates = [] ∧ convoyed.h.gen = none ∧ convoyed.h.inConvoy = none ∧ convoyed.h.levels = [] := by decide +kernel
theorem test_witness_unaligned_engine :
    (0x3001 : Word).toNat % 4 ≠ 0 ∧ (0x3004 : Word).toNat % 8 ≠ 0 ∧ (0x200000000004 : Word).toNat % 8 ≠ 0 ∧
    (0x200000000004 : Word).toNat / 2 ^ 44 % 2 ^ 13 = 2 ∧ (0x8000 : Word).toNat / 2 ^ 57 = 0 ∧ 2 ^ 32 ≤ (0x100000000 : Word).toNat := by decide +kernel

theorem test_witness_sealed :
    let s := { State.reset with seals := (3 + 1024 : Word) :: List.replicate 7 0 }
    (s.sealedTo (0xC0000000 / 2 ^ 30)).isSome = true ∧ (0xC0000000 < 2 ^ 40) ∧ (s.sealedTo 4).isSome = false ∧
    8000000000 ≤ ({ s with lag := 8000000000 } : State).ref - 0 := by decide +kernel
/-- LOAD and the length of the image of test_witness_boot; and of one that ends past the SRAM. -/
theorem test_witness_image_fits :
    leValue (sliceOf image.header 12 4) + (sliceOf image.body 0 (leValue (sliceOf image.header 8 4))).length ≤ 0x800000 ∧
    0x800000 < leValue (sliceOf (leBytes 12 0 ++ leBytes 4 0x800000) 12 4) + (sliceOf image.body 0 (leValue (sliceOf image.header 8 4))).length := by
  decide +kernel
theorem test_witness_mode_write :
    (State.reset.hart 5).run ≠ .running ∧ State.reset.coreIdle (5 / 2) = true ∧ (1 : Nat) ≠ 3 := by decide +kernel

theorem test_witness_budget :
    let s := casked mapped { draining with marked := [] }
    s.egressOpen 0 64 = true ∧ (s.part 0).cask.marked = [] ∧ (s.part 0).cask.recordSent = false ∧
    ({ s with now := 1023 } : State).now / 1024 = (s.ctl 0).window ∧ ({ s with now := 1024 } : State).now / 1024 ≠ (s.ctl 0).window := by decide +kernel
theorem test_witness_missed :
    let t : Tier := { missed := [(4, false)] }
    t.missed.find? (·.1 == 4) = some (4, false) ∧ (4 ∉ t.pins) ∧ (8 ∈ ({ pins := [8] } : Tier).pins) ∧ ({} : Tier).missed.find? (·.1 == 4) = none := by
  decide +kernel

/-- A pre-empted hart whose copies have been waited for, with nothing, or with an access, under way. -/
def leaving (l : List Access) : State :=
  hartBy yielding fun h => { h with leaving := some { since := 0, byYield := false, copiesFrom := some 0 }, sq := l }
theorem test_witness_save :
    (leaving []).h.leaving = some { since := 0, byYield := false, copiesFrom := some 0 } ∧ (leaving []).h.inst.isSome = true ∧
    (leaving []).poolFree 0 = some 0 ∧ (leaving []).h.pins = 0 ∧ (leaving []).h.copies = [] ∧ (leaving []).quiet 0 = true ∧
    (leaving [State.reset.access 0 0 (.write [0x3000] [1])]).quiet 0 = false := by decide +kernel

theorem test_witness_event_open :
    mapped.h.leaving = none ∧ mapped.h.inConvoy = none ∧ mapped.h.publishing = none ∧ (leaving []).h.leaving ≠ none := by decide +kernel
theorem test_witness_held_ticket :
    let a : Access := { State.reset.access 0 0 (.write [0x3000] [1]) with sc := true, seq := 2 }
    let s := withHart fun h => { h with nextSeq := 3, sq := [State.reset.access 1 0 (.write [0x4000] [1]), a], fences := [⟨1, .full .dev true true⟩] }
    s.h.head 0 = some a ∧ s.guardsMet 0 (s.refreshed 0 a) = false := by decide +kernel

theorem test_witness_packets :
    (2 + 1 < 2 ^ 22) ∧ (∀ z ∈ State.reset.earlyOf 0, State.reset.ref - z.at_ < State.reset.earlyShort z.p) ∧ write3.gen = (opened slot3).devId.testBit 1 ∧
    (opened slot3).bankDelays ((List.range write3.data.length).map (write3.addr + ·)) = false ∧
    ((opened slot3).partOfHandle 5).isSome = true ∧ (opened slot3).reaches (((opened slot3).partOfHandle 5).getD 8) write3.addr 2 = true ∧
    State.reset.reaches 7 0x3000 512 = false ∧ State.reset.reaches 0 0x3000 512 = true ∧
    State.reset.bankDelays ((List.range 512).map (0x3000 + ·)) = false ∧ ({ readReq with kind := .readResp, dst := 2 } : Packet).dst ≠ State.reset.devId := by
  decide +kernel
/-- The hold of phase 1 has ended and its maker is known. -/
theorem test_witness_ended_hold :
    let s := { holdingGroup 0 0 with made := [(3, 5, 1, .hart 0)] }
    s.makerOf 3 5 1 = some (.hart 0) ∧ (group0 0 0).phase ≠ 1 ∧ (s.hart 0).run ≠ .idle ∧ (s.hart 0).events.length < 8 ∧ (1 : Nat) ≠ 0 := by decide +kernel
theorem test_witness_banks :
    (bucketed [partialOf 64]).bankDelays ((List.range 64).map (0x7000 + ·)) = false ∧
    (bucketed []).bankDelays ((List.range 8).map (0x7800 + ·)) = false := by decide +kernel
theorem test_witness_ended_strip :
    ({ sentStrip 0 with ended := true } : SentStrip).ended = true ∧ (sentStrip 0).ended = false ∧
    ((sentStrips 0).h.freg 0).group = 1 ∧ ((sentStrips 0).h.freg 0).group ≠ 2 ∧ (receiving (some 0)).h.post 0 0 = some (post (some 0)) ∧
    (post (some 0)).next < (post (some 0)).vl ∧ (post (some 0)).next < (receiving (some 0)).h.vlmax ∧
    ({ post (some 0) with next := 2 } : RecvPost).vl ≤ ({ post (some 0) with next := 2 } : RecvPost).next := by decide +kernel

theorem test_witness_turn_of_loop :
    (hartBy (looping 3 7) fun h => { h with pc := 0x1008, run := .running }).h.flowDue = true ∧ turns.h.flowDue = false ∧ turns.h.leaving = none ∧
    turns.h.inConvoy = none ∧ (turns.now + 3) / 1024 = turns.now / 1024 ∧
    (hartBy turns fun h => { h with inConvoy := some ⟨[0, 0], 1, 0, 0, none⟩ }).h.inConvoy = some ⟨[0, 0], 1, 0, 0, none⟩ := by decide +kernel

/-! States for the checks, traps and windows of vector instructions, for convoys and for casks. -/

theorem cut_free {s : State} (h : ∀ p, p < 8 → (s.part p).cask.marked = []) : s.cutFree := by
  intro p f hp; simp [Cask.owes, h p hp]
theorem test_witness_cut_free : (holding 0x8000 []).cutFree ∧ grouped.cutFree ∧ (packing 25 [1]).cutFree :=
  ⟨cut_free (by decide +kernel), cut_free (by decide +kernel), cut_free (by decide +kernel)⟩
theorem ready_unbound {s : State} {a b : List VReg} (h : runsBool { s with h := { s.h with fctl := 0 } } (a ++ b) = true) : s.vReady a b :=
  (runs_unbound h).1

theorem test_witness_issue_checks :
    let s := vectors 0 8
    s.h.sq = [] ∧ s.h.nreg ≤ (63 : VReg).val ∧ (2 : VReg).val < s.h.nreg ∧ (hartBy s fun h => { h with vill := true }).h.vill = true ∧ s.h.vill = false ∧
    isF8 s.h.fmt = true ∧ fmtInt (vectors 16 8).h.fmt = true ∧ isF8 (vectors 16 8).h.fmt = false ∧ fmtInt s.h.fmt = false ∧
    fmtHasContainer (vectors 20 8).h.fmt = false ∧ fmtHasContainer s.h.fmt = true ∧ (hartBy s fun h => { h with fctl := 7 }).h.resolveRm .dyn = none ∧
    (hartBy s fun h => { h with deliveries := [⟨2, .copy 0 0, 0, false⟩] }).h.leased 2 = true ∧
    (hartBy s fun h => { h with binds := [binding] }).h.bound 2 = some binding ∧ binding.accepts .e4m3 none = false := by decide +kernel
/-- 09 R237, 01 R44: a format outside the class, a leased source, and a bound destination. -/
theorem test_issue_checks :
    let i : Instr := .vadd 2 3 (.reg 4) .prop plain
    let t := after i (hartBy (vectors 16 8) fun h => { h with deliveries := [⟨4, .copy 0 0, 0, false⟩] })
    let u := after i (hartBy (vectors 16 8) fun h => { h with binds := [binding], eidx := 3 })
    (after i (vectors 0 8)).h.cause = 1 ∧ t.h.cause = 9 ∧ t.h.tval = 4 ∧ t.h.teidx = 0 ∧ u.h.cause = 20 ∧ u.h.tval = 2 ∧ u.h.teidx = 3 := by decide +kernel

/-- v1 of filled, with NV enabled for the value plane. -/
def trapping : State := hartBy (filled 0) fun h => { h with fctl := 0x200 }
theorem test_witness_value_trap :
    let f (e : Nat) : List Nat × List Nat := trapping.byPlane .prop fun p => trapping.roundAt .rne p e
      (addF .rne (decodeEx .f32 (trapping.h.src 1 p e), 0) (decodeEx .f32 (trapping.h.vbAt (.reg 1) p e), 0))
    let raised := trapping.raisedAt .prop [1, 1] fun e => (f e).2
    trapping.vReady [1, 1] [4] ∧ trapping.h.th = false ∧ trapping.h.kBit 0 2 = true ∧ (raised 0).any trapping.h.stops = false ∧
    (raised 1).any trapping.h.stops = false ∧ (raised 2).find? trapping.h.stops = some (16, 0) :=
  ⟨ready_unbound (by decide +kernel), by decide +kernel⟩
/-- 08 R217: the elements below the one that traps are written. -/
theorem test_value_trap :
    let t := after (.vfadd 4 1 (.reg 1) .rne .prop plain) trapping
    t.h.cause = 10 ∧ t.h.tval = 0x20010 ∧ t.h.teidx = 2 ∧ t.h.getV 4 0 1 = 0x40800000 ∧ t.h.getV 4 0 2 = 0 ∧ t.h.fflags = 16 := by decide +kernel

/-- Two contributions of i32 to bucket 0 of group 1, through a reducing window of 64 KiB at 0x50000000. -/
def windowed (base : Word) : State :=
  let s := hartBy (grouped.ws 1 base) fun h => { h with pins := 0, v := ((h.setV 1 0 0 3).setV 1 0 1 4).v }
  s.setPart 0 { s.part 0 with rwin := 0x10000005000 }
theorem test_witness_window :
    let s := windowed 0x50000000
    let b := s.bktEnt s.myPart grp 0
    s.vRuns [1] [] ∧ storePair s.h.fmt .i32 = true ∧ storeRounds s.h.fmt .i32 = false ∧ (1 : BitVec 5) ≠ 0 ∧ s.h.kBit 0 0 = true ∧
    (s.inWindow s.myPart 0x50000000).isSome = true ∧ canonical 0x50000000 = true ∧ s.group? s.myPart 1 = some grp ∧
    (hartBy s fun h => { h with cgroup := 2 }).group? 0 2 = none ∧ copsOp 0x40 = some .sum ∧ copsFmt 0x40 = some .i32 ∧ chunkOk 64 = true ∧
    0 < grp.nbkt ∧ b.boff % 64 = 0 ∧ b.blen % 64 = 0 ∧ s.windowElem 0x50000004 4 = some 4 ∧ b.boff + b.blen = 64 ∧
    (s.rankDev s.myPart grp 0).1 = s.devId ∧ s.h.doing 0 = [0, 1] ∧ chunkOk 65 = false ∧ s.windowElem 0x5000FFFC 4 = some 65532 ∧
    s.windowElem 0x50010000 4 = none :=
  ⟨runs_unbound (by decide +kernel), by decide +kernel⟩
/-- 06 R173, 14 R337: the elements leave as contributions, and one past the bucket is cause 8. -/
theorem test_window :
    let t := after (.vst .i32 0 .plain false 1 1 0 0) (windowed 0x50000000)
    let u := after (.vst .i32 0 .plain false 1 1 0 0) (windowed 0x5000003C)
    (t.h.sq.map fun a => match a.op with
      | .contrib p _ => (p.dst, p.addr, p.data, p.ops, p.chunk)
      | _ => (0, 0, [], 0, 0)) = [(1, 0, leBytes 4 3, 0x40, 64), (1, 4, leBytes 4 4, 0x40, 64)] ∧
    u.h.cause = 8 ∧ u.h.tval = 0x5000003C ∧ u.h.sq = [] := by decide +kernel

/-- A convoy of members at the pc of a state, and the parcels of their words. -/
def convoyAt (s : State) (l : List Instr) : State :=
  { mapped with h := { s.h with pc := 0x1000 }, mem := memPutList mapped.mem 0x1000 (leBytes 4 0x19 ++ l.flatMap encodeBytes) }
/-- An instruction retires without a trap. -/
def retires (i : Instr) (s : State) : Bool :=
  match exec i s with
  | .next t => !t.h.th && t.h.nextSeq == s.h.nextSeq + 1
  | _ => false
theorem runs_one {i : Instr} {l : List Instr} {s u : State} (h : retires i s = true) (r : RunsAll l (after i s) u) : RunsAll (i :: l) s u := by
  simp only [retires] at h
  simp only [after] at r
  split at h
  · rename_i t ht
    simp only [ht, Bool.and_eq_true, Bool.not_eq_true', beq_iff_eq] at h r
    exact .cons ht h.1 h.2 r
  · simp at h
def storing : List Instr := [.vmv 3 1 .prop plain, .vst .f32 0 .plain false 3 1 0 0]
theorem test_witness_convoy_stores :
    let s := hartBy convoyed fun h => { h with s := (h.setS 1 0x3000).s }
    RunsAll storing s (after storing[1] (after storing[0] s)) ∧ (∀ i ∈ storing, registerOnly i = true ∨ memoryMember i = true) ∧
    (∀ i ∈ storing, elementwise i = true) :=
  ⟨runs_one (by decide +kernel) (runs_one (by decide +kernel) (.nil _)), by decide +kernel, by decide +kernel⟩
/-- VMV v5, v1 and a sum that traps at element 2; the same with a slide, which stops only at element 0. -/
def trapped : List Instr := [.vmv 5 1 .prop plain, .vfadd 4 1 (.reg 1) .rne .prop plain]
def slid : List Instr := [.vslup 6 1 0 1 0 .prop plain, .vfadd 4 1 (.reg 1) .rne .prop plain]
theorem test_witness_convoy_traps :
    RunsAll trapped (trapping.withVl 2) (after trapped[1] (after trapped[0] (trapping.withVl 2))) ∧
    RunsAll (trapped.take 1) (trapping.withVl 3) (after trapped[0] (trapping.withVl 3)) ∧ RunsAll (slid.take 1) trapping (after slid[0] trapping) ∧
    (after trapped[1] ((after trapped[0] (trapping.withVl 3)).withFlags 0)).h.th = true ∧ (after slid[1] (after slid[0] trapping)).h.th = true ∧
    (∀ i ∈ trapped, elementwise i = true) ∧ (∀ i ∈ slid, registerOnly i = true) ∧ stopsWhole slid[0] = true ∧ trapping.inWindow 0 0 = none :=
  ⟨runs_one (by decide +kernel) (runs_one (by decide +kernel) (.nil _)), runs_one (by decide +kernel) (.nil _), runs_one (by decide +kernel) (.nil _),
    by decide +kernel⟩
/-- 18 R401, R402: both members keep the elements below the trap's; a convoy with a slide keeps none. -/
theorem test_convoy_trap :
    let t := after (.convoy 0 8) (convoyAt trapping trapped)
    let u := after (.convoy 0 6) (convoyAt trapping slid)
    t.h.cause = 10 ∧ t.h.teidx = 2 ∧ t.h.tpc = 0x1000 ∧ t.h.conv = true ∧ t.h.getV 5 0 1 = 0x40000000 ∧ t.h.getV 5 0 2 = 0 ∧
    t.h.getV 4 0 1 = 0x40800000 ∧ u.h.cause = 10 ∧ u.h.teidx = 0 ∧ u.h.getV 6 0 1 = 0 ∧ u.h.getV 4 0 0 = 0 := by decide +kernel

theorem test_witness_streams_fail :
    let s := windowed 0x3000
    let f (x : FReg) : State := hartBy s fun h => { h with f := [(0, x)] }
    s.vRuns [1] [2] ∧ (2 : VReg).val < s.h.nreg ∧ s.group? s.myPart 2 = none ∧ copsFmt 0 ≠ some s.h.fmt ∧ chunkOk 65 = false ∧
    ((f { state := 2 }).h.freg 0).state = 2 ∧ ((f { state := 1, pseq := 1, group := 3 }).h.freg 0).pseq ≠ ((f { state := 1, pseq := 1, group := 3 }).h.freg 0).dseq ∧
    copsOp 0x43 = none ∧ copsFmt 0x43 = some s.h.fmt ∧ s.rankAfter s.myPart grp = s.devId :=
  ⟨runs_unbound (by decide +kernel), by decide +kernel⟩
/-- 15 R356: another format than the stream's. -/
theorem test_streams_fail :
    let s := hartBy (windowed 0x3000) fun h => { h with cops := 0 }
    (after (.vcsend 0 1 plain) s).h.cause = 8 ∧ (after (.vcsend 0 1 plain) s).h.tval = 0x10000 ∧ (after (.vcrecv 2 0 .prop plain) s).h.cause = 8 ∧
    (after (.vcred 2 1 0 .rne .prop plain) s).h.cause = 8 := by decide +kernel

/-- A buffer of two pages whose page 1 has a shadow page. -/
def paged : State :=
  let b : Buf := ⟨0, 1, 0x10000, 2, 0, [], some [(1, 9)]⟩
  hartBy { shadowed with bufs := [b] } fun h => { h with publishing := some (1, false) }
theorem test_witness_pages :
    (paged.openBuf 0 1).isSome = true ∧ (∀ b : Buf, b ∈ paged.bufs → paged.shadowDone b = true ∧ paged.publishOpen b = true ∧
      (∀ y ∈ b.shadow.getD [], (paged.liveFrame b y.1).isSome = true) ∧ paged.bufferAt 0 0x20004 = some (b, 1) ∧ paged.bufferAt 0 0x10000 = some (b, 0)) ∧
    ({ paged with bufs := [⟨0, 1, 0x10000, 1, 3, [], none⟩] } : State).openBuf 0 1 = none := by decide +kernel
/-- 05 R149, R150: the page with a shadow page is that page from then on, the other stays. -/
theorem test_publish_move :
    let t := after (.publishMove 0 1) paged
    t.liveAddr 0 0x20004 0x20004 = 0x90004 ∧ t.liveAddr 0 0x10004 0x10004 = 0x10004 ∧ t.h.publishing = some (1, true) ∧
    t.bufs.map (fun b => (b.gen, b.shadow)) = [(1, none)] := by decide +kernel

/-- 08 R226: seventeen products in two groups: 1 + 16 × (−7.5), then one more. -/
theorem test_groups : ({ terms with k := 17 } : RowTerms).k = 17 ∧ (({ terms with k := 16 } : RowTerms).column 0 0x3F800000).1 = 0xC2EE0000 ∧
    (({ terms with k := 17 } : RowTerms).column 0 0x3F800000).1 = 0xC2FD0000 := by decide +kernel

/-- Page 4 of draining is still owed, its pool being page 8; and it has been copied there. -/
def pooled (copied : Bool) : State :=
  let s := heading (.write (List.range' 0x40000 2) [0xAA, 0xBB])
  casked s { draining with buf := 8, nbuf := 1, copies := if copied then [(4, 8)] else [] }
theorem test_witness_pool :
    let a := State.reset.access 0 0 (.write (List.range' 0x40000 2) [0xAA, 0xBB])
    let s := pooled false
    let k := (s.part 0).cask
    s.mayPerform 0 0 = some a ∧ (s.hart 0).lates = [] ∧ okIs (s.freshOp 0 a) a.op = true ∧ a.shadows = [] ∧ pagesOf 0x40000 2 = [4] ∧
    k.owes 4 = true ∧ k.pool.head? = some 8 ∧ k.marked.find? (·.2 == 4) = some (1, 4) ∧ (∀ q : Fin 8, q ≠ 0 → (s.part q).cask.marked = []) ∧
    ((pooled true).part 0).cask.copies.find? (·.1 == 4) = some (4, 8) := by decide +kernel
/-- 18 R410: a write to a marked page puts the cut value into the pool first. -/
theorem test_cut_copy :
    let t := after (.performAccess 0 0) (pooled false)
    t.lastByte 0x80000 = 7 ∧ t.lastByte 0x40000 = 0xAA ∧ (t.part 0).cask.copies = [(4, 8)] := by decide +kernel

/-! States for the newer clauses of the moves. -/

/-- Hart 0 is idle, and an instance saved from it waits to resume. -/
def resumed : State := { mapped with
  kernels := [{ kernelIn .running 0 with
    cursor := [(0, 2)], resumable := [{ number := 0, home := none, ctx := { mapped.h with inst := some ⟨1024, 0, false, false, 1⟩ }, poolEntry := 0, part := 0, left := 0, since := 0 }] }]
  h := { mapped.h with run := .idle }, mem := memPutList mapped.mem 0x100380 (leBytes 8 0x5008) }
theorem test_witness_resume :
    let s := { resumed.setPart 0 { resumed.part 0 with ctxpool := 0x100000, ctxUsed := [0] } with now := 9 }
    (s.choose 0).map (fun y => (y.1.token, y.2)) = some ((1024 : Word), Offer.saved 0) ∧ s.poolBase 0 0 = 0x100000 ∧
    s.savedDword 0 0x100000 0x3A8 = (0 : Word) ∧
    (s.kernels.all fun k => k.resumable.all fun y => y.ctx.pins == 0) = true := by decide +kernel
theorem test_witness_save_open :
    (leaving []).h.sup = false ∧ (leaving []).saveDelayed 0 = false ∧ (∀ p : Fin 8, ((leaving []).part p).cask.marked = []) := by decide +kernel

/-- A ring whose store has a contribution still to inject. -/
def stillStoring : State := hartBy ringing fun h => { h with
  sq := [{ State.reset.access 0 0 (.contrib { contribution 1 with dst := 3 } 0) with seq := 9 }] }
/-- The head of stream V waits for a word, and for a register, of a read sent three times. -/
def unanswered (r : ReadTo) : State :=
  { withHart fun h => { h with run := .running, waitAt := some 0, sq := [State.reset.access 1 0 (.readRemote r 3 0x3000 4 0x3008)] } with
    rreads := [⟨7, 0, 1, 3, 0x3000, 4, 0, 3⟩], now := 200000 }
theorem test_witness_third_read :
    (stillStoring.rings[0]?).map stillStoring.storing = some true ∧ (ringing.rings[0]?).map ringing.storing = some false ∧
    ((unanswered (.sreg 2 4 false)).hart 0).head 1 = some (State.reset.access 1 0 (.readRemote (.sreg 2 4 false) 3 0x3000 4 0x3008)) ∧
    ((unanswered (.word 0 2)).hart 0).head 1 = some (State.reset.access 1 0 (.readRemote (.word 0 2) 3 0x3000 4 0x3008)) ∧
    ((unanswered (.word 0 2)).hart 0).waitAt = some 0 ∧ (unanswered (.word 0 2)).tShort 0 ≤ 200000 - 0 ∧ ((unanswered (.word 0 2)).hart 0).events.length < 8 := by
  decide +kernel
/-- 14 R324, 06 R172: the load that waits for it takes cause 8. -/
theorem test_third_read :
    (after (.remoteReadResend 0) (unanswered (.sreg 2 4 false))).h.events = [⟨8, 0x3008⟩] ∧
    (after (.remoteReadResend 0) (unanswered (.word 0 2))).h.gotBad = [(2, 8, 0x3008)] := by decide +kernel

/-- The open group of slot 5 of device 3, whose latest write hart 0 made, is of phase 1. -/
def openGroup : State := { holdingGroup 0 0 with sends := [{ sendTo3 [] 2 with phase := 1, openMaker := some (.hart 0) }] }
theorem test_witness_open_group :
    openGroup.findSend 3 5 = some { sendTo3 [] 2 with phase := 1, openMaker := some (.hart 0) } ∧ openGroup.makerOf 3 5 1 = some (.hart 0) ∧
    (∀ y ∈ openGroup.earlyOf 0, openGroup.ref - y.at_ < openGroup.earlyShort y.p) ∧ ({ write3 with kind := .fail, index := 1 } : Packet).index ≠ 0 ∧
    { State.reset with early := [(0, [⟨write3, 5⟩])], now := 200005 }.earlyShort write3 = 200000 := by decide +kernel

/-- A group of two ranks, this device's 0 and device 3's 1, with both partials of chunk 0: 1.5 and 2.5 of f32, and 14 zeros. -/
def summed (op : Nat) : State :=
  let s := bucketed []
  let part (r x : Nat) : Partial := { chunk := 0, size := 64, rank := r, dev := 1 + 2 * r, bytes := (leBytes 4 x ++ List.replicate 60 0).zipIdx.map fun (y : Byte × Nat) => (y.2, some y.1), firstAt := 0 }
  let m := memPutList (memPutList s.mem 0x6100 ([0x100000002, 0x6200, 0x6300, 0, 0x100000000].flatMap (leBytes 8))) 0x6200 (leBytes 4 1 ++ leBytes 4 3)
  { (s.setPart 0 { s.part 0 with allowMap := 0xFF }) with mem := m, buckets := [{ bucketOf [part 0 0x3FC00000, part 1 0x40200000] with ops := op }] }
theorem test_witness_summed :
    let s := summed 0
    let b := s.buckets.headD (bucketOf [])
    copsOp b.ops = some .sum ∧ copsFmt b.ops = some .f32 ∧ copsScatter b.ops = false ∧ (s.group? 0 1).map (fun g => (g.nr, g.me)) = some (2, 0) ∧
    (∀ r : Fin 2, (b.used 0 r).isSome = true) ∧ ((s.group? 0 1).map fun g => ((s.rankDev 0 g 1).1, s.allowed 0 (s.rankDev 0 g 1).1, decide (g.slotbase + g.nr + g.me < 2 ^ 14))) =
      some (3, true, true) ∧ (s.group? 0 1).map (fun g => s.allowed 0 (s.rankDev 0 g 0).1) = some true ∧
    s.writeDelays ((List.range 64).map (0x7000 + ·)) = false ∧ (∀ p : Fin 8, (s.part p).cask.marked = []) ∧ b.past (contribution 1) = false := by decide +kernel
/-- 14 R338: 4 is the sum, in the result area and in a packet to rank 1, followed by its silent ring; MAX takes 2.5. -/
theorem test_summed :
    let t := after (.combine 0 1 0 0) (summed 0)
    leValue ((List.range 4).map fun j => t.lastByte (0x7000 + j)) = 0x40800000 ∧
    t.unitOut.map (fun (y : Nat × Packet) => (y.2.kind, y.2.dst, y.2.data.take 4)) = [(.result, 3, leBytes 4 0x40800000), (.ring, 3, [])] ∧
    leValue ((List.range 4).map fun j => (after (.combine 0 1 0 0) (summed 0x01)).lastByte (0x7000 + j)) = 0x40200000 := by decide +kernel

theorem test_witness_strip_streams :
    let s := receiving (some 0)
    let p : Packet := { dst := 1, src := 3, kind := .shortfall, group := 1, freg := 1 }
    s.h.postsDone 0 = true ∧ (∀ q : Fin 8, (s.part q).cask.marked = []) ∧ s.groupPart 1 = some 0 ∧
    s.unsent 0 0 1 0 0 = true ∧ (hartBy s fun h => { h with f := [(0, { freg1 with sseq := 1 })] }).unsent 0 0 1 0 0 = false ∧
    (({ sentStrips 0 with sentStrips := [{ sentStrip 0 with ended := true }] } : State).sentStrips.filter fun z => z.dest == p.src).head? =
      some { sentStrip 0 with ended := true } ∧ ((sentStrips 0).hart (sentStrip 0).hart).events.length < 8 := by decide +kernel

theorem test_witness_samples :
    let s := stuckAt 2047
    (s.now + 1) / 1024 = s.now / 1024 + 1 ∧ s.kernels.length = 1 ∧ (1024 * max 1 1 < 1024 * ((s.now + 1) / 1024) - 0) ∧ s.h.th = false ∧
    s.h.leaving = none ∧ (stuckAt 1023).h.blocked = some 0 ∧ ¬ (1024 * max 1 1 < 1024 * ((1023 + 1) / 1024) - 0) ∧
    (hartBy turns fun h => { h with events := [⟨17, 5⟩] }).eventReady = true ∧ turns.eventReady = false ∧ turns.waking = [] ∧
    ({ turns with mem := memPutList turns.mem 0x200008 (leBytes 8 0x1000000007F), waking := [.bank 0 0] } : State).fetchDelayed 0x40000000 = true := by decide +kernel

end Sys2Proof.Tests
end

/-! Registers with behaviour (17 R373, R382, R384, R391, R392, 01 R23 to R25, 18 R399, R409): bits cut out, put together and replaced. -/

namespace Sys2Proof

theorem bitsOf_zero (x n : Nat) : bitsOf x 0 n = x % 2 ^ n := by simp [bitsOf]

/-- A table whose values are changed key by key, read back; an unlisted key keeps what it reads as. -/
theorem SMap.get_mapValues {β : Type} (d : β) (f : Nat → β → β) (hd : ∀ k, f k d = d) (m : SMap β) (k : Nat) :
    SMap.get d (m.map fun x => (x.1, f x.1 x.2)) k = f k (SMap.get d m k) := by
  induction m with
  | nil => exact (hd k).symm
  | cons x m ih =>
    obtain ⟨a, b⟩ := x
    by_cases h : a = k
    · simp [SMap.get, h]
    · simpa [SMap.get, h] using ih

/-- The number whose bits below n are those of a predicate is below 2^n. -/
theorem foldl_bits_lt (P : Nat → Bool) (n : Nat) :
    (List.range n).foldl (fun a j => if P j then a + 2 ^ j else a) 0 < 2 ^ n := by
  induction n with
  | zero => simp
  | succ n ih =>
    rw [List.range_succ, List.foldl_append, Nat.pow_succ]
    simp only [List.foldl_cons, List.foldl_nil]
    split <;> omega

theorem testBit_foldl_bits (P : Nat → Bool) {n i : Nat} (hi : i < n) :
    ((List.range n).foldl (fun a j => if P j then a + 2 ^ j else a) 0).testBit i = P i := by
  induction n with
  | zero => omega
  | succ n ih =>
    have lt := foldl_bits_lt P n
    rw [List.range_succ, List.foldl_append]
    simp only [List.foldl_cons, List.foldl_nil]
    by_cases e : i = n
    · subst e
      by_cases hp : P i = true
      · simp [hp, Nat.add_comm _ (2 ^ i), Nat.testBit_two_pow_add_eq, Nat.testBit_lt_two_pow lt]
      · simp [hp, Nat.testBit_lt_two_pow lt]
    · have below : i < n := by omega
      by_cases hp : P n = true
      · simp [hp, Nat.add_comm _ (2 ^ n), Nat.testBit_two_pow_add_gt below, ih below]
      · simp [hp, ih below]

/-- A number in three parts: its bits below k, its w bits from k on, and the rest. -/
theorem eq_parts (x k w : Nat) : x = 2 ^ k * (2 ^ w * (x / 2 ^ (k + w)) + bitsOf x k w) + x % 2 ^ k := by
  rw [Nat.pow_add, ← Nat.div_div_eq_div_mul, bitsOf, Nat.div_add_mod, Nat.div_add_mod]

/-- The w bits from k on replaced by y: bits inside are y's, bits outside are as they were. -/
theorem testBit_replaceBits (x k w : Nat) {y : Nat} (hy : y < 2 ^ w) (i : Nat) :
    (x - bitsOf x k w * 2 ^ k + y * 2 ^ k).testBit i = if k ≤ i ∧ i < k + w then y.testBit (i - k) else x.testBit i := by
  have low : x % 2 ^ k < 2 ^ k := Nat.mod_lt _ (Nat.two_pow_pos k)
  have replaced : x - bitsOf x k w * 2 ^ k + y * 2 ^ k = 2 ^ k * (2 ^ w * (x / 2 ^ (k + w)) + y) + x % 2 ^ k := by
    have := eq_parts x k w
    rw [Nat.mul_add] at this ⊢
    rw [Nat.mul_comm _ (2 ^ k), Nat.mul_comm y]
    omega
  have old : x.testBit i = if i < k then (x % 2 ^ k).testBit i else if i - k < w then (bitsOf x k w).testBit (i - k)
      else (x / 2 ^ (k + w)).testBit (i - k - w) := by
    rw [← Nat.testBit_two_pow_mul_add _ (bitsOf_lt x k w), ← Nat.testBit_two_pow_mul_add _ low, ← eq_parts]
  rw [replaced, Nat.testBit_two_pow_mul_add _ low, Nat.testBit_two_pow_mul_add _ hy, old]
  by_cases below : i < k
  · rw [if_pos below, if_pos below, if_neg (by omega)]
  · by_cases inside : i - k < w
    · rw [if_neg below, if_pos inside, if_pos (by omega)]
    · rw [if_neg below, if_neg inside, if_neg (by omega), if_neg below, if_neg inside]

/-- A bit of a little-endian number is the bit of its byte. -/
theorem testBit_leValue_bytesFrom (f : Nat → Byte) (a : Nat) {n i : Nat} (hi : i < 8 * n) :
    (leValue (Machine.bytesFrom f a n)).testBit i = (f (a + i / 8)).getLsbD (i % 8) := by
  induction n generalizing a i with
  | zero => omega
  | succ n ih =>
    have split8 : leValue (Machine.bytesFrom f a (n + 1)) = 2 ^ 8 * leValue (Machine.bytesFrom f (a + 1) n) + (f a).toNat := by
      rw [Machine.bytesFrom, leValue, Nat.add_comm, show 2 ^ 8 = 256 from rfl]
    rw [split8, Nat.testBit_two_pow_mul_add _ (f a).isLt]
    by_cases h : i < 8
    · rw [if_pos h, BitVec.testBit_toNat, Nat.div_eq_of_lt h, Nat.mod_eq_of_lt h, Nat.add_zero]
    · rw [if_neg h, ih (a + 1) (by omega), show a + 1 + (i - 8) / 8 = a + i / 8 by omega, show (i - 8) % 8 = i % 8 by omega]

namespace Machine

theorem keep_eq (m : Nat) (v : Word) : keep m v = v &&& BitVec.ofNat 64 m := rfl

theorem ofNat_low44 (v : Word) : BitVec.ofNat 64 (bitsOf v.toNat 0 44) = v &&& 0xFFFFFFFFFFF := by
  apply BitVec.eq_of_toNat_eq
  rw [BitVec.toNat_and, BitVec.toNat_ofNat, bitsOf_zero]
  exact (Nat.mod_eq_of_lt (by omega)).trans (Nat.and_two_pow_sub_one_eq_mod v.toNat 44).symm

/-! What such a write leaves: memory, and all but one partition. -/

theorem State.sameMemory_setHart (s : State) (n : Nat) (h : Hart) : s.sameMemory (s.setHart n h) :=
  State.sameMemory_of_eq (s.setHart_mem n h) (s.setHart_log n h)

theorem State.sameMemory_setPart (s : State) (p : Nat) (x : Part) : s.sameMemory (s.setPart p x) :=
  State.sameMemory_of_eq rfl rfl

/-- Partition p has become y; the other partitions, the harts and every byte of memory are as in s. -/
def State.onlyPart (s t : State) (p : Nat) (y : Part) : Prop :=
  t.part p = y ∧ (∀ r, r ≠ p → t.part r = s.part r) ∧ t.h = s.h ∧ t.others = s.others ∧ s.sameMemory t

theorem State.onlyPart_setPart (s : State) (p : Nat) (y : Part) : s.onlyPart (s.setPart p y) p y :=
  ⟨s.part_setPart_same p y, fun _ hr => s.part_setPart_other y hr, rfl, rfl, s.sameMemory_setPart p y⟩

theorem Completes.setPart {i : Instr} {s : State} {p : Nat} {y : Part} (h : exec i s = .next (s.setPart p y)) :
    Completes i s fun t => s.onlyPart t p y := ⟨_, h, s.onlyPart_setPart p y⟩

/-- The partition of a cluster depends on the cluster sets alone. -/
theorem State.partOf_congr {s t : State} (h : ∀ p, (t.part p).clus = (s.part p).clus) (g : Nat) : t.partOf g = s.partOf g := by
  have h' (p : Nat) : (SMap.get {} t.parts p).clus = (SMap.get {} s.parts p).clus := h p
  simp only [State.partOf, h']

/-- Partitions changed number by number, read back. -/
theorem State.part_mapParts (s : State) (f : Nat → Part → Part) (hd : ∀ k, f k {} = {}) (q : Nat) :
    State.part { s with parts := s.parts.map fun x => (x.1, f x.1 x.2) } q = f q (s.part q) :=
  SMap.get_mapValues ({} : Part) f hd s.parts q

/-! Registers of the window (00 R9, 17 R373, R382, R391): each by its writer. -/

theorem exec_registerWrite {who : Writer} {r : WinReg} {v : Word} {s t : State} (h : s.writeWinReg who r v = t) :
    exec (.registerWrite who r v) s = .next t := congrArg Host.Outcome.next h

section
variable (s : State) (v : Word) {p d : Nat}

theorem State.writeWinReg_scctl (hd : d < 4) (who : Writer) : s.writeWinReg who (.scctl d) v =
    if s.ofDie who d then s.setCtl d { s.ctl d with scctl := v &&& 0x7FFF01 } else s := by
  cases h : s.ofDie who d <;> simp [State.writeWinReg, winRegOk, hd, h, State.setCtl, State.ctl, keep_eq]

theorem State.writeWinReg_cbarea (hd : d < 4) (who : Writer) : s.writeWinReg who (.cbarea d) v =
    if s.ofDie who d then s.setCtl d { s.ctl d with cbarea := v &&& 0xFFFFFF00000 } else s := by
  cases h : s.ofDie who d <;> simp [State.writeWinReg, winRegOk, hd, h, State.setCtl, State.ctl, keep_eq]

theorem State.writeWinReg_gtab (hp : p < 8) : s.writeWinReg (.supervisor p) (.gtab p) v = s.setPart p { s.part p with gtab := v } := by
  simp [State.writeWinReg, winRegOk, hp, isFirmware, ofPartition]

theorem State.writeWinReg_htab (hp : p < 8) : s.writeWinReg (.supervisor p) (.htab p) v = s.setPart p { s.part p with htab := v } := by
  simp [State.writeWinReg, winRegOk, hp, isFirmware, ofPartition]

theorem State.writeWinReg_shpool (hp : p < 8) : s.writeWinReg (.supervisor p) (.shpool p) v =
    s.setPart p { s.part p with shpool := v &&& 0xFFFFFFFFFFFF0000 } := by
  simp [State.writeWinReg, winRegOk, hp, isFirmware, ofPartition, keep_eq]

theorem State.writeWinReg_ctxpool (hp : p < 8) : s.writeWinReg (.supervisor p) (.ctxpool p) v =
    s.setPart p { s.part p with ctxpool := v &&& 0xFFFFFFFFFFF00000 } := by
  simp [State.writeWinReg, winRegOk, hp, isFirmware, ofPartition, keep_eq]

theorem State.writeWinReg_belllo (hp : p < 8) : s.writeWinReg .firmware (.belllo p) v =
    s.setPart p { s.part p with belllo := v.toNat % 2 ^ 14, bellhi := v.toNat / 2 ^ 16 % 2 ^ 14 } := by
  simp [State.writeWinReg, winRegOk, hp, isFirmware, bitsOf]

theorem State.writeWinReg_egress (hp : p < 8) : s.writeWinReg .firmware (.egress p) v =
    if (s.part p).egressLocked then s else s.setPart p { s.part p with egress := v.toNat % 2 ^ 12, egressLocked := true } := by
  cases h : (s.part p).egressLocked <;> simp [State.writeWinReg, winRegOk, hp, isFirmware, h, bitsOf]

theorem State.writeWinReg_pwrlim : s.writeWinReg .firmware .pwrlim v = { s with pwrlim := v.toNat % 4096 } := by
  simp [State.writeWinReg, winRegOk, isFirmware, bitsOf]

theorem State.writeWinReg_wdcause (who : Writer) : s.writeWinReg who .wdcause v = { s with wdcause := s.wdcause && !v.getLsbD 0 } := by
  cases h : v.getLsbD 0 <;> simp [State.writeWinReg, winRegOk, h, -BitVec.getLsbD_eq_getElem]

theorem State.writeWinReg_attdone (who : Writer) : s.writeWinReg who .attdone v = { s with attdone := s.attdone && !v.getLsbD 0 } := by
  cases h : v.getLsbD 0 <;> simp [State.writeWinReg, winRegOk, h, -BitVec.getLsbD_eq_getElem]

/-- A supervisor's registers take nothing from firmware. -/
theorem State.writeWinReg_firmware_refused {r : WinReg} (hr : r ∈ [WinReg.scctl d, .cbarea d, .gtab p, .htab p, .shpool p, .ctxpool p]) :
    s.writeWinReg .firmware r v = s := by
  simp only [List.mem_cons, List.not_mem_nil, or_false] at hr
  rcases hr with rfl | rfl | rfl | rfl | rfl | rfl <;> simp [State.writeWinReg, State.ofDie, isFirmware]

/-- The registers of another partition, and firmware's, take nothing from a supervisor. -/
theorem State.writeWinReg_supervisor_refused {q : Nat} (hq : q ≠ p) {r : WinReg}
    (hr : r ∈ [WinReg.gtab q, .htab q, .shpool q, .ctxpool q, .pwrlim, .clus p, .belllo p, .egress p, .own p d]) :
    s.writeWinReg (.supervisor p) r v = s := by
  simp only [List.mem_cons, List.not_mem_nil, or_false] at hr
  rcases hr with rfl | rfl | rfl | rfl | rfl | rfl | rfl | rfl | rfl <;>
    simp [State.writeWinReg, isFirmware, ofPartition, Ne.symm hq]

end

/-! CLUS and OWN (17 R382): bit by bit. -/

/-- The set a write of CLUS gives its partition: the clusters it holds, and the named ones without a running hart. -/
def State.clusAfter (s : State) (p : Nat) (v : Word) : BitVec 64 :=
  BitVec.ofNat 64 ((List.range 64).foldl
    (fun a g => if (s.part p).clus.getLsbD g || (v.getLsbD g && !s.clusterBusy g) then a + 2 ^ g else a) 0)

theorem State.getLsbD_clusAfter (s : State) (p : Nat) (v : Word) {g : Nat} (hg : g < 64) :
    (s.clusAfter p v).getLsbD g = ((s.part p).clus.getLsbD g || (v.getLsbD g && !s.clusterBusy g)) := by
  rw [State.clusAfter, BitVec.getLsbD_ofNat,
    testBit_foldl_bits (fun g => (s.part p).clus.getLsbD g || (v.getLsbD g && !s.clusterBusy g)) hg]
  simp [hg]

/-- A partition after a write of CLUS of partition p gave it a set: another partition loses those clusters. -/
theorem State.part_writeClus_clus (s : State) (p : Nat) (v : Word) (q : Nat) : ((s.writeClus p v).part q).clus =
    if q = p then s.clusAfter p v else (s.part q).clus &&& ~~~(s.clusAfter p v) := by
  by_cases h : q = p
  · subst h
    rw [if_pos rfl]
    exact congrArg Part.clus (State.part_setPart_same _ _ _)
  · have lost := State.part_mapParts s (fun k y => if k = p then y else { y with clus := y.clus &&& ~~~(s.clusAfter p v) })
      (fun k => by by_cases hk : k = p <;> simp [hk]) q
    rw [if_neg h] at lost ⊢
    exact congrArg Part.clus ((State.part_setPart_other _ _ h).trans lost)

theorem clusWrite_completes (s : State) {p q : Nat} (v : Word) (hp : p < 8) (hq : q ≠ p) :
    Completes (.registerWrite .firmware (.clus p) v) s fun t => ∀ g, g < 64 →
      (t.part p).clus.getLsbD g = ((s.part p).clus.getLsbD g || (v.getLsbD g && !s.clusterBusy g)) ∧
      (t.part q).clus.getLsbD g = ((s.part q).clus.getLsbD g && !(t.part p).clus.getLsbD g) := by
  have written : s.writeWinReg .firmware (.clus p) v = s.writeClus p v := by
    simp [State.writeWinReg, winRegOk, hp, isFirmware]
  refine ⟨s.writeClus p v, exec_registerWrite written, fun g hg => ?_⟩
  rw [State.part_writeClus_clus, State.part_writeClus_clus, if_pos rfl, if_neg hq]
  exact ⟨s.getLsbD_clusAfter p v hg, by simp [hg]⟩

/-- Is a GiB sealed to another partition. -/
def State.sealedAway (s : State) (p g : Nat) : Bool :=
  match s.sealedTo g with
  | some q => q != p
  | none => false

theorem State.not_sealedAway (s : State) (p g : Nat) :
    (!s.sealedAway p g) = (match s.sealedTo g with | some r => r == p | none => true) := by
  cases h : s.sealedTo g <;> simp [State.sealedAway, h, bne]

/-- A write of a doubleword of OWN replaces its 64 bits; those of GiB sealed to another partition stay 0. -/
theorem State.writeWinReg_own (s : State) {p i : Nat} (v : Word) (hp : p < 8) (hi : i < 16) : s.writeWinReg .firmware (.own p i) v =
    s.setPart p { s.part p with own := BitVec.ofNat 1024 ((s.part p).own.toNat - bitsOf (s.part p).own.toNat (64 * i) 64 * 2 ^ (64 * i) +
      (List.range 64).foldl (fun a j => if v.getLsbD j && !s.sealedAway p (64 * i + j) then a + 2 ^ j else a) 0 * 2 ^ (64 * i)) } :=
  (if_neg (by simp [winRegOk, hp])).trans (if_pos (by simp [isFirmware, hi]))

theorem ownWrite_completes (s : State) {p i : Nat} (v : Word) (hp : p < 8) (hi : i < 16) :
    Completes (.registerWrite .firmware (.own p i) v) s fun t => ∀ g, g < 1024 → (t.part p).own.getLsbD g =
      if g / 64 = i then v.getLsbD (g % 64) && (match s.sealedTo g with | some r => r == p | none => true)
      else (s.part p).own.getLsbD g := by
  refine ⟨_, exec_registerWrite (s.writeWinReg_own v hp hi), fun g hg => ?_⟩
  rw [State.part_setPart_same]
  show BitVec.getLsbD (BitVec.ofNat 1024 _) g = _
  rw [BitVec.getLsbD_ofNat, testBit_replaceBits _ _ _ (foldl_bits_lt _ 64)]
  by_cases h : g / 64 = i
  · have place : 64 * i + g % 64 = g := by omega
    rw [if_pos ⟨by omega, by omega⟩, if_pos h, show g - 64 * i = g % 64 by omega,
      testBit_foldl_bits (fun j => v.getLsbD j && !s.sealedAway p (64 * i + j)) (Nat.mod_lt g (by decide)), place,
      s.not_sealedAway]
    simp [hg]
  · rw [if_neg (by omega), if_neg h, BitVec.testBit_toNat, decide_eq_true hg, Bool.true_and]

/-! The allowlist (17 R384). -/

theorem allow_locked {s : State} {p : Nat} (h : (s.part p).locked = true) (v : Word) : exec (.allow p v) s = .next s :=
  if_pos (Or.inr h)

theorem allow_completes (s : State) {p : Nat} (v : Word) (hp : p < 8) (hl : (s.part p).locked = false) :
    Completes (.allow p v) s fun t =>
      t.part p = { s.part p with
        allow := v &&& 0xFFFFFFFFFFF, allowMap := (t.part p).allowMap, locked := true, egressLocked := true } ∧
      (∀ e, e < 8192 → t.allowed p e = (s.firmwareDev (v.toNat % 2 ^ 44 + e / 8)).getLsbD (e % 8)) ∧ s.sameMemory t := by
  have unlocked : ¬ (8 ≤ p ∨ (s.part p).locked = true) := by simp [hp, hl]
  refine ⟨_, if_neg unlocked, ?_, fun e he => ?_, s.sameMemory_setPart _ _⟩
  · rw [State.part_setPart_same, ofNat_low44]
  · rw [State.allowed, State.part_setPart_same]
    show BitVec.getLsbD (BitVec.ofNat 8192 _) e = _
    rw [BitVec.getLsbD_ofNat, testBit_leValue_bytesFrom _ _ (by omega), bitsOf_zero]
    simp [he]

/-! PTBASE (17 R377). -/

theorem State.part_setPtbase (s : State) (p : Nat) (v : Word) : (s.setPtbase p v).part p =
    { s.part p with ptbase := v &&& 0xFFFFFF00000, ptgen := (s.part p).ptgen + 1 } := s.part_setPart_same p _

/-- The TLBs of the partition's cores are empty, those of the others as they were. -/
theorem State.core_setPtbase (s : State) (p : Nat) (v : Word) (c : Nat) : SMap.get {} (s.setPtbase p v).cores c =
    if s.partOf (c / 16) = p then { SMap.get {} s.cores c with tlb := [] } else SMap.get {} s.cores c := by
  let s1 := s.setPart p { s.part p with ptbase := keep 0xFFFFFF00000 v, ptgen := (s.part p).ptgen + 1 }
  have clus (r : Nat) : (s1.part r).clus = (s.part r).clus := by
    by_cases h : r = p
    · rw [h, State.part_setPart_same]
    · rw [State.part_setPart_other _ _ h]
  rw [← State.partOf_congr clus]
  have mapped : (s.setPtbase p v).cores =
      s.cores.map fun x => (x.1, if s1.partOf (x.1 / 16) = p then { x.2 with tlb := [] } else x.2) :=
    List.map_congr_left fun x _ => by split <;> rfl
  rw [mapped]
  exact SMap.get_mapValues {} (fun k (y : Core) => if s1.partOf (k / 16) = p then { y with tlb := [] } else y)
    (fun k => by split <;> rfl) s.cores c

theorem ptbaseWrite_completes {s : State} (v : Word) (hs : s.h.sup = true) (hr : s.releaseMet s.hid s.h.nextSeq .dev = true) :
    Completes (.ptbaseWrite v) s fun t =>
      t.part s.myPart = { s.part s.myPart with ptbase := v &&& 0xFFFFFF00000, ptgen := (s.part s.myPart).ptgen + 1 } ∧
      (∀ c, SMap.get {} t.cores c = if s.partOf (c / 16) = s.myPart then { SMap.get {} s.cores c with tlb := [] } else SMap.get {} s.cores c) ∧
      t.h = s.h ∧ s.sameMemory t :=
  ⟨s.setPtbase s.myPart v, congrArg Host.Outcome.next (if_pos (by simp [hs, hr])), s.part_setPtbase _ v, s.core_setPtbase _ v, rfl,
    State.sameMemory_of_eq rfl rfl⟩

theorem ptbaseWrite_program {s : State} (v : Word) (hs : s.h.sup = false) : exec (.ptbaseWrite v) s = .next s :=
  congrArg Host.Outcome.next (if_neg (by simp [hs]))

/-! LSCALE (08 R229). -/

theorem Hart.writeScale_eq (h : Hart) (v : Word) : h.writeScale v =
    { h with scale := v.setWidth 32, epoch := if v.setWidth 32 = h.scale then h.epoch else h.epoch + 1 } := by
  have e : BitVec.ofNat 32 v.toNat = v.setWidth 32 := BitVec.ofNat_toNat 32 v
  by_cases hv : v.setWidth 32 = h.scale <;> simp [Hart.writeScale, e, hv]

theorem exec_lscaleWrite (v : Word) (s : State) : exec (.lscaleWrite v) s = .next { s with h := { s.h with
    scale := v.setWidth 32, epoch := if v.setWidth 32 = s.h.scale then s.h.epoch else s.h.epoch + 1 } } := by
  have written : exec (.lscaleWrite v) s = .next { s with h := s.h.writeScale v } := rfl
  rw [written, Hart.writeScale_eq]

/-! LPART (01 R23 to R25). -/

@[simp] theorem State.setHart_cores (s : State) (n : Nat) (h : Hart) : (s.setHart n h).cores = s.cores := by
  unfold State.setHart
  split <;> rfl

theorem State.coreIdle_congr {s t : State} (h : ∀ g, (t.hart g).run = (s.hart g).run) (c : Nat) : t.coreIdle c = s.coreIdle c := by
  simp [State.coreIdle, h]

theorem State.setMode_same {s : State} {core m : Nat} (h : (SMap.get {} s.cores core).mode = m) : s.setMode core m =
    { s with cores := SMap.put {} s.cores core { SMap.get {} s.cores core with mode := m, pend := false, next := 0 } } := if_pos h

/-- What a change of MODE does to a state: the core's registers, then its two harts. -/
theorem State.setMode_change {s : State} {core m : Nat} (h : (SMap.get {} s.cores core).mode ≠ m) :
    let a : State := { s with cores := SMap.put {} s.cores core { SMap.get {} s.cores core with mode := m, pend := false, next := 0 } }
    let b := a.setHart (2 * core) (a.hart (2 * core)).afterLpart
    s.setMode core m = b.setHart (2 * core + 1) (b.hart (2 * core + 1)).afterLpart := if_neg h

theorem State.setMode_cores (s : State) (core m : Nat) : (s.setMode core m).cores =
    SMap.put {} s.cores core { SMap.get {} s.cores core with mode := m, pend := false, next := 0 } := by
  by_cases h : (SMap.get {} s.cores core).mode = m
  · rw [State.setMode_same h]
  · rw [State.setMode_change h, State.setHart_cores, State.setHart_cores]

theorem State.sameMemory_setMode (s : State) (core m : Nat) : s.sameMemory (s.setMode core m) := by
  by_cases h : (SMap.get {} s.cores core).mode = m
  · rw [State.setMode_same h]
    exact State.sameMemory_of_eq rfl rfl
  · rw [State.setMode_change h]
    exact State.sameMemory_of_eq (by simp) (by simp)

/-- A change of MODE resets the vector and matrix state of the core's two harts and no other hart. -/
theorem State.hart_setMode (s : State) (core m g : Nat) : (s.setMode core m).hart g =
    if g / 2 = core ∧ m ≠ (SMap.get {} s.cores core).mode then (s.hart g).afterLpart else s.hart g := by
  by_cases h : (SMap.get {} s.cores core).mode = m
  · rw [State.setMode_same h, if_neg (by simp [h])]
    rfl
  · rw [State.setMode_change h]
    by_cases odd : g = 2 * core + 1
    · subst odd
      rw [State.hart_setHart_same, State.hart_setHart_other _ _ (by omega), if_pos ⟨by omega, Ne.symm h⟩]
      rfl
    · rw [State.hart_setHart_other _ _ odd]
      by_cases even : g = 2 * core
      · subst even
        rw [State.hart_setHart_same, if_pos ⟨by omega, Ne.symm h⟩]
        rfl
      · rw [State.hart_setHart_other _ _ even, if_neg (by omega)]
        rfl

theorem State.writeLpart_three {s : State} {v : Word} (h : v.toNat % 4 = 3) (core : Nat) : s.writeLpart core v = s :=
  if_pos ((bitsOf_zero v.toNat 2).trans h)

theorem State.writeLpart_idle {s : State} {v : Word} {core : Nat} (h : v.toNat % 4 ≠ 3) (hi : s.coreIdle core = true) :
    s.writeLpart core v = s.setMode core (v.toNat % 4) := by
  simp [State.writeLpart, bitsOf_zero, h, hi]

theorem State.writeLpart_busy {s : State} {v : Word} {core : Nat} (h : v.toNat % 4 ≠ 3) (hi : s.coreIdle core = false) :
    s.writeLpart core v =
      { s with cores := SMap.put {} s.cores core { SMap.get {} s.cores core with pend := true, next := v.toNat % 4 } } := by
  simp [State.writeLpart, bitsOf_zero, h, hi]

theorem exec_lpartWrite {core : Nat} (hc : core < 1024) (v : Word) (s : State) :
    exec (.lpartWrite core v) s = .next (s.writeLpart core v) := congrArg Host.Outcome.next (if_pos (by simpa using hc))

theorem lpartWrite_busy_completes {s : State} {v : Word} {core : Nat} (hc : core < 1024) (h : v.toNat % 4 ≠ 3)
    (hi : s.coreIdle core = false) : Completes (.lpartWrite core v) s fun t =>
      SMap.get {} t.cores core = { SMap.get {} s.cores core with pend := true, next := v.toNat % 4 } ∧ t = { s with cores := t.cores } :=
  ⟨_, (exec_lpartWrite hc v s).trans (congrArg Host.Outcome.next (State.writeLpart_busy h hi)), SMap.get_put_same _ _ _ _, rfl⟩

theorem lpartWrite_idle_completes {s : State} {v : Word} {core : Nat} (hc : core < 1024) (h : v.toNat % 4 ≠ 3)
    (hi : s.coreIdle core = true) : Completes (.lpartWrite core v) s fun t =>
      SMap.get {} t.cores core = { SMap.get {} s.cores core with mode := v.toNat % 4, pend := false, next := 0 } ∧
      (∀ c, c ≠ core → SMap.get {} t.cores c = SMap.get {} s.cores c) ∧ (∀ g, g / 2 ≠ core → t.hart g = s.hart g) ∧ s.sameMemory t ∧
      ∀ g, g / 2 = core → if v.toNat % 4 = (SMap.get {} s.cores core).mode then t.hart g = s.hart g
        else (t.hart g).vill = true ∧ (t.hart g).vl = 0 ∧ (t.hart g).v = [] ∧ (t.hart g).binds = [] ∧ (t.hart g).acc = [] ∧
          (t.hart g).s = (s.hart g).s ∧ (t.hart g).k = (s.hart g).k := by
  refine ⟨_, (exec_lpartWrite hc v s).trans (congrArg Host.Outcome.next (State.writeLpart_idle h hi)), ?_, fun c hne => ?_, fun g hg => ?_,
    s.sameMemory_setMode core _, fun g hg => ?_⟩
  · rw [State.setMode_cores, SMap.get_put_same]
  · rw [State.setMode_cores, SMap.get_put_other _ _ _ hne]
  · rw [State.hart_setMode, if_neg (by simp [hg])]
  · rw [State.hart_setMode]
    by_cases same : v.toNat % 4 = (SMap.get {} s.cores core).mode
    · rw [if_pos same, if_neg (by simp [same])]
    · rw [if_neg same, if_pos ⟨hg, same⟩]
      exact ⟨rfl, rfl, rfl, rfl, rfl, rfl, rfl⟩

/-! INTSRC, CASKD and TIERCTL (18 R399, R409, 17 R381). -/

theorem exec_intsrc {p : Nat} (hp : p < 8) (v : Word) (s : State) : exec (.intsrc p v) s =
    .next (s.setPart p { s.part p with
      intsrc := (s.part p).intsrc &&& ~~~(v.setWidth 3)
      undelivered := (s.part p).undelivered.filter fun u => !v.getLsbD u.1 }) := by
  have written : exec (.intsrc p v) s = .next (s.writeIntsrc p v) := congrArg Host.Outcome.next (if_pos hp)
  rw [written, State.writeIntsrc, BitVec.ofNat_toNat]

theorem exec_caskd {p : Nat} (hp : p < 8) (v : Word) (s : State) : exec (.caskd p v) s =
    .next (s.setPart p { s.part p with caskd := v, cask := { (s.part p).cask with clean := [] } }) := congrArg Host.Outcome.next (if_pos hp)

theorem State.writeTier_eq (s : State) (d : Nat) (v : Word) : s.writeTier d v = s.setTier d { s.tier d with
    en := v.getLsbD 0, useonce := v.getLsbD 1, quota := v.toNat / 2 ^ 16 % 2 ^ 17
    pages := if v.getLsbD 0 then (s.tier d).pages else [], pins := if v.getLsbD 0 then (s.tier d).pins else [] } := by
  cases h : v.getLsbD 0 <;> simp [State.writeTier, State.setTier, State.tier, bitsOf, h, -BitVec.getLsbD_eq_getElem]

theorem State.tier_setTier_same (s : State) (d : Nat) (x : Tier) : (s.setTier d x).tier d = x := SMap.get_put_same _ _ _ _

theorem State.tier_setTier_other (s : State) {d e : Nat} (x : Tier) (h : e ≠ d) : (s.setTier d x).tier e = s.tier e :=
  SMap.get_put_other _ _ _ h

theorem exec_tierctl {d : Nat} (hd : d < 4) (v : Word) (s : State) : exec (.tierctl d v) s = .next (s.writeTier d v) :=
  congrArg Host.Outcome.next (if_pos hd)

theorem tierctl_completes (s : State) {d : Nat} (hd : d < 4) (v : Word) :
    Completes (.tierctl d v) s fun t => t = { s with tiers := t.tiers } ∧ (∀ e, e ≠ d → t.tier e = s.tier e) ∧
      t.tier d = { s.tier d with
        en := v.getLsbD 0, useonce := v.getLsbD 1, quota := v.toNat / 2 ^ 16 % 2 ^ 17
        pages := if v.getLsbD 0 then (s.tier d).pages else [], pins := if v.getLsbD 0 then (s.tier d).pins else [] } :=
  ⟨_, (exec_tierctl hd v s).trans (congrArg Host.Outcome.next (s.writeTier_eq d v)), rfl, fun _ he => s.tier_setTier_other _ he, s.tier_setTier_same d _⟩

/-! The image of a hart (17 R392, 18 R403, R406). -/

theorem exec_contextWrite {off : Nat} (ho : off % 8 = 0) (who : Writer) (n : Nat) (v : Word) (s : State) :
    exec (.contextWrite who n off v) s = .next (s.writeContext who n off v) := congrArg Host.Outcome.next (if_pos ho)

/-- A supervisor writes the image of a hart of its own partition, and that only while it is open. -/
theorem State.writeContext_supervisor (s : State) (p : Nat) {n : Nat} (hn : n < 2048) (off : Nat) (v : Word) :
    s.writeContext (.supervisor p) n off v = if s.hartPart n = p ∧ s.imageOpen n = true then s.imageWrite n off v else s := by
  rw [State.writeContext, if_neg (Nat.not_le.mpr hn)]
  simp only [Bool.and_eq_true, beq_iff_eq]

theorem contextWrite_refused {s : State} {p n : Nat} (h : ¬ (s.hartPart n = p ∧ s.imageOpen n = true)) (hn : n < 2048) (off : Nat) (v : Word) :
    exec (.contextWrite (.supervisor p) n off v) s = .next s := by
  show Host.Outcome.next (if off % 8 = 0 then _ else s) = _
  rw [State.writeContext_supervisor s p hn, if_neg h, ite_self]

theorem State.imageOpen_of_not_running {s : State} {n : Nat} (h : (s.hart n).run ≠ .running) : s.imageOpen n = true := by
  simp [State.imageOpen, h]

theorem State.imageOpen_program {s : State} {n : Nat} (hr : (s.hart n).run = .running) (hs : (s.hart n).sup = false) :
    s.imageOpen n = false := by simp [State.imageOpen, hr, hs]

theorem exec_contextWrite_open {s : State} {p n off : Nat} (hn : n < 2048) (hr : (s.hart n).run ≠ .running) (hp : s.hartPart n = p)
    (ho : off % 8 = 0) (v : Word) : exec (.contextWrite (.supervisor p) n off v) s = .next (s.imageWrite n off v) := by
  rw [exec_contextWrite ho, State.writeContext_supervisor s p hn, if_pos ⟨hp, State.imageOpen_of_not_running hr⟩]

/-- The state with the poison of one doubleword of a hart's image gone. -/
def State.cleanImage (s : State) (n off : Nat) : State :=
  s.setHart n { s.hart n with poison := (s.hart n).poison.filter (· != off) }

theorem State.run_cleanImage (s : State) (n off g : Nat) : ((s.cleanImage n off).hart g).run = (s.hart g).run := by
  by_cases h : g = n
  · rw [h, State.cleanImage, State.hart_setHart_same]
  · rw [State.cleanImage, State.hart_setHart_other _ _ h]

theorem State.sameMemory_cleanImage (s : State) (n off : Nat) : s.sameMemory (s.cleanImage n off) := s.sameMemory_setHart n _

theorem State.imageWrite_scalar (s : State) (n : Nat) (r : SReg) (v : Word) : s.imageWrite n (8 * r.val) v =
    (s.cleanImage n (8 * r.val)).setHart n (((s.cleanImage n (8 * r.val)).hart n).setS r v) := by
  have low : 8 * r.val < 0x100 := by omega
  have place : 8 * r.val / 8 = r.val := by omega
  simp [State.imageWrite, State.cleanImage, low, place]

theorem State.imageWrite_lpart (s : State) (n : Nat) (v : Word) :
    s.imageWrite n 0x160 v = (s.cleanImage n 0x160).writeLpart (hartCore n) v := by
  simp [State.imageWrite, State.cleanImage]

theorem contextWrite_scalar_completes {s : State} {p n : Nat} (hn : n < 2048) {r : SReg} (h0 : r ≠ 0) (hr : (s.hart n).run ≠ .running)
    (hp : s.hartPart n = p) (v : Word) : Completes (.contextWrite (.supervisor p) n (8 * r.val) v) s fun t =>
      (t.hart n).getS r = v ∧ (∀ y, y ≠ r → (t.hart n).getS y = (s.hart n).getS y) ∧ (t.hart n).v = (s.hart n).v ∧
      (∀ g, g ≠ n → t.hart g = s.hart g) ∧ s.sameMemory t := by
  refine ⟨_, (exec_contextWrite_open hn hr hp (by omega) v).trans (congrArg Host.Outcome.next (s.imageWrite_scalar n r v)), ?_⟩
  simp only [State.hart_setHart_same, State.cleanImage]
  refine ⟨Hart.getS_setS_same _ v h0, fun y hy => Hart.getS_setS_other _ v hy, Hart.setS_v _ r v, fun g hg => ?_,
    State.sameMemory_of_eq (by simp) (by simp)⟩
  rw [State.hart_setHart_other _ _ hg, State.hart_setHart_other _ _ hg]

theorem contextWrite_lpart_completes {s : State} {p n : Nat} {v : Word} (hn : n < 2048) (hr : (s.hart n).run ≠ .running)
    (hp : s.hartPart n = p) (hm : v.toNat % 4 ≠ 3) (hi : s.coreIdle (n / 2) = true) :
    Completes (.contextWrite (.supervisor p) n 0x160 v) s fun t =>
      (SMap.get {} t.cores (n / 2)).mode = v.toNat % 4 ∧ s.sameMemory t := by
  have idle : (s.cleanImage n 0x160).coreIdle (n / 2) = true := (State.coreIdle_congr (s.run_cleanImage n 0x160) (n / 2)).trans hi
  have set : s.imageWrite n 0x160 v = (s.cleanImage n 0x160).setMode (n / 2) (v.toNat % 4) :=
    (s.imageWrite_lpart n v).trans (State.writeLpart_idle hm idle)
  refine ⟨_, (exec_contextWrite_open hn hr hp (by decide) v).trans (congrArg Host.Outcome.next set), ?_, ?_⟩
  · rw [State.setMode_cores, SMap.get_put_same]
  · obtain ⟨last, view⟩ := s.sameMemory_cleanImage n 0x160
    obtain ⟨last', view'⟩ := (s.cleanImage n 0x160).sameMemory_setMode (n / 2) (v.toNat % 4)
    exact ⟨fun a => (last' a).trans (last a), fun g a => (view' g a).trans (view g a)⟩

/-! SCCTL and CBAREA of a die's stream controller (13 R309). -/

section
variable {s : State} {p d : Nat} (v : Word) (hd : d < 4)
include hd

theorem controllerWrite_refused (h : s.onDie p d = false) :
    exec (.registerWrite (.supervisor p) (.scctl d) v) s = .next s ∧ exec (.registerWrite (.supervisor p) (.cbarea d) v) s = .next s :=
  ⟨exec_registerWrite ((s.writeWinReg_scctl v hd _).trans (if_neg (by simp [State.ofDie, h]))),
    exec_registerWrite ((s.writeWinReg_cbarea v hd _).trans (if_neg (by simp [State.ofDie, h])))⟩

theorem scctlWrite_completes (h : s.onDie p d = true) : Completes (.registerWrite (.supervisor p) (.scctl d) v) s fun t =>
    t.ctl d = { s.ctl d with scctl := v &&& 0x7FFF01 } ∧ t = { s with ctls := t.ctls } :=
  ⟨_, exec_registerWrite ((s.writeWinReg_scctl v hd _).trans (if_pos h)), SMap.get_put_same _ _ _ _, rfl⟩

theorem cbareaWrite_completes (h : s.onDie p d = true) : Completes (.registerWrite (.supervisor p) (.cbarea d) v) s fun t =>
    t.ctl d = { s.ctl d with cbarea := v &&& 0xFFFFFF00000 } ∧ t = { s with ctls := t.ctls } :=
  ⟨_, exec_registerWrite ((s.writeWinReg_cbarea v hd _).trans (if_pos h)), SMap.get_put_same _ _ _ _, rfl⟩

end

/-- Settles O46: each register by its equation above, and the bits of CLUS, OWN and the allowlist one by one. -/
theorem registerMoves : Obligations.RegisterMoves := by
  unfold Obligations.RegisterMoves
  intro s p q d core n off v who hp hd hc hn hq
  exact ⟨
    exec_lscaleWrite v s,
    fun h3 => (exec_lpartWrite hc v s).trans (congrArg Host.Outcome.next (State.writeLpart_three h3 core)),
    fun h3 busy => lpartWrite_busy_completes hc h3 busy,
    fun h3 idle => lpartWrite_idle_completes hc h3 idle,
    fun hs hr => ptbaseWrite_completes v hs hr,
    fun hs => ptbaseWrite_program v hs,
    fun away => controllerWrite_refused v hd away,
    fun on => scctlWrite_completes v hd on,
    fun on => cbareaWrite_completes v hd on,
    fun r hr => exec_registerWrite (s.writeWinReg_firmware_refused v hr),
    fun r hr => exec_registerWrite (s.writeWinReg_supervisor_refused v hq hr),
    .setPart (exec_registerWrite (s.writeWinReg_gtab v hp)),
    .setPart (exec_registerWrite (s.writeWinReg_htab v hp)),
    .setPart (exec_registerWrite (s.writeWinReg_shpool v hp)),
    .setPart (exec_registerWrite (s.writeWinReg_ctxpool v hp)),
    .setPart (exec_registerWrite (s.writeWinReg_belllo v hp)),
    fun unlocked => .setPart (exec_registerWrite ((s.writeWinReg_egress v hp).trans (if_neg (by simp [unlocked])))),
    fun locked => exec_registerWrite ((s.writeWinReg_egress v hp).trans (if_pos locked)),
    exec_registerWrite (s.writeWinReg_pwrlim v),
    exec_registerWrite (s.writeWinReg_wdcause v who),
    exec_registerWrite (s.writeWinReg_attdone v who),
    clusWrite_completes s v hp hq,
    fun i hi => ownWrite_completes s v hp hi,
    .setPart (exec_intsrc hp v s),
    .setPart (exec_caskd hp v s),
    tierctl_completes s hd v,
    fun locked => allow_locked locked v,
    fun unlocked => allow_completes s v hp unlocked,
    fun run program => contextWrite_refused (fun h => by simp [State.imageOpen_program run program] at h) hn off v,
    fun other => contextWrite_refused (fun h => other h.1) hn off v,
    fun r h0 run mine => contextWrite_scalar_completes hn h0 run mine v,
    fun run mine h3 idle => contextWrite_lpart_completes hn run mine h3 idle⟩

end Machine
end Sys2Proof
